-- ==== Sys2Proof/Word.lean ====
section
/-! DEFINITION. The word types of the block: every register the spec gives a width in bits is a bit
vector of that width (00_scope.md rule R9: all values are unsigned, results are truncated to the
width of the register they are written to). -/

namespace Sys2Proof

/-- One byte, the unit of every port and of the dictionary (20_memory.md rule R92). -/
abbrev Byte := BitVec 8

/-- A 32-bit register. -/
abbrev Word := BitVec 32

/-- A 64-bit counter (92_eei_decisions.md D30). -/
abbrev U64 := BitVec 64

/-- The contents of one probability cell: 11 bits (10_state.md rule R34). -/
abbrev Prob := BitVec 11

end Sys2Proof
end

