-- ==== Sys2Proof/Config.lean ====
section
/-! DEFINITION. What an implementation fixes: the constants of 00_scope.md rule R7 and the two open
parameters of rule R8. -/

namespace Sys2Proof

namespace Config

/-- A fresh probability cell (00_scope.md rule R7, 10_state.md rule R34). -/
def probInit : Prob := 1024

/-- Every probability cell stays between these bounds (40_range_coder.md rule R180). -/
def probMin : Nat := 31
def probMax : Nat := 2017

/-- Initial value of `Range` (10_state.md rule R32). -/
def rangeInit : Word := 0xFFFFFFFF

/-- What `Code`, `BCode` and each other word register for which the spec gives no reset value hold after a
reset (assumption 4). -/
def wordReset : Word := 0

/-- The normalisation threshold 2^24 (40_range_coder.md rule R176). -/
def rangeTop : Nat := 2 ^ 24

/-- The smallest dictionary capacity, `DICT_MIN` (00_scope.md rule R8). -/
def dictMin : Word := 4096

/-- `MatchMinLen` and `MatchMaxLen` (43_length.md rule R241). -/
def matchMinLen : Nat := 2
def matchMaxLen : Nat := 273

/-- The largest distance a distance code can name (44_distance.md rule R266). -/
def maxDistance : Nat := 2 ^ 32

/-- The size of one literal table (42_literal.md rule R220). -/
def literalTable : Nat := 0x300

end Config

/-- The parameters 00_scope.md rule R8 leaves open. They are fixed for one machine: no step changes
them. They stand in `State` so that every claim about all states is a claim about every value of
them (assumption 3). -/
structure Params where
  /-- `P_DICT_MAX`, `4096 ≤ P_DICT_MAX ≤ 2^32 − 1`. -/
  dictMax : Word
  /-- `P_CHECK_RC_BYTE0` (40_range_coder.md rule R183). -/
  checkRcByte0 : Bool
  deriving DecidableEq, Repr

end Sys2Proof
end

