-- ==== Sys2Proof/Syntax.lean ====
section
/-! DEFINITION. The units the block executes: one constructor of `Instr` for each row of
spec/opcode_table.json. Operands are those of the assembler syntax of 30_encoding.md rule R139 (for
packets and chunks), of the pair `(prev, b)` of rule R136 (for BCJ2 tokens) and of
49_host_commands.md (for commands). -/

namespace Sys2Proof

/-- `(lc, lp, pb)` within the bounds of 10_state.md rule R40. -/
structure LcLpPb where
  lc : Fin 9
  lp : Fin 5
  pb : Fin 5
  deriving DecidableEq, Repr

/-- The six commands of the host (49_host_commands.md rule R430) with their operands. They have no bit
encoding (92_eei_decisions.md D1): this is the form in which the host issues them. -/
inductive HostCmd where
  | reset
  | configLzma1Raw (props : List Byte) (unpackSize : U64)
  | configLzma1Alone (header : Vector Byte 13)
  | configLzma2 (dictProp : Byte)
  | decode (input : List Byte) (outSpace : Nat)
  | bcj2Run (main call jump rc : List Byte) (outSize : Word)
  deriving DecidableEq, Repr

/-- One constructor for each row of spec/opcode_table.json. -/
inductive Instr where
  /-- `LIT`, 46_lzma1_core.md rule R304: one literal byte. -/
  | lit (b : Byte)
  /-- `MATCH`, rule R305: a copy of `len` bytes from the new distance `dist`. -/
  | matchNew (dist len : Nat)
  /-- `SHORTREP`, rule R306: one byte from distance `Rep0`. -/
  | shortRep
  /-- `REP0` to `REP3`, rules R307 to R310. -/
  | rep0 (len : Nat)
  | rep1 (len : Nat)
  | rep2 (len : Nat)
  | rep3 (len : Nat)
  /-- `L2_END`, control 0x00, 47_lzma2_chunk.md rule R360. -/
  | l2End
  /-- `L2_COPY_RESET`, control 0x01, rule R361; the operand is size − 1. -/
  | l2CopyReset (sizeM1 : BitVec 16)
  /-- `L2_COPY`, control 0x02, rule R362; the operand is size − 1. -/
  | l2Copy (sizeM1 : BitVec 16)
  /-- `L2_RESERVED`, controls 0x03..0x7F, rule R363; the operand is the control byte. -/
  | l2Reserved (c : Byte)
  /-- `L2_LZMA_M0` to `L2_LZMA_M3`, rules R364 to R367: `u` is unpack size − 1 (`U`), `p` is pack size − 1
  (`P`), `props` the properties byte of modes 2 and 3. -/
  | l2LzmaM0 (u : BitVec 21) (p : BitVec 16)
  | l2LzmaM1 (u : BitVec 21) (p : BitVec 16)
  | l2LzmaM2 (u : BitVec 21) (p : BitVec 16) (props : Byte)
  | l2LzmaM3 (u : BitVec 21) (p : BitVec 16) (props : Byte)
  /-- `BCJ2_CALL`, 48_bcj2.md rule R403: `b = 0xE8` after the output byte `prev`. -/
  | bcj2Call (prev : Byte)
  /-- `BCJ2_JMP`: `b = 0xE9` after the output byte `prev`. -/
  | bcj2Jmp (prev : Byte)
  /-- `BCJ2_JCC`: `b = 0x80 + cc` after the output byte `0x0F`. -/
  | bcj2Jcc (cc : BitVec 4)
  /-- `BCJ2_PLAIN`: any other pair. -/
  | bcj2Plain (prev b : Byte)
  /-- `Reset`, 49_host_commands.md rule R431. -/
  | reset
  /-- `ConfigLzma1Raw`, rule R432. -/
  | configLzma1Raw (props : List Byte) (unpackSize : U64)
  /-- `ConfigLzma1Alone`, rule R433. -/
  | configLzma1Alone (header : Vector Byte 13)
  /-- `ConfigLzma2`, rule R435. -/
  | configLzma2 (dictProp : Byte)
  /-- `Decode`, rule R434. -/
  | decode (input : List Byte) (outSpace : Nat)
  /-- `Bcj2Run`, rule R440. -/
  | bcj2Run (main call jump rc : List Byte) (outSize : Word)
  deriving DecidableEq, Repr

/-- The row of the opcode table a host command is. -/
def HostCmd.toInstr : HostCmd → Instr
  | .reset => .reset
  | .configLzma1Raw props unpackSize => .configLzma1Raw props unpackSize
  | .configLzma1Alone header => .configLzma1Alone header
  | .configLzma2 dictProp => .configLzma2 dictProp
  | .decode input outSpace => .decode input outSpace
  | .bcj2Run main call jump rc outSize => .bcj2Run main call jump rc outSize

end Sys2Proof
end

