-- ==== Sys2Proof/WellFormed.lean ====
section
/-! DEFINITION. Which terms of `Instr` are units of the block: the operand ranges of 30_encoding.md. -/

namespace Sys2Proof

/-- `IsJ(prev, b)` (48_bcj2.md rule R403): the pair begins a branch token. -/
def isBranch (prev b : Byte) : Bool :=
  (b &&& 0xFE) == 0xE8 || (prev == 0x0F && (b &&& 0xF0) == 0x80)

/-- A length a length code can give (43_length.md rule R241). -/
def lenOk (len : Nat) : Bool := decide (Config.matchMinLen ≤ len ∧ len ≤ Config.matchMaxLen)

/-- A distance a distance code can give (44_distance.md rules R262, R266). -/
def distOk (dist : Nat) : Bool := decide (1 ≤ dist ∧ dist ≤ Config.maxDistance)

/-- The operand ranges of each unit. The LZMA2 sizes, the properties bytes and the operands of the host
commands have no illegal term: a properties byte above 224 is an encoding the block rejects with a
status (30_encoding.md rule R138), and its meaning says so. -/
def Instr.wellFormed : Instr → Bool
  | .lit _ => true
  | .matchNew dist len => distOk dist && lenOk len
  | .shortRep => true
  | .rep0 len => lenOk len
  | .rep1 len => lenOk len
  | .rep2 len => lenOk len
  | .rep3 len => lenOk len
  | .l2End => true
  | .l2CopyReset _ => true
  | .l2Copy _ => true
  | .l2Reserved c => decide (0x03 ≤ c.toNat ∧ c.toNat ≤ 0x7F)
  | .l2LzmaM0 _ _ => true
  | .l2LzmaM1 _ _ => true
  | .l2LzmaM2 _ _ _ => true
  | .l2LzmaM3 _ _ _ => true
  | .bcj2Call _ => true
  | .bcj2Jmp _ => true
  | .bcj2Jcc _ => true
  | .bcj2Plain prev b => !isBranch prev b
  | .reset => true
  | .configLzma1Raw _ _ => true
  | .configLzma1Alone _ => true
  | .configLzma2 _ => true
  | .decode _ _ => true
  | .bcj2Run _ _ _ _ _ => true

end Sys2Proof
end

