-- ==== Sys2Proof/Decode.lean ====
section
/-! DEFINITION. The encodings of 30_encoding.md: byte-order helpers, the properties bytes, the packet
code (the prefix code of rule R125 with its literal, length and distance codes) as a program of
decision bits over named probability cells, the LZMA2 chunk headers, the BCJ2 pairs; and the encoder
written from the same tables. -/

namespace Sys2Proof

/-! ## Byte order (00_scope.md rule R9, 20_memory.md rule R90) -/

def be16 (b0 b1 : Byte) : BitVec 16 := b0 ++ b1

def be32 (b0 b1 b2 b3 : Byte) : Word := b0 ++ b1 ++ b2 ++ b3

def le32 (b0 b1 b2 b3 : Byte) : Word := b3 ++ b2 ++ b1 ++ b0

def le64 (b0 b1 b2 b3 b4 b5 b6 b7 : Byte) : U64 := b7 ++ b6 ++ b5 ++ b4 ++ b3 ++ b2 ++ b1 ++ b0

/-- The four bytes of a word, least significant first (48_bcj2.md rule R407). -/
def leBytes (w : Word) : List Byte :=
  [w.extractLsb' 0 8, w.extractLsb' 8 8, w.extractLsb' 16 8, w.extractLsb' 24 8]

/-- The two bytes of a 16-bit size, most significant first (rules R132, R133). -/
def be16Bytes (v : BitVec 16) : List Byte := [v.extractLsb' 8 8, v.extractLsb' 0 8]

/-! ## Properties bytes -/

/-- The LZMA properties byte (rule R120); `none` above 224. -/
def decodeProps (v : Byte) : Option LcLpPb :=
  if h : v.toNat ≤ 224 then
    some { lc := ⟨v.toNat % 9, by omega⟩, lp := ⟨v.toNat / 9 % 5, by omega⟩, pb := ⟨v.toNat / 45, by omega⟩ }
  else none

/-- `propsByte = lc + 9·lp + 45·pb` (rule R120). -/
def encodeProps (p : LcLpPb) : Byte := BitVec.ofNat 8 (p.lc.val + 9 * p.lp.val + 45 * p.pb.val)

/-- The LZMA2 dictionary property (rule R123); `none` above 40. -/
def decodeDictProp (q : Byte) : Option Word :=
  if q.toNat > 40 then none
  else if q.toNat = 40 then some 0xFFFFFFFF
  else some (BitVec.ofNat 32 ((2 + q.toNat % 2) * 2 ^ (q.toNat / 2 + 11)))

/-! ## Probability cells and programs of decision bits -/

/-- The two length decoders (43_length.md rule R245): `LenDec` of MATCH, `RepLenDec` of REP0..REP3. -/
inductive LenSel where
  | len
  | repLen
  deriving DecidableEq, Repr

/-- The name of a cell of the LZMA1 probability RAM: its array and its index (10_state.md rule R35). -/
inductive Cell where
  | isMatch (s ps : Nat)
  | isRep (s : Nat)
  | isRepG0 (s : Nat)
  | isRepG1 (s : Nat)
  | isRepG2 (s : Nat)
  | isRep0Long (s ps : Nat)
  | literal (ctx k : Nat)
  | posSlot (lps k : Nat)
  | specPos (slot k : Nat)
  | align (k : Nat)
  | lenChoice (d : LenSel)
  | lenChoice2 (d : LenSel)
  | lenLow (d : LenSel) (ps k : Nat)
  | lenMid (d : LenSel) (ps k : Nat)
  | lenHigh (d : LenSel) (k : Nat)
  deriving DecidableEq, Repr

/-- The index ranges of the table of 10_state.md rule R35, for `lcLp = lc + lp`. -/
def Cell.valid (lcLp : Nat) : Cell → Bool
  | .isMatch s ps => decide (s < 12 ∧ ps < 16)
  | .isRep s => decide (s < 12)
  | .isRepG0 s => decide (s < 12)
  | .isRepG1 s => decide (s < 12)
  | .isRepG2 s => decide (s < 12)
  | .isRep0Long s ps => decide (s < 12 ∧ ps < 16)
  | .literal ctx k => decide (ctx < 2 ^ lcLp ∧ k < Config.literalTable)
  | .posSlot lps k => decide (lps < 4 ∧ 1 ≤ k ∧ k < 64)
  | .specPos slot k => decide (4 ≤ slot ∧ slot < 14 ∧ 1 ≤ k ∧ k < 2 ^ (slot / 2 - 1))
  | .align k => decide (1 ≤ k ∧ k < 16)
  | .lenChoice _ => true
  | .lenChoice2 _ => true
  | .lenLow _ ps k => decide (ps < 16 ∧ 1 ≤ k ∧ k < 8)
  | .lenMid _ ps k => decide (ps < 16 ∧ 1 ≤ k ∧ k < 8)
  | .lenHigh _ k => decide (1 ≤ k ∧ k < 256)

/-- A code of decision bits, as the program that reads it: each `bit` is one `DecodeBit` with the named
cell, each `direct` one step of `DecodeDirectBits`. Which bits come is the reader's affair: a list of
bits (`readBits`, the code itself) or the range decoder (Machine/RangeCoder.lean). -/
inductive BitProg (α : Type) where
  | done (a : α)
  | bit (c : Cell) (k : Bool → BitProg α)
  | direct (k : Bool → BitProg α)

/-- Read a code from a list of decision bits, first bit first. -/
def BitProg.readBits {α : Type} : BitProg α → List Bool → Option (α × List Bool)
  | .done a, l => some (a, l)
  | .bit _ _, [] => none
  | .bit _ k, b :: l => (k b).readBits l
  | .direct _, [] => none
  | .direct k, b :: l => (k b).readBits l

/-- The walk of a bit tree of `n` further levels from node `m`, `m <- 2·m + bit`
(41_bit_tree.md rules R201, R203); `k` receives the last node. -/
def bitTree {α : Type} (cell : Nat → Cell) : (n m : Nat) → (Nat → BitProg α) → BitProg α
  | 0, m, k => k m
  | n + 1, m, k => .bit (cell m) fun b => bitTree cell n (2 * m + b.toNat) k

/-- `BitTree(T, n)` (rule R201): the symbol is the last node less `2^n`. -/
def forwardTree {α : Type} (cell : Nat → Cell) (n : Nat) (k : Nat → BitProg α) : BitProg α :=
  bitTree cell n 1 fun m => k (m - 2 ^ n)

/-- The walk of `ReverseBitTree` (rule R203) with `n` further bits, the next of which is bit `i` of the
symbol, `sym` so far. -/
def reverseWalk {α : Type} (cell : Nat → Cell) : (n m i sym : Nat) → (Nat → BitProg α) → BitProg α
  | 0, _, _, sym, k => k sym
  | n + 1, m, i, sym, k =>
    .bit (cell m) fun b => reverseWalk cell n (2 * m + b.toNat) (i + 1) (sym + b.toNat * 2 ^ i) k

/-- `ReverseBitTree(T, n)` (rule R203). -/
def reverseTree {α : Type} (cell : Nat → Cell) (n : Nat) (k : Nat → BitProg α) : BitProg α :=
  reverseWalk cell n 1 0 0 k

/-- `DecodeDirectBits(n)` (40_range_coder.md rule R178), most significant bit first. -/
def directBits {α : Type} : (n value : Nat) → (Nat → BitProg α) → BitProg α
  | 0, value, k => k value
  | n + 1, value, k => .direct fun b => directBits n (2 * value + b.toNat) k

/-- The walk of `DecodeLiteralMatched` (42_literal.md rule R223): `n` further bits from node `m`, `mb` the
match byte shifted so that its next bit is the most significant. The bit that disagrees is itself read
with the matched cell; the rest are read from the normal cells. -/
def matchedWalk {α : Type} (ctx : Nat) : (n m : Nat) → Byte → (Nat → BitProg α) → BitProg α
  | 0, m, _, k => k m
  | n + 1, m, mb, k =>
    .bit (.literal ctx (0x100 + mb.msb.toNat * 0x100 + m)) fun b =>
      if b = mb.msb then matchedWalk ctx n (2 * m + b.toNat) (mb <<< 1) k
      else bitTree (.literal ctx) n (2 * m + b.toNat) k

/-- The literal's operands: its context (42_literal.md rule R220) and, in matched mode, the match byte
(rules R223, R225). -/
structure LitSrc where
  ctx : Nat
  matchByte : Option Byte
  deriving DecidableEq, Repr

/-- What the machine state contributes to reading a packet: it only names cells. `lit` is absent when a
literal's operands cannot be read (42_literal.md rule R225: `DictGet(Rep0)` fails). -/
structure PacketCtx where
  st : Nat
  ps : Nat
  lit : Option LitSrc
  deriving DecidableEq, Repr

/-- The literal code (rule R127; 42_literal.md rules R222 to R224). -/
def literalProg {α : Type} (src : LitSrc) (k : Byte → BitProg α) : BitProg α :=
  match src.matchByte with
  | none => bitTree (.literal src.ctx) 8 1 fun m => k (BitVec.ofNat 8 (m - 0x100))
  | some mb => matchedWalk src.ctx 8 1 mb fun m => k (BitVec.ofNat 8 (m - 0x100))

/-- `DecodeLength(L, ps)` (43_length.md rule R242). -/
def lengthProg {α : Type} (d : LenSel) (ps : Nat) (k : Nat → BitProg α) : BitProg α :=
  .bit (.lenChoice d) fun
    | false => forwardTree (.lenLow d ps) 3 fun x => k (2 + x)
    | true => .bit (.lenChoice2 d) fun
      | false => forwardTree (.lenMid d ps) 3 fun x => k (2 + 8 + x)
      | true => forwardTree (.lenHigh d) 8 fun x => k (2 + 16 + x)

/-- The number of further bits of a slot, `ndb = slot/2 − 1` (44_distance.md rule R262). -/
def slotBits (slot : Nat) : Nat := slot / 2 - 1

/-- `base = (2 | (slot & 1)) << ndb` (rule R262). -/
def slotBase (slot : Nat) : Nat := (2 + slot % 2) * 2 ^ slotBits slot

/-- `DecodeDistance(len)` (rule R262), in unbounded arithmetic. -/
def distanceProg {α : Type} (len : Nat) (k : Nat → BitProg α) : BitProg α :=
  forwardTree (.posSlot (min (len - 2) 3)) 6 fun slot =>
    if slot < 4 then k (slot + 1)
    else if slot < 14 then
      reverseTree (.specPos slot) (slotBits slot) fun low => k (slotBase slot + low + 1)
    else
      directBits (slotBits slot - 4) 0 fun high =>
        reverseTree .align 4 fun al => k (slotBase slot + high * 16 + al + 1)

/-- `DecodePacket()` (46_lzma1_core.md rules R303 to R310), up to the packet's operands. The answer is
absent when the packet is a literal whose operands cannot be read. -/
def packetProg (c : PacketCtx) : BitProg (Option Instr) :=
  .bit (.isMatch c.st c.ps) fun
    | false =>
      match c.lit with
      | none => .done none
      | some src => literalProg src fun b => .done (some (.lit b))
    | true => .bit (.isRep c.st) fun
      | false =>
        lengthProg .len c.ps fun len => distanceProg len fun dist => .done (some (.matchNew dist len))
      | true => .bit (.isRepG0 c.st) fun
        | false => .bit (.isRep0Long c.st c.ps) fun
          | false => .done (some .shortRep)
          | true => lengthProg .repLen c.ps fun len => .done (some (.rep0 len))
        | true => .bit (.isRepG1 c.st) fun
          | false => lengthProg .repLen c.ps fun len => .done (some (.rep1 len))
          | true => .bit (.isRepG2 c.st) fun
            | false => lengthProg .repLen c.ps fun len => .done (some (.rep2 len))
            | true => lengthProg .repLen c.ps fun len => .done (some (.rep3 len))

/-! ## LZMA2 chunk headers -/

/-- The header bytes of an LZMA chunk after its control byte `c` (rule R133). -/
def decodeLzmaHeader (c : Byte) : List Byte → Option (Instr × List Byte)
  | u1 :: u0 :: p1 :: p0 :: t =>
    let u : BitVec 21 := c.extractLsb' 0 5 ++ be16 u1 u0
    let p := be16 p1 p0
    match c.extractLsb' 5 2, t with
    | 0, _ => some (.l2LzmaM0 u p, t)
    | 1, _ => some (.l2LzmaM1 u p, t)
    | 2, v :: t' => some (.l2LzmaM2 u p v, t')
    | 3, v :: t' => some (.l2LzmaM3 u p v, t')
    | _, _ => none
  | _ => none

/-- An LZMA2 chunk header at the head of a list of bytes, and the bytes after it (rules R131 to R134);
`none` when the header is not yet whole. A reserved control byte is decoded from itself alone. -/
def decodeHeader : List Byte → Option (Instr × List Byte)
  | [] => none
  | c :: t =>
    if c.msb then decodeLzmaHeader c t
    else if c = 0x00 then some (.l2End, t)
    else if c = 0x01 then
      match t with
      | s1 :: s0 :: t' => some (.l2CopyReset (be16 s1 s0), t')
      | _ => none
    else if c = 0x02 then
      match t with
      | s1 :: s0 :: t' => some (.l2Copy (be16 s1 s0), t')
      | _ => none
    else some (.l2Reserved c, t)

/-- The control byte of an LZMA chunk: bit 7, reset mode, `U[20:16]` (rule R133). -/
def lzmaControl (mode : BitVec 2) (u : BitVec 21) : Byte := 1#1 ++ mode ++ u.extractLsb' 16 5

/-- Header bytes 1..4 of an LZMA chunk (rule R133). -/
def lzmaSizes (u : BitVec 21) (p : BitVec 16) : List Byte := be16Bytes (u.extractLsb' 0 16) ++ be16Bytes p

/-! ## BCJ2 tokens -/

/-- The token of a pair (rule R136): `E8` and `E9` whatever `prev` is, `80..8F` after `0F`. -/
def decodePair (prev b : Byte) : Instr :=
  if b = 0xE8 then .bcj2Call prev
  else if b = 0xE9 then .bcj2Jmp prev
  else if prev = 0x0F ∧ b.extractLsb' 4 4 = 8 then .bcj2Jcc (b.extractLsb' 0 4)
  else .bcj2Plain prev b

/-! ## Encoder -/

/-- The `n` low bits of `v`, most significant first. -/
def msbBits : (n v : Nat) → List Bool
  | 0, _ => []
  | n + 1, v => v.testBit n :: msbBits n v

/-- The `n` low bits of `v`, least significant first. -/
def lsbBits : (n v : Nat) → List Bool
  | 0, _ => []
  | n + 1, v => v.testBit 0 :: lsbBits n (v / 2)

/-- The length code of rule R128. -/
def lengthBits (len : Nat) : List Bool :=
  if len < 10 then false :: msbBits 3 (len - 2)
  else if len < 18 then true :: false :: msbBits 3 (len - 10)
  else true :: true :: msbBits 8 (len - 18)

/-- The slot of a distance: the slots partition `[1, 2^32]` (44_distance.md rule R265). With `v = dist − 1`
it is `v` below 4, else twice the place of the highest bit of `v`, plus the bit below it. -/
def slotOf (dist : Nat) : Nat :=
  if dist ≤ 4 then dist - 1
  else 2 * Nat.log2 (dist - 1) + ((dist - 1) / 2 ^ (Nat.log2 (dist - 1) - 1)) % 2

/-- The bits of a distance within its slot (rule R129). -/
def offsetBits (slot off : Nat) : List Bool :=
  if slot < 4 then []
  else if slot < 14 then lsbBits (slotBits slot) off
  else msbBits (slotBits slot - 4) (off / 16) ++ lsbBits 4 (off % 16)

/-- The distance code of rule R129. -/
def distanceBits (dist : Nat) : List Bool :=
  msbBits 6 (slotOf dist) ++ offsetBits (slotOf dist) (dist - 1 - slotBase (slotOf dist))

/-- An encoding: the decision bits of a packet, the bytes of a chunk header, the pair of a BCJ2 token, or
a host command, which has no bit encoding (92_eei_decisions.md D1). -/
inductive Encoding where
  | decisions (bits : List Bool)
  | bytes (bs : List Byte)
  | pair (prev b : Byte)
  | command (c : HostCmd)
  deriving DecidableEq, Repr

/-- The encoding of each unit: rule R125 with rules R127 to R129, rules R131 to R133, rule R136. -/
def encode : Instr → Encoding
  | .lit b => .decisions (false :: msbBits 8 b.toNat)
  | .matchNew dist len => .decisions (true :: false :: (lengthBits len ++ distanceBits dist))
  | .shortRep => .decisions [true, true, false, false]
  | .rep0 len => .decisions (true :: true :: false :: true :: lengthBits len)
  | .rep1 len => .decisions (true :: true :: true :: false :: lengthBits len)
  | .rep2 len => .decisions (true :: true :: true :: true :: false :: lengthBits len)
  | .rep3 len => .decisions (true :: true :: true :: true :: true :: lengthBits len)
  | .l2End => .bytes [0x00]
  | .l2CopyReset n => .bytes (0x01 :: be16Bytes n)
  | .l2Copy n => .bytes (0x02 :: be16Bytes n)
  | .l2Reserved c => .bytes [c]
  | .l2LzmaM0 u p => .bytes (lzmaControl 0 u :: lzmaSizes u p)
  | .l2LzmaM1 u p => .bytes (lzmaControl 1 u :: lzmaSizes u p)
  | .l2LzmaM2 u p v => .bytes (lzmaControl 2 u :: (lzmaSizes u p ++ [v]))
  | .l2LzmaM3 u p v => .bytes (lzmaControl 3 u :: (lzmaSizes u p ++ [v]))
  | .bcj2Call prev => .pair prev 0xE8
  | .bcj2Jmp prev => .pair prev 0xE9
  | .bcj2Jcc cc => .pair 0x0F (8#4 ++ cc)
  | .bcj2Plain prev b => .pair prev b
  | .reset => .command .reset
  | .configLzma1Raw props unpackSize => .command (.configLzma1Raw props unpackSize)
  | .configLzma1Alone header => .command (.configLzma1Alone header)
  | .configLzma2 dictProp => .command (.configLzma2 dictProp)
  | .decode input outSpace => .command (.decode input outSpace)
  | .bcj2Run main call jump rc outSize => .command (.bcj2Run main call jump rc outSize)

/-- A packet code read on its own: `State = 0`, `posState = 0`, no match byte. The choice does not matter:
the context only names cells. -/
def PacketCtx.neutral : PacketCtx := { st := 0, ps := 0, lit := some { ctx := 0, matchByte := none } }

/-- The unit an encoding stands for; `none` when it is not exactly one unit. Every packet prefix, length
code, distance code and pair is in use (rules R125, R138), so only an incomplete or an overlong encoding
is refused; a reserved control byte is a unit of its own (`L2_RESERVED`). -/
def decode : Encoding → Option Instr
  | .decisions bits =>
    match (packetProg .neutral).readBits bits with
    | some (some i, []) => some i
    | _ => none
  | .bytes bs =>
    match decodeHeader bs with
    | some (i, []) => some i
    | _ => none
  | .pair prev b => some (decodePair prev b)
  | .command c => some c.toInstr

/-! ## Words of the opcode table -/

/-- The bytes of an LZMA2 control word of the opcode table: the first byte is bits 7..0, later bytes count
on from it, and every bit above `nbits` is 0, up to the longest header (6 bytes, rule R134). -/
def tableBytes (nbits w : Nat) : List Byte :=
  (List.range 6).map fun k => BitVec.ofNat 8 (w % 2 ^ nbits / 2 ^ (8 * k))

/-- How a word of the opcode table is laid out. The table's two families of rows with bits share their
words: a control byte of LZMA2 is 8 bits, a BCJ2 pair is `(prev << 8) | b`, of which the rows CALL and
JMP fix only the low 8 bits. So a word of at most 8 bits is a control byte, but `0xE8` and `0xE9`, which
are the rows CALL and JMP with `prev = 0`; a word of 9 to 16 bits is a pair (assumption 16). -/
def tableUnit (nbits w : Nat) : Encoding :=
  let lo : Byte := BitVec.ofNat 8 (w % 2 ^ nbits)
  if nbits ≤ 8 then
    if lo = 0xE8 ∨ lo = 0xE9 then .pair 0 lo else .bytes (tableBytes nbits w)
  else if nbits ≤ 16 then .pair (BitVec.ofNat 8 (w % 2 ^ nbits / 2 ^ 8)) lo
  else .bytes (tableBytes nbits w)

/-- The unit the decoder reads from a word of the opcode table. -/
def decodeTableWord (nbits w : Nat) : Option Instr :=
  match tableUnit nbits w with
  | .bytes bs => (decodeHeader bs).map Prod.fst
  | e => decode e

end Sys2Proof
end

