-- ==== Sys2Proof/Machine/State.lean ====
section
/-! DEFINITION. The state of the block (10_state.md) and of its host interface (49_host_commands.md),
as plain data; the statuses and causes of 60_exceptions.md; the model's faults; the state after reset. -/

namespace Sys2Proof.Machine

/-- A byte memory: the cells that hold a value, by rising address. A cell not listed holds no value
(10_state.md rule R45; assumption 6). -/
abbrev Memory := List Host.Cell

/-- A probability RAM: the cells that differ from 1024, by rising key. A cell not listed holds 1024
(10_state.md rule R37; assumption 7). -/
abbrev Probs := List (Nat × Prob)

/-- The statuses of 60_exceptions.md rule R460. -/
inductive Status where
  | ok
  | finished
  | needMoreInput
  | needMoreOutput
  | invalidData
  | notSupported
  | internalError
  deriving DecidableEq, Repr

/-- The causes of 60_exceptions.md rule R462. -/
inductive Cause where
  | invalidDistance
  | matchPastEnd
  | badProps
  | badControl
  | resetRequired
  | packedOverrun
  | packedSizeMismatch
  | bcj2Truncated
  | badRcInit
  | dictTooLarge
  | unknownSize
  | notConfigured
  deriving DecidableEq, Repr

/-- What `raise` raises (00_scope.md rule R11): the two flow-control signals, or an error with its cause. -/
inductive Raise where
  | needMoreInput
  | needMoreOutput
  | error (c : Cause)
  deriving DecidableEq, Repr

/-- Why a step stops. Each of these is a situation that 93_implementation_defined.md §1 treats as `fault`:
"the model must not reach this situation. If it does, it stops with no result, and a proof must show it
cannot happen". No status of the block is a fault of the model. -/
inductive Fault where
  /-- U3: a `DictRAM` cell that holds no value is read. Raised by `Dict.get`. Safe. -/
  | unwrittenDictCell
  /-- U5: a probability cell outside `[31, 2017]` is used. Raised by `decodeBit`. Safe. -/
  | probOutOfBounds
  /-- U5: `Range < 2^24` after a normalisation. Raised by `normalise`. Safe. -/
  | rangeBelowTop
  /-- U6: a transaction of the engine or the BCJ2 unit outside a command, or of the engine while
  `Mode = Unconfigured`. Raised by `State.call`, `State.job`, `takeRaise` and `readRemaining`. Safe. -/
  | outsideCommand
  deriving DecidableEq, Repr

/-- Why an instruction has no meaning here. -/
inductive Refusal where
  /-- Raised by `exec` for an instruction the model does not give a meaning. Safe. -/
  | notModelled (mnemonic : String)
  deriving DecidableEq, Repr

/-- How an operation ends before its end: with a status, or with a fault of the model. -/
inductive Stop where
  | raise (r : Raise)
  | fault (f : Fault)
  deriving DecidableEq, Repr

/-- `Mode` (10_state.md rule R51). -/
inductive Mode where
  | unconfigured
  | lzma1
  | lzma2
  deriving DecidableEq, Repr

/-- `L1Phase` (rule R50). -/
inductive L1Phase where
  | needInit
  | packets
  | finished
  deriving DecidableEq, Repr

/-- `L2Phase` (rule R49). -/
inductive L2Phase where
  | control
  | copyData
  | lzmaInit
  | lzmaData
  | finished
  deriving DecidableEq, Repr

/-- The control registers: mode, status and stream positions (rules R51 to R53). -/
structure Control where
  mode : Mode
  status : Status
  cause : Option Cause
  errorLatched : Bool
  inTotal : U64
  outTotal : U64
  deriving DecidableEq, Repr

/-- The configuration registers (rules R40, R55). `PropsByte` is the same register as `lc`, `lp`, `pb`
(`ConfigRegs.propsByte`). -/
structure ConfigRegs where
  props : LcLpPb
  dictSize : Word
  lzma2DictProp : Byte
  unpackSize : U64
  deriving DecidableEq, Repr

/-- The range decoder, probability RAM and packet registers of the LZMA1 decoder (rules R32 to R42, R50). -/
structure Lzma where
  range : Word
  code : Word
  probs : Probs
  lzState : Fin 12
  rep0 : Word
  rep1 : Word
  rep2 : Word
  rep3 : Word
  unpackRemaining : U64
  pendLen : BitVec 9
  pendDist : Word
  l1Phase : L1Phase
  deriving DecidableEq, Repr

/-- The dictionary (rules R43 to R45). -/
structure Dict where
  cap : Word
  writePos : Word
  totalWritten : U64
  ram : Memory
  deriving DecidableEq, Repr

/-- The LZMA2 framer (rules R47 to R49). -/
structure Framer where
  l2Phase : L2Phase
  control : Byte
  needInitLevel : Byte
  chunkUnpackRemaining : BitVec 22
  chunkPackRemaining : BitVec 17
  copyRemaining : BitVec 17
  deriving DecidableEq, Repr

/-- The BCJ2 unit (rule R46, and `Bcj2OutSize` of rule R55). -/
structure Bcj2Regs where
  range : Word
  code : Word
  probs : Probs
  outPos : Word
  mainPos : Word
  callPos : Word
  jumpPos : Word
  rcPos : Word
  outSize : Word
  deriving DecidableEq, Repr

/-- What a transaction of the engine notes at its start, to roll back to (20_memory.md rule R95): the
registers reading a unit of the stream may write, and the input position. -/
structure Noted where
  range : Word
  code : Word
  probs : Probs
  chunkPackRemaining : BitVec 17
  input : List Byte
  deriving DecidableEq, Repr

/-- A `Decode` call in progress (49_host_commands.md rule R434): the presented bytes not yet taken
(`InAvail` of them), the output space left (`OutSpace`), the counts so far. -/
structure Call where
  input : List Byte
  outSpace : Nat
  consumed : Nat
  produced : Nat
  noted : Option Noted
  deriving DecidableEq, Repr

/-- A `Bcj2Run` in progress (48_bcj2.md rule R401): its operands, `prev`, the output bytes so far (none is
delivered before the run commits), and the unit's registers before the run, to roll back to. -/
structure Bcj2Job where
  main : List Byte
  call : List Byte
  jump : List Byte
  rc : List Byte
  outSize : Word
  prev : Byte
  out : List Byte
  saved : Bcj2Regs
  deriving DecidableEq, Repr

/-- The command in progress, if any: each runs to completion before the next is accepted
(49_host_commands.md rule R430). -/
inductive Activity where
  | idle
  | decoding (c : Call)
  | merging (j : Bcj2Job)
  deriving DecidableEq, Repr

/-- The `consumed` count of a return: one number, or one for each BCJ2 stream (rule R440). -/
inductive Consumed where
  | bytes (n : Nat)
  | streams (main call jump rc : Nat)
  deriving DecidableEq, Repr

/-- What a command returns (rule R430). -/
structure Return where
  status : Status
  cause : Option Cause
  consumed : Consumed
  produced : Nat
  deriving DecidableEq, Repr

/-- The host's side of the interface: the commands issued and not yet accepted, what the latest command
returned, the bytes it delivered. -/
structure HostPort where
  cmds : List HostCmd
  ret : Option Return
  out : List Byte
  deriving DecidableEq, Repr

/-- The machine. -/
structure State where
  params : Params
  host : HostPort
  activity : Activity
  ctl : Control
  cfg : ConfigRegs
  lzma : Lzma
  dict : Dict
  framer : Framer
  bcj : Bcj2Regs
  deriving DecidableEq, Repr

/-- `lc`, `lp`, `pb` while no properties byte has set them, after a reset and after `ConfigLzma2`
(49_host_commands.md rule R438 "unset"): those of the properties byte 0 (assumption 4). -/
def unsetProps : LcLpPb := { lc := 0, lp := 0, pb := 0 }

/-- The BCJ2 unit at the start of a run, before `RcInit` (10_state.md rule R46). -/
def Bcj2Regs.initial : Bcj2Regs :=
  { range := Config.rangeInit, code := Config.wordReset, probs := [], outPos := 0, mainPos := 0, callPos := 0,
    jumpPos := 0, rcPos := 0, outSize := Config.wordReset }

/-- After power-on or `Reset` (10_state.md rule R57; 70_reset_and_hazards.md rules R500, R501): `Mode`,
`Status` and `ErrorLatched` as stated. Every other register holds a value: where the spec gives one for the
start of a stream or of a run, that value (assumption 5); where no rule gives one, the value of assumption 4:
zero, and `DICT_MIN` for `DictCap`, whose range rule R43 states. No step reads a register of the second kind
before it is written (`step_unset`, Laws/Unset.lean). -/
def State.reset : State :=
  { params := { dictMax := 0xFFFFFFFF, checkRcByte0 := false }
    host := { cmds := [], ret := none, out := [] }
    activity := .idle
    ctl := { mode := .unconfigured, status := .ok, cause := none, errorLatched := false, inTotal := 0,
             outTotal := 0 }
    cfg := { props := unsetProps, dictSize := Config.wordReset, lzma2DictProp := 0, unpackSize := 0 }
    lzma := { range := Config.rangeInit, code := Config.wordReset, probs := [], lzState := 0, rep0 := 1,
              rep1 := 1, rep2 := 1, rep3 := 1, unpackRemaining := 0, pendLen := 0, pendDist := Config.wordReset,
              l1Phase := .needInit }
    dict := { cap := Config.dictMin, writePos := 0, totalWritten := 0, ram := [] }
    framer := { l2Phase := .control, control := 0, needInitLevel := 0xE0, chunkUnpackRemaining := 0,
                chunkPackRemaining := 0, copyRemaining := 0 }
    bcj := .initial }

end Sys2Proof.Machine
end

