-- ==== Sys2Proof/Machine/Flags.lean ====
section
/-! DEFINITION. The block's one derived flag, `IsLiteralState` (10_state.md rule R54), and the packet-history
functions that move it (45_state_machine.md). The block has no condition codes: every rule of
46_lzma1_core.md says "Flags written: none". -/

namespace Sys2Proof.Machine

/-- `IsLiteralState = State < 7` (45_state_machine.md rule R280). -/
def isLiteralState (s : Fin 12) : Bool := decide (s.val < 7)

/-- Rule R281. -/
def afterLiteral (s : Fin 12) : Fin 12 :=
  if s.val < 4 then 0
  else if s.val < 10 then ⟨s.val - 3, by omega⟩
  else ⟨s.val - 6, by omega⟩

/-- Rule R282. -/
def afterMatch (s : Fin 12) : Fin 12 := if isLiteralState s then 7 else 10

/-- Rule R283. -/
def afterRep (s : Fin 12) : Fin 12 := if isLiteralState s then 8 else 11

/-- Rule R284. -/
def afterShortRep (s : Fin 12) : Fin 12 := if isLiteralState s then 9 else 11

end Sys2Proof.Machine
end

