-- ==== Sys2Proof/Machine/Memory.lean ====
section
/-! DEFINITION. The storage of the block as sparse lists in one canonical form, and the named operations
over it: the cells of the probability RAMs (10_state.md rules R35, R46) and the dictionary ring
(20_memory.md rules R81 to R84). -/

namespace Sys2Proof.Machine

/-! ## Sparse lists by rising key -/

/-- The value listed at a key. -/
def sparseGet {α : Type} : List (Nat × α) → Nat → Option α
  | [], _ => none
  | (k, v) :: t, a => if k = a then some v else sparseGet t a

/-- List a value at a key, in its place. -/
def sparseSet {α : Type} : List (Nat × α) → Nat → α → List (Nat × α)
  | [], a, v => [(a, v)]
  | (k, w) :: t, a, v =>
    if a < k then (a, v) :: (k, w) :: t
    else if a = k then (a, v) :: t
    else (k, w) :: sparseSet t a v

/-- List no value at a key. -/
def sparseErase {α : Type} : List (Nat × α) → Nat → List (Nat × α)
  | [], _ => []
  | (k, w) :: t, a => if a = k then t else (k, w) :: sparseErase t a

/-- The keys rise strictly, from at least `lo`. -/
def risingFrom {α : Type} : Nat → List (Nat × α) → Bool
  | _, [] => true
  | lo, (k, _) :: t => decide (lo ≤ k) && risingFrom (k + 1) t

/-! ## Probability RAMs -/

/-- The flat key under which a cell is stored. No rule depends on it (10_state.md rule R36). -/
def cellKey : Cell → Nat
  | .isMatch s ps => s * 16 + ps
  | .isRep0Long s ps => 192 + s * 16 + ps
  | .isRep s => 384 + s
  | .isRepG0 s => 396 + s
  | .isRepG1 s => 408 + s
  | .isRepG2 s => 420 + s
  | .posSlot lps k => 432 + lps * 64 + k
  | .align k => 688 + k
  | .lenChoice .len => 704
  | .lenChoice2 .len => 705
  | .lenLow .len ps k => 706 + ps * 8 + k
  | .lenMid .len ps k => 834 + ps * 8 + k
  | .lenHigh .len k => 962 + k
  | .lenChoice .repLen => 1218
  | .lenChoice2 .repLen => 1219
  | .lenLow .repLen ps k => 1220 + ps * 8 + k
  | .lenMid .repLen ps k => 1348 + ps * 8 + k
  | .lenHigh .repLen k => 1476 + k
  | .specPos slot k => 1732 + (slot - 4) * 32 + k
  | .literal ctx k => 2052 + ctx * 0x300 + k

/-- Read a cell: one not listed holds 1024 (10_state.md rule R37). -/
def Probs.read (m : Probs) (key : Nat) : Prob := (sparseGet m key).getD Config.probInit

/-- Write a cell, keeping the canonical form. -/
def Probs.write (m : Probs) (key : Nat) (p : Prob) : Probs :=
  if p = Config.probInit then sparseErase m key else sparseSet m key p

/-- The canonical form of a probability RAM: rising keys, no cell listed at 1024. -/
def Probs.wf (m : Probs) : Bool := risingFrom 0 m && m.all fun e => e.2 != Config.probInit

/-- A cell value within the bounds of 40_range_coder.md rule R180. -/
def probOk (p : Prob) : Bool := decide (Config.probMin ≤ p.toNat ∧ p.toNat ≤ Config.probMax)

/-- Every cell of the RAM is within its bounds. -/
def Probs.bounded (m : Probs) : Bool := m.all fun e => probOk e.2

/-! ## The dictionary -/

/-- The canonical form of a byte memory: rising addresses. (A cell not listed holds no value, so no entry
can repeat what an unlisted cell reads as.) -/
def Memory.wf (m : Memory) : Bool := risingFrom 0 m

/-- The model's read of one dictionary cell by its ring index: the byte it holds, if it holds one. -/
def Dict.read (d : Dict) (a : Nat) : Option Byte := sparseGet d.ram a

/-- The ring index `(WritePos − d) mod DictCap`, reduced as an integer (20_memory.md rule R81). -/
def ringIndex (writePos d cap : Nat) : Nat := (((writePos : Int) - (d : Int)) % (cap : Int)).toNat

/-- The largest distance that may be read, `min(TotalWritten, DictCap)`. -/
def Dict.reach (d : Dict) : Nat := min d.totalWritten.toNat d.cap.toNat

/-- The check of 20_memory.md rule R84: `1 ≤ dist ≤ min(TotalWritten, DictCap)`. -/
def Dict.checkDistance (d : Dict) (dist : Nat) : Except Stop Unit :=
  if 1 ≤ dist ∧ dist ≤ d.reach then .ok ()
  else .error (.raise (.error .invalidDistance))

/-- `DictGet(dist)` (rule R84). -/
def Dict.get (d : Dict) (dist : Nat) : Except Stop Byte := do
  let _ ← d.checkDistance dist
  match d.read (ringIndex d.writePos.toNat dist d.cap.toNat) with
  | some b => .ok b
  | none => .error (.fault .unwrittenDictCell)

/-- `DictPut(b)` (rule R83), the dictionary's part. -/
def Dict.put (d : Dict) (b : Byte) : Dict :=
  { d with
    ram := sparseSet d.ram d.writePos.toNat b
    writePos := BitVec.ofNat 32 ((d.writePos.toNat + 1) % d.cap.toNat)
    totalWritten := d.totalWritten + 1 }

/-- A dictionary reset (rule R82). -/
def Dict.clear (d : Dict) : Dict := { d with writePos := 0, totalWritten := 0, ram := [] }

/-- `ConfigureDict`'s effect on the dictionary (49_host_commands.md rule R436): the capacity is at least 4096,
and every cell is unwritten. -/
def Dict.configure (d : Dict) (size : Word) : Dict :=
  { d.clear with cap := if size.toNat < Config.dictMin.toNat then Config.dictMin else size }

end Sys2Proof.Machine
end

