-- ==== Sys2Proof/Machine/RangeCoder.lean ====
section
/-! DEFINITION. The range decoder (40_range_coder.md), one definition for its two instances, and the
reading of a program of decision bits through it. -/

namespace Sys2Proof.Machine

/-- Where `RcByte()` draws from (40_range_coder.md rule R172): the input port, the input port within an LZMA
chunk's pack budget, or the `rc` array of a BCJ2 run. -/
inductive RcSource where
  | stream
  | chunk (left : BitVec 17)
  | bcj2
  deriving DecidableEq, Repr

/-- The range decoder's registers, with the bytes it can still take. -/
structure Rc where
  range : Word
  code : Word
  src : RcSource
  bytes : List Byte
  deriving DecidableEq, Repr

/-- What a request for a byte that is not there raises (rule R172). -/
def RcSource.starved : RcSource → Raise
  | .stream => .needMoreInput
  | .chunk _ => .needMoreInput
  | .bcj2 => .error .bcj2Truncated

/-- Take `n` bytes of the budget, if there is one; a budget that does not hold them is `PackedOverrun`
(rule R172). -/
def RcSource.draw (src : RcSource) (n : Nat) : Except Stop RcSource :=
  match src with
  | .chunk left =>
    if left.toNat < n then .error (.raise (.error .packedOverrun))
    else .ok (.chunk (left - BitVec.ofNat 17 n))
  | .stream => .ok .stream
  | .bcj2 => .ok .bcj2

/-- `RcByte()` (rule R172): the budget is checked before the presence of the byte
(60_exceptions.md rule R469). -/
def rcByte (src : RcSource) (bytes : List Byte) : Except Stop (Byte × RcSource × List Byte) := do
  let src' ← src.draw 1
  match bytes with
  | b :: t => .ok (b, src', t)
  | [] => .error (.raise src.starved)

/-- `RcInit()` (rule R171): five bytes or none. -/
def rcInit (checkByte0 : Bool) (src : RcSource) (bytes : List Byte) : Except Stop Rc := do
  let src' ← src.draw 5
  match bytes with
  | b0 :: b1 :: b2 :: b3 :: b4 :: t =>
    if checkByte0 && b0 != 0 then .error (.raise (.error .badRcInit))
    else .ok { range := Config.rangeInit, code := be32 b1 b2 b3 b4, src := src', bytes := t }
  | _ => .error (.raise src.starved)

/-- Normalisation (rule R176), one step, after which `Range ≥ 2^24` (rule R181; U5 otherwise). -/
def normalise (rc : Rc) : Except Stop Rc := do
  if rc.range.toNat < Config.rangeTop then
    let (b, src, bytes) ← rcByte rc.src rc.bytes
    let rc' : Rc :=
      { range := rc.range <<< 8, code := (rc.code <<< 8) ||| b.setWidth 32, src := src, bytes := bytes }
    if rc'.range.toNat < Config.rangeTop then .error (.fault .rangeBelowTop) else .ok rc'
  else .ok rc

/-- `bound = (Range >> 11) · p` (rule R173). -/
def rcBound (range : Word) (p : Prob) : Word := (range >>> 11) * p.setWidth 32

/-- Adaptation on bit 0 (rule R174): `p + ((2048 − p) >> 5)`. -/
def probUp (p : Prob) : Prob := BitVec.ofNat 11 (p.toNat + (2048 - p.toNat) / 32)

/-- Adaptation on bit 1 (rule R175): `p − (p >> 5)`. -/
def probDown (p : Prob) : Prob := p - (p >>> 5)

/-- `DecodeBit` with a cell of value `p` (rule R173): the bit, the cell's new value and the registers after.
An answer that is not `ok` changes nothing (rule R177). -/
def decodeBit (p : Prob) (rc : Rc) : Except Stop (Bool × Prob × Rc) := do
  if !probOk p then .error (.fault .probOutOfBounds)
  else
    let bound := rcBound rc.range p
    if rc.code < bound then
      let rc' ← normalise { rc with range := bound }
      .ok (false, probUp p, rc')
    else
      let rc' ← normalise { rc with range := rc.range - bound, code := rc.code - bound }
      .ok (true, probDown p, rc')

/-- One step of `DecodeDirectBits` (rule R178). -/
def decodeDirect (rc : Rc) : Except Stop (Bool × Rc) := do
  let half := rc.range >>> 1
  if half ≤ rc.code then
    let rc' ← normalise { rc with range := half, code := rc.code - half }
    .ok (true, rc')
  else
    let rc' ← normalise { rc with range := half }
    .ok (false, rc')

/-- Read a program of decision bits through the range decoder and the probability RAM. An answer that is
not `ok` carries no state: everything read so far is dropped (rules R177, R179, 41_bit_tree.md rule R205,
46_lzma1_core.md rule R302). -/
def runProg {α : Type} : BitProg α → Rc → Probs → Except Stop (α × Rc × Probs)
  | .done a, rc, m => .ok (a, rc, m)
  | .bit c k, rc, m =>
    match decodeBit (m.read (cellKey c)) rc with
    | .error e => .error e
    | .ok (b, p, rc') => runProg (k b) rc' (m.write (cellKey c) p)
  | .direct k, rc, m =>
    match decodeDirect rc with
    | .error e => .error e
    | .ok (b, rc') => runProg (k b) rc' m

end Sys2Proof.Machine
end

