-- ==== Sys2Proof/Machine/Ops.lean ====
section
/-! DEFINITION. The shared operations of the block: the ports, transactions and their rollback
(20_memory.md rule R95), taking an event as one operation (60_exceptions.md rules R462 to R471), the end
of a command, the resets. There is no return from an error (rule R472). -/

namespace Sys2Proof.Machine

/-! ## Statuses of events -/

/-- The status a cause belongs to (60_exceptions.md rule R462). -/
def Cause.status : Cause → Status
  | .invalidDistance => .invalidData
  | .matchPastEnd => .invalidData
  | .badProps => .invalidData
  | .badControl => .invalidData
  | .resetRequired => .invalidData
  | .packedOverrun => .invalidData
  | .packedSizeMismatch => .invalidData
  | .bcj2Truncated => .invalidData
  | .badRcInit => .invalidData
  | .dictTooLarge => .notSupported
  | .unknownSize => .notSupported
  | .notConfigured => .internalError

/-- The status an event ends a command with. -/
def Raise.status : Raise → Status
  | .needMoreInput => .needMoreInput
  | .needMoreOutput => .needMoreOutput
  | .error c => c.status

/-- The cause an event carries: flow control has none. -/
def Raise.cause : Raise → Option Cause
  | .needMoreInput => none
  | .needMoreOutput => none
  | .error c => some c

/-- Whether an event at `Decode` is latched (rule R470): the errors, but not `NotConfigured`. -/
def Raise.latches : Raise → Bool
  | .needMoreInput => false
  | .needMoreOutput => false
  | .error c => c != .notConfigured

/-! ## The command in progress -/

/-- The `Decode` call in progress. -/
def State.call (s : State) : Except Stop Call :=
  match s.activity with
  | .decoding c => .ok c
  | .idle => .error (.fault .outsideCommand)
  | .merging _ => .error (.fault .outsideCommand)

/-- The BCJ2 run in progress. -/
def State.job (s : State) : Except Stop Bcj2Job :=
  match s.activity with
  | .merging j => .ok j
  | .idle => .error (.fault .outsideCommand)
  | .decoding _ => .error (.fault .outsideCommand)

/-- What a command returns to the host (49_host_commands.md rule R430); the block is then idle. -/
def State.returns (s : State) (status : Status) (cause : Option Cause) (consumed : Consumed) (produced : Nat) :
    State :=
  { s with
    activity := .idle
    host := { s.host with ret := some { status := status, cause := cause, consumed := consumed, produced := produced } } }

/-- The end of a `Decode` call (rule R434): `Status` and its cause are written, an error is latched, the
command returns with the counts of its committed transactions. -/
def State.endCall (s : State) (c : Call) (status : Status) (cause : Option Cause) (latch : Bool) : State :=
  { s with ctl := { s.ctl with status := status, cause := cause, errorLatched := s.ctl.errorLatched || latch } }.returns
    status cause (.bytes c.consumed) c.produced

/-! ## Transactions -/

/-- The values noted at the start of a transaction (20_memory.md rule R95). -/
def State.notedNow (s : State) (c : Call) : Noted :=
  { range := s.lzma.range, code := s.lzma.code, probs := s.lzma.probs,
    chunkPackRemaining := s.framer.chunkPackRemaining, input := c.input }

/-- `Rollback()` (rule R95): the noted values are restored. -/
def State.rollback (s : State) (c : Call) : State :=
  match c.noted with
  | none => s
  | some n =>
    { s with
      lzma := { s.lzma with range := n.range, code := n.code, probs := n.probs }
      framer := { s.framer with chunkPackRemaining := n.chunkPackRemaining }
      activity := .decoding { c with input := n.input, noted := none } }

/-- The bytes the transaction in progress has taken. -/
def Call.taken (c : Call) : Nat :=
  match c.noted with
  | none => 0
  | some n => n.input.length - c.input.length

/-- A call whose transaction has committed: the bytes it took are consumed. -/
def Call.committed (c : Call) : Call := { c with consumed := c.consumed + c.taken, noted := none }

/-- `Commit()` (rule R95): the bytes taken since the transaction began are consumed
(10_state.md rule R53). -/
def State.commit (s : State) : Except Stop State := do
  let c ← s.call
  .ok { s with
    activity := .decoding c.committed
    ctl := { s.ctl with inTotal := s.ctl.inTotal + BitVec.ofNat 64 c.taken } }

/-- Begin a transaction and take bytes from the input port, leaving `rest` (rule R94: they are consumed
when the transaction commits). -/
def State.take (s : State) (c : Call) (rest : List Byte) : State :=
  { s with activity := .decoding { c with input := rest, noted := some (s.notedNow c) } }

/-- TAKING AN EVENT (60_exceptions.md rule R471): the failing transaction is rolled back, every one before it
stays; the command returns the event's status and cause. In a `Decode` call they are written to `Status`
and an error is latched (rule R470). A BCJ2 run restores the unit and delivers nothing
(48_bcj2.md rule R411) and leaves `Status` alone (49_host_commands.md rule R440). -/
def takeRaise (s : State) (r : Raise) : Host.Outcome State Fault Refusal :=
  match s.activity with
  | .decoding c => .next ((s.rollback c).endCall c r.status r.cause r.latches)
  | .merging j => .next ({ s with bcj := j.saved }.returns r.status r.cause (.streams 0 0 0 0) 0)
  | .idle => .fault .outsideCommand

/-- How a transaction begun in `s` ends the step: its result, or the event it raised. -/
def deliver (s : State) (r : Except Stop State) : Host.Outcome State Fault Refusal :=
  match r with
  | .ok s' => .next s'
  | .error (.raise e) => takeRaise s e
  | .error (.fault f) => .fault f

/-! ## Ports -/

/-- A transaction that emits a byte does not start when no output space is left
(60_exceptions.md rule R465). -/
def Call.needSpace (c : Call) : Except Stop Unit :=
  if c.outSpace = 0 then .error (.raise .needMoreOutput) else .ok ()

/-- `OutEmit(b)` (20_memory.md rule R86). -/
def State.emit (s : State) (b : Byte) : Except Stop State := do
  let c ← s.call
  .ok { s with
    activity := .decoding { c with outSpace := c.outSpace - 1, produced := c.produced + 1 }
    host := { s.host with out := s.host.out ++ [b] }
    ctl := { s.ctl with outTotal := s.ctl.outTotal + 1 } }

/-- `DictPut(b)` (rule R83). -/
def State.dictPut (s : State) (b : Byte) : Except Stop State := { s with dict := s.dict.put b }.emit b

/-! ## Remaining -/

/-- `Remaining` (46_lzma1_core.md rule R300): `UnpackRemaining` in LZMA1 mode, `ChunkUnpackRemaining` in LZMA2
mode. -/
def State.readRemaining (s : State) : Except Stop Nat :=
  match s.ctl.mode with
  | .lzma1 => .ok s.lzma.unpackRemaining.toNat
  | .lzma2 => .ok s.framer.chunkUnpackRemaining.toNat
  | .unconfigured => .error (.fault .outsideCommand)

/-- `Remaining <- Remaining − 1`. -/
def State.decRemaining (s : State) : Except Stop State :=
  match s.ctl.mode with
  | .lzma1 => .ok { s with lzma := { s.lzma with unpackRemaining := s.lzma.unpackRemaining - 1 } }
  | .lzma2 =>
    .ok { s with framer := { s.framer with chunkUnpackRemaining := s.framer.chunkUnpackRemaining - 1 } }
  | .unconfigured => .error (.fault .outsideCommand)

/-- `CheckCopy(d, len)` (46_lzma1_core.md rules R311, R312): the distance first, then the length. -/
def State.checkCopy (s : State) (dist len : Nat) : Except Stop Unit := do
  let _ ← s.dict.checkDistance dist
  let remaining ← s.readRemaining
  if len ≤ remaining then .ok () else .error (.raise (.error .matchPastEnd))

/-! ## The engine's range decoder -/

/-- Where the engine's range decoder draws from (40_range_coder.md rule R172). -/
def State.rcSource (s : State) : RcSource :=
  match s.ctl.mode with
  | .lzma2 => .chunk s.framer.chunkPackRemaining
  | .lzma1 => .stream
  | .unconfigured => .stream

/-- The engine's range decoder: its registers, and the bytes the call still presents. -/
def State.rcRegs (s : State) (c : Call) : Rc :=
  { range := s.lzma.range, code := s.lzma.code, src := s.rcSource, bytes := c.input }

/-- What is left of an LZMA chunk's pack budget after the range decoder has drawn on it; other sources have
none. -/
def RcSource.budget (src : RcSource) (before : BitVec 17) : BitVec 17 :=
  match src with
  | .chunk left => left
  | .stream => before
  | .bcj2 => before

/-- Begin a transaction that has read from the range decoder: the registers, the cells and the bytes taken
are written, the values before noted. -/
def State.takeRc (s : State) (c : Call) (rc : Rc) (probs : Probs) : State :=
  { s.take c rc.bytes with
    lzma := { s.lzma with range := rc.range, code := rc.code, probs := probs }
    framer := { s.framer with chunkPackRemaining := rc.src.budget s.framer.chunkPackRemaining } }

/-! ## Resets (70_reset_and_hazards.md rule R500) -/

/-- `StateReset()` (47_lzma2_chunk.md rule R368): every cell 1024, `State = 0`, the rep distances 1. -/
def Lzma.stateReset (l : Lzma) : Lzma :=
  { l with probs := [], lzState := 0, rep0 := 1, rep1 := 1, rep2 := 1, rep3 := 1 }

/-- The range decoder restarts: it is not initialised until the next `RcInit`, and its registers hold their
reset values until then (10_state.md rules R32, R33, R50; assumption 19). -/
def Lzma.rcRestart (l : Lzma) : Lzma :=
  { l with range := Config.rangeInit, code := Config.wordReset, l1Phase := .needInit }

/-- The control registers at the start of a stream (49_host_commands.md rules R437, R438). -/
def Control.start (mode : Mode) : Control :=
  { mode := mode, status := .ok, cause := none, errorLatched := false, inTotal := 0, outTotal := 0 }

/-- The framer at the start of an LZMA2 stream (rule R438). -/
def Framer.start : Framer :=
  { l2Phase := .control, control := 0, needInitLevel := 0xE0, chunkUnpackRemaining := 0, chunkPackRemaining := 0,
    copyRemaining := 0 }

/-- `StartLzma1()` (rule R437). -/
def State.startLzma1 (s : State) : State :=
  { s with
    ctl := .start .lzma1
    dict := s.dict.clear
    lzma := { s.lzma.stateReset.rcRestart with pendLen := 0 } }

/-- `StartLzma2()` (rule R438). -/
def State.startLzma2 (s : State) : State :=
  { s with
    ctl := .start .lzma2
    dict := s.dict.clear
    cfg := { s.cfg with props := unsetProps }
    lzma := { s.lzma.rcRestart with pendLen := 0 }
    framer := .start }

/-- Every register of the block as after power-on (rule R431), the parameters and the commands the host has
still pending kept. -/
def State.cleared (s : State) : State :=
  { State.reset with params := s.params, host := { s.host with ret := none, out := [] } }

end Sys2Proof.Machine
end

