-- ==== Sys2Proof/Machine/Operands.lean ====
section
/-! DEFINITION. The operands of a packet that the state supplies: `posState`, the literal's context and
match byte, the rep distances; and the views of registers the spec names twice. -/

namespace Sys2Proof.Machine

/-- `PropsByte` (10_state.md rule R55): the register `lc`, `lp`, `pb` are decoded from. -/
def ConfigRegs.propsByte (c : ConfigRegs) : Byte := encodeProps c.props

/-- `posState = TotalWritten & ((1 << pb) − 1)` (46_lzma1_core.md rule R301). -/
def posState (totalWritten : U64) (pb : Fin 5) : Nat := totalWritten.toNat % 2 ^ pb.val

/-- `prevByte` (42_literal.md rule R221): the byte at distance 1, or 0 when the dictionary is empty. -/
def Dict.prevByte (d : Dict) : Except Stop Byte := if d.totalWritten = 0 then .ok 0 else d.get 1

/-- The literal context (rule R220):
`((TotalWritten & ((1 << lp) − 1)) << lc) | (prevByte >> (8 − lc))`. -/
def litContext (totalWritten : U64) (prevByte : Byte) (p : LcLpPb) : Nat :=
  (totalWritten.toNat % 2 ^ p.lp.val) * 2 ^ p.lc.val + prevByte.toNat / 2 ^ (8 - p.lc.val)

/-- The operands of a literal packet: its context, and the match byte `DictGet(Rep0)` unless
`IsLiteralState` (rules R224, R225). -/
def State.litOperand (s : State) : Except Stop LitSrc := do
  let prev ← s.dict.prevByte
  let ctx := litContext s.dict.totalWritten prev s.cfg.props
  if isLiteralState s.lzma.lzState then .ok { ctx := ctx, matchByte := none }
  else
    let mb ← s.dict.get s.lzma.rep0.toNat
    .ok { ctx := ctx, matchByte := some mb }

/-- What the state contributes to reading the next packet (46_lzma1_core.md rule R303). -/
def State.packetCtx (s : State) : PacketCtx :=
  { st := s.lzma.lzState.val, ps := posState s.dict.totalWritten s.cfg.props.pb, lit := s.litOperand.toOption }

/-- `(Rep0, Rep1) <- (Rep1, Rep0)` (rule R308). -/
def Lzma.useRep1 (l : Lzma) : Lzma := { l with rep0 := l.rep1, rep1 := l.rep0 }

/-- `(Rep0, Rep1, Rep2) <- (Rep2, Rep0, Rep1)` (rule R309). -/
def Lzma.useRep2 (l : Lzma) : Lzma := { l with rep0 := l.rep2, rep1 := l.rep0, rep2 := l.rep1 }

/-- `(Rep0, Rep1, Rep2, Rep3) <- (Rep3, Rep0, Rep1, Rep2)` (rule R310). -/
def Lzma.useRep3 (l : Lzma) : Lzma := { l with rep0 := l.rep3, rep1 := l.rep0, rep2 := l.rep1, rep3 := l.rep2 }

/-- `Rep3 <- Rep2 ; Rep2 <- Rep1 ; Rep1 <- Rep0 ; Rep0 <- dist` (rule R305). -/
def Lzma.pushRep (l : Lzma) (dist : Nat) : Lzma :=
  { l with rep0 := BitVec.ofNat 32 dist, rep1 := l.rep0, rep2 := l.rep1, rep3 := l.rep2 }

/-- `PendLen <- len ; PendDist <- Rep0`: the copy the packet starts, at its (new) `Rep0`. -/
def Lzma.startCopy (l : Lzma) (len : Nat) : Lzma :=
  { l with pendLen := BitVec.ofNat 9 len, pendDist := l.rep0 }

end Sys2Proof.Machine
end

