-- ==== Sys2Proof/Machine/Bcj2.lean ====
section
/-! DEFINITION. The BCJ2 merge unit (48_bcj2.md): the four tokens, each one turn of the loop of rule R401,
and the start and end of a run. A run is one transaction: the registers before it are kept in the job,
and nothing is delivered before it commits (rule R411). -/

namespace Sys2Proof.Machine

/-- The unit's range decoder, drawing on the `rc` array from `RcPos` (40_range_coder.md rule R172). -/
def Bcj2Regs.rc (r : Bcj2Regs) (j : Bcj2Job) : Rc :=
  { range := r.range, code := r.code, src := .bcj2, bytes := j.rc.drop r.rcPos.toNat }

/-- The unit after its range decoder has gone from `before` to `after`: `RcPos` moves by the bytes taken. -/
def Bcj2Regs.withRc (r : Bcj2Regs) (before after : Rc) : Bcj2Regs :=
  { r with
    range := after.range
    code := after.code
    rcPos := r.rcPos + BitVec.ofNat 32 (before.bytes.length - after.bytes.length) }

/-- Decode one control bit with cell `BProb[i]` (48_bcj2.md rules R401, R404). -/
def Bcj2Regs.controlBit (r : Bcj2Regs) (j : Bcj2Job) (i : Nat) : Except Stop (Bool × Bcj2Regs) := do
  let (b, p, rc') ← decodeBit (r.probs.read i) (r.rc j)
  .ok (b, { r.withRc (r.rc j) rc' with probs := r.probs.write i p })

/-- The 4-byte big-endian target at a position of a target stream (rules R401, R409). -/
def readTarget (stream : List Byte) (pos : Word) : Except Stop Word :=
  match stream.drop pos.toNat with
  | b0 :: b1 :: b2 :: b3 :: _ => .ok (be32 b0 b1 b2 b3)
  | _ => .error (.raise (.error .bcj2Truncated))

/-- `dest = (src − (OutPos + 4)) mod 2^32` (rule R406). -/
def branchDest (src outPos : Word) : Word := src - (outPos + 4)

/-- The bytes of `dest` that are emitted: least significant first, up to the end of the output (rule R407). -/
def destBytes (dest outPos outSize : Word) : List Byte := (leBytes dest).take (outSize.toNat - outPos.toNat)

/-- Emit a converted displacement; `prev` becomes the last byte emitted (rules R402, R407). -/
def emitDest (j : Bcj2Job) (r : Bcj2Regs) (src : Word) : Bcj2Job × Bcj2Regs :=
  let bs := destBytes (branchDest src r.outPos) r.outPos j.outSize
  ({ j with out := j.out ++ bs, prev := bs.getLastD j.prev },
   { r with outPos := r.outPos + BitVec.ofNat 32 bs.length })

/-- Copy the byte `b` of `main` to the output (rule R401). -/
def copyMain (j : Bcj2Job) (r : Bcj2Regs) (b : Byte) : Bcj2Job × Bcj2Regs :=
  ({ j with out := j.out ++ [b] }, { r with mainPos := r.mainPos + 1, outPos := r.outPos + 1 })

/-- The state with a BCJ2 run's job and registers. -/
def State.merging (s : State) (p : Bcj2Job × Bcj2Regs) : State :=
  { s with activity := .merging p.1, bcj := p.2 }

/-- Which target stream a converted branch takes its target from (30_encoding.md rule R136). -/
inductive TargetStream where
  | call
  | jump
  deriving DecidableEq, Repr

/-- The target a converted branch reads, and its stream's position moved past it. -/
def Bcj2Regs.takeTarget (r : Bcj2Regs) (j : Bcj2Job) (t : TargetStream) : Except Stop (Word × Bcj2Regs) := do
  match t with
  | .call =>
    let src ← readTarget j.call r.callPos
    .ok (src, { r with callPos := r.callPos + 4 })
  | .jump =>
    let src ← readTarget j.jump r.jumpPos
    .ok (src, { r with jumpPos := r.jumpPos + 4 })

/-- A branch token: the opcode byte is copied; unless it ends the output (rule R405) one control bit is
decoded; on bit 1 the displacement is converted (rule R406), on bit 0 nothing more is done, and the
bytes that follow are examined like any other (rule R408). -/
def branchToken (b : Byte) (i : Nat) (t : TargetStream) (s : State) : Except Stop State := do
  let j ← s.job
  let (j1, r1) := copyMain j s.bcj b
  if r1.outPos = j.outSize then .ok (s.merging (j1, r1))
  else
    let (bit, r2) ← r1.controlBit j i
    if bit then
      let (src, r3) ← r2.takeTarget j t
      .ok (s.merging (emitDest j1 r3 src))
    else .ok (s.merging ({ j1 with prev := b }, r2))

/-- `BCJ2_CALL` (rules R403, R404): cell `BProb[prev]`, target from `call`. -/
def execBcj2Call (prev : Byte) (s : State) : Host.Outcome State Fault Refusal :=
  deliver s (branchToken 0xE8 prev.toNat .call s)

/-- `BCJ2_JMP`: cell `BProb[256]` whatever `prev` is, target from `jump`. -/
def execBcj2Jmp (_prev : Byte) (s : State) : Host.Outcome State Fault Refusal :=
  deliver s (branchToken 0xE9 256 .jump s)

/-- `BCJ2_JCC`: cell `BProb[257]`, target from `jump`. -/
def execBcj2Jcc (cc : BitVec 4) (s : State) : Host.Outcome State Fault Refusal :=
  deliver s (branchToken (8#4 ++ cc) 257 .jump s)

/-- `BCJ2_PLAIN` (rule R403): the byte is copied and becomes `prev`. -/
def execBcj2Plain (_prev b : Byte) (s : State) : Host.Outcome State Fault Refusal :=
  deliver s do
    let j ← s.job
    let (j1, r1) := copyMain j s.bcj b
    .ok (s.merging ({ j1 with prev := b }, r1))

/-- The start of a run, up to its loop (rule R401): the unit's registers as at every run's start
(10_state.md rule R46), then `RcInit` from `rc`. -/
def Bcj2Regs.start (checkByte0 : Bool) (rc : List Byte) (outSize : Word) : Except Stop Bcj2Regs := do
  let rc' ← rcInit checkByte0 .bcj2 rc
  .ok { Bcj2Regs.initial with range := rc'.range, code := rc'.code, rcPos := 5, outSize := outSize }

/-- The end of a run (rules R401, R410, R411; 49_host_commands.md rule R440): the output is delivered and the
command returns `Ok` with the bytes read of each stream. -/
def finishMerge (s : State) (j : Bcj2Job) : State :=
  { s with host := { s.host with out := j.out } }.returns .ok none
    (.streams s.bcj.mainPos.toNat s.bcj.callPos.toNat s.bcj.jumpPos.toNat s.bcj.rcPos.toNat) j.outSize.toNat

end Sys2Proof.Machine
end

