-- ==== Sys2Proof/Machine/Chunks.lean ====
section
/-! DEFINITION. The eight LZMA2 control classes (47_lzma2_chunk.md rules R353, R360 to R368): what a chunk
header does once its bytes have been taken, in the same transaction. -/

namespace Sys2Proof.Machine

/-- An uncompressed chunk's payload is due (rules R353, R361, R362): `size = n + 1` bytes. -/
def Framer.startCopy (f : Framer) (control : Byte) (n : BitVec 16) : Framer :=
  { f with control := control, copyRemaining := n.setWidth 17 + 1, l2Phase := .copyData }

/-- The framer's registers at an accepted LZMA chunk header (rules R353, R368). -/
def Framer.startLzma (f : Framer) (control : Byte) (u : BitVec 21) (p : BitVec 16) : Framer :=
  { f with
    control := control
    needInitLevel := 0x00
    chunkUnpackRemaining := u.setWidth 22 + 1
    chunkPackRemaining := p.setWidth 17 + 1
    l2Phase := .lzmaInit }

/-- The reset-order check of an LZMA chunk (rule R356). -/
def State.checkInitLevel (s : State) (control : Byte) : Except Stop Unit :=
  if control < s.framer.needInitLevel then .error (.raise (.error .resetRequired)) else .ok ()

/-- The properties byte of a chunk in mode 2 or 3 (rule R366). -/
def chunkProps (v : Byte) : Except Stop LcLpPb :=
  match decodeProps v with
  | some p => .ok p
  | none => .error (.raise (.error .badProps))

/-- `L2_END` (rule R360). -/
def execL2End (s : State) : Host.Outcome State Fault Refusal :=
  deliver s { s with framer := { s.framer with control := 0x00, l2Phase := .finished } }.commit

/-- `L2_COPY_RESET` (rule R361). -/
def execL2CopyReset (n : BitVec 16) (s : State) : Host.Outcome State Fault Refusal :=
  deliver s
    { s with
      dict := s.dict.clear
      framer := { s.framer.startCopy 0x01 n with needInitLevel := 0xC0 } }.commit

/-- `L2_COPY` (rule R362). -/
def execL2Copy (n : BitVec 16) (s : State) : Host.Outcome State Fault Refusal :=
  deliver s
    (if s.framer.needInitLevel = 0xE0 then .error (.raise (.error .resetRequired))
     else { s with framer := s.framer.startCopy 0x02 n }.commit)

/-- `L2_RESERVED` (rule R363): the control byte alone raises `InvalidData(BadControl)`. -/
def execL2Reserved (_c : Byte) (s : State) : Host.Outcome State Fault Refusal :=
  takeRaise s (.error .badControl)

/-- `L2_LZMA_M0` (rule R364): only the range decoder restarts. -/
def execL2LzmaM0 (u : BitVec 21) (p : BitVec 16) (s : State) : Host.Outcome State Fault Refusal :=
  deliver s do
    s.checkInitLevel (lzmaControl 0 u)
    { s with
      lzma := s.lzma.rcRestart
      framer := s.framer.startLzma (lzmaControl 0 u) u p }.commit

/-- `L2_LZMA_M1` (rule R365): state reset. -/
def execL2LzmaM1 (u : BitVec 21) (p : BitVec 16) (s : State) : Host.Outcome State Fault Refusal :=
  deliver s do
    s.checkInitLevel (lzmaControl 1 u)
    { s with
      lzma := s.lzma.stateReset.rcRestart
      framer := s.framer.startLzma (lzmaControl 1 u) u p }.commit

/-- `L2_LZMA_M2` (rule R366): new properties, then state reset. -/
def execL2LzmaM2 (u : BitVec 21) (p : BitVec 16) (v : Byte) (s : State) : Host.Outcome State Fault Refusal :=
  deliver s do
    s.checkInitLevel (lzmaControl 2 u)
    let props ← chunkProps v
    { s with
      cfg := { s.cfg with props := props }
      lzma := s.lzma.stateReset.rcRestart
      framer := s.framer.startLzma (lzmaControl 2 u) u p }.commit

/-- `L2_LZMA_M3` (rule R367): as mode 2, with a dictionary reset. -/
def execL2LzmaM3 (u : BitVec 21) (p : BitVec 16) (v : Byte) (s : State) : Host.Outcome State Fault Refusal :=
  deliver s do
    s.checkInitLevel (lzmaControl 3 u)
    let props ← chunkProps v
    { s with
      cfg := { s.cfg with props := props }
      dict := s.dict.clear
      lzma := s.lzma.stateReset.rcRestart
      framer := s.framer.startLzma (lzmaControl 3 u) u p }.commit

end Sys2Proof.Machine
end

