-- ==== Sys2Proof/Machine/HostCommands.lean ====
section
/-! DEFINITION. The six commands of the host (49_host_commands.md rules R431 to R440). -/

namespace Sys2Proof.Machine

/-- Each command runs to completion before the next is accepted (rule R430): a command issued while another
is in progress waits with those already pending. -/
def State.accept (s : State) (cmd : HostCmd) (run : State → Host.Outcome State Fault Refusal) :
    Host.Outcome State Fault Refusal :=
  match s.activity with
  | .idle => run { s with host := { s.host with out := [] } }
  | .decoding _ => .next { s with host := { s.host with cmds := s.host.cmds ++ [cmd] } }
  | .merging _ => .next { s with host := { s.host with cmds := s.host.cmds ++ [cmd] } }

/-- The return of a configure or reset command: `Ok`, no bytes (rule R430). -/
def State.returnsOk (s : State) : State := s.returns .ok none (.bytes 0) 0

/-- `fail S(c)` of a configure command (rules R432, R439): the block is left unconfigured and its
registers as after a reset; the failure is reported by the return only. -/
def State.fails (s : State) (c : Cause) : State := s.cleared.returns c.status (some c) (.bytes 0) 0

/-- How a configure command ends. -/
def configured (s : State) (r : Except Cause State) : Host.Outcome State Fault Refusal :=
  match r with
  | .ok s' => .next s'.returnsOk
  | .error c => .next (s.fails c)

/-- `(lc, lp, pb)` of a properties byte, or `BadProps` (30_encoding.md rule R120). -/
def configProps (v : Byte) : Except Cause LcLpPb :=
  match decodeProps v with
  | some p => .ok p
  | none => .error .badProps

/-- `ConfigureDict(size)` (rule R436). -/
def State.configureDict (s : State) (size : Word) : Except Cause State :=
  if s.params.dictMax < size then .error .dictTooLarge
  else .ok { s with dict := s.dict.configure size, cfg := { s.cfg with dictSize := size } }

/-- `lc`, `lp`, `pb`, `UnpackSize` and `UnpackRemaining` written, then `StartLzma1()` (rules R432, R433). -/
def State.openLzma1 (s : State) (p : LcLpPb) (unpackSize : U64) : State :=
  { s with
    cfg := { s.cfg with props := p, unpackSize := unpackSize }
    lzma := { s.lzma with unpackRemaining := unpackSize } }.startLzma1

/-- The steps of `ConfigLzma1Raw` (rule R432). -/
def State.configRaw (s : State) (props : List Byte) (unpackSize : U64) : Except Cause State :=
  match props with
  | [v, d0, d1, d2, d3] => do
    let p ← configProps v
    let s1 ← s.configureDict (le32 d0 d1 d2 d3)
    .ok (s1.openLzma1 p unpackSize)
  | _ => .error .badProps

/-- The steps of `ConfigLzma1Alone` (rule R433). -/
def State.configAlone (s : State) (h : Vector Byte 13) : Except Cause State := do
  let p ← configProps h[0]
  let s1 ← s.configureDict (le32 h[1] h[2] h[3] h[4])
  let unpackSize := le64 h[5] h[6] h[7] h[8] h[9] h[10] h[11] h[12]
  if unpackSize = 0xFFFFFFFFFFFFFFFF then .error .unknownSize
  else .ok (s1.openLzma1 p unpackSize)

/-- The steps of `ConfigLzma2` (rule R435). -/
def State.configLzma2 (s : State) (q : Byte) : Except Cause State := do
  match decodeDictProp q with
  | none => .error .badProps
  | some size =>
    let s1 ← s.configureDict size
    .ok { s1 with cfg := { s1.cfg with lzma2DictProp := q } }.startLzma2

/-- `Reset` (rule R431). -/
def execReset (s : State) : Host.Outcome State Fault Refusal :=
  s.accept .reset fun s => .next s.cleared.returnsOk

/-- `ConfigLzma1Raw` (rule R432). -/
def execConfigLzma1Raw (props : List Byte) (unpackSize : U64) (s : State) : Host.Outcome State Fault Refusal :=
  s.accept (.configLzma1Raw props unpackSize) fun s => configured s (s.configRaw props unpackSize)

/-- `ConfigLzma1Alone` (rule R433). -/
def execConfigLzma1Alone (header : Vector Byte 13) (s : State) : Host.Outcome State Fault Refusal :=
  s.accept (.configLzma1Alone header) fun s => configured s (s.configAlone header)

/-- `ConfigLzma2` (rule R435). -/
def execConfigLzma2 (dictProp : Byte) (s : State) : Host.Outcome State Fault Refusal :=
  s.accept (.configLzma2 dictProp) fun s => configured s (s.configLzma2 dictProp)

/-- `Decode` (rule R434): refused while unconfigured (60_exceptions.md rule R468), answered with the latched
status after an error (rule R470); otherwise the call is in progress, and the loop of rule R434 is the
steps that follow, one transaction each (00_scope.md rule R12), until one ends the call. -/
def execDecode (input : List Byte) (outSpace : Nat) (s : State) : Host.Outcome State Fault Refusal :=
  s.accept (.decode input outSpace) fun s =>
    if s.ctl.mode = .unconfigured then .next (s.returns .internalError (some .notConfigured) (.bytes 0) 0)
    else if s.ctl.errorLatched then .next (s.returns s.ctl.status s.ctl.cause (.bytes 0) 0)
    else
      .next { s with
        activity := .decoding
          { input := input, outSpace := outSpace, consumed := 0, produced := 0, noted := none } }

/-- `Bcj2Run` (rule R440; 48_bcj2.md rule R401): the unit is reset and its range decoder initialised; the
loop of rule R401 is the steps that follow, one token each, until the run commits or raises. -/
def execBcj2Run (main call jump rc : List Byte) (outSize : Word) (s : State) : Host.Outcome State Fault Refusal :=
  s.accept (.bcj2Run main call jump rc outSize) fun s =>
    let job : Bcj2Job :=
      { main := main, call := call, jump := jump, rc := rc, outSize := outSize, prev := 0, out := [],
        saved := s.bcj }
    let started : State := { s with activity := .merging job }
    deliver started ((Bcj2Regs.start s.params.checkRcByte0 rc outSize).map fun r => { started with bcj := r })

end Sys2Proof.Machine
end

