-- ==== Sys2Proof/Machine/Packets.lean ====
section
/-! DEFINITION. The seven LZMA1 packets (46_lzma1_core.md rules R304 to R310): what a packet does once its
operands have been read from the stream. Reading it (its decision bits, cells and input bytes) is
`fetchPacket` of Machine/Engine.lean, in the same transaction. -/

namespace Sys2Proof.Machine

/-- A copy packet: the check, the registers the packet writes, the commit (rules R305 to R310). -/
def copyPacket (s : State) (dist len : Nat) (lzma : Lzma) : Host.Outcome State Fault Refusal :=
  deliver s do
    let _ ← s.checkCopy dist len
    { s with lzma := lzma }.commit

/-- `LIT` (rule R304). -/
def execLit (b : Byte) (s : State) : Host.Outcome State Fault Refusal :=
  deliver s do
    let c ← s.call
    c.needSpace
    let s1 ← { s with lzma := { s.lzma with lzState := afterLiteral s.lzma.lzState } }.commit
    let s2 ← s1.dictPut b
    s2.decRemaining

/-- `MATCH` (rule R305). -/
def execMatchNew (dist len : Nat) (s : State) : Host.Outcome State Fault Refusal :=
  copyPacket s dist len { (s.lzma.pushRep dist).startCopy len with lzState := afterMatch s.lzma.lzState }

/-- `SHORTREP` (rule R306). -/
def execShortRep (s : State) : Host.Outcome State Fault Refusal :=
  copyPacket s s.lzma.rep0.toNat 1 { s.lzma.startCopy 1 with lzState := afterShortRep s.lzma.lzState }

/-- `REP0` (rule R307). -/
def execRep0 (len : Nat) (s : State) : Host.Outcome State Fault Refusal :=
  copyPacket s s.lzma.rep0.toNat len { s.lzma.startCopy len with lzState := afterRep s.lzma.lzState }

/-- `REP1` (rule R308). -/
def execRep1 (len : Nat) (s : State) : Host.Outcome State Fault Refusal :=
  copyPacket s s.lzma.rep1.toNat len { s.lzma.useRep1.startCopy len with lzState := afterRep s.lzma.lzState }

/-- `REP2` (rule R309). -/
def execRep2 (len : Nat) (s : State) : Host.Outcome State Fault Refusal :=
  copyPacket s s.lzma.rep2.toNat len { s.lzma.useRep2.startCopy len with lzState := afterRep s.lzma.lzState }

/-- `REP3` (rule R310). -/
def execRep3 (len : Nat) (s : State) : Host.Outcome State Fault Refusal :=
  copyPacket s s.lzma.rep3.toNat len { s.lzma.useRep3.startCopy len with lzState := afterRep s.lzma.lzState }

end Sys2Proof.Machine
end

