-- ==== Sys2Proof/Machine/Dispatch.lean ====
section
/-! DEFINITION. One arm per constructor of `Instr`: the meaning of each row of the opcode table. -/

namespace Sys2Proof.Machine

def exec (i : Instr) (s : State) : Host.Outcome State Fault Refusal :=
  match i with
  -- LZMA1 packets (46_lzma1_core.md)
  | .lit b => Sys2Proof.Machine.execLit b s
  | .matchNew dist len => Sys2Proof.Machine.execMatchNew dist len s
  | .shortRep => Sys2Proof.Machine.execShortRep s
  | .rep0 len => Sys2Proof.Machine.execRep0 len s
  | .rep1 len => Sys2Proof.Machine.execRep1 len s
  | .rep2 len => Sys2Proof.Machine.execRep2 len s
  | .rep3 len => Sys2Proof.Machine.execRep3 len s
  -- LZMA2 control classes (47_lzma2_chunk.md)
  | .l2End => Sys2Proof.Machine.execL2End s
  | .l2CopyReset n => Sys2Proof.Machine.execL2CopyReset n s
  | .l2Copy n => Sys2Proof.Machine.execL2Copy n s
  | .l2Reserved c => Sys2Proof.Machine.execL2Reserved c s
  | .l2LzmaM0 u p => Sys2Proof.Machine.execL2LzmaM0 u p s
  | .l2LzmaM1 u p => Sys2Proof.Machine.execL2LzmaM1 u p s
  | .l2LzmaM2 u p v => Sys2Proof.Machine.execL2LzmaM2 u p v s
  | .l2LzmaM3 u p v => Sys2Proof.Machine.execL2LzmaM3 u p v s
  -- BCJ2 tokens (48_bcj2.md)
  | .bcj2Call prev => Sys2Proof.Machine.execBcj2Call prev s
  | .bcj2Jmp prev => Sys2Proof.Machine.execBcj2Jmp prev s
  | .bcj2Jcc cc => Sys2Proof.Machine.execBcj2Jcc cc s
  | .bcj2Plain prev b => Sys2Proof.Machine.execBcj2Plain prev b s
  -- host commands (49_host_commands.md)
  | .reset => Sys2Proof.Machine.execReset s
  | .configLzma1Raw props unpackSize => Sys2Proof.Machine.execConfigLzma1Raw props unpackSize s
  | .configLzma1Alone header => Sys2Proof.Machine.execConfigLzma1Alone header s
  | .configLzma2 dictProp => Sys2Proof.Machine.execConfigLzma2 dictProp s
  | .decode input outSpace => Sys2Proof.Machine.execDecode input outSpace s
  | .bcj2Run main call jump rc outSize => Sys2Proof.Machine.execBcj2Run main call jump rc outSize s

end Sys2Proof.Machine
end

