-- ==== Sys2Proof/Machine/Engine.lean ====
section
/-! DEFINITION. The engine's loop: fetching a unit from the stream, the transactions that are no row of
the opcode table, and the order of the steps (46_lzma1_core.md rule R320, 47_lzma2_chunk.md rule R351,
48_bcj2.md rule R401). -/

namespace Sys2Proof.Machine

/-- Read the next packet of the stream (46_lzma1_core.md rule R303): the instruction with its operands, and
the state after its decision bits, the values before noted for rollback. -/
def fetchPacket (s : State) : Except Stop (Instr × State) := do
  let c ← s.call
  let (i, rc', probs) ← runProg (packetProg s.packetCtx) (s.rcRegs c) s.lzma.probs
  match i with
  | some i => .ok (i, s.takeRc c rc' probs)
  | none =>
    -- a literal whose operands cannot be read stops as reading them does (42_literal.md rule R225)
    let _ ← s.litOperand
    .error (.fault .outsideCommand)

/-- One packet, fetched and executed, as one transaction (rule R302). -/
def packetStep (s : State) : Host.Outcome State Fault Refusal :=
  match fetchPacket s with
  | .ok (i, s') => exec i s'
  | .error e => deliver s (.error e)

/-- `RcInit()` as a transaction of the loop (40_range_coder.md rule R171; 46_lzma1_core.md rule R320). -/
def rcInitStep (s : State) : Host.Outcome State Fault Refusal :=
  deliver s do
    let c ← s.call
    let rc ← rcInit s.params.checkRcByte0 s.rcSource c.input
    let s' := s.takeRc c rc s.lzma.probs
    { s' with lzma := { s'.lzma with l1Phase := .packets } }.commit

/-- `CopyByte()`, one byte of a pending copy (46_lzma1_core.md rule R313). -/
def copyStep (s : State) : Host.Outcome State Fault Refusal :=
  deliver s do
    let c ← s.call
    c.needSpace
    let b ← s.dict.get s.lzma.pendDist.toNat
    let s1 ← s.dictPut b
    { s1 with lzma := { s1.lzma with pendLen := s1.lzma.pendLen - 1 } }.decRemaining

/-- What one turn of the packet loop gives: a step, or `Done`. -/
inductive LoopResult where
  | stepped (o : Host.Outcome State Fault Refusal)
  | done

/-- `Lzma1Step()` (rule R320), for the call `c` in progress. -/
def lzma1Step (s : State) (c : Call) : LoopResult :=
  match s.lzma.l1Phase with
  | .finished => .done
  | .needInit => .stepped (rcInitStep s)
  | .packets =>
    if s.lzma.pendLen ≠ 0 then .stepped (copyStep s)
    else
      match s.readRemaining with
      | .error e => .stepped (deliver s (.error e))
      | .ok n =>
        if n = 0 then .done
        else if c.outSpace = 0 then .stepped (takeRaise s .needMoreOutput)
        else .stepped (packetStep s)

/-- The end of a stream: the call ends with `Finished` (rules R321, R323; 47_lzma2_chunk.md rule R377). -/
def finishCall (s : State) (c : Call) : State := s.endCall c .finished none false

/-- One step of an LZMA1 call (49_host_commands.md rule R434). -/
def stepLzma1 (s : State) (c : Call) : Host.Outcome State Fault Refusal :=
  match lzma1Step s c with
  | .stepped o => o
  | .done => .next (finishCall { s with lzma := { s.lzma with l1Phase := .finished } } c)

/-- `ChunkHeader()` (47_lzma2_chunk.md rules R352, R353): the whole header is taken, then executed. -/
def headerStep (s : State) (c : Call) : Host.Outcome State Fault Refusal :=
  match decodeHeader c.input with
  | none => takeRaise s .needMoreInput
  | some (i, rest) => exec i (s.take c rest)

/-- `CopyChunkByte()` (rule R369). -/
def copyChunkStep (s : State) (c : Call) : Host.Outcome State Fault Refusal :=
  deliver s do
    c.needSpace
    match c.input with
    | [] => .error (.raise .needMoreInput)
    | b :: rest =>
      let s1 ← (s.take c rest).commit
      let s2 ← s1.dictPut b
      let left := s2.framer.copyRemaining - 1
      .ok { s2 with
        framer := { s2.framer with
          copyRemaining := left
          l2Phase := if left = 0 then .control else s2.framer.l2Phase } }

/-- `EndLzmaChunk()` (rule R373). -/
def endLzmaChunk (s : State) : Host.Outcome State Fault Refusal :=
  if s.framer.chunkPackRemaining ≠ 0 then takeRaise s (.error .packedSizeMismatch)
  else
    .next { s with
      lzma := { s.lzma with l1Phase := .needInit }
      framer := { s.framer with l2Phase := .control } }

/-- `if L1Phase == Packets: L2Phase <- LzmaData`, while the call goes on (rule R351). -/
def markLzmaData (s : State) : State :=
  match s.activity with
  | .decoding _ =>
    if s.lzma.l1Phase = .packets then { s with framer := { s.framer with l2Phase := .lzmaData } } else s
  | .idle => s
  | .merging _ => s

/-- A function of the next state. -/
def mapNext (f : State → State) : Host.Outcome State Fault Refusal → Host.Outcome State Fault Refusal
  | .next s => .next (f s)
  | .fault r => .fault r
  | .refused r => .refused r

/-- One step of an LZMA2 call: `Lzma2Step()` (rule R351). -/
def stepLzma2 (s : State) (c : Call) : Host.Outcome State Fault Refusal :=
  match s.framer.l2Phase with
  | .finished => .next (finishCall s c)
  | .control => headerStep s c
  | .copyData => copyChunkStep s c
  | .lzmaInit =>
    match lzma1Step s c with
    | .stepped o => mapNext markLzmaData o
    | .done => endLzmaChunk s
  | .lzmaData =>
    match lzma1Step s c with
    | .stepped o => mapNext markLzmaData o
    | .done => endLzmaChunk s

/-- One turn of the loop of a BCJ2 run (48_bcj2.md rule R401). -/
def stepMerge (s : State) (j : Bcj2Job) : Host.Outcome State Fault Refusal :=
  if s.bcj.outPos = j.outSize then .next (finishMerge s j)
  else
    match j.main[s.bcj.mainPos.toNat]? with
    | none => takeRaise s (.error .bcj2Truncated)
    | some b => exec (decodePair j.prev b) s

/-- The next command of the host, if one is pending (10_state.md rule R30). -/
def stepIdle (s : State) : Host.Outcome State Fault Refusal :=
  match s.host.cmds with
  | [] => .next s
  | c :: rest => exec c.toInstr { s with host := { s.host with cmds := rest } }

/-- One step of the machine: the command in progress goes on, or the next one begins. -/
def stepBlock (s : State) : Host.Outcome State Fault Refusal :=
  match s.activity with
  | .idle => stepIdle s
  | .merging j => stepMerge s j
  | .decoding c =>
    match s.ctl.mode with
    | .unconfigured => .fault .outsideCommand
    | .lzma1 => stepLzma1 s c
    | .lzma2 => stepLzma2 s c

/-! ## Placing a unit where the next step fetches it -/

/-- An LZMA2 call about to read a chunk header, with these bytes presented. -/
def State.atHeader (s : State) (bs : List Byte) : State :=
  { s with
    ctl := { s.ctl with mode := .lzma2 }
    framer := { s.framer with l2Phase := .control }
    activity := .decoding { input := bs, outSpace := 0, consumed := 0, produced := 0, noted := none } }

/-- A BCJ2 run as after `RcInit` with an `rc` stream of zero bytes, about to examine the byte `b` of `main`
after the output byte `prev`, with one target of zeros in each target stream and eight output bytes due. -/
def State.atToken (s : State) (prev b : Byte) : State :=
  { s with
    activity := .merging
      { main := [b], call := [0, 0, 0, 0], jump := [0, 0, 0, 0], rc := [0, 0, 0, 0, 0], outSize := 8, prev := prev,
        out := [], saved := s.bcj }
    bcj := { Bcj2Regs.initial with code := 0, rcPos := 5, outSize := 8 } }

/-- A unit of the stream or of a BCJ2 run, placed where the next step fetches it. A host command is
placed as the one pending command of an idle block; a packet's decision bits have no bytes of their own
(they are range-coded), so they place nothing. -/
def State.placed (s : State) : Encoding → State
  | .bytes bs => s.atHeader bs
  | .pair prev b => s.atToken prev b
  | .command c => { s with activity := .idle, host := { s.host with cmds := [c] } }
  | .decisions _ => s

end Sys2Proof.Machine
end

