-- ==== Sys2Proof/Machine/Step.lean ====
section
/-! DEFINITION. The step of the machine. -/

namespace Sys2Proof.Machine

/-- One step: one command begun, one transaction of a `Decode` call (00_scope.md rule R12), or one token of a
BCJ2 run. -/
def step (s : State) : Host.Outcome State Fault Refusal := stepBlock s

/-- `s` with a word of the opcode table placed where the next step fetches it (assumption 17). -/
def State.withFetchWord (s : State) (nbits w : Nat) : State := s.placed (tableUnit nbits w)

end Sys2Proof.Machine
end

