-- ==== Sys2Proof/Safety.lean ====
section
/-! DEFINITION. What a well-kept state is (`State.Inv`): the invariants the spec states of its registers
and cells, and those that tie its phases, counters and dictionary together. 93_implementation_defined.md
§1 asks of each `fault` that a proof show it cannot happen: from such a state, no step is a fault. -/

namespace Sys2Proof.Machine

/-- The dictionary within its capacity (10_state.md rules R43 to R45): the write position and every
written cell lie in the ring, and every cell a distance may reach holds a value
(20_memory.md rule R84: "no unwritten cell is ever read"). -/
structure Dict.Kept (d : Dict) (dictMax : Word) : Prop where
  capMin : Config.dictMin.toNat ≤ d.cap.toNat
  capMax : d.cap.toNat ≤ dictMax.toNat
  writePos : d.writePos.toNat < d.cap.toNat
  inRing : ∀ e ∈ d.ram, e.1 < d.cap.toNat
  window : ∀ dist, 1 ≤ dist → dist ≤ d.reach →
    (d.read (ringIndex d.writePos.toNat dist d.cap.toNat)).isSome = true

/-- A probability RAM in its canonical form with every cell within `[31, 2017]`
(40_range_coder.md rule R180). -/
def Probs.kept (m : Probs) : Bool := Probs.wf m && Probs.bounded m

/-- The BCJ2 unit's registers: its cells and `BRange` within their bounds (10_state.md rule R46). -/
structure Bcj2Regs.Kept (r : Bcj2Regs) : Prop where
  probs : Probs.kept r.probs = true
  range : Config.rangeTop ≤ r.range.toNat

/-- An LZMA1 stream: a pending copy fits in what is left of the stream (46_lzma1_core.md rule R312). -/
structure State.Lzma1Kept (s : State) : Prop where
  pend : s.lzma.pendLen.toNat ≤ s.lzma.unpackRemaining.toNat

/-- An LZMA2 stream (10_state.md rules R47 to R50, 47_lzma2_chunk.md rules R357, R372): the two phase registers
go together, an LZMA chunk has met its resets and found its properties set (`NeedInitLevel` 0), and a pending
copy fits in what is left of the chunk. -/
structure State.Lzma2Kept (s : State) : Prop where
  level : s.framer.needInitLevel = 0x00 ∨ s.framer.needInitLevel = 0xC0 ∨ s.framer.needInitLevel = 0xE0
  between : s.framer.l2Phase ≠ .lzmaData → s.lzma.l1Phase = .needInit ∧ s.lzma.pendLen = 0
  inChunk : s.framer.l2Phase = .lzmaInit ∨ s.framer.l2Phase = .lzmaData → s.framer.needInitLevel = 0x00
  inPackets : s.framer.l2Phase = .lzmaData → s.lzma.l1Phase = .packets
  copying : s.framer.l2Phase = .copyData → 1 ≤ s.framer.copyRemaining.toNat
  pend : s.lzma.pendLen.toNat ≤ s.framer.chunkUnpackRemaining.toNat
  unpackMax : s.framer.chunkUnpackRemaining.toNat ≤ 2 ^ 21
  packMax : s.framer.chunkPackRemaining.toNat ≤ 2 ^ 16
  copyMax : s.framer.copyRemaining.toNat ≤ 2 ^ 16

/-- A BCJ2 run in progress (48_bcj2.md rule R401): its output so far, its positions within its streams, the
registers to roll back to. -/
structure Bcj2Job.Kept (j : Bcj2Job) (r : Bcj2Regs) : Prop where
  out : j.out.length = r.outPos.toNat
  outMax : r.outPos.toNat ≤ j.outSize.toNat
  mainPos : r.mainPos.toNat ≤ r.outPos.toNat
  saved : j.saved.Kept

/-- What the command in progress requires of the state. -/
def State.ActivityKept (s : State) : Prop :=
  match s.activity with
  | .idle => True
  | .decoding c => s.ctl.mode ≠ .unconfigured ∧ s.ctl.errorLatched = false ∧ c.noted = none
  | .merging j => j.Kept s.bcj

/-- The invariant of the block between two steps. -/
structure State.Inv (s : State) : Prop where
  dictMax : Config.dictMin.toNat ≤ s.params.dictMax.toNat
  probs : Probs.kept s.lzma.probs = true
  range : Config.rangeTop ≤ s.lzma.range.toNat
  rep0 : 1 ≤ s.lzma.rep0.toNat
  rep1 : 1 ≤ s.lzma.rep1.toNat
  rep2 : 1 ≤ s.lzma.rep2.toNat
  rep3 : 1 ≤ s.lzma.rep3.toNat
  pendLen : s.lzma.pendLen.toNat ≤ Config.matchMaxLen
  pendDist : s.lzma.pendLen ≠ 0 → s.lzma.l1Phase = .packets
  ram : Memory.wf s.dict.ram = true
  dict : s.dict.Kept s.params.dictMax
  lzma1 : s.ctl.mode = .lzma1 → s.Lzma1Kept
  lzma2 : s.ctl.mode = .lzma2 → s.Lzma2Kept
  latched : s.ctl.errorLatched = true → s.ctl.mode ≠ .unconfigured ∧ s.ctl.cause.isSome = true
  bcj : s.bcj.Kept
  activity : s.ActivityKept

/-! ## The terms claims are stated in -/

/-- `Remaining <- Remaining − 1` as the packet registers see it (46_lzma1_core.md rule R300). -/
def Lzma.countDown (l : Lzma) (mode : Mode) : Lzma :=
  match mode with
  | .lzma1 => { l with unpackRemaining := l.unpackRemaining - 1 }
  | .lzma2 => l
  | .unconfigured => l

/-- `Remaining <- Remaining − 1` as the framer sees it. -/
def Framer.countDown (f : Framer) (mode : Mode) : Framer :=
  match mode with
  | .lzma1 => f
  | .lzma2 => { f with chunkUnpackRemaining := f.chunkUnpackRemaining - 1 }
  | .unconfigured => f

/-- A dictionary after one byte (20_memory.md rule R83). -/
def Dict.after (d : Dict) (b : Byte) : Dict :=
  { d with
    ram := sparseSet d.ram d.writePos.toNat b
    writePos := BitVec.ofNat 32 ((d.writePos.toNat + 1) % d.cap.toNat)
    totalWritten := d.totalWritten + 1 }

/-- A call after one byte has been emitted (20_memory.md rule R86). -/
def Call.afterEmit (c : Call) : Call := { c with outSpace := c.outSpace - 1, produced := c.produced + 1 }

/-- A state whose transaction has committed (20_memory.md rule R95): the bytes it took are consumed. -/
def State.committed (s : State) (c : Call) : State :=
  { s with
    activity := .decoding c.committed
    ctl := { s.ctl with inTotal := s.ctl.inTotal + BitVec.ofNat 64 c.taken } }

/-- The block with a fresh `Decode` call of these operands in progress (49_host_commands.md rule R434). -/
def State.calling (s : State) (input : List Byte) (outSpace : Nat) : State :=
  { s with
    host := { s.host with out := [] }
    activity := .decoding { input := input, outSpace := outSpace, consumed := 0, produced := 0, noted := none } }

/-- Step until the command in progress has ended, `k` steps at the most. -/
def runCommand : Nat → State → Host.Outcome State Fault Refusal
  | 0, s => .next s
  | k + 1, s =>
    match s.activity with
    | .idle => .next s
    | .decoding _ | .merging _ =>
      match step s with
      | .next t => runCommand k t
      | .fault f => .fault f
      | .refused r => .refused r

/-- The command in progress in `s` ends in `t`. -/
def State.EndsIn (s t : State) : Prop := t.activity = .idle ∧ ∃ k, runCommand k s = .next t

/-- `k` bytes of a pending copy, one after the other (46_lzma1_core.md rule R313). -/
def copySteps : Nat → State → Host.Outcome State Fault Refusal
  | 0, s => .next s
  | k + 1, s =>
    match copyStep s with
    | .next t => copySteps k t
    | .fault f => .fault f
    | .refused r => .refused r

/-- How many steps the command in progress can still take before the one that ends it: every transaction
takes an input byte or emits an output byte, or is a packet that starts a copy, or ends an LZMA chunk
(46_lzma1_core.md rule R325); every BCJ2 token emits a byte. -/
def State.stepsLeft (s : State) : Nat :=
  match s.activity with
  | .idle => 0
  | .decoding c =>
    3 * (c.input.length + c.outSpace) + (if s.lzma.pendLen = 0 then 1 else 0) +
      (if s.framer.l2Phase = .lzmaInit ∨ s.framer.l2Phase = .lzmaData then 1 else 0)
  | .merging j => j.outSize.toNat - s.bcj.outPos.toNat

end Sys2Proof.Machine

namespace Sys2Proof

/-- One decision of a packet: a bit decoded with the cell named (`DecodeBit`), or a direct bit. -/
inductive Decision where
  | cell (c : Cell) (b : Bool)
  | direct (b : Bool)
  deriving DecidableEq, Repr

/-- The bit decided. -/
def Decision.bit : Decision → Bool
  | .cell _ b => b
  | .direct b => b

/-- The decisions a program takes on a list of bits. -/
def BitProg.path {α : Type} : BitProg α → List Bool → List Decision
  | .done _, _ => []
  | .bit _ _, [] => []
  | .bit c k, b :: l => .cell c b :: (k b).path l
  | .direct _, [] => []
  | .direct k, b :: l => .direct b :: (k b).path l

/-- The decisions of a symbol of `n` bits in a forward bit tree, most significant bit first: before bit `i` the
node is `2^i` plus the `i` bits decided (41_bit_tree.md rule R201). -/
def treeDecisions (cell : Nat → Cell) (n sym : Nat) : List Decision :=
  (List.range n).map fun i => .cell (cell (2 ^ i + sym / 2 ^ (n - i))) (sym.testBit (n - 1 - i))

/-- The decisions of a symbol of `n` bits in a reverse bit tree, least significant bit first: the node before bit
`i` is the bits decided, in the order decided, behind a leading 1 (rule R203). -/
def reverseDecisions (cell : Nat → Cell) (n sym : Nat) : List Decision :=
  (List.range n).map fun i =>
    .cell (cell ((lsbBits i sym).foldl (fun m b => 2 * m + b.toNat) 1)) (sym.testBit i)

/-- The cell of bit `i` of a literal (30_encoding.md rule R127): the node in normal mode; in matched mode
`0x100 + matchBit · 0x100 + node` while the bits decided agree with the match byte, then the node. -/
def literalCell (src : LitSrc) (b : Byte) (i : Nat) : Cell :=
  let node := 2 ^ i + b.toNat / 2 ^ (8 - i)
  match src.matchByte with
  | none => .literal src.ctx node
  | some mb =>
    if mb.toNat / 2 ^ (8 - i) = b.toNat / 2 ^ (8 - i) then
      .literal src.ctx (0x100 + mb.toNat / 2 ^ (7 - i) % 2 * 0x100 + node)
    else .literal src.ctx node

/-- The eight decisions of a literal, most significant bit first. -/
def literalDecisions (src : LitSrc) (b : Byte) : List Decision :=
  (List.range 8).map fun i => .cell (literalCell src b i) (b.toNat.testBit (7 - i))

/-- The decisions of a length (30_encoding.md rule R128). -/
def lengthDecisions (d : LenSel) (ps len : Nat) : List Decision :=
  if len < 10 then .cell (.lenChoice d) false :: treeDecisions (.lenLow d ps) 3 (len - 2)
  else if len < 18 then
    .cell (.lenChoice d) true :: .cell (.lenChoice2 d) false :: treeDecisions (.lenMid d ps) 3 (len - 10)
  else .cell (.lenChoice d) true :: .cell (.lenChoice2 d) true :: treeDecisions (.lenHigh d) 8 (len - 18)

/-- The decisions of the bits of a distance within its slot (rule R129). -/
def offsetDecisions (slot off : Nat) : List Decision :=
  if slot < 4 then []
  else if slot < 14 then reverseDecisions (.specPos slot) (slotBits slot) off
  else (msbBits (slotBits slot - 4) (off / 16)).map .direct ++ reverseDecisions .align 4 (off % 16)

/-- The decisions of a distance (rule R129). -/
def distanceDecisions (len dist : Nat) : List Decision :=
  treeDecisions (.posSlot (min (len - 2) 3)) 6 (slotOf dist) ++
    offsetDecisions (slotOf dist) (dist - 1 - slotBase (slotOf dist))

/-- The decisions of a packet, in order: the table of 30_encoding.md rule R125 with `s` and `ps`, then the fields
that follow. A literal whose operands cannot be read has only its first decision (42_literal.md rule R225). -/
def Instr.decisions (s ps : Nat) (lit : Option LitSrc) : Instr → List Decision
  | .lit b => .cell (.isMatch s ps) false :: (lit.map (literalDecisions · b)).getD []
  | .matchNew dist len =>
    [.cell (.isMatch s ps) true, .cell (.isRep s) false] ++ lengthDecisions .len ps len ++ distanceDecisions len dist
  | .shortRep =>
    [.cell (.isMatch s ps) true, .cell (.isRep s) true, .cell (.isRepG0 s) false, .cell (.isRep0Long s ps) false]
  | .rep0 len =>
    [.cell (.isMatch s ps) true, .cell (.isRep s) true, .cell (.isRepG0 s) false, .cell (.isRep0Long s ps) true] ++
      lengthDecisions .repLen ps len
  | .rep1 len =>
    [.cell (.isMatch s ps) true, .cell (.isRep s) true, .cell (.isRepG0 s) true, .cell (.isRepG1 s) false] ++
      lengthDecisions .repLen ps len
  | .rep2 len =>
    [.cell (.isMatch s ps) true, .cell (.isRep s) true, .cell (.isRepG0 s) true, .cell (.isRepG1 s) true,
      .cell (.isRepG2 s) false] ++ lengthDecisions .repLen ps len
  | .rep3 len =>
    [.cell (.isMatch s ps) true, .cell (.isRep s) true, .cell (.isRepG0 s) true, .cell (.isRepG1 s) true,
      .cell (.isRepG2 s) true] ++ lengthDecisions .repLen ps len
  | _ => []

/-- The range decoder gives these decisions, one after the other, and ends at `rc'`, each cell having the value it
has in `m`: no packet names a cell twice. -/
def Machine.Rc.Follows (m : Machine.Probs) : Machine.Rc → List Decision → Machine.Rc → Prop
  | rc, [], rc' => rc = rc'
  | rc, .cell c b :: ds, rc' =>
    ∃ p rc1, Machine.decodeBit (m.read (Machine.cellKey c)) rc = .ok (b, p, rc1) ∧ rc1.Follows m ds rc'
  | rc, .direct b :: ds, rc' => ∃ rc1, Machine.decodeDirect rc = .ok (b, rc1) ∧ rc1.Follows m ds rc'

/-- Every cell a program of decision bits names has the property `P`, and every result it gives has the
property `Q`. -/
def BitProg.All {α : Type} (P : Cell → Prop) (Q : α → Prop) : BitProg α → Prop
  | .done a => Q a
  | .bit c k => P c ∧ ∀ b, (k b).All P Q
  | .direct k => ∀ b, (k b).All P Q

/-- The units that are LZMA1 packets (46_lzma1_core.md rules R304 to R310). -/
def Instr.isPacket : Instr → Bool
  | .lit _ => true
  | .matchNew _ _ => true
  | .shortRep => true
  | .rep0 _ => true
  | .rep1 _ => true
  | .rep2 _ => true
  | .rep3 _ => true
  | .l2End => false
  | .l2CopyReset _ => false
  | .l2Copy _ => false
  | .l2Reserved _ => false
  | .l2LzmaM0 _ _ => false
  | .l2LzmaM1 _ _ => false
  | .l2LzmaM2 _ _ _ => false
  | .l2LzmaM3 _ _ _ => false
  | .bcj2Call _ => false
  | .bcj2Jmp _ => false
  | .bcj2Jcc _ => false
  | .bcj2Plain _ _ => false
  | .reset => false
  | .configLzma1Raw _ _ => false
  | .configLzma1Alone _ => false
  | .configLzma2 _ => false
  | .decode _ _ => false
  | .bcj2Run _ _ _ _ _ => false

/-- The distance and the length a copy packet copies (46_lzma1_core.md rules R305 to R310), with the rep
distances as they stand before it. -/
def Instr.copyOperands (l : Machine.Lzma) : Instr → Option (Nat × Nat)
  | .matchNew dist len => some (dist, len)
  | .shortRep => some (l.rep0.toNat, 1)
  | .rep0 len => some (l.rep0.toNat, len)
  | .rep1 len => some (l.rep1.toNat, len)
  | .rep2 len => some (l.rep2.toNat, len)
  | .rep3 len => some (l.rep3.toNat, len)
  | _ => none

/-- The opcode byte, the control cell and the target stream of a branch token (30_encoding.md rule R136). -/
def Instr.branchOperands : Instr → Option (Byte × Nat × Machine.TargetStream)
  | .bcj2Call prev => some (0xE8, prev.toNat, .call)
  | .bcj2Jmp _ => some (0xE9, 256, .jump)
  | .bcj2Jcc cc => some (BitVec.ofNat 8 (0x80 + cc.toNat), 257, .jump)
  | _ => none

end Sys2Proof
end

