-- ==== Sys2Proof/Certificates/Slice0/Obligations.lean ====
section
/-! DEFINITION. What the provers are asked to prove of the model: encodings, the range decoder, the packets,
the chunk headers, the BCJ2 tokens, the host commands, and the rules about the whole machine. -/

open Sys2Proof Sys2Proof.Machine

/-! ## Encodings (30_encoding.md) -/

/-- Every well-formed unit, with every operand, is what its own encoding decodes to (R125 to R136). -/
def Obligations.DecodeOfEncodeIsTheUnit : Prop :=
  ∀ i : Instr, i.wellFormed = true → decode (encode i) = some i

/-- The other direction: an encoding that decodes is the encoding of the unit it decodes to, and that unit is
well-formed (R125: "complete and prefix-free"; R138: no unused encodings). -/
def Obligations.EncodeOfDecodeIsTheEncoding : Prop :=
  ∀ (e : Encoding) (i : Instr), decode e = some i → encode i = e ∧ i.wellFormed = true

/-- A few words written out from the tables of R125 to R136. -/
def Obligations.SpecWordsDecodeToTheirUnits : Prop :=
  decode (.decisions [false, false, true, true, false, false, false, false, true]) = some (.lit 0x61) ∧
  decode (.decisions [true, false, false, false, true, false, false, false, false, false, false, true])
    = some (.matchNew 2 4) ∧
  decode (.decisions [true, true, false, false]) = some .shortRep ∧
  decode (.decisions [true, true, true, true, false, false, false, false, true]) = some (.rep2 3) ∧
  decode (.bytes [0x01, 0x00, 0x04]) = some (.l2CopyReset 4) ∧
  decode (.bytes [0xE0, 0x00, 0x05, 0x00, 0x07, 0x5D]) = some (.l2LzmaM3 5 7 0x5D) ∧
  decode (.bytes [0x81, 0x00, 0x02, 0x00, 0x06]) = some (.l2LzmaM0 0x10002 6) ∧
  decode (.pair 0x90 0xE8) = some (.bcj2Call 0x90) ∧
  decode (.pair 0x0F 0x85) = some (.bcj2Jcc 5) ∧
  decode (.pair 0x0E 0x85) = some (.bcj2Plain 0x0E 0x85)

/-- R134: the control byte alone tells how long a chunk header is; a shorter prefix is not yet a header, and a
whole one is taken exactly. -/
def Obligations.ControlByteTellsHeaderLength : Prop :=
  ∀ (c : Byte) (t : List Byte) (n : Nat),
    n = (if c = 0x00 then 1 else if c = 0x01 ∨ c = 0x02 then 3 else if c < 0x80 then 1
         else if c < 0xC0 then 5 else 6) →
    ((c :: t).length < n → decodeHeader (c :: t) = none) ∧
    (n ≤ (c :: t).length → ∃ i, decodeHeader (c :: t) = some (i, (c :: t).drop n))

/-- R120: the properties byte and `(lc, lp, pb)` are in bijection below 225, and above it both readers of a
properties byte raise `BadProps`. -/
def Obligations.PropsByteIsABijection : Prop :=
  (∀ v : Byte, v.toNat ≤ 224 →
    ∃ p, decodeProps v = some p ∧ configProps v = .ok p ∧ chunkProps v = .ok p ∧
      p.lc.val = v.toNat % 9 ∧ p.lp.val = v.toNat / 9 % 5 ∧ p.pb.val = v.toNat / 45 ∧ encodeProps p = v) ∧
  (∀ v : Byte, 224 < v.toNat →
    configProps v = .error .badProps ∧ chunkProps v = .error (.raise (.error .badProps))) ∧
  (∀ p : LcLpPb, decodeProps (encodeProps p) = some p ∧
    (encodeProps p).toNat = p.lc.val + 9 * p.lp.val + 45 * p.pb.val) ∧
  decodeProps 0x5D = some { lc := 3, lp := 0, pb := 2 }

/-- The formula of R123 for the LZMA2 dictionary property, in unbounded arithmetic. (The formula is followed
where the rule's prose gives 4 MiB for q = 18: log entry 29.) -/
def Obligations.DictPropFollowsItsFormula : Prop :=
  ∀ q : Byte,
    (q.toNat < 40 →
      ∃ size, decodeDictProp q = some size ∧ size.toNat = (2 ||| (q.toNat &&& 1)) <<< (q.toNat / 2 + 11)) ∧
    (q.toNat = 40 → decodeDictProp q = some 0xFFFFFFFF) ∧
    (40 < q.toNat → decodeDictProp q = none)

/-! ## Probability cells (10_state.md) -/

/-- The next packet, whatever it turns out to be, names only cells inside the arrays of R35, for the `lc`, `lp`, `pb`
in force (R220: the context is below 2^(lc+lp); R301: posState is below 2^pb); and which cells: those of the tables of
R125 and R127 to R129, with `State`, with posState (R301), and for a literal with the context of R220 and R221 and, exactly
when `State` is 7 or more, the match byte at distance `Rep0` (R224, R225). -/
def Obligations.PacketNamesOnlyCellsOfTheRam : Prop :=
  (∀ (s : State) (ps : Nat), ps = s.dict.totalWritten.toNat % 2 ^ s.cfg.props.pb.val →
    ps < 2 ^ s.cfg.props.pb.val ∧
    (packetProg s.packetCtx).All (fun cell => cell.valid (s.cfg.props.lc.val + s.cfg.props.lp.val) = true)
      (fun _ => True) ∧
    (∀ (i : Instr) (bits : List Bool), i.isPacket = true → i.wellFormed = true → encode i = .decisions bits →
      (packetProg s.packetCtx).path bits = i.decisions s.lzma.lzState.val ps s.packetCtx.lit) ∧
    (∀ src, s.packetCtx.lit = some src → ∃ prev : Byte,
      (s.dict.totalWritten = 0 → prev = 0) ∧ (s.dict.totalWritten ≠ 0 → s.dict.get 1 = .ok prev) ∧
      src.ctx = s.dict.totalWritten.toNat % 2 ^ s.cfg.props.lp.val * 2 ^ s.cfg.props.lc.val +
        prev.toNat / 2 ^ (8 - s.cfg.props.lc.val) ∧
      (s.lzma.lzState.val < 7 → src.matchByte = none) ∧
      (7 ≤ s.lzma.lzState.val → ∃ mb, s.dict.get s.lzma.rep0.toNat = .ok mb ∧ src.matchByte = some mb))) ∧
  (∀ (s : State) (dictMax : Word), s.dict.Kept dictMax → s.packetCtx.lit = none →
    7 ≤ s.lzma.lzState.val ∧ s.dict.get s.lzma.rep0.toNat = .error (.raise (.error .invalidDistance)))

/-- R34: no two cells share storage. -/
def Obligations.CellsShareNoStorage : Prop :=
  ∀ (lcLp : Nat) (a b : Cell), a.valid lcLp = true → b.valid lcLp = true → cellKey a = cellKey b → a = b

/-! ## Range decoder (40_range_coder.md) -/

/-- R173 in unbounded arithmetic: the bound, the bit, the new interval, the adapted cell, the one
normalisation byte; a byte that is not there leaves nothing but the event. -/
def Obligations.DecodeBitFollowsItsRule : Prop :=
  ∀ (p : Prob) (rc : Rc) (bound range' code' p' : Nat) (bit : Bool), probOk p = true →
    Config.rangeTop ≤ rc.range.toNat → bound = rc.range.toNat / 2 ^ 11 * p.toNat →
    ((bit = false ∧ rc.code.toNat < bound ∧ range' = bound ∧ code' = rc.code.toNat ∧
        p' = p.toNat + (2048 - p.toNat) / 32) ∨
      (bit = true ∧ bound ≤ rc.code.toNat ∧ range' = rc.range.toNat - bound ∧ code' = rc.code.toNat - bound ∧
        p' = p.toNat - p.toNat / 32)) →
    decodeBit p rc =
      if range' < 2 ^ 24 then
        (rcByte rc.src rc.bytes).map fun x =>
          (bit, BitVec.ofNat 11 p',
            { range := BitVec.ofNat 32 (range' * 256), code := BitVec.ofNat 32 (code' * 256 + x.1.toNat),
              src := x.2.1, bytes := x.2.2 })
      else
        .ok (bit, BitVec.ofNat 11 p', { rc with range := BitVec.ofNat 32 range', code := BitVec.ofNat 32 code' })

/-- R174 and R175: the two adaptations, the sequences from 1024 the rules give, and their fixed points. -/
def Obligations.AdaptationFollowsItsRules : Prop :=
  (∀ p : Prob, (probUp p).toNat = p.toNat + (2048 - p.toNat) / 32 ∧ (probDown p).toNat = p.toNat - p.toNat / 32) ∧
  (probUp^[1] 1024 = 1056 ∧ probUp^[2] 1024 = 1087 ∧ probUp^[3] 1024 = 1117 ∧ probUp^[4] 1024 = 1146) ∧
  (probDown^[1] 1024 = 992 ∧ probDown^[2] 1024 = 961 ∧ probDown^[3] 1024 = 931 ∧ probDown^[4] 1024 = 902) ∧
  (∀ k, probUp^[k] 1024 = 2017 ↔ 127 ≤ k) ∧ (∀ k, probDown^[k] 1024 = 31 ↔ 127 ≤ k)

/-- One step of R178 in unbounded arithmetic. -/
def Obligations.DirectBitFollowsItsRule : Prop :=
  ∀ (rc : Rc) (range' code' : Nat) (bit : Bool), Config.rangeTop ≤ rc.range.toNat →
    range' = rc.range.toNat / 2 →
    ((bit = true ∧ range' ≤ rc.code.toNat ∧ code' = rc.code.toNat - range') ∨
      (bit = false ∧ rc.code.toNat < range' ∧ code' = rc.code.toNat)) →
    decodeDirect rc =
      if range' < 2 ^ 24 then
        (rcByte rc.src rc.bytes).map fun x =>
          (bit, { range := BitVec.ofNat 32 (range' * 256), code := BitVec.ofNat 32 (code' * 256 + x.1.toNat),
                  src := x.2.1, bytes := x.2.2 })
      else .ok (bit, { rc with range := BitVec.ofNat 32 range', code := BitVec.ofNat 32 code' })

/-- The byte source of the range decoder (R172) and its order of checks (60_exceptions.md R469): a chunk's
budget before the presence of a byte. -/
def Obligations.ByteRequestChecksBudgetFirst : Prop :=
  (∀ (b : Byte) (t : List Byte), rcByte .stream (b :: t) = .ok (b, .stream, t)) ∧
  rcByte .stream [] = .error (.raise .needMoreInput) ∧
  (∀ (left : BitVec 17) (b : Byte) (t : List Byte), left ≠ 0 →
    rcByte (.chunk left) (b :: t) = .ok (b, .chunk (left - 1), t)) ∧
  (∀ left : BitVec 17, left ≠ 0 → rcByte (.chunk left) [] = .error (.raise .needMoreInput)) ∧
  (∀ bytes : List Byte, rcByte (.chunk 0) bytes = .error (.raise (.error .packedOverrun))) ∧
  (∀ (b : Byte) (t : List Byte), rcByte .bcj2 (b :: t) = .ok (b, .bcj2, t)) ∧
  rcByte .bcj2 [] = .error (.raise (.error .bcj2Truncated))

/-- `RcInit` of the engine (R171, R183): five bytes or none, `Code` big-endian from bytes 1 to 4, an LZMA
chunk's budget checked first (the order is the model's reading, log entry 10), byte 0 checked only under the parameter. -/
def Obligations.InitTakesFiveBytesOrNone : Prop :=
  ∀ (s : State) (c : Call), s.activity = .decoding c → c.noted = none →
    (∀ b0 b1 b2 b3 b4 rest, c.input = b0 :: b1 :: b2 :: b3 :: b4 :: rest →
      (s.params.checkRcByte0 = true → b0 = 0) →
      (s.ctl.mode = .lzma1 →
        rcInitStep s = .next { s with
          lzma := { s.lzma with range := 0xFFFFFFFF, code := be32 b1 b2 b3 b4, l1Phase := .packets }
          activity := .decoding { c with input := rest, consumed := c.consumed + 5 }
          ctl := { s.ctl with inTotal := s.ctl.inTotal + 5 } }) ∧
      (s.ctl.mode = .lzma2 → 5 ≤ s.framer.chunkPackRemaining.toNat →
        rcInitStep s = .next { s with
          lzma := { s.lzma with range := 0xFFFFFFFF, code := be32 b1 b2 b3 b4, l1Phase := .packets }
          framer := { s.framer with chunkPackRemaining := s.framer.chunkPackRemaining - 5 }
          activity := .decoding { c with input := rest, consumed := c.consumed + 5 }
          ctl := { s.ctl with inTotal := s.ctl.inTotal + 5 } })) ∧
    (s.ctl.mode = .lzma2 → s.framer.chunkPackRemaining.toNat < 5 →
      rcInitStep s = .next (s.endCall c .invalidData (some .packedOverrun) true)) ∧
    ((s.ctl.mode = .lzma1 ∨ s.ctl.mode = .lzma2 ∧ 5 ≤ s.framer.chunkPackRemaining.toNat) →
      (c.input.length < 5 → rcInitStep s = .next (s.endCall c .needMoreInput none false)) ∧
      (∀ b0 rest, c.input = b0 :: rest → 4 ≤ rest.length → b0 ≠ 0 → s.params.checkRcByte0 = true →
        rcInitStep s = .next (s.endCall c .invalidData (some .badRcInit) true)))

/-! ## Fetching a packet (46_lzma1_core.md) -/

/-- A fetched packet is a well-formed packet, and the decision bits the range decoder gave are exactly its
encoding: the state only names the cells (R125, R303). What it leaves (R173, R302): `Range` and `Code` as the last
decision leaves them, the bytes taken, each cell read adapted by its bit, and every other cell as it was; nothing else is
written but the values noted for rollback. -/
def Obligations.FetchedPacketIsWhatItsBitsEncode : Prop :=
  ∀ (s s' : State) (c : Call) (i : Instr), s.activity = .decoding c → fetchPacket s = .ok (i, s') →
    i.isPacket = true ∧ i.wellFormed = true ∧
    ∃ (bits : List Bool) (ds : List Decision) (rc' : Rc) (m : Probs),
      encode i = .decisions bits ∧ ds = (packetProg s.packetCtx).path bits ∧ ds.map Decision.bit = bits ∧
      Rc.Follows s.lzma.probs
        { range := s.lzma.range, code := s.lzma.code, src := s.rcSource, bytes := c.input } ds rc' ∧
      s' = { s with
        lzma := { s.lzma with range := rc'.range, code := rc'.code, probs := m }
        framer := { s.framer with chunkPackRemaining := rc'.src.budget s.framer.chunkPackRemaining }
        activity := .decoding { c with input := rc'.bytes, noted := some (s.notedNow c) } } ∧
      (Probs.wf s.lzma.probs = true → ∀ cell b, .cell cell b ∈ ds →
        m.read (cellKey cell) =
          if b then probDown (s.lzma.probs.read (cellKey cell)) else probUp (s.lzma.probs.read (cellKey cell))) ∧
      (∀ key, (∀ cell b, .cell cell b ∈ ds → cellKey cell ≠ key) → m.read key = s.lzma.probs.read key)

/-- R314: how many input bytes a packet takes at the most, and that 48 presented bytes are never too few. -/
def Obligations.PacketTakesAtMostFortyEightBytes : Prop :=
  ∀ (s : State) (c : Call), s.Inv → s.activity = .decoding c → s.lzma.l1Phase = .packets →
    (s.ctl.mode = .lzma2 → s.framer.l2Phase = .lzmaData) →
    (∀ i s' c', fetchPacket s = .ok (i, s') → s'.activity = .decoding c' →
      ∃ k, c'.input = c.input.drop k ∧ k ≤ c.input.length ∧ k ≤ 48 ∧
        ((∃ b, i = .lit b) → k ≤ 9) ∧ (i = .shortRep → k ≤ 4) ∧
        ((∃ len, i = .rep0 len ∨ i = .rep1 len ∨ i = .rep2 len ∨ i = .rep3 len) → k ≤ 15)) ∧
    (48 ≤ c.input.length → fetchPacket s ≠ .error (.raise .needMoreInput))

/-- A packet that is read whole is read the same whatever further bytes are presented (R324). -/
def Obligations.FetchIgnoresLaterInput : Prop :=
  ∀ (s s' : State) (c : Call) (i : Instr) (more : List Byte), s.activity = .decoding c →
    fetchPacket s = .ok (i, s') →
    ∃ rc m, s' = s.takeRc c rc m ∧
      fetchPacket { s with activity := .decoding { c with input := c.input ++ more } } =
        .ok (i, s.takeRc { c with input := c.input ++ more } { rc with bytes := rc.bytes ++ more } m)

/-! ## Packets (46_lzma1_core.md R304 to R312) -/

/-- R304 once the literal is read: the byte is written to the ring and the output, `State` moves, `Remaining`
counts down; every other cell of the ring, the rep distances and every other register are unchanged. -/
def Obligations.LitWritesItsByte : Prop :=
  ∀ (s : State) (c : Call) (n : Nat) (b : Byte), s.activity = .decoding c → c.outSpace ≠ 0 →
    1 ≤ s.dict.cap.toNat → s.readRemaining = .ok n →
    ∃ t, exec (.lit b) s = .next t ∧
      t.dict.read s.dict.writePos.toNat = some b ∧
      (∀ a, a ≠ s.dict.writePos.toNat → t.dict.read a = s.dict.read a) ∧
      t.dict.writePos.toNat = (s.dict.writePos.toNat + 1) % s.dict.cap.toNat ∧
      t.dict.totalWritten = s.dict.totalWritten + 1 ∧ t.dict.cap = s.dict.cap ∧
      t.lzma = { s.lzma with lzState := afterLiteral s.lzma.lzState }.countDown s.ctl.mode ∧
      t.framer = s.framer.countDown s.ctl.mode ∧
      t.host = { s.host with out := s.host.out ++ [b] } ∧
      t.activity = .decoding { c with
        noted := none, consumed := c.consumed + c.taken, outSpace := c.outSpace - 1, produced := c.produced + 1 } ∧
      t.ctl = { s.ctl with
        inTotal := s.ctl.inTotal + BitVec.ofNat 64 c.taken, outTotal := s.ctl.outTotal + 1 } ∧
      t.params = s.params ∧ t.cfg = s.cfg ∧ t.bcj = s.bcj

/-- R305 once length and distance are read: the rep distances shift, the copy is pending, nothing is emitted,
and everything else is unchanged. -/
def Obligations.MatchStartsItsCopy : Prop :=
  ∀ (s : State) (c : Call) (n dist len : Nat), s.activity = .decoding c →
    s.readRemaining = .ok n → 1 ≤ dist → dist ≤ min s.dict.totalWritten.toNat s.dict.cap.toNat → len ≤ n →
    exec (.matchNew dist len) s = .next { s.committed c with
      lzma := { s.lzma with
        rep0 := BitVec.ofNat 32 dist, rep1 := s.lzma.rep0, rep2 := s.lzma.rep1, rep3 := s.lzma.rep2
        lzState := afterMatch s.lzma.lzState
        pendLen := BitVec.ofNat 9 len, pendDist := BitVec.ofNat 32 dist } }

/-- R306. -/
def Obligations.ShortRepStartsItsCopy : Prop :=
  ∀ (s : State) (c : Call) (n : Nat), s.activity = .decoding c →
    s.readRemaining = .ok n → 1 ≤ s.lzma.rep0.toNat →
    s.lzma.rep0.toNat ≤ min s.dict.totalWritten.toNat s.dict.cap.toNat → 1 ≤ n →
    exec .shortRep s = .next { s.committed c with
      lzma := { s.lzma with
        lzState := afterShortRep s.lzma.lzState, pendLen := 1, pendDist := s.lzma.rep0 } }

/-- R307 to R310: each rep packet copies from its own distance, which moves to the front of the others; all
else is unchanged. -/
def Obligations.RepPacketsStartTheirCopies : Prop :=
  ∀ (s : State) (c : Call) (n len : Nat), s.activity = .decoding c →
    s.readRemaining = .ok n → len ≤ n →
    (1 ≤ s.lzma.rep0.toNat → s.lzma.rep0.toNat ≤ min s.dict.totalWritten.toNat s.dict.cap.toNat →
      exec (.rep0 len) s = .next { s.committed c with
        lzma := { s.lzma with
          lzState := afterRep s.lzma.lzState, pendLen := BitVec.ofNat 9 len, pendDist := s.lzma.rep0 } }) ∧
    (1 ≤ s.lzma.rep1.toNat → s.lzma.rep1.toNat ≤ min s.dict.totalWritten.toNat s.dict.cap.toNat →
      exec (.rep1 len) s = .next { s.committed c with
        lzma := { s.lzma with
          rep0 := s.lzma.rep1, rep1 := s.lzma.rep0
          lzState := afterRep s.lzma.lzState, pendLen := BitVec.ofNat 9 len, pendDist := s.lzma.rep1 } }) ∧
    (1 ≤ s.lzma.rep2.toNat → s.lzma.rep2.toNat ≤ min s.dict.totalWritten.toNat s.dict.cap.toNat →
      exec (.rep2 len) s = .next { s.committed c with
        lzma := { s.lzma with
          rep0 := s.lzma.rep2, rep1 := s.lzma.rep0, rep2 := s.lzma.rep1
          lzState := afterRep s.lzma.lzState, pendLen := BitVec.ofNat 9 len, pendDist := s.lzma.rep2 } }) ∧
    (1 ≤ s.lzma.rep3.toNat → s.lzma.rep3.toNat ≤ min s.dict.totalWritten.toNat s.dict.cap.toNat →
      exec (.rep3 len) s = .next { s.committed c with
        lzma := { s.lzma with
          rep0 := s.lzma.rep3, rep1 := s.lzma.rep0, rep2 := s.lzma.rep1, rep3 := s.lzma.rep2
          lzState := afterRep s.lzma.lzState, pendLen := BitVec.ofNat 9 len, pendDist := s.lzma.rep3 } })

/-- R311, R312 and the order of the two checks (60_exceptions.md R469): a copy packet whose distance is out of
reach raises `InvalidDistance` whatever its length, one that is too long for what remains `MatchPastEnd`;
the transaction is rolled back and the error is latched. The distance `2^32` is always out of reach (44_distance.md
R266). -/
def Obligations.CopyPacketsCheckDistanceThenLength : Prop :=
  ∀ (s : State) (c : Call) (n dist len : Nat) (i : Instr), s.activity = .decoding c →
    s.readRemaining = .ok n → i.copyOperands s.lzma = some (dist, len) →
    ((dist < 1 ∨ min s.dict.totalWritten.toNat s.dict.cap.toNat < dist) →
      exec i s = .next ((s.rollback c).endCall c .invalidData (some .invalidDistance) true)) ∧
    (dist = 2 ^ 32 → min s.dict.totalWritten.toNat s.dict.cap.toNat < dist) ∧
    (1 ≤ dist → dist ≤ min s.dict.totalWritten.toNat s.dict.cap.toNat → n < len →
      exec i s = .next ((s.rollback c).endCall c .invalidData (some .matchPastEnd) true))

/-- R281 to R285: after a packet `State` is a literal state exactly when the packet was a literal, and its value
is the one the transition functions give. -/
def Obligations.StateTellsTheLastPacket : Prop :=
  ∀ (s t : State) (c c' : Call) (i : Instr), i.isPacket = true → s.activity = .decoding c →
    exec i s = .next t → t.activity = .decoding c' →
    ((∃ b, i = .lit b) →
      t.lzma.lzState.val =
        if s.lzma.lzState.val < 4 then 0 else if s.lzma.lzState.val < 10 then s.lzma.lzState.val - 3
        else s.lzma.lzState.val - 6) ∧
    ((∃ dist len, i = .matchNew dist len) → t.lzma.lzState.val = if s.lzma.lzState.val < 7 then 7 else 10) ∧
    ((∃ len, i = .rep0 len ∨ i = .rep1 len ∨ i = .rep2 len ∨ i = .rep3 len) →
      t.lzma.lzState.val = if s.lzma.lzState.val < 7 then 8 else 11) ∧
    (i = .shortRep → t.lzma.lzState.val = if s.lzma.lzState.val < 7 then 9 else 11) ∧
    (isLiteralState t.lzma.lzState = true ↔ ∃ b, i = .lit b)

/-! ## Dictionary and copies (20_memory.md, 46_lzma1_core.md R313) -/

/-- R81, R83, R84 within a kept ring: the byte just written is at distance 1, what was at distance `k` is at
distance `k + 1`; a distance within `[1, min(TotalWritten, DictCap)]` reads the cell `(WritePos − dist) mod DictCap`, one
outside it is `InvalidDistance`. -/
def Obligations.WrittenBytesMoveOneDistanceBack : Prop :=
  ∀ (d : Dict) (dictMax : Word) (b : Byte), d.Kept dictMax → d.totalWritten.toNat + 1 < 2 ^ 64 →
    (d.put b).Kept dictMax ∧ (d.put b).cap = d.cap ∧ (d.put b).get 1 = .ok b ∧
    (∀ k, 1 ≤ k → k < d.cap.toNat → (d.put b).get (k + 1) = d.get k) ∧
    (∀ dist, 1 ≤ dist → dist ≤ min d.totalWritten.toNat d.cap.toNat →
      ∃ x, d.get dist = .ok x ∧
        d.read (((d.writePos.toNat : Int) - (dist : Int)) % (d.cap.toNat : Int)).toNat = some x) ∧
    (∀ dist, dist < 1 ∨ min d.totalWritten.toNat d.cap.toNat < dist →
      d.get dist = .error (.raise (.error .invalidDistance)))

/-- R313: one byte of a pending copy; the frame is said by the whole next state. (That `PendDist` keeps its value
when `PendLen` counts down from 1 to 0, where R42 and R501 leave it unspecified, is the model's choice: log entry 18.) -/
def Obligations.CopyStepCopiesOneByte : Prop :=
  ∀ (s : State) (c : Call) (n : Nat) (b : Byte), s.activity = .decoding c →
    s.readRemaining = .ok n → s.dict.get s.lzma.pendDist.toNat = .ok b →
    (c.outSpace ≠ 0 →
      copyStep s = .next { s with
        lzma := { s.lzma with pendLen := s.lzma.pendLen - 1 }.countDown s.ctl.mode
        framer := s.framer.countDown s.ctl.mode
        dict := s.dict.after b
        activity := .decoding { c with outSpace := c.outSpace - 1, produced := c.produced + 1 }
        host := { s.host with out := s.host.out ++ [b] }
        ctl := { s.ctl with outTotal := s.ctl.outTotal + 1 } }) ∧
    (c.outSpace = 0 → c.noted = none → copyStep s = .next (s.endCall c .needMoreOutput none false))

/-- R85: a copy of `len` bytes at distance `dist` repeats the last `dist` bytes, the bytes it has itself written
among them. -/
def Obligations.OverlappingCopyRepeatsItself : Prop :=
  ∀ (s : State) (c : Call) (dist : Word) (n len : Nat), s.Inv → s.activity = .decoding c →
    s.readRemaining = .ok n → s.lzma.pendDist = dist → s.lzma.pendLen.toNat = len →
    len ≤ n → len ≤ c.outSpace → 1 ≤ dist.toNat → dist.toNat ≤ min s.dict.totalWritten.toNat s.dict.cap.toNat →
    s.dict.totalWritten.toNat + len < 2 ^ 64 →
    ∃ (t : State) (bs : List Byte), copySteps len s = .next t ∧ t.lzma.pendLen = 0 ∧
      t.host.out = s.host.out ++ bs ∧ bs.length = len ∧
      ∀ k, k < len →
        (k < dist.toNat → ∃ b, s.dict.get (dist.toNat - k) = .ok b ∧ bs[k]? = some b) ∧
        (dist.toNat ≤ k → bs[k]? = bs[k - dist.toNat]?)

/-! ## The order of the steps -/

/-- R320 to R323: one turn of the packet loop in an LZMA1 call, the end of the stream before the output
space; and in an LZMA chunk (R351), where an initialisation that succeeds moves `L2Phase` from `LzmaInit` to `LzmaData`. (The
end of a chunk is LzmaChunkEndsWithItsPackSizeUsedUp.) -/
def Obligations.PacketLoopTakesItsStepsInOrder : Prop :=
  (∀ (s : State) (c : Call) (n : Nat), s.activity = .decoding c → s.ctl.mode = .lzma1 →
    s.lzma.unpackRemaining = BitVec.ofNat 64 n → n < 2 ^ 64 →
    (s.lzma.l1Phase = .finished → step s = .next (s.endCall c .finished none false)) ∧
    (s.lzma.l1Phase = .needInit → step s = rcInitStep s) ∧
    (s.lzma.l1Phase = .packets → s.lzma.pendLen ≠ 0 → step s = copyStep s) ∧
    (s.lzma.l1Phase = .packets → s.lzma.pendLen = 0 → n = 0 →
      step s = .next ({ s with lzma := { s.lzma with l1Phase := .finished } }.endCall c .finished none false)) ∧
    (s.lzma.l1Phase = .packets → s.lzma.pendLen = 0 → n ≠ 0 → c.outSpace = 0 → c.noted = none →
      step s = .next (s.endCall c .needMoreOutput none false)) ∧
    (s.lzma.l1Phase = .packets → s.lzma.pendLen = 0 → n ≠ 0 → c.outSpace ≠ 0 → step s = packetStep s)) ∧
  (∀ (s : State) (c : Call), s.activity = .decoding c → s.ctl.mode = .lzma2 →
    (s.framer.l2Phase = .lzmaInit → s.lzma.l1Phase = .needInit →
      (∀ t c', rcInitStep s = .next t → t.activity = .decoding c' → t.lzma.l1Phase = .packets ∧
        step s = .next { t with framer := { t.framer with l2Phase := .lzmaData } }) ∧
      (∀ t, rcInitStep s = .next t → t.activity = .idle → step s = .next t)) ∧
    (s.framer.l2Phase = .lzmaData → s.lzma.l1Phase = .packets →
      (s.lzma.pendLen ≠ 0 → step s = copyStep s) ∧
      (s.lzma.pendLen = 0 → s.framer.chunkUnpackRemaining ≠ 0 → c.outSpace = 0 → c.noted = none →
        step s = .next (s.endCall c .needMoreOutput none false)) ∧
      (s.lzma.pendLen = 0 → s.framer.chunkUnpackRemaining ≠ 0 → c.outSpace ≠ 0 → step s = packetStep s)))

/-- When the bytes where the machine stands decode to a unit, the step is `exec` of it, after the bytes or bits
it takes have been taken: a chunk header, a packet (in an LZMA chunk the framer then marks its phase, R351), a BCJ2
token, a host command. -/
def Obligations.StepRunsTheDecodedUnit : Prop :=
  (∀ (s : State) (c : Call) (i : Instr) (rest : List Byte), s.activity = .decoding c → s.ctl.mode = .lzma2 →
    s.framer.l2Phase = .control → decodeHeader c.input = some (i, rest) → step s = exec i (s.take c rest)) ∧
  (∀ (s s' : State) (c : Call) (n : Nat) (i : Instr), s.activity = .decoding c → s.lzma.l1Phase = .packets →
    s.lzma.pendLen = 0 → s.readRemaining = .ok n → n ≠ 0 → c.outSpace ≠ 0 → fetchPacket s = .ok (i, s') →
    (s.ctl.mode = .lzma1 → step s = exec i s') ∧
    (s.ctl.mode = .lzma2 → s.framer.l2Phase = .lzmaData → step s = mapNext markLzmaData (exec i s'))) ∧
  (∀ (s : State) (j : Bcj2Job) (b : Byte), s.activity = .merging j → s.bcj.outPos ≠ j.outSize →
    j.main[s.bcj.mainPos.toNat]? = some b → step s = exec (decodePair j.prev b) s) ∧
  (∀ (s : State) (cmd : HostCmd) (rest : List HostCmd), s.activity = .idle → s.host.cmds = cmd :: rest →
    step s = exec cmd.toInstr { s with host := { s.host with cmds := rest } })

/-! ## LZMA2 chunks (47_lzma2_chunk.md) -/

/-- R360, R370, R377: control 0x00 is read even without output space, the call ends `Finished` at the next
step, and so does every later call, with no byte taken. (That `Control` then holds 0x00 is log entry 20.) -/
def Obligations.EndChunkFinishesTheStream : Prop :=
  (∀ (s : State) (c : Call), s.activity = .decoding c →
    exec .l2End s = .next { s.committed c with
      framer := { s.framer with control := 0x00, l2Phase := .finished } }) ∧
  (∀ (s : State) (c : Call), s.activity = .decoding c → s.ctl.mode = .lzma2 → s.framer.l2Phase = .finished →
    step s = .next (s.endCall c .finished none false))

/-- R361, R362: an uncompressed chunk's header; control 0x01 resets the dictionary, control 0x02 keeps it and is
refused before any reset. Packet registers, cells and properties are unchanged. (`Control`: log entry 20.) -/
def Obligations.CopyHeadersOpenTheirPayload : Prop :=
  ∀ (s : State) (c : Call) (n : BitVec 16), s.activity = .decoding c →
    exec (.l2CopyReset n) s = .next { s.committed c with
      dict := { s.dict with writePos := 0, totalWritten := 0, ram := [] }
      framer := { s.framer with
        control := 0x01, needInitLevel := 0xC0, copyRemaining := BitVec.ofNat 17 (n.toNat + 1)
        l2Phase := .copyData } } ∧
    (s.framer.needInitLevel ≠ 0xE0 →
      exec (.l2Copy n) s = .next { s.committed c with
        framer := { s.framer with
          control := 0x02, copyRemaining := BitVec.ofNat 17 (n.toNat + 1), l2Phase := .copyData } }) ∧
    (s.framer.needInitLevel = 0xE0 →
      exec (.l2Copy n) s = .next ((s.rollback c).endCall c .invalidData (some .resetRequired) true))

/-- R363: a reserved control byte alone raises `InvalidData(BadControl)`; nothing is consumed and the error is
latched. -/
def Obligations.ReservedControlIsRefused : Prop :=
  (∀ (s : State) (c : Call) (v : Byte), s.activity = .decoding c →
    exec (.l2Reserved v) s = .next ((s.rollback c).endCall c .invalidData (some .badControl) true)) ∧
  (∀ (s : State) (c : Call) (v : Byte) (rest : List Byte), s.activity = .decoding c → c.noted = none →
    s.ctl.mode = .lzma2 → s.framer.l2Phase = .control → c.input = v :: rest → 0x03 ≤ v.toNat → v.toNat ≤ 0x7F →
    step s = .next (s.endCall c .invalidData (some .badControl) true))

/-- R364, R365, R368: an accepted LZMA chunk of mode 0 or 1 restarts the range decoder; mode 1 resets the packet
state. Properties and dictionary continue. (`Range`, `Code` before `RcInit` and `Control`: log entries 4, 19, 20.) -/
def Obligations.LzmaChunksWithoutPropsBegin : Prop :=
  ∀ (s : State) (c : Call) (u : BitVec 21) (p : BitVec 16), s.activity = .decoding c →
    (s.framer.needInitLevel.toNat ≤ 0x80 + u.toNat / 2 ^ 16 →
      exec (.l2LzmaM0 u p) s = .next { s.committed c with
        lzma := { s.lzma with range := 0xFFFFFFFF, code := 0, l1Phase := .needInit }
        framer := { s.framer with
          control := BitVec.ofNat 8 (0x80 + u.toNat / 2 ^ 16), needInitLevel := 0x00
          chunkUnpackRemaining := BitVec.ofNat 22 (u.toNat + 1)
          chunkPackRemaining := BitVec.ofNat 17 (p.toNat + 1), l2Phase := .lzmaInit } }) ∧
    (s.framer.needInitLevel.toNat ≤ 0xA0 + u.toNat / 2 ^ 16 →
      exec (.l2LzmaM1 u p) s = .next { s.committed c with
        lzma := { s.lzma with
          probs := [], lzState := 0, rep0 := 1, rep1 := 1, rep2 := 1, rep3 := 1
          range := 0xFFFFFFFF, code := 0, l1Phase := .needInit }
        framer := { s.framer with
          control := BitVec.ofNat 8 (0xA0 + u.toNat / 2 ^ 16), needInitLevel := 0x00
          chunkUnpackRemaining := BitVec.ofNat 22 (u.toNat + 1)
          chunkPackRemaining := BitVec.ofNat 17 (p.toNat + 1), l2Phase := .lzmaInit } })

/-- R366, R367, R368: an accepted LZMA chunk of mode 2 or 3 sets new properties and resets the packet state;
mode 3 also resets the dictionary. (`Range`, `Code` before `RcInit` and `Control`: log entries 4, 19, 20.) -/
def Obligations.LzmaChunksWithPropsBegin : Prop :=
  ∀ (s : State) (c : Call) (u : BitVec 21) (p : BitVec 16) (v : Byte) (props : LcLpPb),
    s.activity = .decoding c → decodeProps v = some props →
    (s.framer.needInitLevel.toNat ≤ 0xC0 + u.toNat / 2 ^ 16 →
      exec (.l2LzmaM2 u p v) s = .next { s.committed c with
        cfg := { s.cfg with props := props }
        lzma := { s.lzma with
          probs := [], lzState := 0, rep0 := 1, rep1 := 1, rep2 := 1, rep3 := 1
          range := 0xFFFFFFFF, code := 0, l1Phase := .needInit }
        framer := { s.framer with
          control := BitVec.ofNat 8 (0xC0 + u.toNat / 2 ^ 16), needInitLevel := 0x00
          chunkUnpackRemaining := BitVec.ofNat 22 (u.toNat + 1)
          chunkPackRemaining := BitVec.ofNat 17 (p.toNat + 1), l2Phase := .lzmaInit } }) ∧
    (s.framer.needInitLevel.toNat ≤ 0xE0 + u.toNat / 2 ^ 16 →
      exec (.l2LzmaM3 u p v) s = .next { s.committed c with
        cfg := { s.cfg with props := props }
        dict := { s.dict with writePos := 0, totalWritten := 0, ram := [] }
        lzma := { s.lzma with
          probs := [], lzState := 0, rep0 := 1, rep1 := 1, rep2 := 1, rep3 := 1
          range := 0xFFFFFFFF, code := 0, l1Phase := .needInit }
        framer := { s.framer with
          control := BitVec.ofNat 8 (0xE0 + u.toNat / 2 ^ 16), needInitLevel := 0x00
          chunkUnpackRemaining := BitVec.ofNat 22 (u.toNat + 1)
          chunkPackRemaining := BitVec.ofNat 17 (p.toNat + 1), l2Phase := .lzmaInit } })

/-- R355, R356: an LZMA chunk whose control byte is below `NeedInitLevel` raises `ResetRequired`, before its
properties byte is looked at; one that is not raises `BadProps` for a properties byte above 224. -/
def Obligations.LzmaChunksCheckResetThenProps : Prop :=
  ∀ (s : State) (c : Call) (u : BitVec 21) (p : BitVec 16) (v : Byte) (mode : BitVec 2) (i : Instr),
    s.activity = .decoding c →
    (mode = 0 ∧ i = .l2LzmaM0 u p ∨ mode = 1 ∧ i = .l2LzmaM1 u p ∨ mode = 2 ∧ i = .l2LzmaM2 u p v ∨
      mode = 3 ∧ i = .l2LzmaM3 u p v) →
    (0x80 + 0x20 * mode.toNat + u.toNat / 2 ^ 16 < s.framer.needInitLevel.toNat →
      exec i s = .next ((s.rollback c).endCall c .invalidData (some .resetRequired) true)) ∧
    (s.framer.needInitLevel.toNat ≤ 0x80 + 0x20 * mode.toNat + u.toNat / 2 ^ 16 → 2 ≤ mode.toNat →
      224 < v.toNat → exec i s = .next ((s.rollback c).endCall c .invalidData (some .badProps) true))

/-- R352: a header that is not whole waits for input, and nothing is consumed. -/
def Obligations.IncompleteHeaderWaits : Prop :=
  ∀ (s : State) (c : Call), s.activity = .decoding c → c.noted = none → s.ctl.mode = .lzma2 →
    s.framer.l2Phase = .control → decodeHeader c.input = none →
    step s = .next (s.endCall c .needMoreInput none false)

/-- R369: one byte of an uncompressed chunk, output space checked before input. -/
def Obligations.CopyChunkDeliversOneByte : Prop :=
  ∀ (s : State) (c : Call), s.activity = .decoding c → c.noted = none → s.ctl.mode = .lzma2 →
    s.framer.l2Phase = .copyData →
    (∀ b rest, c.outSpace ≠ 0 → c.input = b :: rest →
      step s = .next { s with
        dict := s.dict.after b
        framer := { s.framer with
          copyRemaining := s.framer.copyRemaining - 1
          l2Phase := if s.framer.copyRemaining = 1 then .control else .copyData }
        activity := .decoding { c with
          input := rest, consumed := c.consumed + 1, outSpace := c.outSpace - 1, produced := c.produced + 1 }
        host := { s.host with out := s.host.out ++ [b] }
        ctl := { s.ctl with inTotal := s.ctl.inTotal + 1, outTotal := s.ctl.outTotal + 1 } }) ∧
    (c.outSpace = 0 → step s = .next (s.endCall c .needMoreOutput none false)) ∧
    (c.outSpace ≠ 0 → c.input = [] → step s = .next (s.endCall c .needMoreInput none false))

/-- R373, R376: an LZMA chunk ends when its unpack size is reached and no copy is pending; its pack size must
then be used up. The call goes on. (That a mismatch leaves the phases as they were is log entry 11.) -/
def Obligations.LzmaChunkEndsWithItsPackSizeUsedUp : Prop :=
  ∀ (s : State) (c : Call), s.activity = .decoding c → c.noted = none → s.ctl.mode = .lzma2 →
    s.framer.l2Phase = .lzmaData → s.lzma.l1Phase = .packets → s.lzma.pendLen = 0 →
    s.framer.chunkUnpackRemaining = 0 →
    (s.framer.chunkPackRemaining = 0 →
      step s = .next { s with
        lzma := { s.lzma with l1Phase := .needInit }, framer := { s.framer with l2Phase := .control } }) ∧
    (s.framer.chunkPackRemaining ≠ 0 →
      step s = .next (s.endCall c .invalidData (some .packedSizeMismatch) true))

/-! ## BCJ2 tokens (48_bcj2.md) -/

/-- R403: a plain byte is copied and becomes `prev`; no register of the range decoder, no target stream and no
register of the engine is touched. -/
def Obligations.PlainTokenCopiesItsByte : Prop :=
  ∀ (s : State) (j : Bcj2Job) (prev b : Byte), s.activity = .merging j →
    exec (.bcj2Plain prev b) s = .next { s with
      activity := .merging { j with out := j.out ++ [b], prev := b }
      bcj := { s.bcj with mainPos := s.bcj.mainPos + 1, outPos := s.bcj.outPos + 1 } }

/-- R405: a branch opcode that is the last byte of the output decodes no control bit. -/
def Obligations.LastOpcodeDecodesNoBit : Prop :=
  ∀ (s : State) (j : Bcj2Job) (i : Instr) (op : Byte) (cell : Nat) (ts : TargetStream), s.activity = .merging j →
    i.branchOperands = some (op, cell, ts) → s.bcj.outPos + 1 = j.outSize →
    exec i s = .next { s with
      activity := .merging { j with out := j.out ++ [op] }
      bcj := { s.bcj with mainPos := s.bcj.mainPos + 1, outPos := s.bcj.outPos + 1 } }

/-- R404, R408: a control bit 0, decoded with the token's cell: the opcode is copied and becomes `prev`, and
nothing else is done with the bytes that follow. -/
def Obligations.BranchBitZeroCopiesTheOpcode : Prop :=
  ∀ (s : State) (j : Bcj2Job) (i : Instr) (op : Byte) (cell : Nat) (ts : TargetStream) (p' : Prob)
    (rc' : Rc), s.activity = .merging j → i.branchOperands = some (op, cell, ts) →
    s.bcj.outPos + 1 ≠ j.outSize →
    decodeBit (s.bcj.probs.read cell)
      { range := s.bcj.range, code := s.bcj.code, src := .bcj2, bytes := j.rc.drop s.bcj.rcPos.toNat }
        = .ok (false, p', rc') →
    exec i s = .next { s with
      activity := .merging { j with out := j.out ++ [op], prev := op }
      bcj := { s.bcj with
        mainPos := s.bcj.mainPos + 1, outPos := s.bcj.outPos + 1, range := rc'.range, code := rc'.code
        probs := s.bcj.probs.write cell p'
        rcPos := s.bcj.rcPos +
          BitVec.ofNat 32 ((j.rc.drop s.bcj.rcPos.toNat).length - rc'.bytes.length) } }

/-- R406, R407: a control bit 1: the four-byte big-endian target is read from the token's stream, and
`dest = (src − (OutPos + 4)) mod 2^32`, with `OutPos` the position after the opcode, is emitted little-endian up to the
end of the output; `prev` is the last byte emitted (R402). -/
def Obligations.BranchBitOneConvertsTheTarget : Prop :=
  ∀ (s : State) (j : Bcj2Job) (i : Instr) (op : Byte) (cell : Nat) (ts : TargetStream) (p' : Prob)
    (rc' : Rc) (b0 b1 b2 b3 : Byte) (tail disp : List Byte) (src dest : Nat), s.activity = .merging j →
    i.branchOperands = some (op, cell, ts) →
    s.bcj.outPos.toNat + 1 < j.outSize.toNat →
    decodeBit (s.bcj.probs.read cell)
      { range := s.bcj.range, code := s.bcj.code, src := .bcj2, bytes := j.rc.drop s.bcj.rcPos.toNat }
        = .ok (true, p', rc') →
    (match ts with
      | .call => j.call.drop s.bcj.callPos.toNat
      | .jump => j.jump.drop s.bcj.jumpPos.toNat) = b0 :: b1 :: b2 :: b3 :: tail →
    src = b0.toNat * 2 ^ 24 + b1.toNat * 2 ^ 16 + b2.toNat * 2 ^ 8 + b3.toNat →
    dest < 2 ^ 32 → (dest + (s.bcj.outPos.toNat + 1 + 4)) % 2 ^ 32 = src →
    disp = [BitVec.ofNat 8 dest, BitVec.ofNat 8 (dest / 2 ^ 8), BitVec.ofNat 8 (dest / 2 ^ 16),
      BitVec.ofNat 8 (dest / 2 ^ 24)].take (j.outSize.toNat - (s.bcj.outPos.toNat + 1)) →
    ∃ t r, exec i s = .next { s with activity := .merging t, bcj := r } ∧
      t.out = j.out ++ op :: disp ∧ disp.getLast? = some t.prev ∧
      t = { j with out := t.out, prev := t.prev } ∧
      r.outPos.toNat = s.bcj.outPos.toNat + 1 + disp.length ∧ r.mainPos = s.bcj.mainPos + 1 ∧
      r.range = rc'.range ∧ r.code = rc'.code ∧ r.probs = s.bcj.probs.write cell p' ∧
      r.rcPos = s.bcj.rcPos +
        BitVec.ofNat 32 ((j.rc.drop s.bcj.rcPos.toNat).length - rc'.bytes.length) ∧
      r.callPos = (if ts = .call then s.bcj.callPos + 4 else s.bcj.callPos) ∧
      r.jumpPos = (if ts = .jump then s.bcj.jumpPos + 4 else s.bcj.jumpPos) ∧ r.outSize = s.bcj.outSize

/-- R409, R411: a token whose control bit or target runs out of its stream, and a run whose `main` runs out,
raise `Bcj2Truncated`: the unit's registers are those before the run and nothing is delivered. (That nothing counts as
consumed is the model's reading, log entry 13.) -/
def Obligations.TruncatedRunDeliversNothing : Prop :=
  ∀ (s : State) (j : Bcj2Job) (failed : State), s.activity = .merging j →
    failed = { s with
      activity := .idle, bcj := j.saved
      host := { s.host with ret := some { status := .invalidData, cause := some .bcj2Truncated,
                                          consumed := .streams 0 0 0 0, produced := 0 } } } →
    (s.bcj.outPos ≠ j.outSize → j.main.length ≤ s.bcj.mainPos.toNat → step s = .next failed) ∧
    (∀ i op cell ts, i.branchOperands = some (op, cell, ts) → s.bcj.outPos + 1 ≠ j.outSize →
      (decodeBit (s.bcj.probs.read cell)
          { range := s.bcj.range, code := s.bcj.code, src := .bcj2, bytes := j.rc.drop s.bcj.rcPos.toNat }
            = .error (.raise (.error .bcj2Truncated)) → exec i s = .next failed) ∧
      (∀ p' rc', decodeBit (s.bcj.probs.read cell)
          { range := s.bcj.range, code := s.bcj.code, src := .bcj2, bytes := j.rc.drop s.bcj.rcPos.toNat }
            = .ok (true, p', rc') →
        (match ts with
          | .call => j.call.length < s.bcj.callPos.toNat + 4
          | .jump => j.jump.length < s.bcj.jumpPos.toNat + 4) →
        exec i s = .next failed))

/-- R401, R440: a run begins by resetting the unit and reading five bytes of `rc`, or fails at once: with fewer
bytes, or, under the parameter, with a nonzero first byte (R171, R183); it ends when the output is whole, with the
bytes read of each stream. (A failed run's counts: log entry 13; the host's buffer emptied: log entry 25.) -/
def Obligations.Bcj2RunBeginsAndEnds : Prop :=
  (∀ (s : State) (main call jump rc : List Byte) (outSize : Word) (b0 b1 b2 b3 b4 : Byte) (rest : List Byte),
    s.activity = .idle → rc = b0 :: b1 :: b2 :: b3 :: b4 :: rest → (s.params.checkRcByte0 = true → b0 = 0) →
    exec (.bcj2Run main call jump rc outSize) s = .next { s with
      host := { s.host with out := [] }
      activity := .merging
        { main := main, call := call, jump := jump, rc := rc, outSize := outSize, prev := 0, out := [], saved := s.bcj }
      bcj := { range := 0xFFFFFFFF, code := be32 b1 b2 b3 b4, probs := [], outPos := 0, mainPos := 0,
               callPos := 0, jumpPos := 0, rcPos := 5, outSize := outSize } }) ∧
  (∀ (s : State) (main call jump rc : List Byte) (outSize : Word), s.activity = .idle → rc.length < 5 →
    exec (.bcj2Run main call jump rc outSize) s = .next { s with
      host := { cmds := s.host.cmds, out := []
                ret := some { status := .invalidData, cause := some .bcj2Truncated,
                              consumed := .streams 0 0 0 0, produced := 0 } } }) ∧
  (∀ (s : State) (main call jump rc : List Byte) (outSize : Word) (b0 : Byte) (rest : List Byte),
    s.activity = .idle → rc = b0 :: rest → 4 ≤ rest.length → b0 ≠ 0 → s.params.checkRcByte0 = true →
    exec (.bcj2Run main call jump rc outSize) s = .next { s with
      host := { cmds := s.host.cmds, out := []
                ret := some { status := .invalidData, cause := some .badRcInit,
                              consumed := .streams 0 0 0 0, produced := 0 } } }) ∧
  (∀ (s : State) (j : Bcj2Job), s.activity = .merging j → s.bcj.outPos = j.outSize →
    step s = .next { s with
      activity := .idle
      host := { cmds := s.host.cmds, out := j.out
                ret := some { status := .ok, cause := none, produced := j.outSize.toNat
                              consumed := .streams s.bcj.mainPos.toNat s.bcj.callPos.toNat s.bcj.jumpPos.toNat
                                s.bcj.rcPos.toNat } } })

/-- R411: a whole run from any well-kept state delivers all `outSize` bytes with `Ok`, or nothing, with the
unit as it was before. (That a failed run counts nothing as consumed is the model's reading, log entry 13; that the
host's buffer is empty then rests on log entry 25.) -/
def Obligations.Bcj2RunDeliversAllOrNothing : Prop :=
  ∀ (s s' t : State) (main call jump rc : List Byte) (outSize : Word), s.Inv → s.activity = .idle →
    exec (.bcj2Run main call jump rc outSize) s = .next s' → s'.EndsIn t →
    (∃ m k l r, t.host.ret = some { status := .ok, cause := none, consumed := .streams m k l r,
                                    produced := outSize.toNat } ∧
      t.host.out.length = outSize.toNat ∧ m ≤ main.length ∧ k ≤ call.length ∧ l ≤ jump.length ∧ r ≤ rc.length) ∨
    (∃ cause, (cause = .bcj2Truncated ∨ cause = .badRcInit ∧ s.params.checkRcByte0 = true) ∧
      t.host.ret = some { status := .invalidData, cause := some cause, consumed := .streams 0 0 0 0,
                          produced := 0 } ∧
      t.host.out = [] ∧ t.bcj = s.bcj)

/-- R440: neither the command nor any step of a run reads or writes a register of the LZMA engine. -/
def Obligations.Bcj2RunLeavesTheEngineAlone : Prop :=
  (∀ (s t : State) (main call jump rc : List Byte) (outSize : Word), s.activity = .idle →
    exec (.bcj2Run main call jump rc outSize) s = .next t →
    t.ctl = s.ctl ∧ t.cfg = s.cfg ∧ t.lzma = s.lzma ∧ t.dict = s.dict ∧ t.framer = s.framer ∧ t.params = s.params) ∧
  (∀ (s t : State) (j : Bcj2Job), s.activity = .merging j → step s = .next t →
    t.ctl = s.ctl ∧ t.cfg = s.cfg ∧ t.lzma = s.lzma ∧ t.dict = s.dict ∧ t.framer = s.framer ∧ t.params = s.params ∧
    t.host.cmds = s.host.cmds)

/-! ## Host commands (49_host_commands.md) -/

/-- R430: while a command is in progress the six commands wait, in the order issued, and change nothing else
(how they wait is the model's choice, log entry 14). -/
def Obligations.BusyBlockLetsCommandsWait : Prop :=
  ∀ (s : State) (cmd : HostCmd), s.activity ≠ .idle →
    exec cmd.toInstr s = .next { s with host := { s.host with cmds := s.host.cmds ++ [cmd] } }

/-- R431, with the values the model gives the registers that then hold none (log entries 4 and 5): `Reset` leaves
every register of the block as after power-on, whatever it was, keeps the parameters and the commands still pending, and
returns `Ok`. (The host's output buffer is emptied when a command is accepted: log entry 25.) -/
def Obligations.ResetCommandIsPowerOn : Prop :=
  ∀ s : State, s.activity = .idle →
    exec .reset s = .next { State.reset with
      params := s.params
      host := { cmds := s.host.cmds, out := []
                ret := some { status := .ok, cause := none, consumed := .bytes 0, produced := 0 } } }

/-- R57: `Mode`, `Status`, `ErrorLatched` after power-on, and the dictionary cells without a value. Every other value
is the model's choice: the registers for which no rule gives one hold zero, `DictCap` its smallest legal value (log entry 4);
`Range` and the probability cells hold their start values already (log entry 5); no command is pending (log entry 1). -/
def Obligations.PowerOnValues : Prop :=
  State.reset.ctl.mode = .unconfigured ∧ State.reset.ctl.status = .ok ∧ State.reset.ctl.errorLatched = false ∧
  State.reset.lzma.code = 0 ∧ State.reset.cfg.props = { lc := 0, lp := 0, pb := 0 } ∧
  State.reset.cfg.propsByte = 0 ∧ State.reset.dict.cap = 4096 ∧
  State.reset.lzma.unpackRemaining = 0 ∧ State.reset.lzma.pendDist = 0 ∧ State.reset.cfg.dictSize = 0 ∧
  State.reset.cfg.lzma2DictProp = 0 ∧ State.reset.cfg.unpackSize = 0 ∧ State.reset.bcj.outSize = 0 ∧
  State.reset.bcj.code = 0 ∧ (∀ a, State.reset.dict.read a = none) ∧
  (∀ c : Cell, State.reset.lzma.probs.read (cellKey c) = 1024) ∧ (∀ k, State.reset.bcj.probs.read k = 1024) ∧
  State.reset.lzma.range = 0xFFFFFFFF ∧ State.reset.host.cmds = []

/-- R432, R436, R437: an accepted raw LZMA1 configuration, every register of the stream at its start value;
the framer and the BCJ2 unit are unchanged (registers a command does not write keep their values: log entry 24;
`Range`, and the value `Code` holds until `RcInit`: log entries 19 and 4; the host's buffer: log entry 25). -/
def Obligations.ConfigRawStartsAnLzma1Stream : Prop :=
  ∀ (s : State) (v d0 d1 d2 d3 : Byte) (unpackSize : U64) (p : LcLpPb) (size : Word), s.activity = .idle →
    decodeProps v = some p →
    size.toNat = d0.toNat + d1.toNat * 2 ^ 8 + d2.toNat * 2 ^ 16 + d3.toNat * 2 ^ 24 →
    size.toNat ≤ s.params.dictMax.toNat →
    exec (.configLzma1Raw [v, d0, d1, d2, d3] unpackSize) s = .next { s with
      host := { cmds := s.host.cmds, out := []
                ret := some { status := .ok, cause := none, consumed := .bytes 0, produced := 0 } }
      ctl := { mode := .lzma1, status := .ok, cause := none, errorLatched := false, inTotal := 0, outTotal := 0 }
      cfg := { s.cfg with props := p, dictSize := size, unpackSize := unpackSize }
      dict := { cap := BitVec.ofNat 32 (max size.toNat 4096), writePos := 0, totalWritten := 0, ram := [] }
      lzma := { s.lzma with
        range := 0xFFFFFFFF, code := 0, probs := [], lzState := 0, rep0 := 1, rep1 := 1, rep2 := 1, rep3 := 1
        unpackRemaining := unpackSize, pendLen := 0, l1Phase := .needInit } }

/-- R433, R436, R437: an accepted `.lzma` header (log entries 4, 19, 24 and 25 as for the raw form). -/
def Obligations.ConfigAloneStartsAnLzma1Stream : Prop :=
  ∀ (s : State) (h : Vector Byte 13) (unpackSize : U64) (p : LcLpPb) (size : Word), s.activity = .idle →
    decodeProps h[0] = some p →
    size.toNat = h[1].toNat + h[2].toNat * 2 ^ 8 + h[3].toNat * 2 ^ 16 + h[4].toNat * 2 ^ 24 →
    unpackSize.toNat = h[5].toNat + h[6].toNat * 2 ^ 8 + h[7].toNat * 2 ^ 16 + h[8].toNat * 2 ^ 24 +
      h[9].toNat * 2 ^ 32 + h[10].toNat * 2 ^ 40 + h[11].toNat * 2 ^ 48 + h[12].toNat * 2 ^ 56 →
    size.toNat ≤ s.params.dictMax.toNat → unpackSize ≠ 0xFFFFFFFFFFFFFFFF →
    exec (.configLzma1Alone h) s = .next { s with
      host := { cmds := s.host.cmds, out := []
                ret := some { status := .ok, cause := none, consumed := .bytes 0, produced := 0 } }
      ctl := { mode := .lzma1, status := .ok, cause := none, errorLatched := false, inTotal := 0, outTotal := 0 }
      cfg := { s.cfg with props := p, dictSize := size, unpackSize := unpackSize }
      dict := { cap := BitVec.ofNat 32 (max size.toNat 4096), writePos := 0, totalWritten := 0, ram := [] }
      lzma := { s.lzma with
        range := 0xFFFFFFFF, code := 0, probs := [], lzState := 0, rep0 := 1, rep1 := 1, rep2 := 1, rep3 := 1
        unpackRemaining := unpackSize, pendLen := 0, l1Phase := .needInit } }

/-- R435, R436, R438: an accepted LZMA2 configuration; `State`, the rep distances and the cells keep what they
hold (the first LZMA chunk sets them: log entry 5), and `lc`, `lp`, `pb` are unset: the model gives them the values of the
properties byte 0 (log entry 4). (`UnpackSize` kept: log entry 24; `Range` and `Code`: log entries 19 and 4; the host's
buffer: log entry 25.) -/
def Obligations.ConfigLzma2StartsAnLzma2Stream : Prop :=
  ∀ (s : State) (q : Byte) (size : Word), s.activity = .idle → decodeDictProp q = some size →
    size.toNat ≤ s.params.dictMax.toNat →
    exec (.configLzma2 q) s = .next { s with
      host := { cmds := s.host.cmds, out := []
                ret := some { status := .ok, cause := none, consumed := .bytes 0, produced := 0 } }
      ctl := { mode := .lzma2, status := .ok, cause := none, errorLatched := false, inTotal := 0, outTotal := 0 }
      cfg := { s.cfg with props := { lc := 0, lp := 0, pb := 0 }, dictSize := size, lzma2DictProp := q }
      dict := { cap := BitVec.ofNat 32 (max size.toNat 4096), writePos := 0, totalWritten := 0, ram := [] }
      lzma := { s.lzma with range := 0xFFFFFFFF, code := 0, pendLen := 0, l1Phase := .needInit }
      framer := { l2Phase := .control, control := 0, needInitLevel := 0xE0, chunkUnpackRemaining := 0,
                  chunkPackRemaining := 0, copyRemaining := 0 } }

/-- R432, R433, R435, R436, R439: how each configure command fails: the block is as after power-on, the
parameters and pending commands kept, and the failure is in the return only (that every register, the BCJ2 unit's
too, is cleared is the model's reading, log entry 12, to the values of log entries 4 and 5; the host's buffer is emptied:
log entry 25). -/
def Obligations.FailedConfigureLeavesTheBlockUnconfigured : Prop :=
  ∀ (s : State) (failed : Status → Cause → State), s.activity = .idle →
    (∀ st ca, failed st ca = { State.reset with
      params := s.params
      host := { cmds := s.host.cmds, out := []
                ret := some { status := st, cause := some ca, consumed := .bytes 0, produced := 0 } } }) →
    (∀ (props : List Byte) (n : U64), props.length ≠ 5 →
      exec (.configLzma1Raw props n) s = .next (failed .invalidData .badProps)) ∧
    (∀ (v d0 d1 d2 d3 : Byte) (n : U64), 224 < v.toNat →
      exec (.configLzma1Raw [v, d0, d1, d2, d3] n) s = .next (failed .invalidData .badProps)) ∧
    (∀ (v d0 d1 d2 d3 : Byte) (n : U64), v.toNat ≤ 224 →
      s.params.dictMax.toNat < d0.toNat + d1.toNat * 2 ^ 8 + d2.toNat * 2 ^ 16 + d3.toNat * 2 ^ 24 →
      exec (.configLzma1Raw [v, d0, d1, d2, d3] n) s = .next (failed .notSupported .dictTooLarge)) ∧
    (∀ h : Vector Byte 13, 224 < h[0].toNat →
      exec (.configLzma1Alone h) s = .next (failed .invalidData .badProps)) ∧
    (∀ h : Vector Byte 13, h[0].toNat ≤ 224 →
      s.params.dictMax.toNat < h[1].toNat + h[2].toNat * 2 ^ 8 + h[3].toNat * 2 ^ 16 + h[4].toNat * 2 ^ 24 →
      exec (.configLzma1Alone h) s = .next (failed .notSupported .dictTooLarge)) ∧
    (∀ h : Vector Byte 13, h[0].toNat ≤ 224 →
      h[1].toNat + h[2].toNat * 2 ^ 8 + h[3].toNat * 2 ^ 16 + h[4].toNat * 2 ^ 24 ≤ s.params.dictMax.toNat →
      (∀ k : Fin 8, h[5 + k.val] = 0xFF) →
      exec (.configLzma1Alone h) s = .next (failed .notSupported .unknownSize)) ∧
    (∀ q : Byte, 40 < q.toNat → exec (.configLzma2 q) s = .next (failed .invalidData .badProps)) ∧
    (∀ (q : Byte) (size : Word), decodeDictProp q = some size → s.params.dictMax.toNat < size.toNat →
      exec (.configLzma2 q) s = .next (failed .notSupported .dictTooLarge))

/-- R434, R468, R470: `Decode` of a configured stream begins a call; an unconfigured block refuses it; after an
error it returns the latched status and cause; neither refusal changes a register. (The host's buffer is emptied
when a command is accepted: log entry 25.) -/
def Obligations.DecodeBeginsOrIsAnsweredAtOnce : Prop :=
  ∀ (s : State) (input : List Byte) (outSpace : Nat), s.activity = .idle →
    (s.ctl.mode ≠ .unconfigured → s.ctl.errorLatched = false →
      exec (.decode input outSpace) s = .next (s.calling input outSpace)) ∧
    (s.ctl.mode = .unconfigured →
      exec (.decode input outSpace) s = .next { s with
        host := { cmds := s.host.cmds, out := []
                  ret := some { status := .internalError, cause := some .notConfigured, consumed := .bytes 0,
                                produced := 0 } } }) ∧
    (s.ctl.mode ≠ .unconfigured → s.ctl.errorLatched = true →
      exec (.decode input outSpace) s = .next { s with
        host := { cmds := s.host.cmds, out := []
                  ret := some { status := s.ctl.status, cause := s.ctl.cause, consumed := .bytes 0,
                                produced := 0 } } })

/-! ## Rules about the whole machine -/

/-- R461, R464, R471: a step that ends a call without finishing it (an event) leaves every register, cell and
byte as before the failing transaction; only the status, its cause, the latch and the return are written, and the call
reports what had been committed. -/
def Obligations.FailedTransactionLeavesNoTrace : Prop :=
  ∀ (s t : State) (c : Call), s.Inv → s.activity = .decoding c → step s = .next t → t.activity = .idle →
    t.ctl.status ≠ .finished →
    ∃ r : Raise, t = s.endCall c r.status r.cause r.latches

/-- R83, R87, R375: a step of a `Decode` call emits a byte exactly when it writes it to the dictionary, in the
same step; otherwise the ring is unchanged or, only at an accepted control byte 0x01 or 0xE0..0xFF, reset. -/
def Obligations.EachStepEmitsWhatItWrites : Prop :=
  ∀ (s t : State) (c : Call), s.Inv → s.activity = .decoding c → step s = .next t →
    (∃ b, t.dict = s.dict.after b ∧ t.host.out = s.host.out ++ [b] ∧
      t.ctl.outTotal = s.ctl.outTotal + 1) ∨
    (t.host.out = s.host.out ∧ t.ctl.outTotal = s.ctl.outTotal ∧
      (t.dict = s.dict ∨
        t.dict = { s.dict with writePos := 0, totalWritten := 0, ram := [] } ∧ s.ctl.mode = .lzma2 ∧
          s.framer.l2Phase = .control ∧ ∃ v rest, c.input = v :: rest ∧ (v = 0x01 ∨ 0xE0 ≤ v.toNat)))

/-- The parameters of 00_scope.md R8 are fixed: no step, whatever it does, changes them. -/
def Obligations.StepKeepsTheParameters : Prop :=
  ∀ s t : State, step s = .next t → t.params = s.params

/-- The state after power-on meets the invariant. R57 gives `Range`, the rep distances, the cells and `BRange` no value
then: that they meet it rests on log entry 5, that the dictionary does on log entry 4, and that `P_DICT_MAX` is at least 4096
on log entry 3 (the model's choices). -/
def Obligations.ResetMeetsTheInvariant : Prop := State.reset.Inv

/-- Every step from a state that meets the invariant ends in one that does: cells in `[31, 2017]`, `Range` at
least 2^24, rep distances at least 1, every cell of the ring within reach written, the phases together (R180, R181,
10_state.md). -/
def Obligations.StepKeepsTheInvariant : Prop :=
  ∀ s t : State, s.Inv → step s = .next t → t.Inv

/-- 93_implementation_defined.md U3, U5, U6: from a state that meets the invariant no step is a fault or a
refusal. (A register without a value has the value log entry 4 names; `step_unset` of Laws/Unset.lean proves that no
step reads one.) -/
def Obligations.WellKeptStateNeverFaults : Prop :=
  ∀ s : State, s.Inv → ∃ t, step s = .next t

/-- R325, R430: every command ends. From any well-kept state the command in progress returns within a number of
steps known beforehand. -/
def Obligations.EveryCommandRunsToCompletion : Prop :=
  ∀ s : State, s.Inv → s.activity ≠ .idle →
    ∃ k t, k ≤ s.stepsLeft + 1 ∧ runCommand k s = .next t ∧ t.activity = .idle ∧ t.host.ret.isSome = true

/-- R324 for one split: a stream presented in two calls, the second presenting again what the first did not
consume, and more, gives what one call presenting all of it gives: the same registers, status and output, the counts
added up. (That the host's buffer is emptied when a call begins is log entry 25.) -/
def Obligations.TwoCallsGiveWhatOneCallGives : Prop :=
  ∀ (s t u : State) (a b : List Byte) (n m used made : Nat) (st : Status), s.Inv → s.activity = .idle →
    s.ctl.mode ≠ .unconfigured → s.ctl.errorLatched = false →
    (s.calling a n).EndsIn t →
    t.host.ret = some { status := st, cause := none, consumed := .bytes used, produced := made } →
    (st = .needMoreInput ∨ st = .needMoreOutput) →
    (t.calling (a.drop used ++ b) (n - made + m)).EndsIn u →
    ∃ ret, u.host.ret = some ret ∧
      ∀ used2, ret.consumed = .bytes used2 →
        (s.calling (a ++ b) (n + m)).EndsIn { u with
          host := { u.host with
            out := t.host.out ++ u.host.out
            ret := some { ret with consumed := .bytes (used + used2), produced := made + ret.produced } } }
end

