-- ==== Sys2Proof/Laws/Codes.lean ====
section
/-! SUPPORT. The laws of the codes of Decode.lean: each code reads back what its encoder writes, leaving the
bits that follow; a program names only the cells it should; the bit-field lemmas of the headers. -/

namespace Sys2Proof

/-! ## Bits of a number -/

theorem toNat_testBit (v k : Nat) : (v.testBit k).toNat = v / 2 ^ k % 2 := by
  rw [Nat.testBit_eq_decide_div_mod_eq]
  have : v / 2 ^ k % 2 < 2 := Nat.mod_lt _ (by omega)
  interval_cases h : v / 2 ^ k % 2 <;> rfl

theorem mod_two_pow_succ (v n : Nat) : v % 2 ^ (n + 1) = v / 2 ^ n % 2 * 2 ^ n + v % 2 ^ n := by
  rw [Nat.pow_succ, Nat.mod_mul]; ring

theorem lenOk_iff (len : Nat) : lenOk len = true ↔ 2 ≤ len ∧ len ≤ 273 := decide_eq_true_iff

theorem distOk_iff (dist : Nat) : distOk dist = true ↔ 1 ≤ dist ∧ dist ≤ 2 ^ 32 := decide_eq_true_iff

variable {α : Type}

/-! ## Trees -/

/-- A forward walk from node `m` over the `n` bits of `v` ends at node `m·2^n + v`. -/
theorem readBits_bitTree (cell : Nat → Cell) (k : Nat → BitProg α) (n m v : Nat) (rest : List Bool) :
    (bitTree cell n m k).readBits (msbBits n v ++ rest) = (k (m * 2 ^ n + v % 2 ^ n)).readBits rest := by
  induction n generalizing m with
  | zero => simp [bitTree, msbBits, Nat.mod_one]
  | succ n ih =>
    simp only [bitTree, msbBits, List.cons_append, BitProg.readBits]
    rw [ih, toNat_testBit, mod_two_pow_succ]
    congr 2
    rw [Nat.pow_succ]; ring

theorem readBits_forwardTree (cell : Nat → Cell) (k : Nat → BitProg α) {n v : Nat} (hv : v < 2 ^ n)
    (rest : List Bool) :
    (forwardTree cell n k).readBits (msbBits n v ++ rest) = (k v).readBits rest := by
  rw [forwardTree, readBits_bitTree, Nat.mod_eq_of_lt hv, Nat.one_mul, Nat.add_sub_cancel_left]

theorem readBits_reverseWalk (cell : Nat → Cell) (k : Nat → BitProg α) (n m i sym v : Nat) (rest : List Bool) :
    (reverseWalk cell n m i sym k).readBits (lsbBits n v ++ rest)
      = (k (sym + v % 2 ^ n * 2 ^ i)).readBits rest := by
  induction n generalizing m i sym v with
  | zero => simp [reverseWalk, lsbBits, Nat.mod_one]
  | succ n ih =>
    simp only [reverseWalk, lsbBits, List.cons_append, BitProg.readBits]
    have e : v % 2 ^ (n + 1) = v % 2 + 2 * (v / 2 % 2 ^ n) := by rw [Nat.pow_succ', Nat.mod_mul]
    rw [ih, toNat_testBit, e, Nat.pow_zero, Nat.div_one]
    congr 2
    ring

theorem readBits_reverseTree (cell : Nat → Cell) (k : Nat → BitProg α) {n v : Nat} (hv : v < 2 ^ n)
    (rest : List Bool) :
    (reverseTree cell n k).readBits (lsbBits n v ++ rest) = (k v).readBits rest := by
  rw [reverseTree, readBits_reverseWalk, Nat.mod_eq_of_lt hv]; simp

theorem readBits_directBits (k : Nat → BitProg α) (n value v : Nat) (rest : List Bool) :
    (directBits n value k).readBits (msbBits n v ++ rest) = (k (value * 2 ^ n + v % 2 ^ n)).readBits rest := by
  induction n generalizing value with
  | zero => simp [directBits, msbBits, Nat.mod_one]
  | succ n ih =>
    simp only [directBits, msbBits, List.cons_append, BitProg.readBits]
    rw [ih, toNat_testBit, mod_two_pow_succ]
    congr 2
    rw [Nat.pow_succ]; ring

/-- The matched walk reads the same bits as the forward walk, whatever the match byte: the match byte only
names the cells (42_literal.md rule R223). -/
theorem readBits_matchedWalk (ctx : Nat) (k : Nat → BitProg α) (n m v : Nat) (mb : Byte) (rest : List Bool) :
    (matchedWalk ctx n m mb k).readBits (msbBits n v ++ rest) = (k (m * 2 ^ n + v % 2 ^ n)).readBits rest := by
  induction n generalizing m mb with
  | zero => simp [matchedWalk, msbBits, Nat.mod_one]
  | succ n ih =>
    simp only [matchedWalk, msbBits, List.cons_append, BitProg.readBits]
    have e : (2 * m + (v.testBit n).toNat) * 2 ^ n + v % 2 ^ n = m * 2 ^ (n + 1) + v % 2 ^ (n + 1) := by
      rw [toNat_testBit, mod_two_pow_succ, Nat.pow_succ]; ring
    split
    · rw [ih, e]
    · rw [readBits_bitTree, e]

/-! ## The literal code -/

theorem readBits_literalProg (src : LitSrc) (k : Byte → BitProg α) (b : Byte) (rest : List Bool) :
    (literalProg src k).readBits (msbBits 8 b.toNat ++ rest) = (k b).readBits rest := by
  have hb := b.isLt
  have e : BitVec.ofNat 8 (1 * 2 ^ 8 + b.toNat % 2 ^ 8 - 0x100) = b := by
    rw [Nat.mod_eq_of_lt hb, show 1 * 2 ^ 8 + b.toNat - 0x100 = b.toNat by omega]; simp
  unfold literalProg
  cases src.matchByte with
  | none => simp only; rw [readBits_bitTree, e]
  | some mb => simp only; rw [readBits_matchedWalk, e]

/-! ## The length code -/

theorem readBits_lengthProg (d : LenSel) (ps : Nat) (k : Nat → BitProg α) {len : Nat} (h : lenOk len = true)
    (rest : List Bool) :
    (lengthProg d ps k).readBits (lengthBits len ++ rest) = (k len).readBits rest := by
  have h' := (lenOk_iff len).mp h
  unfold lengthProg lengthBits
  split
  · simp only [List.cons_append, BitProg.readBits]
    rw [readBits_forwardTree _ _ (by omega), show 2 + (len - 2) = len by omega]
  · split
    · simp only [List.cons_append, BitProg.readBits]
      rw [readBits_forwardTree _ _ (by omega), show 2 + 8 + (len - 10) = len by omega]
    · simp only [List.cons_append, BitProg.readBits]
      rw [readBits_forwardTree _ _ (by omega), show 2 + 16 + (len - 18) = len by omega]

/-! ## The distance code -/

/-- The slot of a distance above 4, by the place of the highest bit of `dist − 1`
(44_distance.md rule R265). -/
theorem slotOf_eq {dist : Nat} (h : 4 < dist) :
    ∃ e, 2 ≤ e ∧ 2 ^ e ≤ dist - 1 ∧ dist - 1 < 2 ^ (e + 1) ∧
      slotOf dist = 2 * e + (dist - 1) / 2 ^ (e - 1) % 2 := by
  have h0 : dist - 1 ≠ 0 := by omega
  refine ⟨Nat.log2 (dist - 1), ?_, Nat.log2_self_le h0, ?_, ?_⟩
  · rw [Nat.le_log2 h0]; omega
  · exact (Nat.log2_lt h0).mp (Nat.lt_succ_self _)
  · simp [slotOf, Nat.not_le.mpr h]

/-- The slots partition `[1, 2^32]`: a distance lies in the range of its own slot. -/
theorem slotOf_range {dist : Nat} (h : 4 < dist) :
    4 ≤ slotOf dist ∧ slotBase (slotOf dist) ≤ dist - 1 ∧
      dist - 1 < slotBase (slotOf dist) + 2 ^ slotBits (slotOf dist) := by
  obtain ⟨e, he, hlo, hhi, hs⟩ := slotOf_eq h
  obtain ⟨f, rfl⟩ : ∃ f, e = f + 1 := ⟨e - 1, by omega⟩
  have hb : (dist - 1) / 2 ^ f % 2 < 2 := Nat.mod_lt _ (by omega)
  have hq : (dist - 1) / 2 ^ f = 2 + (dist - 1) / 2 ^ f % 2 := by
    have h1 : 2 ≤ (dist - 1) / 2 ^ f := by
      rw [Nat.le_div_iff_mul_le (by positivity)]; rw [Nat.pow_succ] at hlo; omega
    have h2 : (dist - 1) / 2 ^ f < 4 := by
      rw [Nat.div_lt_iff_lt_mul (by positivity)]; rw [Nat.pow_succ, Nat.pow_succ] at hhi; omega
    omega
  have hbits : slotBits (slotOf dist) = f := by rw [hs, slotBits]; simp only [Nat.add_sub_cancel]; omega
  have hbase : slotBase (slotOf dist) = (dist - 1) / 2 ^ f * 2 ^ f := by
    rw [slotBase, hbits, hq, hs]
    simp only [Nat.add_sub_cancel]
    congr 2; omega
  have hdm := Nat.div_add_mod (dist - 1) (2 ^ f)
  have hlt : (dist - 1) % 2 ^ f < 2 ^ f := Nat.mod_lt _ (by positivity)
  refine ⟨by omega, ?_, ?_⟩
  · rw [hbase, Nat.mul_comm]; omega
  · rw [hbase, hbits, Nat.mul_comm]; omega

theorem slotOf_lt {dist : Nat} (h : distOk dist = true) : slotOf dist < 64 := by
  have h' := (distOk_iff dist).mp h
  rcases Nat.lt_or_ge 4 dist with h4 | h4
  · obtain ⟨e, he, hlo, hhi, hs⟩ := slotOf_eq h4
    have : e < 32 := by
      by_contra hc
      have : 2 ^ 32 ≤ 2 ^ e := Nat.pow_le_pow_right (by omega) (by omega)
      omega
    have := Nat.mod_lt ((dist - 1) / 2 ^ (e - 1)) (show 2 > 0 by omega)
    omega
  · simp only [slotOf, if_pos h4]; omega

theorem slotBits_eq {slot : Nat} (h : 14 ≤ slot) : slotBits slot = slotBits slot - 4 + 4 := by
  simp only [slotBits]; omega

theorem readBits_distanceProg (len : Nat) (k : Nat → BitProg α) {dist : Nat} (h : distOk dist = true)
    (rest : List Bool) :
    (distanceProg len k).readBits (distanceBits dist ++ rest) = (k dist).readBits rest := by
  have h' := (distOk_iff dist).mp h
  unfold distanceProg distanceBits
  rw [List.append_assoc, readBits_forwardTree _ _ (slotOf_lt h)]
  rcases Nat.lt_or_ge 4 dist with h4 | h4
  · obtain ⟨hs, hlo, hhi⟩ := slotOf_range h4
    generalize slotOf dist = slot at hs hlo hhi ⊢
    simp only [offsetBits, if_neg (Nat.not_lt.mpr hs)]
    by_cases h14 : slot < 14
    · simp only [if_pos h14]
      rw [readBits_reverseTree _ _ (by omega), show slotBase slot + (dist - 1 - slotBase slot) + 1 = dist by omega]
    · have hb := slotBits_eq (Nat.not_lt.mp h14)
      rw [hb, Nat.pow_add] at hhi
      simp only [if_neg h14]
      rw [List.append_assoc, readBits_directBits, readBits_reverseTree _ _ (show (dist - 1 - slotBase slot) % 16 < 2 ^ 4 by omega),
        Nat.mod_eq_of_lt (by omega)]
      congr 2; omega
  · have hs : slotOf dist = dist - 1 := by simp only [slotOf, if_pos h4]
    rw [hs, if_pos (by omega), offsetBits, if_pos (by omega), List.nil_append, Nat.sub_add_cancel h'.1]

/-! ## What programs name and give -/

section All
variable {P : Cell → Prop} {Q : α → Prop}

theorem all_bitTree {cell : Nat → Cell} {k : Nat → BitProg α} {n m : Nat}
    (hc : ∀ j, m ≤ j → j < (m + 1) * 2 ^ n → 2 * j < (m + 1) * 2 ^ n → P (cell j))
    (hk : ∀ j, m * 2 ^ n ≤ j → j < (m + 1) * 2 ^ n → (k j).All P Q) :
    (bitTree cell n m k).All P Q := by
  induction n generalizing m with
  | zero => simpa [bitTree] using hk m (by simp) (by simp)
  | succ n ih =>
    have h1 : 1 ≤ 2 ^ n := Nat.one_le_two_pow
    have hm : m + 1 ≤ (m + 1) * 2 ^ n := Nat.le_mul_of_pos_right _ h1
    have hup : (m + 1) * 2 ^ (n + 1) = 2 * ((m + 1) * 2 ^ n) := by rw [Nat.pow_succ]; ring
    refine ⟨hc m (Nat.le_refl m) (by omega) (by omega), fun b => ?_⟩
    have hb : b.toNat ≤ 1 := Bool.toNat_le b
    have hup' : (2 * m + b.toNat + 1) * 2 ^ n ≤ (m + 1) * 2 ^ (n + 1) := by
      rw [hup, ← Nat.mul_assoc]
      exact Nat.mul_le_mul_right _ (by omega)
    have hlo : m * 2 ^ (n + 1) ≤ (2 * m + b.toNat) * 2 ^ n := by
      rw [Nat.pow_succ, Nat.mul_comm (2 ^ n) 2, ← Nat.mul_assoc, Nat.mul_comm m 2]
      exact Nat.mul_le_mul_right _ (by omega)
    exact ih (fun j hj hj' hj'' => hc j (by omega) (by omega) (by omega))
      (fun j hj hj' => hk j (by omega) (by omega))

theorem all_forwardTree {cell : Nat → Cell} {k : Nat → BitProg α} {n : Nat}
    (hc : ∀ j, 1 ≤ j → j < 2 ^ n → P (cell j)) (hk : ∀ v, v < 2 ^ n → (k v).All P Q) :
    (forwardTree cell n k).All P Q :=
  all_bitTree (fun j h1 h2 h3 => hc j h1 (by omega)) (fun j h1 h2 => hk _ (by omega))

theorem all_reverseWalk {cell : Nat → Cell} {k : Nat → BitProg α} {n m i sym : Nat}
    (hc : ∀ j, m ≤ j → j < (m + 1) * 2 ^ n → 2 * j < (m + 1) * 2 ^ n → P (cell j))
    (hk : ∀ v, v < 2 ^ n → (k (sym + v * 2 ^ i)).All P Q) :
    (reverseWalk cell n m i sym k).All P Q := by
  induction n generalizing m i sym with
  | zero => simpa [reverseWalk] using hk 0 (by simp)
  | succ n ih =>
    have h1 : 1 ≤ 2 ^ n := Nat.one_le_two_pow
    have hm : m + 1 ≤ (m + 1) * 2 ^ n := Nat.le_mul_of_pos_right _ h1
    have hup : (m + 1) * 2 ^ (n + 1) = 2 * ((m + 1) * 2 ^ n) := by rw [Nat.pow_succ]; ring
    refine ⟨hc m (Nat.le_refl m) (by omega) (by omega), fun b => ?_⟩
    have hb : b.toNat ≤ 1 := Bool.toNat_le b
    have hup' : (2 * m + b.toNat + 1) * 2 ^ n ≤ (m + 1) * 2 ^ (n + 1) := by
      rw [hup, ← Nat.mul_assoc]
      exact Nat.mul_le_mul_right _ (by omega)
    refine ih (fun j hj hj' hj'' => hc j (by omega) (by omega) (by omega)) (fun v hv => ?_)
    have := hk (b.toNat + v * 2) (by rw [Nat.pow_succ]; omega)
    rw [show sym + (b.toNat + v * 2) * 2 ^ i = sym + b.toNat * 2 ^ i + v * 2 ^ (i + 1) by
      rw [Nat.pow_succ]; ring] at this
    exact this

theorem all_reverseTree {cell : Nat → Cell} {k : Nat → BitProg α} {n : Nat}
    (hc : ∀ j, 1 ≤ j → j < 2 ^ n → P (cell j)) (hk : ∀ v, v < 2 ^ n → (k v).All P Q) :
    (reverseTree cell n k).All P Q :=
  all_reverseWalk (fun j h1 h2 h3 => hc j h1 (by omega)) (fun v hv => by simpa using hk v hv)

theorem all_directBits {k : Nat → BitProg α} {n value : Nat}
    (hk : ∀ v, v < 2 ^ n → (k (value * 2 ^ n + v)).All P Q) : (directBits n value k).All P Q := by
  induction n generalizing value with
  | zero => simpa [directBits] using hk 0 (by simp)
  | succ n ih =>
    intro b
    have hb : b.toNat ≤ 1 := Bool.toNat_le b
    refine ih fun v hv => ?_
    have hle : b.toNat * 2 ^ n ≤ 1 * 2 ^ n := Nat.mul_le_mul_right _ hb
    have := hk (b.toNat * 2 ^ n + v) (by rw [Nat.pow_succ]; omega)
    rw [show value * 2 ^ (n + 1) + (b.toNat * 2 ^ n + v) = (2 * value + b.toNat) * 2 ^ n + v by
      rw [Nat.pow_succ]; ring] at this
    exact this

theorem all_matchedWalk {ctx : Nat} {k : Nat → BitProg α} {n m : Nat} {mb : Byte}
    (hc : ∀ j, m ≤ j → 2 * j < (m + 1) * 2 ^ n →
      P (.literal ctx j) ∧ P (.literal ctx (0x100 + j)) ∧ P (.literal ctx (0x200 + j)))
    (hk : ∀ j, (k j).All P Q) : (matchedWalk ctx n m mb k).All P Q := by
  induction n generalizing m mb with
  | zero => exact hk m
  | succ n ih =>
    have h1 : 1 ≤ 2 ^ n := Nat.one_le_two_pow
    have hm : m + 1 ≤ (m + 1) * 2 ^ n := Nat.le_mul_of_pos_right _ h1
    have hup : (m + 1) * 2 ^ (n + 1) = 2 * ((m + 1) * 2 ^ n) := by rw [Nat.pow_succ]; ring
    have hc0 := hc m (Nat.le_refl m) (by omega)
    refine ⟨?_, fun b => ?_⟩
    · cases mb.msb
      · exact hc0.2.1
      · exact hc0.2.2
    · have hb : b.toNat ≤ 1 := Bool.toNat_le b
      have hup' : (2 * m + b.toNat + 1) * 2 ^ n ≤ (m + 1) * 2 ^ (n + 1) := by
        rw [hup, ← Nat.mul_assoc]
        exact Nat.mul_le_mul_right _ (by omega)
      simp only
      split
      · exact ih fun j hj hj' => hc j (by omega) (by omega)
      · exact all_bitTree (fun j hj _ hj' => (hc j (by omega) (by omega)).1) (fun j _ _ => hk j)

/-- The literal code names cells of its own table only, each index within the table. -/
theorem all_literalProg {src : LitSrc} {k : Byte → BitProg α}
    (hc : ∀ j, j < Config.literalTable → P (.literal src.ctx j)) (hk : ∀ b, (k b).All P Q) :
    (literalProg src k).All P Q := by
  simp only [Config.literalTable] at hc
  unfold literalProg
  cases src.matchByte with
  | none => exact all_bitTree (fun j _ _ hj => hc j (by omega)) (fun j _ _ => hk _)
  | some mb =>
    exact all_matchedWalk
      (fun j _ hj => ⟨hc j (by omega), hc _ (by omega), hc _ (by omega)⟩) (fun j => hk _)

/-- The length code gives a length in `[2, 273]` (43_length.md rule R241). -/
theorem all_lengthProg {d : LenSel} {ps : Nat} {k : Nat → BitProg α}
    (h1 : P (.lenChoice d)) (h2 : P (.lenChoice2 d))
    (hl : ∀ j, 1 ≤ j → j < 8 → P (.lenLow d ps j)) (hm : ∀ j, 1 ≤ j → j < 8 → P (.lenMid d ps j))
    (hh : ∀ j, 1 ≤ j → j < 256 → P (.lenHigh d j))
    (hk : ∀ len, lenOk len = true → (k len).All P Q) : (lengthProg d ps k).All P Q := by
  have hk' : ∀ len, 2 ≤ len → len ≤ 273 → (k len).All P Q := fun len h h' => hk len ((lenOk_iff len).mpr ⟨h, h'⟩)
  refine ⟨h1, fun b => ?_⟩
  cases b
  · exact all_forwardTree hl fun v hv => hk' _ (by omega) (by omega)
  · refine ⟨h2, fun b => ?_⟩
    cases b
    · exact all_forwardTree hm fun v hv => hk' _ (by omega) (by omega)
    · exact all_forwardTree hh fun v hv => hk' _ (by omega) (by omega)

/-- The end of a slot's range is at most `2^32` (44_distance.md rule R266). -/
theorem slot_end_le {slot : Nat} (h : slot < 64) : slotBase slot + 2 ^ slotBits slot ≤ 2 ^ 32 := by
  have e : slotBase slot + 2 ^ slotBits slot = (3 + slot % 2) * 2 ^ slotBits slot := by rw [slotBase]; ring
  have h1 : 3 + slot % 2 ≤ 4 := by omega
  have h2 : 2 ^ slotBits slot ≤ 2 ^ 30 := Nat.pow_le_pow_right (by omega) (by simp only [slotBits]; omega)
  rw [e]
  exact (Nat.mul_le_mul h1 h2).trans (by norm_num)

/-- The distance code gives a distance in `[1, 2^32]` (44_distance.md rules R262, R266). -/
theorem all_distanceProg {len : Nat} {k : Nat → BitProg α}
    (hp : ∀ j, 1 ≤ j → j < 64 → P (.posSlot (min (len - 2) 3) j))
    (hs : ∀ slot j, 4 ≤ slot → slot < 14 → 1 ≤ j → j < 2 ^ slotBits slot → P (.specPos slot j))
    (ha : ∀ j, 1 ≤ j → j < 16 → P (.align j))
    (hk : ∀ dist, distOk dist = true → (k dist).All P Q) : (distanceProg len k).All P Q := by
  have hk' : ∀ dist, 1 ≤ dist → dist ≤ 2 ^ 32 → (k dist).All P Q := fun d h h' => hk d ((distOk_iff d).mpr ⟨h, h'⟩)
  refine all_forwardTree hp fun slot hslot => ?_
  have hend := slot_end_le hslot
  split
  · exact hk' _ (by omega) (by omega)
  · split
    · exact all_reverseTree (hs slot · (by omega) (by omega)) fun v hv => hk' _ (by omega) (by omega)
    · have hb := slotBits_eq (slot := slot) (by omega)
      rw [hb, Nat.pow_add] at hend
      refine all_directBits fun high hhigh => all_reverseTree ha fun al hal => ?_
      exact hk' _ (by omega) (by omega)

/-- A packet's code gives a well-formed packet, or nothing when it is a literal whose operands cannot be
read. -/
theorem all_packetProg (c : PacketCtx) :
    (packetProg c).All (fun _ => True)
      (fun r => (r = none ∧ c.lit = none) ∨ ∃ i, r = some i ∧ i.wellFormed = true ∧ i.isPacket = true) := by
  have hlen : ∀ (d : LenSel) (k : Nat → BitProg (Option Instr)),
      (∀ len, lenOk len = true → (k len).All (fun _ => True)
        (fun r => (r = none ∧ c.lit = none) ∨ ∃ i, r = some i ∧ i.wellFormed = true ∧ i.isPacket = true)) →
      (lengthProg d c.ps k).All (fun _ => True)
        (fun r => (r = none ∧ c.lit = none) ∨ ∃ i, r = some i ∧ i.wellFormed = true ∧ i.isPacket = true) :=
    fun d k hk => all_lengthProg trivial trivial (fun _ _ _ => trivial) (fun _ _ _ => trivial)
      (fun _ _ _ => trivial) hk
  refine ⟨trivial, fun b => ?_⟩
  cases b
  · cases hl : c.lit with
    | none => simp only [BitProg.All]; exact .inl ⟨trivial, trivial⟩
    | some src => exact all_literalProg (fun _ _ => trivial) fun b => .inr ⟨_, rfl, rfl, rfl⟩
  · refine ⟨trivial, fun b => ?_⟩
    cases b
    · refine hlen _ _ fun len hlen => all_distanceProg (fun _ _ _ => trivial) (fun _ _ _ _ _ _ => trivial)
        (fun _ _ _ => trivial) fun dist hdist => .inr ⟨_, rfl, ?_, rfl⟩
      simp [Instr.wellFormed, hlen, hdist]
    · refine ⟨trivial, fun b => ?_⟩
      cases b
      · refine ⟨trivial, fun b => ?_⟩
        cases b
        · exact .inr ⟨_, rfl, rfl, rfl⟩
        · exact hlen _ _ fun len hl => .inr ⟨_, rfl, hl, rfl⟩
      · refine ⟨trivial, fun b => ?_⟩
        cases b
        · exact hlen _ _ fun len hl => .inr ⟨_, rfl, hl, rfl⟩
        · refine ⟨trivial, fun b => ?_⟩
          cases b
          · exact hlen _ _ fun len hl => .inr ⟨_, rfl, hl, rfl⟩
          · exact hlen _ _ fun len hl => .inr ⟨_, rfl, hl, rfl⟩

end All

/-! ## Header fields -/

/-- The two bytes of a size, put together again. -/
theorem be16_be16Bytes (v : BitVec 16) : be16 (v.extractLsb' 8 8) (v.extractLsb' 0 8) = v := by
  apply BitVec.eq_of_getLsbD_eq
  intro i hi
  rw [be16, BitVec.getLsbD_append]
  split <;> simp_all
  omega

/-- `U[20:16]` and `U[15:0]`, put together again. -/
theorem unpackSize_parts (u : BitVec 21) : u.extractLsb' 16 5 ++ u.extractLsb' 0 16 = u := by
  apply BitVec.eq_of_getLsbD_eq
  intro i hi
  rw [BitVec.getLsbD_append]
  split <;> simp_all
  omega

theorem lzmaControl_msb (mode : BitVec 2) (u : BitVec 21) : (lzmaControl mode u).msb = true := by
  rw [lzmaControl, BitVec.msb_append, BitVec.msb_append]; rfl

theorem lzmaControl_mode (mode : BitVec 2) (u : BitVec 21) : (lzmaControl mode u).extractLsb' 5 2 = mode := by
  apply BitVec.eq_of_getLsbD_eq
  intro i hi
  rw [BitVec.getLsbD_extractLsb', lzmaControl, BitVec.getLsbD_append, BitVec.getLsbD_append]
  simp [hi]

theorem lzmaControl_high (mode : BitVec 2) (u : BitVec 21) :
    (lzmaControl mode u).extractLsb' 0 5 = u.extractLsb' 16 5 := by
  apply BitVec.eq_of_getLsbD_eq
  intro i hi
  rw [BitVec.getLsbD_extractLsb', lzmaControl, BitVec.getLsbD_append]
  simp [hi]

end Sys2Proof
end

