-- ==== Sys2Proof/Laws/Memory.lean ====
section
/-! SUPPORT. The laws of the sparse lists: reading after writing, that every operation keeps the canonical
form, and what the probability RAMs and the dictionary inherit from them. -/

namespace Sys2Proof.Machine

/-! ## Sparse lists -/

section Sparse
variable {α : Type}

theorem risingFrom_mono {lo lo' : Nat} (h : lo' ≤ lo) {l : List (Nat × α)} (hl : risingFrom lo l = true) :
    risingFrom lo' l = true := by
  cases l with
  | nil => rfl
  | cons e t => simp only [risingFrom, Bool.and_eq_true, decide_eq_true_eq] at hl ⊢; exact ⟨by omega, hl.2⟩

/-- A key below the first is not listed. -/
theorem sparseGet_of_lt {lo a : Nat} {l : List (Nat × α)} (hl : risingFrom lo l = true) (h : a < lo) :
    sparseGet l a = none := by
  induction l generalizing lo with
  | nil => rfl
  | cons e t ih =>
    simp only [risingFrom, Bool.and_eq_true, decide_eq_true_eq] at hl
    rw [sparseGet, if_neg (by omega)]
    exact ih hl.2 (by omega)

theorem sparseGet_mem {l : List (Nat × α)} {a : Nat} {v : α} (h : sparseGet l a = some v) : (a, v) ∈ l := by
  induction l with
  | nil => simp [sparseGet] at h
  | cons e t ih =>
    obtain ⟨k, w⟩ := e
    rw [sparseGet] at h
    split at h
    · simp_all
    · exact List.mem_cons_of_mem _ (ih h)

/-- Reading the key just written. -/
@[simp] theorem sparseGet_set_self (l : List (Nat × α)) (a : Nat) (v : α) :
    sparseGet (sparseSet l a v) a = some v := by
  induction l with
  | nil => simp [sparseSet, sparseGet]
  | cons e t ih =>
    obtain ⟨k, w⟩ := e
    simp only [sparseSet]
    split
    · simp [sparseGet]
    · split
      · simp [sparseGet]
      · simp only [sparseGet]; rw [if_neg (by omega), ih]

/-- A write leaves every other key alone. -/
theorem sparseGet_set_ne (l : List (Nat × α)) {a b : Nat} (v : α) (h : b ≠ a) :
    sparseGet (sparseSet l a v) b = sparseGet l b := by
  induction l with
  | nil => simp [sparseSet, sparseGet]; omega
  | cons e t ih =>
    obtain ⟨k, w⟩ := e
    simp only [sparseSet]
    split
    · rw [sparseGet, if_neg (by omega)]
    · split
      · simp only [sparseGet]; rw [if_neg (by omega), if_neg (by omega)]
      · simp only [sparseGet, ih]

theorem risingFrom_set {lo a : Nat} {l : List (Nat × α)} (v : α) (hl : risingFrom lo l = true) (h : lo ≤ a) :
    risingFrom lo (sparseSet l a v) = true := by
  induction l generalizing lo with
  | nil => simp [sparseSet, risingFrom, h]
  | cons e t ih =>
    obtain ⟨k, w⟩ := e
    simp only [risingFrom, Bool.and_eq_true, decide_eq_true_eq] at hl
    simp only [sparseSet]
    split
    · simp only [risingFrom, Bool.and_eq_true, decide_eq_true_eq]; exact ⟨h, by omega, hl.2⟩
    · split
      · rename_i h2; subst h2
        simp only [risingFrom, Bool.and_eq_true, decide_eq_true_eq]; exact ⟨h, hl.2⟩
      · simp only [risingFrom, Bool.and_eq_true, decide_eq_true_eq]; exact ⟨hl.1, ih hl.2 (by omega)⟩

theorem risingFrom_erase {lo : Nat} {l : List (Nat × α)} (a : Nat) (hl : risingFrom lo l = true) :
    risingFrom lo (sparseErase l a) = true := by
  induction l generalizing lo with
  | nil => rfl
  | cons e t ih =>
    obtain ⟨k, w⟩ := e
    simp only [risingFrom, Bool.and_eq_true, decide_eq_true_eq] at hl
    simp only [sparseErase]
    split
    · exact risingFrom_mono (by omega) hl.2
    · simp only [risingFrom, Bool.and_eq_true, decide_eq_true_eq]; exact ⟨hl.1, ih hl.2⟩

/-- An erased key is not listed. -/
theorem sparseGet_erase_self {lo : Nat} {l : List (Nat × α)} (a : Nat) (hl : risingFrom lo l = true) :
    sparseGet (sparseErase l a) a = none := by
  induction l generalizing lo with
  | nil => rfl
  | cons e t ih =>
    obtain ⟨k, w⟩ := e
    simp only [risingFrom, Bool.and_eq_true, decide_eq_true_eq] at hl
    simp only [sparseErase]
    split
    · exact sparseGet_of_lt hl.2 (by omega)
    · rw [sparseGet, if_neg (by omega), ih hl.2]

theorem sparseGet_erase_ne (l : List (Nat × α)) {a b : Nat} (h : b ≠ a) :
    sparseGet (sparseErase l a) b = sparseGet l b := by
  induction l with
  | nil => rfl
  | cons e t ih =>
    obtain ⟨k, w⟩ := e
    simp only [sparseErase]
    split
    · rw [sparseGet, if_neg (by omega)]
    · simp only [sparseGet, ih]

theorem mem_sparseSet {l : List (Nat × α)} {a : Nat} {v : α} {e : Nat × α} (h : e ∈ sparseSet l a v) :
    e = (a, v) ∨ e ∈ l := by
  induction l with
  | nil => simpa [sparseSet] using h
  | cons e' t ih =>
    obtain ⟨k, w⟩ := e'
    simp only [sparseSet] at h
    split at h
    · simpa using h
    · split at h
      · rcases List.mem_cons.mp h with h | h
        · exact .inl h
        · exact .inr (List.mem_cons_of_mem _ h)
      · rcases List.mem_cons.mp h with h | h
        · exact .inr (by simp [h])
        · rcases ih h with h | h
          · exact .inl h
          · exact .inr (List.mem_cons_of_mem _ h)

theorem mem_sparseErase {l : List (Nat × α)} {a : Nat} {e : Nat × α} (h : e ∈ sparseErase l a) : e ∈ l := by
  induction l with
  | nil => simp [sparseErase] at h
  | cons e' t ih =>
    obtain ⟨k, w⟩ := e'
    simp only [sparseErase] at h
    split at h
    · exact List.mem_cons_of_mem _ h
    · rcases List.mem_cons.mp h with h | h
      · simp [h]
      · exact List.mem_cons_of_mem _ (ih h)

end Sparse

/-! ## Probability RAMs -/

/-- A cell reads back what was written to it, 1024 included. -/
theorem Probs.read_write_self {m : Probs} (hm : Probs.wf m = true) (key : Nat) (p : Prob) :
    Probs.read (Probs.write m key p) key = p := by
  simp only [Probs.wf, Bool.and_eq_true] at hm
  unfold Probs.write Probs.read
  split
  · rename_i h; rw [sparseGet_erase_self key hm.1]; exact h.symm
  · simp

/-- No two cells share storage: a write leaves every other cell alone. -/
theorem Probs.read_write_ne (m : Probs) {key other : Nat} (p : Prob) (h : other ≠ key) :
    Probs.read (Probs.write m key p) other = Probs.read m other := by
  unfold Probs.write Probs.read
  split
  · rw [sparseGet_erase_ne _ h]
  · rw [sparseGet_set_ne _ _ h]

theorem Probs.wf_write {m : Probs} (hm : Probs.wf m = true) (key : Nat) (p : Prob) :
    Probs.wf (Probs.write m key p) = true := by
  simp only [Probs.wf, Bool.and_eq_true, List.all_eq_true] at hm ⊢
  unfold Probs.write
  split
  · exact ⟨risingFrom_erase _ hm.1, fun e he => hm.2 e (mem_sparseErase he)⟩
  · refine ⟨risingFrom_set _ hm.1 (Nat.zero_le _), fun e he => ?_⟩
    rcases mem_sparseSet he with rfl | he
    · simpa using ‹_›
    · exact hm.2 e he

theorem Probs.bounded_write {m : Probs} (hm : Probs.bounded m = true) (key : Nat) {p : Prob}
    (hp : probOk p = true) : Probs.bounded (Probs.write m key p) = true := by
  simp only [Probs.bounded, List.all_eq_true] at hm ⊢
  intro e he
  unfold Probs.write at he
  split at he
  · exact hm e (mem_sparseErase he)
  · rcases mem_sparseSet he with rfl | he
    · exact hp
    · exact hm e he

theorem Probs.kept_write {m : Probs} (hm : Probs.kept m = true) (key : Nat) {p : Prob}
    (hp : probOk p = true) : Probs.kept (Probs.write m key p) = true := by
  simp only [Probs.kept, Bool.and_eq_true] at hm ⊢
  exact ⟨Probs.wf_write hm.1 key p, Probs.bounded_write hm.2 key hp⟩

/-- Every cell of a kept RAM reads within `[31, 2017]`. -/
theorem Probs.kept_read {m : Probs} (hm : Probs.kept m = true) (key : Nat) :
    probOk (Probs.read m key) = true := by
  simp only [Probs.kept, Probs.bounded, Bool.and_eq_true, List.all_eq_true] at hm
  unfold Probs.read
  cases h : sparseGet m key with
  | none => decide
  | some p => exact hm.2 _ (sparseGet_mem h)

@[simp] theorem Probs.kept_nil : Probs.kept [] = true := rfl

/-! ## The dictionary -/

theorem Memory.wf_set {m : Memory} (hm : Memory.wf m = true) (a : Nat) (b : Byte) :
    Memory.wf (sparseSet m a b) = true := risingFrom_set b hm (Nat.zero_le _)

/-- The two cases of the ring index of a distance within the capacity (20_memory.md rule R81). -/
theorem ringIndex_of_le {writePos d cap : Nat} (hw : writePos < cap) (hd : d ≤ writePos) :
    ringIndex writePos d cap = writePos - d := by
  unfold ringIndex
  have : ((writePos : Int) - (d : Int)) = ((writePos - d : Nat) : Int) := by omega
  rw [this, ← Int.natCast_mod, Int.toNat_natCast, Nat.mod_eq_of_lt (by omega)]

theorem ringIndex_of_lt {writePos d cap : Nat} (hw : writePos < d) (hd : d ≤ cap) :
    ringIndex writePos d cap = writePos + cap - d := by
  unfold ringIndex
  have h : ((writePos : Int) - (d : Int)) % (cap : Int) = ((writePos + cap - d : Nat) : Int) := by
    rw [← Int.add_emod_right, show ((writePos : Int) - d + cap) = ((writePos + cap - d : Nat) : Int) by omega]
    rw [← Int.natCast_mod, Nat.mod_eq_of_lt (by omega)]
  rw [h, Int.toNat_natCast]

theorem ringIndex_lt {writePos d cap : Nat} (hw : writePos < cap) (hd : d ≤ cap) (h0 : 1 ≤ d) :
    ringIndex writePos d cap < cap := by
  rcases Nat.lt_or_ge writePos d with h | h
  · rw [ringIndex_of_lt h hd]; omega
  · rw [ringIndex_of_le hw h]; omega

/-- After one byte is written, the cell it went to is at distance 1. -/
theorem ringIndex_next_one {writePos cap : Nat} (hw : writePos < cap) :
    ringIndex ((writePos + 1) % cap) 1 cap = writePos := by
  rcases Nat.lt_or_ge (writePos + 1) cap with h | h
  · rw [Nat.mod_eq_of_lt h, ringIndex_of_le h (by omega)]; omega
  · have : writePos + 1 = cap := by omega
    rw [this, Nat.mod_self, ringIndex_of_lt (by omega) (by omega)]; omega

/-- After one byte is written, what was at distance `d` is at distance `d + 1`. -/
theorem ringIndex_next_succ {writePos d cap : Nat} (hw : writePos < cap) (h0 : 1 ≤ d) (hd : d < cap) :
    ringIndex ((writePos + 1) % cap) (d + 1) cap = ringIndex writePos d cap := by
  rcases Nat.lt_or_ge (writePos + 1) cap with h | h
  · rw [Nat.mod_eq_of_lt h]
    rcases Nat.lt_or_ge writePos d with h2 | h2
    · rw [ringIndex_of_lt (by omega) (by omega), ringIndex_of_lt h2 (by omega)]; omega
    · rw [ringIndex_of_le h (by omega), ringIndex_of_le hw h2]; omega
  · have : writePos + 1 = cap := by omega
    rw [this, Nat.mod_self, ringIndex_of_lt (by omega) (by omega), ringIndex_of_le hw (by omega)]; omega

/-- Within the reach, only distance `cap` shares a cell with the write position. -/
theorem ringIndex_ne_writePos {writePos d cap : Nat} (hw : writePos < cap) (h0 : 1 ≤ d) (hd : d < cap) :
    ringIndex writePos d cap ≠ writePos := by
  rcases Nat.lt_or_ge writePos d with h | h
  · rw [ringIndex_of_lt h (by omega)]; omega
  · rw [ringIndex_of_le hw h]; omega

/-- The check of rule R84, both ways. -/
theorem Dict.checkDistance_ok {d : Dict} {dist : Nat} (h : 1 ≤ dist ∧ dist ≤ d.reach) :
    d.checkDistance dist = .ok () := if_pos h

theorem Dict.checkDistance_error {d : Dict} {dist : Nat} (h : ¬ (1 ≤ dist ∧ dist ≤ d.reach)) :
    d.checkDistance dist = .error (.raise (.error .invalidDistance)) := if_neg h

/-- `DictGet` of a checked distance whose cell is written. -/
theorem Dict.get_ok {d : Dict} {dist : Nat} {b : Byte} (h : 1 ≤ dist ∧ dist ≤ d.reach)
    (hb : d.read (ringIndex d.writePos.toNat dist d.cap.toNat) = some b) : d.get dist = .ok b := by
  simp [Dict.get, Dict.checkDistance_ok h, bind, Except.bind, hb]

/-- `DictPut` is the write of rule R83. -/
theorem Dict.put_after (d : Dict) (b : Byte) : d.put b = d.after b := rfl

end Sys2Proof.Machine
end

