-- ==== Sys2Proof/Laws/RangeCoder.lean ====
section
/-! SUPPORT. The laws of the range decoder: its bounds (40_range_coder.md rules R180, R181), what each bit
operation can do, that later input does not matter to it, and the same of whole programs of decision bits. -/

namespace Sys2Proof.Machine

/-! ## Adaptation -/

theorem probOk_iff (p : Prob) : probOk p = true ↔ 31 ≤ p.toNat ∧ p.toNat ≤ 2017 := by
  exact decide_eq_true_iff

theorem probUp_toNat {p : Prob} (h : probOk p = true) :
    (probUp p).toNat = p.toNat + (2048 - p.toNat) / 32 := by
  rw [probOk_iff] at h
  simp only [probUp, BitVec.toNat_ofNat]
  exact Nat.mod_eq_of_lt (by omega)

theorem probDown_toNat (p : Prob) : (probDown p).toNat = p.toNat - p.toNat / 32 := by
  have := p.isLt
  simp only [probDown, BitVec.toNat_sub, BitVec.toNat_ushiftRight, Nat.shiftRight_eq_div_pow]
  omega

theorem probUp_ok {p : Prob} (h : probOk p = true) : probOk (probUp p) = true := by
  have h' := (probOk_iff p).mp h
  rw [probOk_iff, probUp_toNat h]; omega

theorem probDown_ok {p : Prob} (h : probOk p = true) : probOk (probDown p) = true := by
  rw [probOk_iff] at h ⊢
  rw [probDown_toNat]; omega

/-! ## The interval -/

/-- The bound does not overflow (00_scope.md rule R10). -/
theorem rcBound_toNat (range : Word) (p : Prob) :
    (rcBound range p).toNat = range.toNat / 2048 * p.toNat := by
  have h1 := range.isLt
  have h2 := p.isLt
  simp only [rcBound, BitVec.toNat_mul, BitVec.toNat_ushiftRight, Nat.shiftRight_eq_div_pow,
    BitVec.toNat_setWidth]
  rw [Nat.mod_eq_of_lt (show p.toNat < 2 ^ 32 by omega), Nat.mod_eq_of_lt]
  calc range.toNat / 2 ^ 11 * p.toNat ≤ (2 ^ 21 - 1) * 2047 := Nat.mul_le_mul (by omega) (by omega)
    _ < 2 ^ 32 := by norm_num

theorem rcBound_ge {range : Word} {p : Prob} (hr : Config.rangeTop ≤ range.toNat) (hp : probOk p = true) :
    2 ^ 13 * 31 ≤ (rcBound range p).toNat := by
  rw [rcBound_toNat]
  rw [probOk_iff] at hp
  simp only [Config.rangeTop] at hr
  exact Nat.mul_le_mul (by omega) hp.1

theorem rcBound_lt {range : Word} {p : Prob} (hr : Config.rangeTop ≤ range.toNat) (hp : probOk p = true) :
    (rcBound range p).toNat + 2 ^ 13 * 31 ≤ range.toNat := by
  rw [rcBound_toNat]
  rw [probOk_iff] at hp
  simp only [Config.rangeTop] at hr
  have h1 : range.toNat / 2048 * p.toNat ≤ range.toNat / 2048 * 2017 := Nat.mul_le_mul_left _ hp.2
  omega

/-! ## Bytes -/

/-- `after` is `before` later in the same byte source: `k` bytes on, and a chunk's budget that much less. -/
def Rc.Advances (before after : Rc) (k : Nat) : Prop :=
  after.bytes = before.bytes.drop k ∧ k ≤ before.bytes.length ∧
  match before.src with
  | .stream => after.src = .stream
  | .bcj2 => after.src = .bcj2
  | .chunk left => k ≤ left.toNat ∧ ∃ left', after.src = .chunk left' ∧ left'.toNat + k = left.toNat

theorem Rc.Advances.refl (rc rc' : Rc) (hb : rc'.bytes = rc.bytes) (hs : rc'.src = rc.src) :
    rc.Advances rc' 0 := by
  refine ⟨by simp [hb], Nat.zero_le _, ?_⟩
  cases h : rc.src <;> simp [hs, h]

theorem Rc.Advances.trans {a b c : Rc} {k l : Nat} (h1 : a.Advances b k) (h2 : b.Advances c l) :
    a.Advances c (k + l) := by
  obtain ⟨e1, l1, s1⟩ := h1
  obtain ⟨e2, l2, s2⟩ := h2
  refine ⟨by rw [e2, e1, List.drop_drop], ?_, ?_⟩
  · rw [e1, List.length_drop] at l2; omega
  · cases h : a.src with
    | stream => rw [h] at s1; simp only at s1; rw [s1] at s2; exact s2
    | bcj2 => rw [h] at s1; simp only at s1; rw [s1] at s2; exact s2
    | chunk left =>
      rw [h] at s1
      obtain ⟨k1, left1, hs1, e1'⟩ := s1
      rw [hs1] at s2
      obtain ⟨k2, left2, hs2, e2'⟩ := s2
      exact ⟨by omega, left2, hs2, by omega⟩

/-- What a byte request of a source can raise (rule R172). -/
def RcSource.Raises (src : RcSource) (r : Raise) : Prop :=
  match src with
  | .stream => r = .needMoreInput
  | .chunk _ => r = .needMoreInput ∨ r = .error .packedOverrun
  | .bcj2 => r = .error .bcj2Truncated

/-- `RcByte`: a byte and the source one byte on, or one of the source's events. -/
theorem rcByte_cases (src : RcSource) (bytes : List Byte) :
    (∃ b src', rcByte src bytes = .ok (b, src', bytes.drop 1) ∧ 1 ≤ bytes.length ∧
      (match src with
       | .stream => src' = .stream
       | .bcj2 => src' = .bcj2
       | .chunk left => 1 ≤ left.toNat ∧ ∃ left', src' = .chunk left' ∧ left'.toNat + 1 = left.toNat)) ∨
    (∃ r, rcByte src bytes = .error (.raise r) ∧ src.Raises r) := by
  unfold rcByte RcSource.draw
  cases src with
  | stream => cases bytes <;> simp [bind, Except.bind, RcSource.Raises, RcSource.starved]
  | bcj2 => cases bytes <;> simp [bind, Except.bind, RcSource.Raises, RcSource.starved]
  | chunk left =>
    by_cases h : left.toNat < 1
    · simp [bind, Except.bind, RcSource.Raises, h]
    · cases bytes with
      | nil => simp [bind, Except.bind, RcSource.Raises, RcSource.starved, h]
      | cons b t =>
        left
        refine ⟨b, .chunk (left - BitVec.ofNat 17 1), by simp [bind, Except.bind, h], by simp, by omega, _, rfl, ?_⟩
        have := left.isLt
        simp only [BitVec.toNat_sub, BitVec.toNat_ofNat]
        omega

/-- A byte request that succeeds does so whatever bytes follow. -/
theorem rcByte_append {src : RcSource} {bytes : List Byte} {b : Byte} {src' : RcSource} {t : List Byte}
    (h : rcByte src bytes = .ok (b, src', t)) (more : List Byte) :
    rcByte src (bytes ++ more) = .ok (b, src', t ++ more) := by
  unfold rcByte at h ⊢
  cases hd : src.draw 1 with
  | error e => simp [hd, bind, Except.bind] at h
  | ok s1 =>
    simp only [hd, bind, Except.bind] at h ⊢
    cases bytes with
    | nil => simp at h
    | cons b' t' =>
      simp only [Except.ok.injEq, Prod.mk.injEq] at h
      obtain ⟨rfl, rfl, rfl⟩ := h
      simp

/-! ## Normalisation -/

/-- What one normalisation can do, when the range after one shift is large enough (rule R181). -/
theorem normalise_cases {rc : Rc} (h : 2 ^ 16 ≤ rc.range.toNat) :
    (∃ rc' k, normalise rc = .ok rc' ∧ Config.rangeTop ≤ rc'.range.toNat ∧ rc.Advances rc' k ∧ k ≤ 1) ∨
    (∃ r, normalise rc = .error (.raise r) ∧ rc.src.Raises r) := by
  unfold normalise
  by_cases hlt : rc.range.toNat < Config.rangeTop
  · rw [if_pos hlt]
    rcases rcByte_cases rc.src rc.bytes with ⟨b, src', e, hl, hs⟩ | ⟨r, e, hr⟩
    · left
      have hge : ¬ (rc.range <<< 8).toNat < Config.rangeTop := by
        simp only [Config.rangeTop, BitVec.toNat_shiftLeft, Nat.shiftLeft_eq] at hlt ⊢
        omega
      simp only [e, bind, Except.bind, if_neg hge]
      refine ⟨_, 1, rfl, by simpa using hge, ⟨rfl, hl, ?_⟩, Nat.le_refl 1⟩
      cases hsrc : rc.src with
      | stream => rw [hsrc] at hs; simpa using hs
      | bcj2 => rw [hsrc] at hs; simpa using hs
      | chunk left => rw [hsrc] at hs; simpa using hs
    · right; exact ⟨r, by simp [e, bind, Except.bind], hr⟩
  · left
    rw [if_neg hlt]
    exact ⟨rc, 0, rfl, by omega, .refl _ _ rfl rfl, Nat.zero_le 1⟩

theorem normalise_append {rc rc' : Rc} (h : normalise rc = .ok rc') (more : List Byte) :
    normalise { rc with bytes := rc.bytes ++ more } = .ok { rc' with bytes := rc'.bytes ++ more } := by
  unfold normalise at h ⊢
  by_cases hlt : rc.range.toNat < Config.rangeTop
  · simp only [if_pos hlt] at h ⊢
    cases hb : rcByte rc.src rc.bytes with
    | error e => simp [hb, bind, Except.bind] at h
    | ok x =>
      obtain ⟨b, src, t⟩ := x
      simp only [hb, rcByte_append hb more, bind, Except.bind] at h ⊢
      split at h
      · simp at h
      · rename_i h2
        rw [if_neg h2]
        simp only [Except.ok.injEq] at h
        subst h; rfl
  · simp only [if_neg hlt, Except.ok.injEq] at h ⊢
    subst h; rfl

/-! ## Bit operations -/

/-- What `DecodeBit` can do from a range and a cell within their bounds: a bit, with the cell, the range and
the source again within theirs, or one of the source's events; never a fault (rules R180, R181). -/
theorem decodeBit_cases {p : Prob} {rc : Rc} (hp : probOk p = true) (hr : Config.rangeTop ≤ rc.range.toNat) :
    (∃ b p' rc' k, decodeBit p rc = .ok (b, p', rc') ∧ probOk p' = true ∧
      Config.rangeTop ≤ rc'.range.toNat ∧ rc.Advances rc' k ∧ k ≤ 1) ∨
    (∃ r, decodeBit p rc = .error (.raise r) ∧ rc.src.Raises r) := by
  have hge := rcBound_ge hr hp
  have hlt := rcBound_lt hr hp
  unfold decodeBit
  rw [if_neg (by simp [hp])]
  by_cases hc : rc.code < rcBound rc.range p
  · simp only [if_pos hc]
    rcases normalise_cases (rc := { rc with range := rcBound rc.range p }) (by simp only; omega) with
      ⟨rc', k, e, h1, h2, h3⟩ | ⟨r, e, h1⟩
    · left
      refine ⟨false, probUp p, rc', k, by simp [e, bind, Except.bind], probUp_ok hp, h1, ?_, h3⟩
      exact (Rc.Advances.refl rc _ rfl rfl).trans h2 |> (Nat.zero_add k ▸ ·)
    · right; exact ⟨r, by simp [e, bind, Except.bind], h1⟩
  · simp only [if_neg hc]
    have hsub : (rc.range - rcBound rc.range p).toNat = rc.range.toNat - (rcBound rc.range p).toNat := by
      rw [BitVec.toNat_sub_of_le]; exact BitVec.le_def.mpr (by omega)
    rcases normalise_cases
        (rc := { rc with range := rc.range - rcBound rc.range p, code := rc.code - rcBound rc.range p })
        (by simp only; omega) with
      ⟨rc', k, e, h1, h2, h3⟩ | ⟨r, e, h1⟩
    · left
      refine ⟨true, probDown p, rc', k, by simp [e, bind, Except.bind], probDown_ok hp, h1, ?_, h3⟩
      exact (Rc.Advances.refl rc _ rfl rfl).trans h2 |> (Nat.zero_add k ▸ ·)
    · right; exact ⟨r, by simp [e, bind, Except.bind], h1⟩

theorem decodeBit_append {p : Prob} {rc : Rc} {b : Bool} {p' : Prob} {rc' : Rc}
    (h : decodeBit p rc = .ok (b, p', rc')) (more : List Byte) :
    decodeBit p { rc with bytes := rc.bytes ++ more } = .ok (b, p', { rc' with bytes := rc'.bytes ++ more }) := by
  unfold decodeBit at h ⊢
  split at h
  · simp at h
  · rename_i hok
    rw [if_neg hok]
    simp only at h ⊢
    split at h
    · rename_i hc
      rw [if_pos hc]
      cases hn : normalise { rc with range := rcBound rc.range p } with
      | error e => simp [hn, bind, Except.bind] at h
      | ok x =>
        have := normalise_append hn more
        simp only [hn, bind, Except.bind, Except.ok.injEq, Prod.mk.injEq] at h
        obtain ⟨rfl, rfl, rfl⟩ := h
        simp only at this
        simp [this, bind, Except.bind]
    · rename_i hc
      rw [if_neg hc]
      cases hn : normalise { rc with range := rc.range - rcBound rc.range p, code := rc.code - rcBound rc.range p } with
      | error e => simp [hn, bind, Except.bind] at h
      | ok x =>
        have := normalise_append hn more
        simp only [hn, bind, Except.bind, Except.ok.injEq, Prod.mk.injEq] at h
        obtain ⟨rfl, rfl, rfl⟩ := h
        simp only at this
        simp [this, bind, Except.bind]

theorem decodeDirect_cases {rc : Rc} (hr : Config.rangeTop ≤ rc.range.toNat) :
    (∃ b rc' k, decodeDirect rc = .ok (b, rc') ∧ Config.rangeTop ≤ rc'.range.toNat ∧ rc.Advances rc' k ∧ k ≤ 1) ∨
    (∃ r, decodeDirect rc = .error (.raise r) ∧ rc.src.Raises r) := by
  have hhalf : 2 ^ 16 ≤ (rc.range >>> 1).toNat := by
    simp only [Config.rangeTop] at hr
    simp only [BitVec.toNat_ushiftRight, Nat.shiftRight_eq_div_pow]; omega
  unfold decodeDirect
  by_cases hc : rc.range >>> 1 ≤ rc.code
  · simp only [if_pos hc]
    rcases normalise_cases (rc := { rc with range := rc.range >>> 1, code := rc.code - rc.range >>> 1 }) hhalf with
      ⟨rc', k, e, h1, h2, h3⟩ | ⟨r, e, h1⟩
    · left
      refine ⟨true, rc', k, by simp [e, bind, Except.bind], h1, ?_, h3⟩
      exact (Rc.Advances.refl rc _ rfl rfl).trans h2 |> (Nat.zero_add k ▸ ·)
    · right; exact ⟨r, by simp [e, bind, Except.bind], h1⟩
  · simp only [if_neg hc]
    rcases normalise_cases (rc := { rc with range := rc.range >>> 1 }) hhalf with
      ⟨rc', k, e, h1, h2, h3⟩ | ⟨r, e, h1⟩
    · left
      refine ⟨false, rc', k, by simp [e, bind, Except.bind], h1, ?_, h3⟩
      exact (Rc.Advances.refl rc _ rfl rfl).trans h2 |> (Nat.zero_add k ▸ ·)
    · right; exact ⟨r, by simp [e, bind, Except.bind], h1⟩

theorem decodeDirect_append {rc : Rc} {b : Bool} {rc' : Rc} (h : decodeDirect rc = .ok (b, rc'))
    (more : List Byte) :
    decodeDirect { rc with bytes := rc.bytes ++ more } = .ok (b, { rc' with bytes := rc'.bytes ++ more }) := by
  unfold decodeDirect at h ⊢
  simp only at h ⊢
  split at h
  · rename_i hc
    rw [if_pos hc]
    cases hn : normalise { rc with range := rc.range >>> 1, code := rc.code - rc.range >>> 1 } with
    | error e => simp [hn, bind, Except.bind] at h
    | ok x =>
      have := normalise_append hn more
      simp only [hn, bind, Except.bind, Except.ok.injEq, Prod.mk.injEq] at h
      obtain ⟨rfl, rfl⟩ := h
      simp only at this
      simp [this, bind, Except.bind]
  · rename_i hc
    rw [if_neg hc]
    cases hn : normalise { rc with range := rc.range >>> 1 } with
    | error e => simp [hn, bind, Except.bind] at h
    | ok x =>
      have := normalise_append hn more
      simp only [hn, bind, Except.bind, Except.ok.injEq, Prod.mk.injEq] at h
      obtain ⟨rfl, rfl⟩ := h
      simp only at this
      simp [this, bind, Except.bind]

/-! ## Programs of decision bits -/

/-- What reading a program can do from a kept RAM and a range in bounds. -/
theorem runProg_cases {α : Type} (prog : BitProg α) {rc : Rc} {m : Probs}
    (hr : Config.rangeTop ≤ rc.range.toNat) (hm : Probs.kept m = true) :
    (∃ a rc' m' k, runProg prog rc m = .ok (a, rc', m') ∧ Config.rangeTop ≤ rc'.range.toNat ∧
      Probs.kept m' = true ∧ rc.Advances rc' k) ∨
    (∃ r, runProg prog rc m = .error (.raise r)) := by
  induction prog generalizing rc m with
  | done a => exact .inl ⟨a, rc, m, 0, rfl, hr, hm, .refl _ _ rfl rfl⟩
  | bit c k ih =>
    rcases decodeBit_cases (Probs.kept_read hm (cellKey c)) hr with ⟨b, p', rc', n, e, hp, hr', ha, -⟩ | ⟨r, e, -⟩
    · rcases ih b hr' (Probs.kept_write hm (cellKey c) hp) with ⟨a, rc2, m2, n2, e2, h1, h2, h3⟩ | ⟨r, e2⟩
      · exact .inl ⟨a, rc2, m2, n + n2, by simp [runProg, e, e2], h1, h2, ha.trans h3⟩
      · exact .inr ⟨r, by simp [runProg, e, e2]⟩
    · exact .inr ⟨r, by simp [runProg, e]⟩
  | direct k ih =>
    rcases decodeDirect_cases hr with ⟨b, rc', n, e, hr', ha, -⟩ | ⟨r, e, -⟩
    · rcases ih b hr' hm with ⟨a, rc2, m2, n2, e2, h1, h2, h3⟩ | ⟨r, e2⟩
      · exact .inl ⟨a, rc2, m2, n + n2, by simp [runProg, e, e2], h1, h2, ha.trans h3⟩
      · exact .inr ⟨r, by simp [runProg, e, e2]⟩
    · exact .inr ⟨r, by simp [runProg, e]⟩

/-- A program that is read whole is read the same whatever bytes follow. -/
theorem runProg_append {α : Type} (prog : BitProg α) {rc : Rc} {m : Probs} {a : α} {rc' : Rc} {m' : Probs}
    (h : runProg prog rc m = .ok (a, rc', m')) (more : List Byte) :
    runProg prog { rc with bytes := rc.bytes ++ more } m = .ok (a, { rc' with bytes := rc'.bytes ++ more }, m') := by
  induction prog generalizing rc m with
  | done a' =>
    simp only [runProg, Except.ok.injEq, Prod.mk.injEq] at h ⊢
    obtain ⟨rfl, rfl, rfl⟩ := h
    simp
  | bit c k ih =>
    simp only [runProg] at h ⊢
    cases hd : decodeBit (m.read (cellKey c)) rc with
    | error e => simp [hd] at h
    | ok x =>
      obtain ⟨b, p', rc1⟩ := x
      simp only [hd, decodeBit_append hd more] at h ⊢
      exact ih b h
  | direct k ih =>
    simp only [runProg] at h ⊢
    cases hd : decodeDirect rc with
    | error e => simp [hd] at h
    | ok x =>
      obtain ⟨b, rc1⟩ := x
      simp only [hd, decodeDirect_append hd more] at h ⊢
      exact ih b h

/-- What the range decoder reads is what some list of decision bits reads: the range decoder only supplies
the bits, the code gives them their meaning. -/
theorem runProg_readBits {α : Type} (prog : BitProg α) {rc : Rc} {m : Probs} {a : α} {rc' : Rc} {m' : Probs}
    (h : runProg prog rc m = .ok (a, rc', m')) : ∃ bits, prog.readBits bits = some (a, []) := by
  induction prog generalizing rc m with
  | done a' =>
    simp only [runProg, Except.ok.injEq, Prod.mk.injEq] at h
    exact ⟨[], by simp [BitProg.readBits, h.1]⟩
  | bit c k ih =>
    simp only [runProg] at h
    cases hd : decodeBit (m.read (cellKey c)) rc with
    | error e => simp [hd] at h
    | ok x =>
      simp only [hd] at h
      obtain ⟨bits, hb⟩ := ih _ h
      exact ⟨x.1 :: bits, hb⟩
  | direct k ih =>
    simp only [runProg] at h
    cases hd : decodeDirect rc with
    | error e => simp [hd] at h
    | ok x =>
      simp only [hd] at h
      obtain ⟨bits, hb⟩ := ih _ h
      exact ⟨x.1 :: bits, hb⟩

/-- What a program is read as has the property its results have. -/
theorem runProg_all {α : Type} {P : Cell → Prop} {Q : α → Prop} {prog : BitProg α} (hp : prog.All P Q) {rc : Rc}
    {m : Probs} {a : α} {rc' : Rc} {m' : Probs} (h : runProg prog rc m = .ok (a, rc', m')) : Q a := by
  induction prog generalizing rc m with
  | done a' =>
    simp only [runProg, Except.ok.injEq, Prod.mk.injEq] at h
    exact h.1 ▸ hp
  | bit c k ih =>
    simp only [runProg] at h
    cases hd : decodeBit (m.read (cellKey c)) rc with
    | error e => simp [hd] at h
    | ok x => simp only [hd] at h; exact ih _ (hp.2 _) h
  | direct k ih =>
    simp only [runProg] at h
    cases hd : decodeDirect rc with
    | error e => simp [hd] at h
    | ok x => simp only [hd] at h; exact ih _ (hp _) h

/-! ## Initialisation -/

/-- What `RcInit` can do (rule R171). -/
theorem rcInit_cases (check : Bool) (src : RcSource) (bytes : List Byte) :
    (∃ rc, rcInit check src bytes = .ok rc ∧ rc.range = Config.rangeInit ∧
      Rc.Advances { range := 0, code := 0, src := src, bytes := bytes } rc 5) ∨
    (∃ r, rcInit check src bytes = .error (.raise r)) := by
  unfold rcInit
  cases hd : src.draw 5 with
  | error e =>
    right
    unfold RcSource.draw at hd
    cases src with
    | stream => simp at hd
    | bcj2 => simp at hd
    | chunk left =>
      simp only at hd
      split at hd
      · simp only [Except.error.injEq] at hd; subst hd; exact ⟨_, rfl⟩
      · simp at hd
  | ok src' =>
    simp only [bind, Except.bind]
    match bytes with
    | [] => exact .inr ⟨_, rfl⟩
    | [_] => exact .inr ⟨_, rfl⟩
    | [_, _] => exact .inr ⟨_, rfl⟩
    | [_, _, _] => exact .inr ⟨_, rfl⟩
    | [_, _, _, _] => exact .inr ⟨_, rfl⟩
    | b0 :: b1 :: b2 :: b3 :: b4 :: t =>
      simp only
      split
      · exact .inr ⟨_, rfl⟩
      · left
        refine ⟨_, rfl, rfl, rfl, by simp, ?_⟩
        unfold RcSource.draw at hd
        cases src with
        | stream => simpa using hd.symm
        | bcj2 => simpa using hd.symm
        | chunk left =>
          simp only at hd ⊢
          split at hd
          · simp at hd
          · simp only [Except.ok.injEq] at hd
            refine ⟨by omega, _, hd.symm, ?_⟩
            have := left.isLt
            simp only [BitVec.toNat_sub, BitVec.toNat_ofNat]
            omega

theorem rcInit_append {check : Bool} {src : RcSource} {bytes : List Byte} {rc : Rc}
    (h : rcInit check src bytes = .ok rc) (more : List Byte) :
    rcInit check src (bytes ++ more) = .ok { rc with bytes := rc.bytes ++ more } := by
  unfold rcInit at h ⊢
  cases hd : src.draw 5 with
  | error e => simp [hd, bind, Except.bind] at h
  | ok src' =>
    simp only [hd, bind, Except.bind] at h ⊢
    match bytes with
    | [] => simp at h
    | [_] => simp at h
    | [_, _] => simp at h
    | [_, _, _] => simp at h
    | [_, _, _, _] => simp at h
    | b0 :: b1 :: b2 :: b3 :: b4 :: t =>
      simp only [List.cons_append] at h ⊢
      split at h
      · simp at h
      · rename_i hc
        rw [if_neg hc]
        simp only [Except.ok.injEq] at h ⊢
        subst h; rfl

end Sys2Proof.Machine
end

