-- ==== Sys2Proof/Laws/State.lean ====
section
/-! SUPPORT. One lemma for each field of each record update of the model, true by unfolding: what an
operation writes, and that it leaves every other field alone. -/

namespace Sys2Proof.Machine

/-! ## The machine's state -/

@[simp] theorem State.returns_params (s : State) (st : Status) (ca : Option Cause) (n : Consumed) (p : Nat) : (s.returns st ca n p).params = s.params := rfl
@[simp] theorem State.returns_host (s : State) (st : Status) (ca : Option Cause) (n : Consumed) (p : Nat) :
    (s.returns st ca n p).host = { s.host with ret := some { status := st, cause := ca, consumed := n, produced := p } } := rfl
@[simp] theorem State.returns_activity (s : State) (st : Status) (ca : Option Cause) (n : Consumed) (p : Nat) :
    (s.returns st ca n p).activity = .idle := rfl
@[simp] theorem State.returns_ctl (s : State) (st : Status) (ca : Option Cause) (n : Consumed) (p : Nat) : (s.returns st ca n p).ctl = s.ctl := rfl
@[simp] theorem State.returns_cfg (s : State) (st : Status) (ca : Option Cause) (n : Consumed) (p : Nat) : (s.returns st ca n p).cfg = s.cfg := rfl
@[simp] theorem State.returns_lzma (s : State) (st : Status) (ca : Option Cause) (n : Consumed) (p : Nat) : (s.returns st ca n p).lzma = s.lzma := rfl
@[simp] theorem State.returns_dict (s : State) (st : Status) (ca : Option Cause) (n : Consumed) (p : Nat) : (s.returns st ca n p).dict = s.dict := rfl
@[simp] theorem State.returns_framer (s : State) (st : Status) (ca : Option Cause) (n : Consumed) (p : Nat) : (s.returns st ca n p).framer = s.framer := rfl
@[simp] theorem State.returns_bcj (s : State) (st : Status) (ca : Option Cause) (n : Consumed) (p : Nat) : (s.returns st ca n p).bcj = s.bcj := rfl

@[simp] theorem State.endCall_params (s : State) (c : Call) (st : Status) (ca : Option Cause) (l : Bool) : (s.endCall c st ca l).params = s.params := rfl
@[simp] theorem State.endCall_host (s : State) (c : Call) (st : Status) (ca : Option Cause) (l : Bool) :
    (s.endCall c st ca l).host = { s.host with ret := some { status := st, cause := ca, consumed := .bytes c.consumed, produced := c.produced } } := rfl
@[simp] theorem State.endCall_activity (s : State) (c : Call) (st : Status) (ca : Option Cause) (l : Bool) :
    (s.endCall c st ca l).activity = .idle := rfl
@[simp] theorem State.endCall_ctl (s : State) (c : Call) (st : Status) (ca : Option Cause) (l : Bool) :
    (s.endCall c st ca l).ctl = { s.ctl with status := st, cause := ca, errorLatched := s.ctl.errorLatched || l } := rfl
@[simp] theorem State.endCall_cfg (s : State) (c : Call) (st : Status) (ca : Option Cause) (l : Bool) : (s.endCall c st ca l).cfg = s.cfg := rfl
@[simp] theorem State.endCall_lzma (s : State) (c : Call) (st : Status) (ca : Option Cause) (l : Bool) : (s.endCall c st ca l).lzma = s.lzma := rfl
@[simp] theorem State.endCall_dict (s : State) (c : Call) (st : Status) (ca : Option Cause) (l : Bool) : (s.endCall c st ca l).dict = s.dict := rfl
@[simp] theorem State.endCall_framer (s : State) (c : Call) (st : Status) (ca : Option Cause) (l : Bool) : (s.endCall c st ca l).framer = s.framer := rfl
@[simp] theorem State.endCall_bcj (s : State) (c : Call) (st : Status) (ca : Option Cause) (l : Bool) : (s.endCall c st ca l).bcj = s.bcj := rfl

@[simp] theorem State.take_params (s : State) (c : Call) (rest : List Byte) : (s.take c rest).params = s.params := rfl
@[simp] theorem State.take_host (s : State) (c : Call) (rest : List Byte) : (s.take c rest).host = s.host := rfl
@[simp] theorem State.take_activity (s : State) (c : Call) (rest : List Byte) :
    (s.take c rest).activity = .decoding { c with input := rest, noted := some (s.notedNow c) } := rfl
@[simp] theorem State.take_ctl (s : State) (c : Call) (rest : List Byte) : (s.take c rest).ctl = s.ctl := rfl
@[simp] theorem State.take_cfg (s : State) (c : Call) (rest : List Byte) : (s.take c rest).cfg = s.cfg := rfl
@[simp] theorem State.take_lzma (s : State) (c : Call) (rest : List Byte) : (s.take c rest).lzma = s.lzma := rfl
@[simp] theorem State.take_dict (s : State) (c : Call) (rest : List Byte) : (s.take c rest).dict = s.dict := rfl
@[simp] theorem State.take_framer (s : State) (c : Call) (rest : List Byte) : (s.take c rest).framer = s.framer := rfl
@[simp] theorem State.take_bcj (s : State) (c : Call) (rest : List Byte) : (s.take c rest).bcj = s.bcj := rfl

@[simp] theorem State.takeRc_params (s : State) (c : Call) (rc : Rc) (m : Probs) : (s.takeRc c rc m).params = s.params := rfl
@[simp] theorem State.takeRc_host (s : State) (c : Call) (rc : Rc) (m : Probs) : (s.takeRc c rc m).host = s.host := rfl
@[simp] theorem State.takeRc_activity (s : State) (c : Call) (rc : Rc) (m : Probs) :
    (s.takeRc c rc m).activity = .decoding { c with input := rc.bytes, noted := some (s.notedNow c) } := rfl
@[simp] theorem State.takeRc_ctl (s : State) (c : Call) (rc : Rc) (m : Probs) : (s.takeRc c rc m).ctl = s.ctl := rfl
@[simp] theorem State.takeRc_cfg (s : State) (c : Call) (rc : Rc) (m : Probs) : (s.takeRc c rc m).cfg = s.cfg := rfl
@[simp] theorem State.takeRc_lzma (s : State) (c : Call) (rc : Rc) (m : Probs) :
    (s.takeRc c rc m).lzma = { s.lzma with range := rc.range, code := rc.code, probs := m } := rfl
@[simp] theorem State.takeRc_dict (s : State) (c : Call) (rc : Rc) (m : Probs) : (s.takeRc c rc m).dict = s.dict := rfl
@[simp] theorem State.takeRc_framer (s : State) (c : Call) (rc : Rc) (m : Probs) :
    (s.takeRc c rc m).framer = { s.framer with chunkPackRemaining := rc.src.budget s.framer.chunkPackRemaining } := rfl
@[simp] theorem State.takeRc_bcj (s : State) (c : Call) (rc : Rc) (m : Probs) : (s.takeRc c rc m).bcj = s.bcj := rfl

@[simp] theorem State.startLzma1_params (s : State) : (s.startLzma1).params = s.params := rfl
@[simp] theorem State.startLzma1_host (s : State) : (s.startLzma1).host = s.host := rfl
@[simp] theorem State.startLzma1_activity (s : State) : (s.startLzma1).activity = s.activity := rfl
@[simp] theorem State.startLzma1_ctl (s : State) :
    (s.startLzma1).ctl = .start .lzma1 := rfl
@[simp] theorem State.startLzma1_cfg (s : State) : (s.startLzma1).cfg = s.cfg := rfl
@[simp] theorem State.startLzma1_lzma (s : State) :
    (s.startLzma1).lzma = { s.lzma.stateReset.rcRestart with pendLen := 0 } := rfl
@[simp] theorem State.startLzma1_dict (s : State) :
    (s.startLzma1).dict = s.dict.clear := rfl
@[simp] theorem State.startLzma1_framer (s : State) : (s.startLzma1).framer = s.framer := rfl
@[simp] theorem State.startLzma1_bcj (s : State) : (s.startLzma1).bcj = s.bcj := rfl

@[simp] theorem State.startLzma2_params (s : State) : (s.startLzma2).params = s.params := rfl
@[simp] theorem State.startLzma2_host (s : State) : (s.startLzma2).host = s.host := rfl
@[simp] theorem State.startLzma2_activity (s : State) : (s.startLzma2).activity = s.activity := rfl
@[simp] theorem State.startLzma2_ctl (s : State) :
    (s.startLzma2).ctl = .start .lzma2 := rfl
@[simp] theorem State.startLzma2_cfg (s : State) :
    (s.startLzma2).cfg = { s.cfg with props := unsetProps } := rfl
@[simp] theorem State.startLzma2_lzma (s : State) :
    (s.startLzma2).lzma = { s.lzma.rcRestart with pendLen := 0 } := rfl
@[simp] theorem State.startLzma2_dict (s : State) :
    (s.startLzma2).dict = s.dict.clear := rfl
@[simp] theorem State.startLzma2_framer (s : State) :
    (s.startLzma2).framer = .start := rfl
@[simp] theorem State.startLzma2_bcj (s : State) : (s.startLzma2).bcj = s.bcj := rfl

@[simp] theorem State.openLzma1_params (s : State) (p : LcLpPb) (n : U64) : (s.openLzma1 p n).params = s.params := rfl
@[simp] theorem State.openLzma1_host (s : State) (p : LcLpPb) (n : U64) : (s.openLzma1 p n).host = s.host := rfl
@[simp] theorem State.openLzma1_activity (s : State) (p : LcLpPb) (n : U64) : (s.openLzma1 p n).activity = s.activity := rfl
@[simp] theorem State.openLzma1_ctl (s : State) (p : LcLpPb) (n : U64) :
    (s.openLzma1 p n).ctl = .start .lzma1 := rfl
@[simp] theorem State.openLzma1_cfg (s : State) (p : LcLpPb) (n : U64) :
    (s.openLzma1 p n).cfg = { s.cfg with props := p, unpackSize := n } := rfl
@[simp] theorem State.openLzma1_lzma (s : State) (p : LcLpPb) (n : U64) :
    (s.openLzma1 p n).lzma = { ({ s.lzma with unpackRemaining := n } : Lzma).stateReset.rcRestart with pendLen := 0 } := rfl
@[simp] theorem State.openLzma1_dict (s : State) (p : LcLpPb) (n : U64) :
    (s.openLzma1 p n).dict = s.dict.clear := rfl
@[simp] theorem State.openLzma1_framer (s : State) (p : LcLpPb) (n : U64) : (s.openLzma1 p n).framer = s.framer := rfl
@[simp] theorem State.openLzma1_bcj (s : State) (p : LcLpPb) (n : U64) : (s.openLzma1 p n).bcj = s.bcj := rfl

@[simp] theorem State.cleared_params (s : State) : (s.cleared).params = s.params := rfl
@[simp] theorem State.cleared_host (s : State) :
    (s.cleared).host = { s.host with ret := none, out := [] } := rfl
@[simp] theorem State.cleared_activity (s : State) :
    (s.cleared).activity = .idle := rfl
@[simp] theorem State.cleared_ctl (s : State) :
    (s.cleared).ctl = State.reset.ctl := rfl
@[simp] theorem State.cleared_cfg (s : State) :
    (s.cleared).cfg = State.reset.cfg := rfl
@[simp] theorem State.cleared_lzma (s : State) :
    (s.cleared).lzma = State.reset.lzma := rfl
@[simp] theorem State.cleared_dict (s : State) :
    (s.cleared).dict = State.reset.dict := rfl
@[simp] theorem State.cleared_framer (s : State) :
    (s.cleared).framer = State.reset.framer := rfl
@[simp] theorem State.cleared_bcj (s : State) :
    (s.cleared).bcj = .initial := rfl

@[simp] theorem State.returnsOk_params (s : State) : (s.returnsOk).params = s.params := rfl
@[simp] theorem State.returnsOk_host (s : State) :
    (s.returnsOk).host = { s.host with ret := some { status := .ok, cause := none, consumed := .bytes 0, produced := 0 } } := rfl
@[simp] theorem State.returnsOk_activity (s : State) :
    (s.returnsOk).activity = .idle := rfl
@[simp] theorem State.returnsOk_ctl (s : State) : (s.returnsOk).ctl = s.ctl := rfl
@[simp] theorem State.returnsOk_cfg (s : State) : (s.returnsOk).cfg = s.cfg := rfl
@[simp] theorem State.returnsOk_lzma (s : State) : (s.returnsOk).lzma = s.lzma := rfl
@[simp] theorem State.returnsOk_dict (s : State) : (s.returnsOk).dict = s.dict := rfl
@[simp] theorem State.returnsOk_framer (s : State) : (s.returnsOk).framer = s.framer := rfl
@[simp] theorem State.returnsOk_bcj (s : State) : (s.returnsOk).bcj = s.bcj := rfl

@[simp] theorem State.fails_params (s : State) (c : Cause) : (s.fails c).params = s.params := rfl
@[simp] theorem State.fails_host (s : State) (c : Cause) :
    (s.fails c).host = { s.host with ret := some { status := c.status, cause := some c, consumed := .bytes 0, produced := 0 }, out := [] } := rfl
@[simp] theorem State.fails_activity (s : State) (c : Cause) :
    (s.fails c).activity = .idle := rfl
@[simp] theorem State.fails_ctl (s : State) (c : Cause) :
    (s.fails c).ctl = State.reset.ctl := rfl
@[simp] theorem State.fails_cfg (s : State) (c : Cause) :
    (s.fails c).cfg = State.reset.cfg := rfl
@[simp] theorem State.fails_lzma (s : State) (c : Cause) :
    (s.fails c).lzma = State.reset.lzma := rfl
@[simp] theorem State.fails_dict (s : State) (c : Cause) :
    (s.fails c).dict = State.reset.dict := rfl
@[simp] theorem State.fails_framer (s : State) (c : Cause) :
    (s.fails c).framer = State.reset.framer := rfl
@[simp] theorem State.fails_bcj (s : State) (c : Cause) :
    (s.fails c).bcj = .initial := rfl

@[simp] theorem State.merging_params (s : State) (p : Bcj2Job × Bcj2Regs) : (s.merging p).params = s.params := rfl
@[simp] theorem State.merging_host (s : State) (p : Bcj2Job × Bcj2Regs) : (s.merging p).host = s.host := rfl
@[simp] theorem State.merging_activity (s : State) (p : Bcj2Job × Bcj2Regs) :
    (s.merging p).activity = .merging p.1 := rfl
@[simp] theorem State.merging_ctl (s : State) (p : Bcj2Job × Bcj2Regs) : (s.merging p).ctl = s.ctl := rfl
@[simp] theorem State.merging_cfg (s : State) (p : Bcj2Job × Bcj2Regs) : (s.merging p).cfg = s.cfg := rfl
@[simp] theorem State.merging_lzma (s : State) (p : Bcj2Job × Bcj2Regs) : (s.merging p).lzma = s.lzma := rfl
@[simp] theorem State.merging_dict (s : State) (p : Bcj2Job × Bcj2Regs) : (s.merging p).dict = s.dict := rfl
@[simp] theorem State.merging_framer (s : State) (p : Bcj2Job × Bcj2Regs) : (s.merging p).framer = s.framer := rfl
@[simp] theorem State.merging_bcj (s : State) (p : Bcj2Job × Bcj2Regs) :
    (s.merging p).bcj = p.2 := rfl

@[simp] theorem State.atHeader_params (s : State) (bs : List Byte) : (s.atHeader bs).params = s.params := rfl
@[simp] theorem State.atHeader_host (s : State) (bs : List Byte) : (s.atHeader bs).host = s.host := rfl
@[simp] theorem State.atHeader_ctl (s : State) (bs : List Byte) :
    (s.atHeader bs).ctl = { s.ctl with mode := .lzma2 } := rfl
@[simp] theorem State.atHeader_cfg (s : State) (bs : List Byte) : (s.atHeader bs).cfg = s.cfg := rfl
@[simp] theorem State.atHeader_lzma (s : State) (bs : List Byte) : (s.atHeader bs).lzma = s.lzma := rfl
@[simp] theorem State.atHeader_dict (s : State) (bs : List Byte) : (s.atHeader bs).dict = s.dict := rfl
@[simp] theorem State.atHeader_framer (s : State) (bs : List Byte) :
    (s.atHeader bs).framer = { s.framer with l2Phase := .control } := rfl
@[simp] theorem State.atHeader_bcj (s : State) (bs : List Byte) : (s.atHeader bs).bcj = s.bcj := rfl

/-! ## The packet registers -/

@[simp] theorem Lzma.pushRep_range (l : Lzma) (d : Nat) : (l.pushRep d).range = l.range := rfl
@[simp] theorem Lzma.pushRep_code (l : Lzma) (d : Nat) : (l.pushRep d).code = l.code := rfl
@[simp] theorem Lzma.pushRep_probs (l : Lzma) (d : Nat) : (l.pushRep d).probs = l.probs := rfl
@[simp] theorem Lzma.pushRep_lzState (l : Lzma) (d : Nat) : (l.pushRep d).lzState = l.lzState := rfl
@[simp] theorem Lzma.pushRep_rep0 (l : Lzma) (d : Nat) : (l.pushRep d).rep0 = BitVec.ofNat 32 d := rfl
@[simp] theorem Lzma.pushRep_rep1 (l : Lzma) (d : Nat) : (l.pushRep d).rep1 = l.rep0 := rfl
@[simp] theorem Lzma.pushRep_rep2 (l : Lzma) (d : Nat) : (l.pushRep d).rep2 = l.rep1 := rfl
@[simp] theorem Lzma.pushRep_rep3 (l : Lzma) (d : Nat) : (l.pushRep d).rep3 = l.rep2 := rfl
@[simp] theorem Lzma.pushRep_unpackRemaining (l : Lzma) (d : Nat) : (l.pushRep d).unpackRemaining = l.unpackRemaining := rfl
@[simp] theorem Lzma.pushRep_pendLen (l : Lzma) (d : Nat) : (l.pushRep d).pendLen = l.pendLen := rfl
@[simp] theorem Lzma.pushRep_pendDist (l : Lzma) (d : Nat) : (l.pushRep d).pendDist = l.pendDist := rfl
@[simp] theorem Lzma.pushRep_l1Phase (l : Lzma) (d : Nat) : (l.pushRep d).l1Phase = l.l1Phase := rfl

@[simp] theorem Lzma.useRep1_range (l : Lzma) : (l.useRep1).range = l.range := rfl
@[simp] theorem Lzma.useRep1_code (l : Lzma) : (l.useRep1).code = l.code := rfl
@[simp] theorem Lzma.useRep1_probs (l : Lzma) : (l.useRep1).probs = l.probs := rfl
@[simp] theorem Lzma.useRep1_lzState (l : Lzma) : (l.useRep1).lzState = l.lzState := rfl
@[simp] theorem Lzma.useRep1_rep0 (l : Lzma) : (l.useRep1).rep0 = l.rep1 := rfl
@[simp] theorem Lzma.useRep1_rep1 (l : Lzma) : (l.useRep1).rep1 = l.rep0 := rfl
@[simp] theorem Lzma.useRep1_rep2 (l : Lzma) : (l.useRep1).rep2 = l.rep2 := rfl
@[simp] theorem Lzma.useRep1_rep3 (l : Lzma) : (l.useRep1).rep3 = l.rep3 := rfl
@[simp] theorem Lzma.useRep1_unpackRemaining (l : Lzma) : (l.useRep1).unpackRemaining = l.unpackRemaining := rfl
@[simp] theorem Lzma.useRep1_pendLen (l : Lzma) : (l.useRep1).pendLen = l.pendLen := rfl
@[simp] theorem Lzma.useRep1_pendDist (l : Lzma) : (l.useRep1).pendDist = l.pendDist := rfl
@[simp] theorem Lzma.useRep1_l1Phase (l : Lzma) : (l.useRep1).l1Phase = l.l1Phase := rfl

@[simp] theorem Lzma.useRep2_range (l : Lzma) : (l.useRep2).range = l.range := rfl
@[simp] theorem Lzma.useRep2_code (l : Lzma) : (l.useRep2).code = l.code := rfl
@[simp] theorem Lzma.useRep2_probs (l : Lzma) : (l.useRep2).probs = l.probs := rfl
@[simp] theorem Lzma.useRep2_lzState (l : Lzma) : (l.useRep2).lzState = l.lzState := rfl
@[simp] theorem Lzma.useRep2_rep0 (l : Lzma) : (l.useRep2).rep0 = l.rep2 := rfl
@[simp] theorem Lzma.useRep2_rep1 (l : Lzma) : (l.useRep2).rep1 = l.rep0 := rfl
@[simp] theorem Lzma.useRep2_rep2 (l : Lzma) : (l.useRep2).rep2 = l.rep1 := rfl
@[simp] theorem Lzma.useRep2_rep3 (l : Lzma) : (l.useRep2).rep3 = l.rep3 := rfl
@[simp] theorem Lzma.useRep2_unpackRemaining (l : Lzma) : (l.useRep2).unpackRemaining = l.unpackRemaining := rfl
@[simp] theorem Lzma.useRep2_pendLen (l : Lzma) : (l.useRep2).pendLen = l.pendLen := rfl
@[simp] theorem Lzma.useRep2_pendDist (l : Lzma) : (l.useRep2).pendDist = l.pendDist := rfl
@[simp] theorem Lzma.useRep2_l1Phase (l : Lzma) : (l.useRep2).l1Phase = l.l1Phase := rfl

@[simp] theorem Lzma.useRep3_range (l : Lzma) : (l.useRep3).range = l.range := rfl
@[simp] theorem Lzma.useRep3_code (l : Lzma) : (l.useRep3).code = l.code := rfl
@[simp] theorem Lzma.useRep3_probs (l : Lzma) : (l.useRep3).probs = l.probs := rfl
@[simp] theorem Lzma.useRep3_lzState (l : Lzma) : (l.useRep3).lzState = l.lzState := rfl
@[simp] theorem Lzma.useRep3_rep0 (l : Lzma) : (l.useRep3).rep0 = l.rep3 := rfl
@[simp] theorem Lzma.useRep3_rep1 (l : Lzma) : (l.useRep3).rep1 = l.rep0 := rfl
@[simp] theorem Lzma.useRep3_rep2 (l : Lzma) : (l.useRep3).rep2 = l.rep1 := rfl
@[simp] theorem Lzma.useRep3_rep3 (l : Lzma) : (l.useRep3).rep3 = l.rep2 := rfl
@[simp] theorem Lzma.useRep3_unpackRemaining (l : Lzma) : (l.useRep3).unpackRemaining = l.unpackRemaining := rfl
@[simp] theorem Lzma.useRep3_pendLen (l : Lzma) : (l.useRep3).pendLen = l.pendLen := rfl
@[simp] theorem Lzma.useRep3_pendDist (l : Lzma) : (l.useRep3).pendDist = l.pendDist := rfl
@[simp] theorem Lzma.useRep3_l1Phase (l : Lzma) : (l.useRep3).l1Phase = l.l1Phase := rfl

@[simp] theorem Lzma.startCopy_range (l : Lzma) (n : Nat) : (l.startCopy n).range = l.range := rfl
@[simp] theorem Lzma.startCopy_code (l : Lzma) (n : Nat) : (l.startCopy n).code = l.code := rfl
@[simp] theorem Lzma.startCopy_probs (l : Lzma) (n : Nat) : (l.startCopy n).probs = l.probs := rfl
@[simp] theorem Lzma.startCopy_lzState (l : Lzma) (n : Nat) : (l.startCopy n).lzState = l.lzState := rfl
@[simp] theorem Lzma.startCopy_rep0 (l : Lzma) (n : Nat) : (l.startCopy n).rep0 = l.rep0 := rfl
@[simp] theorem Lzma.startCopy_rep1 (l : Lzma) (n : Nat) : (l.startCopy n).rep1 = l.rep1 := rfl
@[simp] theorem Lzma.startCopy_rep2 (l : Lzma) (n : Nat) : (l.startCopy n).rep2 = l.rep2 := rfl
@[simp] theorem Lzma.startCopy_rep3 (l : Lzma) (n : Nat) : (l.startCopy n).rep3 = l.rep3 := rfl
@[simp] theorem Lzma.startCopy_unpackRemaining (l : Lzma) (n : Nat) : (l.startCopy n).unpackRemaining = l.unpackRemaining := rfl
@[simp] theorem Lzma.startCopy_pendLen (l : Lzma) (n : Nat) : (l.startCopy n).pendLen = BitVec.ofNat 9 n := rfl
@[simp] theorem Lzma.startCopy_pendDist (l : Lzma) (n : Nat) : (l.startCopy n).pendDist = l.rep0 := rfl
@[simp] theorem Lzma.startCopy_l1Phase (l : Lzma) (n : Nat) : (l.startCopy n).l1Phase = l.l1Phase := rfl

@[simp] theorem Lzma.stateReset_range (l : Lzma) : (l.stateReset).range = l.range := rfl
@[simp] theorem Lzma.stateReset_code (l : Lzma) : (l.stateReset).code = l.code := rfl
@[simp] theorem Lzma.stateReset_probs (l : Lzma) : (l.stateReset).probs = [] := rfl
@[simp] theorem Lzma.stateReset_lzState (l : Lzma) : (l.stateReset).lzState = 0 := rfl
@[simp] theorem Lzma.stateReset_rep0 (l : Lzma) : (l.stateReset).rep0 = 1 := rfl
@[simp] theorem Lzma.stateReset_rep1 (l : Lzma) : (l.stateReset).rep1 = 1 := rfl
@[simp] theorem Lzma.stateReset_rep2 (l : Lzma) : (l.stateReset).rep2 = 1 := rfl
@[simp] theorem Lzma.stateReset_rep3 (l : Lzma) : (l.stateReset).rep3 = 1 := rfl
@[simp] theorem Lzma.stateReset_unpackRemaining (l : Lzma) : (l.stateReset).unpackRemaining = l.unpackRemaining := rfl
@[simp] theorem Lzma.stateReset_pendLen (l : Lzma) : (l.stateReset).pendLen = l.pendLen := rfl
@[simp] theorem Lzma.stateReset_pendDist (l : Lzma) : (l.stateReset).pendDist = l.pendDist := rfl
@[simp] theorem Lzma.stateReset_l1Phase (l : Lzma) : (l.stateReset).l1Phase = l.l1Phase := rfl

@[simp] theorem Lzma.rcRestart_range (l : Lzma) : (l.rcRestart).range = Config.rangeInit := rfl
@[simp] theorem Lzma.rcRestart_code (l : Lzma) : (l.rcRestart).code = Config.wordReset := rfl
@[simp] theorem Lzma.rcRestart_probs (l : Lzma) : (l.rcRestart).probs = l.probs := rfl
@[simp] theorem Lzma.rcRestart_lzState (l : Lzma) : (l.rcRestart).lzState = l.lzState := rfl
@[simp] theorem Lzma.rcRestart_rep0 (l : Lzma) : (l.rcRestart).rep0 = l.rep0 := rfl
@[simp] theorem Lzma.rcRestart_rep1 (l : Lzma) : (l.rcRestart).rep1 = l.rep1 := rfl
@[simp] theorem Lzma.rcRestart_rep2 (l : Lzma) : (l.rcRestart).rep2 = l.rep2 := rfl
@[simp] theorem Lzma.rcRestart_rep3 (l : Lzma) : (l.rcRestart).rep3 = l.rep3 := rfl
@[simp] theorem Lzma.rcRestart_unpackRemaining (l : Lzma) : (l.rcRestart).unpackRemaining = l.unpackRemaining := rfl
@[simp] theorem Lzma.rcRestart_pendLen (l : Lzma) : (l.rcRestart).pendLen = l.pendLen := rfl
@[simp] theorem Lzma.rcRestart_pendDist (l : Lzma) : (l.rcRestart).pendDist = l.pendDist := rfl
@[simp] theorem Lzma.rcRestart_l1Phase (l : Lzma) : (l.rcRestart).l1Phase = .needInit := rfl

/-! ## The framer -/

@[simp] theorem Framer.startCopy_l2Phase (f : Framer) (c : Byte) (n : BitVec 16) : (f.startCopy c n).l2Phase = .copyData := rfl
@[simp] theorem Framer.startCopy_control (f : Framer) (c : Byte) (n : BitVec 16) : (f.startCopy c n).control = c := rfl
@[simp] theorem Framer.startCopy_needInitLevel (f : Framer) (c : Byte) (n : BitVec 16) : (f.startCopy c n).needInitLevel = f.needInitLevel := rfl
@[simp] theorem Framer.startCopy_chunkUnpackRemaining (f : Framer) (c : Byte) (n : BitVec 16) : (f.startCopy c n).chunkUnpackRemaining = f.chunkUnpackRemaining := rfl
@[simp] theorem Framer.startCopy_chunkPackRemaining (f : Framer) (c : Byte) (n : BitVec 16) : (f.startCopy c n).chunkPackRemaining = f.chunkPackRemaining := rfl
@[simp] theorem Framer.startCopy_copyRemaining (f : Framer) (c : Byte) (n : BitVec 16) : (f.startCopy c n).copyRemaining = n.setWidth 17 + 1 := rfl

@[simp] theorem Framer.startLzma_l2Phase (f : Framer) (c : Byte) (u : BitVec 21) (p : BitVec 16) : (f.startLzma c u p).l2Phase = .lzmaInit := rfl
@[simp] theorem Framer.startLzma_control (f : Framer) (c : Byte) (u : BitVec 21) (p : BitVec 16) : (f.startLzma c u p).control = c := rfl
@[simp] theorem Framer.startLzma_needInitLevel (f : Framer) (c : Byte) (u : BitVec 21) (p : BitVec 16) : (f.startLzma c u p).needInitLevel = 0x00 := rfl
@[simp] theorem Framer.startLzma_chunkUnpackRemaining (f : Framer) (c : Byte) (u : BitVec 21) (p : BitVec 16) : (f.startLzma c u p).chunkUnpackRemaining = u.setWidth 22 + 1 := rfl
@[simp] theorem Framer.startLzma_chunkPackRemaining (f : Framer) (c : Byte) (u : BitVec 21) (p : BitVec 16) : (f.startLzma c u p).chunkPackRemaining = p.setWidth 17 + 1 := rfl
@[simp] theorem Framer.startLzma_copyRemaining (f : Framer) (c : Byte) (u : BitVec 21) (p : BitVec 16) : (f.startLzma c u p).copyRemaining = f.copyRemaining := rfl

/-! ## The dictionary -/

@[simp] theorem Dict.clear_cap (d : Dict) : (d.clear).cap = d.cap := rfl
@[simp] theorem Dict.clear_writePos (d : Dict) : (d.clear).writePos = 0 := rfl
@[simp] theorem Dict.clear_totalWritten (d : Dict) : (d.clear).totalWritten = 0 := rfl
@[simp] theorem Dict.clear_ram (d : Dict) : (d.clear).ram = [] := rfl

@[simp] theorem Dict.configure_cap (d : Dict) (n : Word) : (d.configure n).cap = if n.toNat < Config.dictMin.toNat then Config.dictMin else n := rfl
@[simp] theorem Dict.configure_writePos (d : Dict) (n : Word) : (d.configure n).writePos = 0 := rfl
@[simp] theorem Dict.configure_totalWritten (d : Dict) (n : Word) : (d.configure n).totalWritten = 0 := rfl
@[simp] theorem Dict.configure_ram (d : Dict) (n : Word) : (d.configure n).ram = [] := rfl

end Sys2Proof.Machine
end

