-- ==== Sys2Proof/Laws/Ops.lean ====
section
/-! SUPPORT. What each shared operation answers, said once: the equations callers rewrite with instead of
unfolding the operation. -/

namespace Sys2Proof.Machine

/-! ## Except -/

theorem bind_ok {α β : Type} {x : Except Stop α} {f : α → Except Stop β} {b : β} (h : x >>= f = .ok b) :
    ∃ a, x = .ok a ∧ f a = .ok b := by
  cases x with
  | error e => simp [bind, Except.bind] at h
  | ok a => exact ⟨a, rfl, h⟩

@[simp] theorem ok_bind {α β : Type} (a : α) (f : α → Except Stop β) : (Except.ok a >>= f) = f a := rfl

@[simp] theorem error_bind {α β : Type} (e : Stop) (f : α → Except Stop β) :
    ((Except.error e : Except Stop α) >>= f) = .error e := rfl

/-! ## The command in progress -/

theorem State.call_ok {s : State} {c : Call} (h : s.activity = .decoding c) : s.call = .ok c := by
  simp [State.call, h]

theorem State.job_ok {s : State} {j : Bcj2Job} (h : s.activity = .merging j) : s.job = .ok j := by
  simp [State.job, h]

/-! ## Transactions -/

theorem State.commit_ok {s : State} {c : Call} (h : s.activity = .decoding c) :
    s.commit = .ok { s with
      activity := .decoding c.committed
      ctl := { s.ctl with inTotal := s.ctl.inTotal + BitVec.ofNat 64 c.taken } } := by
  simp [State.commit, State.call_ok h]

@[simp] theorem Call.committed_input (c : Call) : c.committed.input = c.input := rfl
@[simp] theorem Call.committed_outSpace (c : Call) : c.committed.outSpace = c.outSpace := rfl
@[simp] theorem Call.committed_produced (c : Call) : c.committed.produced = c.produced := rfl
@[simp] theorem Call.committed_noted (c : Call) : c.committed.noted = none := rfl
@[simp] theorem Call.committed_consumed (c : Call) : c.committed.consumed = c.consumed + c.taken := rfl
@[simp] theorem Call.afterEmit_input (c : Call) : c.afterEmit.input = c.input := rfl
@[simp] theorem Call.afterEmit_outSpace (c : Call) : c.afterEmit.outSpace = c.outSpace - 1 := rfl
@[simp] theorem Call.afterEmit_produced (c : Call) : c.afterEmit.produced = c.produced + 1 := rfl
@[simp] theorem Call.afterEmit_noted (c : Call) : c.afterEmit.noted = c.noted := rfl
@[simp] theorem Call.afterEmit_consumed (c : Call) : c.afterEmit.consumed = c.consumed := rfl

/-- Rolling back a transaction restores the state it began in (20_memory.md rule R95). -/
theorem State.rollback_take (s : State) (c : Call) (rest : List Byte) (hc : c.noted = none)
    (h : s.activity = .decoding c) :
    (s.take c rest).rollback { c with input := rest, noted := some (s.notedNow c) } = s := by
  obtain ⟨input, outSpace, consumed, produced, noted⟩ := c
  cases hc
  simp [State.rollback, State.notedNow, State.take, ← h]

theorem State.rollback_takeRc (s : State) (c : Call) (rc : Rc) (m : Probs) (hc : c.noted = none)
    (h : s.activity = .decoding c) :
    (s.takeRc c rc m).rollback { c with input := rc.bytes, noted := some (s.notedNow c) } = s := by
  obtain ⟨input, outSpace, consumed, produced, noted⟩ := c
  cases hc
  simp [State.rollback, State.notedNow, State.takeRc, State.take, ← h]

theorem State.rollback_none (s : State) {c : Call} (hc : c.noted = none) : s.rollback c = s := by
  simp [State.rollback, hc]

/-! ## Events -/

theorem takeRaise_decoding {s : State} {c : Call} (h : s.activity = .decoding c) (r : Raise) :
    takeRaise s r = .next ((s.rollback c).endCall c r.status r.cause r.latches) := by
  simp [takeRaise, h]

theorem takeRaise_merging {s : State} {j : Bcj2Job} (h : s.activity = .merging j) (r : Raise) :
    takeRaise s r = .next ({ s with bcj := j.saved }.returns r.status r.cause (.streams 0 0 0 0) 0) := by
  simp [takeRaise, h]

/-- An event raised after a transaction has taken bytes leaves the state it began in, with the command
ended (60_exceptions.md rule R471). -/
theorem takeRaise_take {s : State} {c : Call} (h : s.activity = .decoding c) (hc : c.noted = none)
    (rest : List Byte) (r : Raise) :
    takeRaise (s.take c rest) r = .next (s.endCall c r.status r.cause r.latches) := by
  rw [takeRaise_decoding (by rfl), State.rollback_take s c rest hc h]
  rfl

theorem takeRaise_takeRc {s : State} {c : Call} (h : s.activity = .decoding c) (hc : c.noted = none)
    (rc : Rc) (m : Probs) (r : Raise) :
    takeRaise (s.takeRc c rc m) r = .next (s.endCall c r.status r.cause r.latches) := by
  rw [takeRaise_decoding (by rfl), State.rollback_takeRc s c rc m hc h]
  rfl

@[simp] theorem deliver_ok (s s' : State) : deliver s (.ok s') = .next s' := rfl

@[simp] theorem deliver_raise (s : State) (r : Raise) : deliver s (.error (.raise r)) = takeRaise s r := rfl

@[simp] theorem deliver_fault (s : State) (f : Fault) : deliver s (.error (.fault f)) = .fault f := rfl

/-! ## Ports -/

theorem Call.needSpace_ok {c : Call} (h : c.outSpace ≠ 0) : c.needSpace = .ok () := by
  simp [Call.needSpace, h]

theorem Call.needSpace_error {c : Call} (h : c.outSpace = 0) : c.needSpace = .error (.raise .needMoreOutput) := by
  simp [Call.needSpace, h]

theorem State.emit_ok {s : State} {c : Call} (h : s.activity = .decoding c) (b : Byte) :
    s.emit b = .ok { s with
      activity := .decoding c.afterEmit
      host := { s.host with out := s.host.out ++ [b] }
      ctl := { s.ctl with outTotal := s.ctl.outTotal + 1 } } := by
  simp [State.emit, State.call_ok h, Call.afterEmit]

theorem State.dictPut_ok {s : State} {c : Call} (h : s.activity = .decoding c) (b : Byte) :
    s.dictPut b = .ok { s with
      dict := s.dict.after b
      activity := .decoding c.afterEmit
      host := { s.host with out := s.host.out ++ [b] }
      ctl := { s.ctl with outTotal := s.ctl.outTotal + 1 } } := by
  exact State.emit_ok (s := { s with dict := s.dict.after b }) h b

/-! ## Remaining -/

/-- Where `Remaining` holds a value, it counts down. -/
theorem State.decRemaining_ok {s : State} {n : Nat} (h : s.readRemaining = .ok n) :
    s.decRemaining = .ok { s with
      lzma := s.lzma.countDown s.ctl.mode
      framer := s.framer.countDown s.ctl.mode } := by
  unfold State.readRemaining at h
  unfold State.decRemaining
  cases hm : s.ctl.mode with
  | unconfigured => rw [hm] at h; simp at h
  | lzma2 => rfl
  | lzma1 => rfl

/-- `Remaining` does not depend on the command's progress, the control counters or the dictionary. -/
theorem State.readRemaining_congr {s t : State} (hm : t.ctl.mode = s.ctl.mode)
    (hu : t.lzma.unpackRemaining = s.lzma.unpackRemaining)
    (hc : t.framer.chunkUnpackRemaining = s.framer.chunkUnpackRemaining) :
    t.readRemaining = s.readRemaining := by
  simp only [State.readRemaining, hm, hu, hc]

/-! ## Copies -/

theorem State.checkCopy_ok {s : State} {dist len n : Nat} (hd : 1 ≤ dist ∧ dist ≤ s.dict.reach)
    (hr : s.readRemaining = .ok n) (hl : len ≤ n) : s.checkCopy dist len = .ok () := by
  simp [State.checkCopy, Dict.checkDistance_ok hd, hr, hl]

/-- The distance is checked first (60_exceptions.md rule R469). -/
theorem State.checkCopy_invalidDistance {s : State} {dist : Nat} (hd : ¬ (1 ≤ dist ∧ dist ≤ s.dict.reach))
    (len : Nat) : s.checkCopy dist len = .error (.raise (.error .invalidDistance)) := by
  simp [State.checkCopy, Dict.checkDistance_error hd]

theorem State.checkCopy_matchPastEnd {s : State} {dist len n : Nat} (hd : 1 ≤ dist ∧ dist ≤ s.dict.reach)
    (hr : s.readRemaining = .ok n) (hl : n < len) :
    s.checkCopy dist len = .error (.raise (.error .matchPastEnd)) := by
  simp [State.checkCopy, Dict.checkDistance_ok hd, hr, Nat.not_le.mpr hl]

theorem copyPacket_ok {s : State} {c : Call} {dist len n : Nat} (lzma : Lzma)
    (ha : s.activity = .decoding c) (hd : 1 ≤ dist ∧ dist ≤ s.dict.reach)
    (hr : s.readRemaining = .ok n) (hl : len ≤ n) :
    copyPacket s dist len lzma = .next { s with
      lzma := lzma
      activity := .decoding c.committed
      ctl := { s.ctl with inTotal := s.ctl.inTotal + BitVec.ofNat 64 c.taken } } := by
  have h' : ({ s with lzma := lzma } : State).activity = .decoding c := ha
  simp [copyPacket, State.checkCopy_ok hd hr hl, State.commit_ok h']

end Sys2Proof.Machine
end

