-- ==== Sys2Proof/Laws/Engine.lean ====
section
/-! SUPPORT. What each transaction of the engine can do, in a state that meets the invariant: it succeeds in a
state said whole, or it raises and the state it began in is left with the command ended. -/

namespace Sys2Proof.Machine

/-! ## The dictionary within its capacity -/

/-- A written byte keeps the ring: every cell within reach holds a value. -/
theorem Dict.Kept.after {d : Dict} {dm : Word} (h : d.Kept dm) (b : Byte) : (d.after b).Kept dm := by
  obtain ⟨h1, h2, hw, hr, hwin⟩ := h
  simp only [Config.dictMin] at h1
  have hcap : 0 < d.cap.toNat := by
    have : (4096 : Word).toNat = 4096 := rfl
    omega
  have hcl := d.cap.isLt
  have hpos : (BitVec.ofNat 32 ((d.writePos.toNat + 1) % d.cap.toNat)).toNat =
      (d.writePos.toNat + 1) % d.cap.toNat := by
    rw [BitVec.toNat_ofNat]
    exact Nat.mod_eq_of_lt (by have := Nat.mod_lt (d.writePos.toNat + 1) hcap; omega)
  refine ⟨h1, h2, ?_, ?_, ?_⟩
  · simp only [Dict.after, hpos]; exact Nat.mod_lt _ hcap
  · intro e he
    rcases mem_sparseSet he with rfl | he
    · exact hw
    · exact hr e he
  · intro dist hd hd'
    simp only [Dict.reach, Dict.after] at hd'
    simp only [Dict.read, Dict.after, hpos]
    obtain rfl | hd1 := Nat.eq_or_lt_of_le hd
    · rw [ringIndex_next_one hw]; simp
    · obtain ⟨k, rfl⟩ : ∃ k, dist = k + 1 := ⟨dist - 1, by omega⟩
      rw [ringIndex_next_succ hw (by omega) (by omega)]
      rw [sparseGet_set_ne _ _ (ringIndex_ne_writePos hw (by omega) (by omega))]
      refine hwin k (by omega) ?_
      have htw : (d.totalWritten + 1).toNat ≤ d.totalWritten.toNat + 1 := by
        rw [BitVec.toNat_add]
        exact Nat.mod_le _ _
      simp only [Dict.reach]; omega

/-- An empty dictionary is kept. -/
theorem Dict.Kept.clear {d : Dict} {dm : Word} (h : d.Kept dm) : d.clear.Kept dm := by
  obtain ⟨h1, h2, hw, -, -⟩ := h
  refine ⟨h1, h2, by simp only [Dict.clear_writePos]; exact Nat.lt_of_le_of_lt (Nat.zero_le _) hw, by simp, ?_⟩
  intro dist hd hd'
  simp only [Dict.reach, Dict.clear_totalWritten] at hd'
  have : (0 : U64).toNat = 0 := rfl
  omega

theorem Dict.Kept.configure (d : Dict) {dm size : Word} (hm : Config.dictMin.toNat ≤ dm.toNat)
    (hs : size.toNat ≤ dm.toNat) : (d.configure size).Kept dm := by
  have h4 : Config.dictMin.toNat = 4096 := rfl
  refine ⟨?_, ?_, ?_, by simp, ?_⟩
  · simp only [Dict.configure_cap]; split <;> omega
  · simp only [Dict.configure_cap]; split <;> omega
  · simp only [Dict.configure_writePos, Dict.configure_cap]
    have : (0 : Word).toNat = 0 := rfl
    split <;> omega
  · intro dist hd hd'
    simp only [Dict.reach, Dict.configure_totalWritten] at hd'
    have : (0 : U64).toNat = 0 := rfl
    omega

/-- `DictGet` in a kept dictionary: a byte, or `InvalidDistance`; never a fault. -/
theorem Dict.get_cases {d : Dict} {dm : Word} (h : d.Kept dm) (dist : Nat) :
    (1 ≤ dist ∧ dist ≤ d.reach ∧ ∃ b, d.get dist = .ok b) ∨
    (¬ (1 ≤ dist ∧ dist ≤ d.reach) ∧ d.get dist = .error (.raise (.error .invalidDistance))) := by
  by_cases hd : 1 ≤ dist ∧ dist ≤ d.reach
  · left
    obtain ⟨b, hb⟩ := Option.isSome_iff_exists.mp (h.window dist hd.1 hd.2)
    exact ⟨hd.1, hd.2, b, Dict.get_ok hd hb⟩
  · right
    refine ⟨hd, ?_⟩
    simp [Dict.get, Dict.checkDistance_error hd]

/-- `prevByte` of a kept dictionary holds a value. -/
theorem Dict.prevByte_ok {d : Dict} {dm : Word} (h : d.Kept dm) :
    ∃ b, d.prevByte = .ok b := by
  unfold Dict.prevByte
  split
  · exact ⟨0, rfl⟩
  · rename_i h0
    have h0' : d.totalWritten.toNat ≠ 0 := fun e => h0 (BitVec.eq_of_toNat_eq (by simpa using e))
    have h4 : Config.dictMin.toNat = 4096 := rfl
    have hcm := h.capMin
    rcases Dict.get_cases h 1 with ⟨-, -, hb⟩ | ⟨hn, -⟩
    · exact hb
    · exact absurd ⟨Nat.le_refl 1, by simp only [Dict.reach]; omega⟩ hn

/-! ## Fetching a packet -/

/-- A literal's operands are read, or its `Rep0` is out of reach (42_literal.md rule R225). -/
theorem State.litOperand_cases {s : State} {dm : Word} (h : s.dict.Kept dm) :
    (∃ src, s.litOperand = .ok src) ∨ s.litOperand = .error (.raise (.error .invalidDistance)) := by
  obtain ⟨prev, hp⟩ := Dict.prevByte_ok h
  unfold State.litOperand
  simp only [hp, ok_bind]
  split
  · exact .inl ⟨_, rfl⟩
  · rcases Dict.get_cases h s.lzma.rep0.toNat with ⟨-, -, b, hb⟩ | ⟨-, hb⟩
    · exact .inl ⟨_, by simp only [hb, ok_bind]; rfl⟩
    · exact .inr (by simp only [hb, error_bind])

/-- What fetching a packet can do where the engine fetches one: a well-formed packet, with the state after
its decision bits, or an event. -/
theorem fetchPacket_cases {s : State} {c : Call} {dm : Word} (ha : s.activity = .decoding c)
    (hk : s.dict.Kept dm) (hr : Config.rangeTop ≤ s.lzma.range.toNat) (hm : Probs.kept s.lzma.probs = true) :
    (∃ i rc m k, fetchPacket s = .ok (i, s.takeRc c rc m) ∧ i.isPacket = true ∧ i.wellFormed = true ∧
      Config.rangeTop ≤ rc.range.toNat ∧ Probs.kept m = true ∧
      Rc.Advances (s.rcRegs c) rc k) ∨
    (∃ r, fetchPacket s = .error (.raise r)) := by
  unfold fetchPacket
  simp only [State.call_ok ha, ok_bind]
  rcases runProg_cases (packetProg s.packetCtx) (rc := s.rcRegs c) (m := s.lzma.probs) hr hm with
    ⟨i, rc, m, k, e, h1, h2, h3⟩ | ⟨r, e⟩
  · simp only [e, ok_bind]
    rcases runProg_all (all_packetProg s.packetCtx) e with ⟨rfl, hl⟩ | ⟨i', rfl, hw, hi⟩
    · right
      simp only [State.packetCtx] at hl
      rcases State.litOperand_cases hk with ⟨src, hs⟩ | hs
      · simp [hs, Except.toOption] at hl
      · exact ⟨.error .invalidDistance, by simp [hs]⟩
    · exact .inl ⟨i', rc, m, k, rfl, hi, hw, h1, h2, h3⟩
  · exact .inr ⟨r, by simp [e]⟩

/-! ## Packets -/

/-- What a copy packet can do: it starts the copy, the distance within reach and the length within what
remains, or it raises. -/
theorem copyPacket_cases {s : State} {c : Call} {n : Nat} (dist len : Nat) (lzma : Lzma)
    (ha : s.activity = .decoding c) (hr : s.readRemaining = .ok n) :
    (1 ≤ dist ∧ dist ≤ s.dict.reach ∧ len ≤ n ∧ copyPacket s dist len lzma = .next { s with
      lzma := lzma
      activity := .decoding c.committed
      ctl := { s.ctl with inTotal := s.ctl.inTotal + BitVec.ofNat 64 c.taken } }) ∨
    (∃ r, copyPacket s dist len lzma = takeRaise s r) := by
  by_cases hd : 1 ≤ dist ∧ dist ≤ s.dict.reach
  · by_cases hl : len ≤ n
    · exact .inl ⟨hd.1, hd.2, hl, copyPacket_ok lzma ha hd hr hl⟩
    · refine .inr ⟨.error .matchPastEnd, ?_⟩
      simp [copyPacket, State.checkCopy_matchPastEnd hd hr (Nat.not_le.mp hl)]
  · refine .inr ⟨.error .invalidDistance, ?_⟩
    simp [copyPacket, State.checkCopy_invalidDistance hd]

/-- `LIT` where there is space for its byte. -/
theorem execLit_ok {s : State} {c : Call} {n : Nat} (b : Byte) (ha : s.activity = .decoding c)
    (hs : c.outSpace ≠ 0) (hr : s.readRemaining = .ok n) :
    execLit b s = .next { s with
      lzma := { s.lzma with lzState := afterLiteral s.lzma.lzState }.countDown s.ctl.mode
      framer := s.framer.countDown s.ctl.mode
      dict := s.dict.after b
      activity := .decoding c.committed.afterEmit
      host := { s.host with out := s.host.out ++ [b] }
      ctl := { s.ctl with
        inTotal := s.ctl.inTotal + BitVec.ofNat 64 c.taken
        outTotal := s.ctl.outTotal + 1 } } := by
  generalize hl : { s.lzma with lzState := afterLiteral s.lzma.lzState } = lz
  have e1 := State.commit_ok (s := { s with lzma := lz }) ha
  generalize ht : ({ s with
    lzma := lz
    activity := .decoding c.committed
    ctl := { s.ctl with inTotal := s.ctl.inTotal + BitVec.ofNat 64 c.taken } } : State) = s1 at e1
  have e2 := State.dictPut_ok (s := s1) (c := c.committed) (by subst ht; rfl) b
  generalize ht2 : ({ s1 with
    dict := s1.dict.after b
    activity := .decoding c.committed.afterEmit
    host := { s1.host with out := s1.host.out ++ [b] }
    ctl := { s1.ctl with outTotal := s1.ctl.outTotal + 1 } } : State) = s2 at e2
  have e3 := State.decRemaining_ok (s := s2) (n := n) (by
    rw [← hr]; subst ht2 ht hl; exact State.readRemaining_congr rfl rfl rfl)
  subst ht2 ht
  simp only [execLit, State.call_ok ha, ok_bind, Call.needSpace_ok hs, hl, e1, e2, e3, deliver_ok]

/-- One byte of a pending copy. -/
theorem copyStep_ok {s : State} {c : Call} {n : Nat} {b : Byte} (ha : s.activity = .decoding c)
    (hs : c.outSpace ≠ 0) (hr : s.readRemaining = .ok n) (hg : s.dict.get s.lzma.pendDist.toNat = .ok b) :
    copyStep s = .next { s with
      lzma := { s.lzma with pendLen := s.lzma.pendLen - 1 }.countDown s.ctl.mode
      framer := s.framer.countDown s.ctl.mode
      dict := s.dict.after b
      activity := .decoding c.afterEmit
      host := { s.host with out := s.host.out ++ [b] }
      ctl := { s.ctl with outTotal := s.ctl.outTotal + 1 } } := by
  have e3 := State.decRemaining_ok (n := n) (s := { s with
    lzma := { s.lzma with pendLen := s.lzma.pendLen - 1 }
    dict := s.dict.after b
    activity := .decoding c.afterEmit
    host := { s.host with out := s.host.out ++ [b] }
    ctl := { s.ctl with outTotal := s.ctl.outTotal + 1 } }) (by
      rw [← hr]; exact State.readRemaining_congr rfl rfl rfl)
  simp only [copyStep, State.call_ok ha, ok_bind, Call.needSpace_ok hs, hg, State.dictPut_ok ha]
  rw [e3]
  rfl

end Sys2Proof.Machine
end

