-- ==== Sys2Proof/Laws/Invariant.lean ====
section
/-! SUPPORT. How the invariant passes through the block's shared operations: the end of a command, and any
step that leaves the call in progress. -/

namespace Sys2Proof.Machine

/-- An event that is latched has a cause (60_exceptions.md rule R470). -/
theorem Raise.cause_of_latches {r : Raise} (h : r.latches = true) : r.cause.isSome = true := by
  cases r with
  | error c => rfl
  | needMoreInput => simp [Raise.latches] at h
  | needMoreOutput => simp [Raise.latches] at h

/-- What the invariant says of a call in progress. -/
theorem State.Inv.decoding {s : State} (h : s.Inv) {c : Call} (ha : s.activity = .decoding c) :
    s.ctl.mode ≠ .unconfigured ∧ s.ctl.errorLatched = false ∧ c.noted = none := by
  have := h.activity
  simpa [State.ActivityKept, ha] using this

theorem State.Inv.merging {s : State} (h : s.Inv) {j : Bcj2Job} (ha : s.activity = .merging j) :
    j.Kept s.bcj := by
  have := h.activity
  simpa [State.ActivityKept, ha] using this

/-- The end of a `Decode` call keeps the invariant. -/
theorem State.Inv.endCall {s : State} (h : s.Inv) {c : Call} (ha : s.activity = .decoding c) (st : Status)
    {ca : Option Cause} {l : Bool} (hl : l = true → ca.isSome = true) : (s.endCall c st ca l).Inv := by
  obtain ⟨hm, he, -⟩ := h.decoding ha
  exact { h with
    lzma1 := fun hm => { h.lzma1 hm with }
    lzma2 := fun hm => { h.lzma2 hm with }
    latched := fun hl' => by
      simp only [State.endCall_ctl, he, Bool.false_or] at hl'
      exact ⟨hm, hl hl'⟩
    activity := trivial }

/-- Taking an event keeps the invariant, the transaction that raised it having taken nothing, bytes, or
decision bits. -/
theorem State.Inv.takeRaise {s : State} (h : s.Inv) {c : Call} (ha : s.activity = .decoding c) (r : Raise)
    {t : State} (ht : Machine.takeRaise s r = .next t) : t.Inv := by
  rw [takeRaise_decoding ha, State.rollback_none s (h.decoding ha).2.2] at ht
  cases ht
  exact h.endCall ha _ Raise.cause_of_latches

theorem State.Inv.takeRaise_take {s : State} (h : s.Inv) {c : Call} (ha : s.activity = .decoding c)
    (rest : List Byte) (r : Raise) {t : State} (ht : Machine.takeRaise (s.take c rest) r = .next t) : t.Inv := by
  rw [Machine.takeRaise_take ha (h.decoding ha).2.2] at ht
  cases ht
  exact h.endCall ha _ Raise.cause_of_latches

theorem State.Inv.takeRaise_takeRc {s : State} (h : s.Inv) {c : Call} (ha : s.activity = .decoding c)
    (rc : Rc) (m : Probs) (r : Raise) {t : State} (ht : Machine.takeRaise (s.takeRc c rc m) r = .next t) :
    t.Inv := by
  rw [Machine.takeRaise_takeRc ha (h.decoding ha).2.2] at ht
  cases ht
  exact h.endCall ha _ Raise.cause_of_latches

/-- A step that leaves the call in progress keeps the invariant where it keeps its own part of it. -/
theorem State.Inv.running {s t : State} (h : s.Inv) {c c' : Call} (ha : s.activity = .decoding c)
    (ht : t.activity = .decoding c') (hn : c'.noted = none) (hparams : t.params = s.params)
    (hmode : t.ctl.mode = s.ctl.mode) (hlatch : t.ctl.errorLatched = s.ctl.errorLatched) (hbcj : t.bcj = s.bcj)
    (hprobs : Probs.kept t.lzma.probs = true) (hrange : Config.rangeTop ≤ t.lzma.range.toNat)
    (hreps : 1 ≤ t.lzma.rep0.toNat ∧ 1 ≤ t.lzma.rep1.toNat ∧ 1 ≤ t.lzma.rep2.toNat ∧ 1 ≤ t.lzma.rep3.toNat)
    (hlen : t.lzma.pendLen.toNat ≤ Config.matchMaxLen)
    (hdist : t.lzma.pendLen ≠ 0 → t.lzma.l1Phase = .packets)
    (hram : Memory.wf t.dict.ram = true) (hdict : t.dict.Kept s.params.dictMax)
    (h1 : s.ctl.mode = .lzma1 → t.Lzma1Kept) (h2 : s.ctl.mode = .lzma2 → t.Lzma2Kept) : t.Inv := by
  obtain ⟨hm, he, -⟩ := h.decoding ha
  exact {
    dictMax := hparams ▸ h.dictMax
    probs := hprobs
    range := hrange
    rep0 := hreps.1
    rep1 := hreps.2.1
    rep2 := hreps.2.2.1
    rep3 := hreps.2.2.2
    pendLen := hlen
    pendDist := hdist
    ram := hram
    dict := hparams ▸ hdict
    lzma1 := fun hm' => h1 (hmode ▸ hm')
    lzma2 := fun hm' => h2 (hmode ▸ hm')
    latched := fun hl => by rw [hlatch, he] at hl; simp at hl
    bcj := hbcj ▸ h.bcj
    activity := by rw [State.ActivityKept, ht]; exact ⟨hmode ▸ hm, hlatch ▸ he, hn⟩ }

/-- A cleared block meets the invariant (10_state.md rule R57). -/
theorem State.cleared_inv {s : State} (h : Config.dictMin.toNat ≤ s.params.dictMax.toNat) : s.cleared.Inv where
  dictMax := h
  probs := rfl
  range := (by decide : Config.rangeTop ≤ Config.rangeInit.toNat)
  rep0 := (by decide : 1 ≤ (1 : Word).toNat)
  rep1 := (by decide : 1 ≤ (1 : Word).toNat)
  rep2 := (by decide : 1 ≤ (1 : Word).toNat)
  rep3 := (by decide : 1 ≤ (1 : Word).toNat)
  pendLen := (by decide : (0 : BitVec 9).toNat ≤ Config.matchMaxLen)
  pendDist := fun hp => absurd rfl hp
  ram := rfl
  dict := ⟨Nat.le_refl _, h, (by decide : (0 : Word).toNat < Config.dictMin.toNat), by simp [State.reset],
    fun dist h0 h1 => by
      have : dist ≤ 0 := Nat.le_trans h1 (Nat.min_le_left _ _)
      omega⟩
  lzma1 := fun hm => by simp [State.reset] at hm
  lzma2 := fun hm => by simp [State.reset] at hm
  latched := fun hl => by simp [State.reset] at hl
  bcj := ⟨rfl, (by decide : Config.rangeTop ≤ Config.rangeInit.toNat)⟩
  activity := trivial

/-- The pending commands, the returned values and the host's buffer are no part of the invariant. -/
theorem State.Inv.host {s : State} (h : s.Inv) (p : HostPort) : ({ s with host := p } : State).Inv :=
  { h with
    lzma1 := fun hm => { h.lzma1 hm with }
    lzma2 := fun hm => { h.lzma2 hm with } }

/-- The return of a command keeps the invariant. -/
theorem State.Inv.returns {s : State} (h : s.Inv) (st : Status) (ca : Option Cause) (n : Consumed) (p : Nat) :
    (s.returns st ca n p).Inv :=
  { h with
    lzma1 := fun hm => { h.lzma1 hm with }
    lzma2 := fun hm => { h.lzma2 hm with }
    activity := trivial }

end Sys2Proof.Machine
end

