-- ==== Sys2Proof/Laws/PerInstr.lean ====
section
/-! SUPPORT. A statement for every instruction, one lemma per constructor: how long its encoding is
(46_lzma1_core.md rule R314: a packet is 4 to 48 decision bits; 30_encoding.md rule R134: a chunk header is 1 to 6
bytes), and that a pair or a command is that unit's and no other's. -/

namespace Sys2Proof.Laws.EncodedSize

open Sys2Proof

/-- The size of an encoding, and whose it is. -/
def Statement (i : Instr) : Prop :=
  i.wellFormed = true →
  match encode i with
  | .decisions bits => 4 ≤ bits.length ∧ bits.length ≤ 48
  | .bytes bs => 1 ≤ bs.length ∧ bs.length ≤ 6
  | .pair prev b => decodePair prev b = i
  | .command c => c.toInstr = i

theorem length_msbBits (n v : Nat) : (msbBits n v).length = n := by
  induction n with
  | zero => rfl
  | succ n ih => simp [msbBits, ih]

theorem length_lsbBits (n v : Nat) : (lsbBits n v).length = n := by
  induction n generalizing v with
  | zero => rfl
  | succ n ih => simp [lsbBits, ih]

/-- A length code is 4 to 10 bits. -/
theorem length_lengthBits (len : Nat) : 4 ≤ (lengthBits len).length ∧ (lengthBits len).length ≤ 10 := by
  unfold lengthBits
  split
  · simp [length_msbBits]
  · split <;> simp [length_msbBits]

/-- A distance code is 6 to 36 bits. -/
theorem length_distanceBits {dist : Nat} (h : distOk dist = true) : (distanceBits dist).length ≤ 36 := by
  have hs := slotOf_lt h
  simp only [distanceBits, List.length_append, length_msbBits, offsetBits]
  split
  · simp
  · split
    · simp only [length_lsbBits, slotBits]; omega
    · simp only [List.length_append, length_msbBits, length_lsbBits, slotBits]; omega

theorem lit (b : Byte) : Statement (.lit b) := fun _ => by simp [encode, length_msbBits]

theorem matchNew (dist len : Nat) : Statement (.matchNew dist len) := fun h => by
  have hl := length_lengthBits len
  simp only [Instr.wellFormed, Bool.and_eq_true] at h
  have hd := length_distanceBits h.1
  simp only [encode, List.length_cons, List.length_append]
  omega

theorem shortRep : Statement .shortRep := fun _ => ⟨by decide, by decide⟩

theorem rep0 (len : Nat) : Statement (.rep0 len) := fun _ => by
  have hl := length_lengthBits len
  simp only [encode, List.length_cons]; omega

theorem rep1 (len : Nat) : Statement (.rep1 len) := fun _ => by
  have hl := length_lengthBits len
  simp only [encode, List.length_cons]; omega

theorem rep2 (len : Nat) : Statement (.rep2 len) := fun _ => by
  have hl := length_lengthBits len
  simp only [encode, List.length_cons]; omega

theorem rep3 (len : Nat) : Statement (.rep3 len) := fun _ => by
  have hl := length_lengthBits len
  simp only [encode, List.length_cons]; omega

theorem l2End : Statement .l2End := fun _ => ⟨by decide, by decide⟩
theorem l2CopyReset (n : BitVec 16) : Statement (.l2CopyReset n) := fun _ => by simp [encode, be16Bytes]
theorem l2Copy (n : BitVec 16) : Statement (.l2Copy n) := fun _ => by simp [encode, be16Bytes]
theorem l2Reserved (c : Byte) : Statement (.l2Reserved c) := fun _ => by simp [encode]
theorem l2LzmaM0 (u : BitVec 21) (p : BitVec 16) : Statement (.l2LzmaM0 u p) := fun _ => by
  simp [encode, lzmaSizes, be16Bytes]
theorem l2LzmaM1 (u : BitVec 21) (p : BitVec 16) : Statement (.l2LzmaM1 u p) := fun _ => by
  simp [encode, lzmaSizes, be16Bytes]
theorem l2LzmaM2 (u : BitVec 21) (p : BitVec 16) (v : Byte) : Statement (.l2LzmaM2 u p v) := fun _ => by
  simp [encode, lzmaSizes, be16Bytes]
theorem l2LzmaM3 (u : BitVec 21) (p : BitVec 16) (v : Byte) : Statement (.l2LzmaM3 u p v) := fun _ => by
  simp [encode, lzmaSizes, be16Bytes]

theorem bcj2Call (prev : Byte) : Statement (.bcj2Call prev) := fun _ => rfl
theorem bcj2Jmp (prev : Byte) : Statement (.bcj2Jmp prev) := fun _ => rfl
theorem bcj2Jcc (cc : BitVec 4) : Statement (.bcj2Jcc cc) := fun _ => by
  simp only [encode]; revert cc; decide

theorem bcj2Plain (prev b : Byte) : Statement (.bcj2Plain prev b) := fun h => by
  simp only [Instr.wellFormed, isBranch, Bool.not_eq_true', Bool.or_eq_false_iff, Bool.and_eq_false_iff,
    beq_eq_false_iff_ne] at h
  have h8 : ∀ b : Byte, b &&& 0xFE ≠ 0xE8 → b ≠ 0xE8 ∧ b ≠ 0xE9 := by decide
  have hj : ∀ b : Byte, b &&& 0xF0 ≠ 0x80 → b.extractLsb' 4 4 ≠ 8 := by decide
  obtain ⟨hE8, hE9⟩ := h8 b h.1
  simp only [encode, decodePair, if_neg hE8, if_neg hE9]
  rw [if_neg]
  rintro ⟨rfl, h4⟩
  rcases h.2 with hp | hb
  · exact hp rfl
  · exact hj b hb h4

theorem reset : Statement .reset := fun _ => rfl
theorem configLzma1Raw (props : List Byte) (n : U64) : Statement (.configLzma1Raw props n) := fun _ => rfl
theorem configLzma1Alone (h : Vector Byte 13) : Statement (.configLzma1Alone h) := fun _ => rfl
theorem configLzma2 (q : Byte) : Statement (.configLzma2 q) := fun _ => rfl
theorem decode (input : List Byte) (n : Nat) : Statement (.decode input n) := fun _ => rfl
theorem bcj2Run (main call jump rc : List Byte) (n : Word) : Statement (.bcj2Run main call jump rc n) := fun _ => rfl

end Sys2Proof.Laws.EncodedSize
end

