-- ==== Sys2Proof/Laws/Unset.lean ====
section
/-! SUPPORT. No step reads a register that holds no value (93_implementation_defined.md U3; 70_reset_and_hazards.md
rule R501 "Unspecified at reset and never read before written"): whatever values such registers are given, a step
from a kept state ends alike, in states that differ in such registers only. So the values the model names for them
(assumption 4) decide nothing. -/

namespace Sys2Proof.Machine

/-- Values for the registers that may hold none. -/
structure Unset where
  code : Word
  pendDist : Word
  unpackRemaining : U64
  props : LcLpPb
  dictCap : Word
  bcjCode : Word
  bcjOutSize : Word

/-- The registers of the BCJ2 unit that hold no value outside a run. -/
def Bcj2Regs.given (r : Bcj2Regs) (v : Unset) : Bcj2Regs := { r with code := v.bcjCode, outSize := v.bcjOutSize }

/-- The unit's registers between runs: those it has, or in a run those it is rolled back to. -/
def State.givenBcj (s : State) (v : Unset) : Activity × Bcj2Regs :=
  match s.activity with
  | .idle => (.idle, s.bcj.given v)
  | .decoding c => (.decoding c, s.bcj.given v)
  | .merging j => (.merging { j with saved := j.saved.given v }, s.bcj)

/-- The state with these values in the registers that may hold none. -/
def State.given (s : State) (v : Unset) : State :=
  { s with
    lzma := { s.lzma with code := v.code, pendDist := v.pendDist, unpackRemaining := v.unpackRemaining }
    cfg := { s.cfg with props := v.props }
    dict := { s.dict with cap := v.dictCap }
    activity := (s.givenBcj v).1
    bcj := (s.givenBcj v).2 }

/-- The values give a register that holds one its own: `Code` from `RcInit` on, `PendDist` while a copy is
pending, `UnpackRemaining` in an LZMA1 stream, `lc`, `lp`, `pb` in an LZMA1 stream and from the first LZMA chunk's
properties on, `DictCap` once configured. -/
structure Unset.For (v : Unset) (s : State) : Prop where
  code : s.lzma.l1Phase ≠ .needInit → v.code = s.lzma.code
  pendDist : s.lzma.pendLen ≠ 0 → v.pendDist = s.lzma.pendDist
  unpackRemaining : s.ctl.mode = .lzma1 → v.unpackRemaining = s.lzma.unpackRemaining
  props : s.ctl.mode = .lzma1 ∨ s.ctl.mode = .lzma2 ∧ s.framer.needInitLevel = 0x00 → v.props = s.cfg.props
  dictCap : s.ctl.mode ≠ .unconfigured → v.dictCap = s.dict.cap

/-- Two steps end alike but for registers that hold no value. -/
def SameButUnset : Host.Outcome State Fault Refusal → Host.Outcome State Fault Refusal → Prop
  | .next t, .next t' => ∃ w : Unset, w.For t ∧ t' = t.given w
  | .fault f, .fault f' => f = f'
  | .refused r, .refused r' => r = r'
  | .next _, .fault _ => False
  | .next _, .refused _ => False
  | .fault _, .next _ => False
  | .fault _, .refused _ => False
  | .refused _, .next _ => False
  | .refused _, .fault _ => False

/-- Two next states that differ in registers without a value only. -/
theorem SameButUnset.next {t t' : State} (w : Unset) (hw : w.For t) (h : t' = t.given w) :
    SameButUnset (.next t) (.next t') := ⟨w, hw, h⟩

/-- The values the model names itself. -/
def Unset.reset : Unset :=
  { code := Config.wordReset, pendDist := Config.wordReset, unpackRemaining := 0, props := unsetProps,
    dictCap := Config.dictMin, bcjCode := Config.wordReset, bcjOutSize := Config.wordReset }

/-! ## Commands -/

/-- Which registers hold a value does not depend on the host, the command in progress or the BCJ2 unit. -/
theorem Unset.For.host {v : Unset} {s : State} (h : v.For s) (p : HostPort) (a : Activity) (b : Bcj2Regs) :
    v.For { s with host := p, activity := a, bcj := b } :=
  ⟨h.code, h.pendDist, h.unpackRemaining, h.props, h.dictCap⟩

/-- A configure command that fails clears every register it finds. -/
theorem fails_unset (c : Cause) {x y : State} (hp : y.params = x.params) (hh : y.host = x.host) :
    SameButUnset (.next (x.fails c)) (.next (y.fails c)) := by
  simp only [State.fails, State.cleared, hp, hh]
  exact .next .reset ⟨fun _ => rfl, fun _ => rfl, fun _ => rfl, fun _ => rfl, fun _ => rfl⟩ rfl

/-- A command, begun in an idle block: a configure command that fails clears the block, and one that succeeds
writes each register that then holds a value. -/
theorem step_unset_idle {s : State} (ha : s.activity = .idle) {v : Unset} (hv : v.For s) (i : HostCmd) :
    SameButUnset (exec i.toInstr s) (exec i.toInstr (s.given v)) := by
  obtain ⟨params, host, act, ctl, cfg, lzma, dict, framer, bcj⟩ := s
  cases ha
  cases i with
  | reset =>
    show SameButUnset (execReset _) (execReset _)
    exact .next .reset ⟨fun _ => rfl, fun _ => rfl, fun _ => rfl, fun _ => rfl, fun _ => rfl⟩ rfl
  | configLzma1Raw props n =>
    show SameButUnset (execConfigLzma1Raw props n _) (execConfigLzma1Raw props n _)
    simp only [execConfigLzma1Raw, State.accept, State.given, State.givenBcj, State.configRaw]
    split
    · rename_i pv d0 d1 d2 d3
      cases hp : configProps pv with
      | error c => exact fails_unset c rfl rfl
      | ok p =>
        by_cases hd : params.dictMax < le32 d0 d1 d2 d3
        · simp only [State.configureDict, if_pos hd]; exact fails_unset _ rfl rfl
        · simp only [State.configureDict, if_neg hd]
          exact .next
            { v with
              code := Config.wordReset, unpackRemaining := n, props := p
              dictCap := (dict.configure (le32 d0 d1 d2 d3)).cap }
            ⟨fun _ => rfl, fun h => absurd rfl h, fun _ => rfl, fun _ => rfl, fun _ => rfl⟩ rfl
    · exact fails_unset _ rfl rfl
  | configLzma1Alone h =>
    show SameButUnset (execConfigLzma1Alone h _) (execConfigLzma1Alone h _)
    simp only [execConfigLzma1Alone, State.accept, State.given, State.givenBcj, State.configAlone]
    cases hp : configProps h[0] with
    | error c => exact fails_unset c rfl rfl
    | ok p =>
      by_cases hd : params.dictMax < le32 h[1] h[2] h[3] h[4]
      · simp only [State.configureDict, if_pos hd]; exact fails_unset _ rfl rfl
      · by_cases hn : le64 h[5] h[6] h[7] h[8] h[9] h[10] h[11] h[12] = 0xFFFFFFFFFFFFFFFF
        · simp only [State.configureDict, if_neg hd, if_pos hn]; exact fails_unset _ rfl rfl
        · simp only [State.configureDict, if_neg hd, if_neg hn]
          exact .next
            { v with
              code := Config.wordReset, props := p
              unpackRemaining := le64 h[5] h[6] h[7] h[8] h[9] h[10] h[11] h[12]
              dictCap := (dict.configure (le32 h[1] h[2] h[3] h[4])).cap }
            ⟨fun _ => rfl, fun h => absurd rfl h, fun _ => rfl, fun _ => rfl, fun _ => rfl⟩ rfl
  | configLzma2 q =>
    show SameButUnset (execConfigLzma2 q _) (execConfigLzma2 q _)
    simp only [execConfigLzma2, State.accept, State.given, State.givenBcj, State.configLzma2]
    cases hp : decodeDictProp q with
    | none => exact fails_unset _ rfl rfl
    | some size =>
      by_cases hd : params.dictMax < size
      · simp only [State.configureDict, if_pos hd]; exact fails_unset _ rfl rfl
      · simp only [State.configureDict, if_neg hd]
        exact .next { v with code := Config.wordReset, props := unsetProps, dictCap := (dict.configure size).cap }
          ⟨fun _ => rfl, fun h => absurd rfl h, (fun h => nomatch h), fun _ => rfl, fun _ => rfl⟩ rfl
  | decode input outSpace =>
    show SameButUnset (execDecode input outSpace _) (execDecode input outSpace _)
    show SameButUnset (if ctl.mode = .unconfigured then _ else if ctl.errorLatched = true then _ else _)
      (if ctl.mode = .unconfigured then _ else if ctl.errorLatched = true then _ else _)
    by_cases hm : ctl.mode = .unconfigured
    · simp only [if_pos hm]; exact .next v (hv.host _ _ _) rfl
    · simp only [if_neg hm]
      by_cases hl : ctl.errorLatched = true
      · simp only [if_pos hl]; exact .next v (hv.host _ _ _) rfl
      · simp only [if_neg hl]; exact .next v (hv.host _ _ _) rfl
  | bcj2Run main call jump rc outSize =>
    show SameButUnset (execBcj2Run main call jump rc outSize _) (execBcj2Run main call jump rc outSize _)
    simp only [execBcj2Run, State.accept, State.given, State.givenBcj]
    cases Bcj2Regs.start params.checkRcByte0 rc outSize with
    | ok r => exact .next v (hv.host _ _ _) rfl
    | error e =>
      cases e with
      | raise r => exact .next v (hv.host _ _ _) rfl
      | fault f => exact rfl

/-! ## BCJ2 runs -/

/-- A run that stops is rolled back. -/
theorem deliver_error_merging {s : State} {j : Bcj2Job} (ha : s.activity = .merging j) {v : Unset} (hv : v.For s)
    (e : Stop) : SameButUnset (deliver s (.error e)) (deliver (s.given v) (.error e)) := by
  obtain ⟨params, host, act, ctl, cfg, lzma, dict, framer, bcj⟩ := s
  cases ha
  cases e with
  | raise r => exact .next v (hv.host _ _ _) rfl
  | fault f => rfl

/-- What a token answers, the registers the run is rolled back to left out. -/
theorem branchToken_unset {s : State} {j : Bcj2Job} (ha : s.activity = .merging j) {v : Unset} (hv : v.For s)
    (b : Byte) (i : Nat) (t : TargetStream) :
    SameButUnset (deliver s (branchToken b i t s)) (deliver (s.given v) (branchToken b i t (s.given v))) := by
  have stop := deliver_error_merging ha hv
  obtain ⟨params, host, act, ctl, cfg, lzma, dict, framer, bcj⟩ := s
  cases ha
  show SameButUnset (deliver _ (if bcj.outPos + 1 = j.outSize then _ else _))
    (deliver _ (if bcj.outPos + 1 = j.outSize then _ else _))
  by_cases ho : bcj.outPos + 1 = j.outSize
  · rw [if_pos ho, if_pos ho]
    exact .next v (hv.host _ _ _) rfl
  · rw [if_neg ho, if_neg ho]
    show SameButUnset
      (deliver _ (Bcj2Regs.controlBit { bcj with mainPos := bcj.mainPos + 1, outPos := bcj.outPos + 1 } j i >>= _))
      (deliver _ (Bcj2Regs.controlBit { bcj with mainPos := bcj.mainPos + 1, outPos := bcj.outPos + 1 } j i >>= _))
    cases Bcj2Regs.controlBit { bcj with mainPos := bcj.mainPos + 1, outPos := bcj.outPos + 1 } j i with
    | error e => exact stop e
    | ok x =>
      obtain ⟨bit, r2⟩ := x
      cases bit with
      | false => exact .next v (hv.host _ _ _) rfl
      | true =>
        show SameButUnset (deliver _ (r2.takeTarget j t >>= _)) (deliver _ (r2.takeTarget j t >>= _))
        cases r2.takeTarget j t with
        | error e => exact stop e
        | ok y => exact .next v (hv.host _ _ _) rfl

theorem step_unset_merging {s : State} {j : Bcj2Job} (ha : s.activity = .merging j) {v : Unset} (hv : v.For s) :
    SameButUnset (stepMerge s j) (stepMerge (s.given v) { j with saved := j.saved.given v }) := by
  have tok := @branchToken_unset s j ha v hv
  obtain ⟨params, host, act, ctl, cfg, lzma, dict, framer, bcj⟩ := s
  cases ha
  show SameButUnset (if bcj.outPos = j.outSize then _ else _) (if bcj.outPos = j.outSize then _ else _)
  by_cases ho : bcj.outPos = j.outSize
  · rw [if_pos ho, if_pos ho]
    exact .next { v with bcjCode := bcj.code, bcjOutSize := bcj.outSize }
      ⟨hv.code, hv.pendDist, hv.unpackRemaining, hv.props, hv.dictCap⟩ rfl
  · rw [if_neg ho, if_neg ho]
    show SameButUnset (match j.main[bcj.mainPos.toNat]? with | none => _ | some b => _)
      (match j.main[bcj.mainPos.toNat]? with | none => _ | some b => _)
    cases j.main[bcj.mainPos.toNat]? with
    | none => exact .next v (hv.host _ _ _) rfl
    | some b =>
      show SameButUnset (exec (decodePair j.prev b) _) (exec (decodePair j.prev b) _)
      unfold decodePair
      split
      · exact tok 0xE8 j.prev.toNat .call
      · split
        · exact tok 0xE9 256 .jump
        · split
          · exact tok (8#4 ++ b.extractLsb' 0 4) 257 .jump
          · exact .next v (hv.host _ _ _) rfl

/-! ## Decode calls -/

/-- The end of a call. -/
theorem endCall_unset {s : State} {c : Call} (ha : s.activity = .decoding c) {v : Unset} (hv : v.For s)
    (st : Status) (ca : Option Cause) (l : Bool) :
    SameButUnset (.next (s.endCall c st ca l)) (.next ((s.given v).endCall c st ca l)) := by
  obtain ⟨params, host, act, ctl, cfg, lzma, dict, framer, bcj⟩ := s
  cases ha
  exact .next v ⟨hv.code, hv.pendDist, hv.unpackRemaining, hv.props, hv.dictCap⟩ rfl

theorem given_activity {s : State} {c : Call} (ha : s.activity = .decoding c) (v : Unset) :
    (s.given v).activity = .decoding c := by simp [State.given, State.givenBcj, ha]

/-- A transaction that takes nothing before it stops. -/
theorem stop_unset {s : State} {c : Call} (ha : s.activity = .decoding c) (hn : c.noted = none) {v : Unset}
    (hv : v.For s) (e : Stop) : SameButUnset (deliver s (.error e)) (deliver (s.given v) (.error e)) := by
  cases e with
  | raise r =>
    rw [deliver_raise, deliver_raise, takeRaise_decoding ha, takeRaise_decoding (given_activity ha v),
      State.rollback_none _ hn, State.rollback_none _ hn]
    exact endCall_unset ha hv _ _ _
  | fault f => rfl

theorem stop_unset_take {s : State} {c : Call} (ha : s.activity = .decoding c) (hn : c.noted = none) {v : Unset}
    (hv : v.For s) (rest : List Byte) (e : Stop) :
    SameButUnset (deliver (s.take c rest) (.error e)) (deliver ((s.given v).take c rest) (.error e)) := by
  cases e with
  | raise r =>
    rw [deliver_raise, deliver_raise, takeRaise_take ha hn, takeRaise_take (given_activity ha v) hn]
    exact endCall_unset ha hv _ _ _
  | fault f => rfl

theorem stop_unset_takeRc {s : State} {c : Call} (ha : s.activity = .decoding c) (hn : c.noted = none) {v : Unset}
    (hv : v.For s) (rc : Rc) (m : Probs) (e : Stop) :
    SameButUnset (deliver (s.takeRc c rc m) (.error e)) (deliver ((s.given v).takeRc c rc m) (.error e)) := by
  cases e with
  | raise r =>
    rw [deliver_raise, deliver_raise, takeRaise_takeRc ha hn, takeRaise_takeRc (given_activity ha v) hn]
    exact endCall_unset ha hv _ _ _
  | fault f => rfl

theorem given_decoding {s : State} {c : Call} (ha : s.activity = .decoding c) (v : Unset) :
    s.given v = { s with
      lzma := { s.lzma with code := v.code, pendDist := v.pendDist, unpackRemaining := v.unpackRemaining }
      cfg := { s.cfg with props := v.props }
      dict := { s.dict with cap := v.dictCap }
      bcj := s.bcj.given v } := by
  simp [State.given, State.givenBcj, ha]

theorem rcInitStep_unset {s : State} {c : Call} (ha : s.activity = .decoding c) (hn : c.noted = none) {v : Unset}
    (hv : v.For s) : SameButUnset (rcInitStep s) (rcInitStep (s.given v)) := by
  have stop := stop_unset ha hn hv
  have e1 := State.call_ok ha
  have e2 := State.call_ok (given_activity ha v)
  rw [rcInitStep, rcInitStep, e1, e2, ok_bind, ok_bind]
  show SameButUnset (deliver _ (rcInit s.params.checkRcByte0 s.rcSource c.input >>= _))
    (deliver _ (rcInit s.params.checkRcByte0 s.rcSource c.input >>= _))
  cases rcInit s.params.checkRcByte0 s.rcSource c.input with
  | error e => exact stop e
  | ok rc =>
    rw [given_decoding ha]
    exact .next { v with code := rc.code }
      ⟨fun _ => rfl, hv.pendDist, hv.unpackRemaining, hv.props, hv.dictCap⟩ rfl

/-- `Remaining` counts down: `UnpackRemaining` in LZMA1 mode, where it holds a value. -/
theorem decRemaining_unset {x : State} {c : Call} (ha : x.activity = .decoding c) {v : Unset} (hv : v.For x)
    (hm : x.ctl.mode ≠ .unconfigured) :
    ∃ t w, x.decRemaining = .ok t ∧ (x.given v).decRemaining = .ok (t.given w) ∧ w.For t := by
  obtain ⟨params, host, act, ⟨mode, st, ca, el, it, ot⟩, cfg, lzma, dict, framer, bcj⟩ := x
  cases ha
  cases mode with
  | unconfigured => exact absurd rfl hm
  | lzma1 =>
    exact ⟨_, { v with unpackRemaining := v.unpackRemaining - 1 }, rfl, rfl,
      ⟨hv.code, hv.pendDist, fun _ => congrArg (· - 1) (hv.unpackRemaining rfl), hv.props, hv.dictCap⟩⟩
  | lzma2 => exact ⟨_, v, rfl, rfl, ⟨hv.code, hv.pendDist, nofun, hv.props, hv.dictCap⟩⟩

theorem copyStep_unset {s : State} {c : Call} (ha : s.activity = .decoding c) (hn : c.noted = none) {v : Unset}
    (hv : v.For s) (hp : s.lzma.pendLen ≠ 0) (hm : s.ctl.mode ≠ .unconfigured) :
    SameButUnset (copyStep s) (copyStep (s.given v)) := by
  have stop := stop_unset ha hn hv
  have e1 := State.call_ok ha
  have e2 := State.call_ok (given_activity ha v)
  rw [copyStep, copyStep, e1, e2, ok_bind, ok_bind]
  cases c.needSpace with
  | error e => exact stop e
  | ok _ =>
    have hd : (s.given v).dict.get (s.given v).lzma.pendDist.toNat = s.dict.get s.lzma.pendDist.toNat := by
      simp only [State.given, hv.pendDist hp, hv.dictCap hm]
    simp only [ok_bind, hd]
    cases s.dict.get s.lzma.pendDist.toNat with
    | error e => exact stop e
    | ok b =>
      rw [ok_bind, ok_bind, State.dictPut_ok ha, State.dictPut_ok (given_activity ha v), ok_bind, ok_bind]
      obtain ⟨params, host, act, ctl, cfg, lzma, dict, framer, bcj⟩ := s
      cases ha
      obtain ⟨vc, vd, vu, vp, vk, vb, vo⟩ := v
      obtain rfl : vk = dict.cap := hv.dictCap hm
      obtain ⟨t, w, h1, h2, hw⟩ := decRemaining_unset (c := c.afterEmit)
        (v := ⟨vc, vd, vu, vp, dict.cap, vb, vo⟩)
        (x := { params := params, host := { host with out := host.out ++ [b] }, activity := .decoding c.afterEmit,
                ctl := { ctl with outTotal := ctl.outTotal + 1 }, cfg := cfg,
                lzma := { lzma with pendLen := lzma.pendLen - 1 }, dict := dict.after b, framer := framer, bcj := bcj })
        rfl ⟨hv.code, fun _ => hv.pendDist hp, hv.unpackRemaining, hv.props, hv.dictCap⟩ hm
      rw [h1]
      show SameButUnset (.next t) (deliver _ _)
      refine (congrArg (deliver _) h2).symm ▸ ?_
      exact .next w hw rfl

/-- `Remaining` is read where it holds a value. -/
theorem readRemaining_unset {x : State} {v : Unset} (hv : v.For x) : (x.given v).readRemaining = x.readRemaining := by
  obtain ⟨params, host, act, ⟨mode, st, ca, el, it, ot⟩, cfg, lzma, dict, framer, bcj⟩ := x
  cases mode with
  | unconfigured => rfl
  | lzma1 => exact congrArg (fun n : U64 => Except.ok n.toNat) (hv.unpackRemaining rfl)
  | lzma2 => rfl

/-- The check of a copy packet. -/
theorem checkCopy_unset {x : State} {v : Unset} (hv : v.For x) (hm : x.ctl.mode ≠ .unconfigured) (dist len : Nat) :
    (x.given v).checkCopy dist len = x.checkCopy dist len := by
  have hd : (x.given v).dict = x.dict := by simp only [State.given, hv.dictCap hm]
  rw [State.checkCopy, State.checkCopy, readRemaining_unset hv, hd]

/-- A copy packet writes its pending distance. -/
theorem copyPacket_unset {y : State} {c : Call} (ha : y.activity = .decoding c) {v : Unset} (hv : v.For y)
    (hm : y.ctl.mode ≠ .unconfigured) (hl : y.lzma.l1Phase = .packets)
    (stop : ∀ e, SameButUnset (deliver y (.error e)) (deliver (y.given v) (.error e))) (dist len : Nat) (l : Lzma)
    (hcode : l.code = y.lzma.code)
    (hu : l.unpackRemaining = y.lzma.unpackRemaining) :
    SameButUnset (copyPacket y dist len l)
      (copyPacket (y.given v) dist len { l with code := v.code, unpackRemaining := v.unpackRemaining }) := by
  rw [copyPacket, copyPacket, checkCopy_unset hv hm]
  cases y.checkCopy dist len with
  | error e => exact stop e
  | ok _ =>
    obtain ⟨params, host, act, ctl, cfg, lzma, dict, framer, bcj⟩ := y
    cases ha
    exact .next { v with pendDist := l.pendDist }
      ⟨fun _ => (hv.code (by rw [hl]; nofun)).trans hcode.symm, fun _ => rfl,
        fun h => (hv.unpackRemaining h).trans hu.symm, hv.props, hv.dictCap⟩ rfl

/-- A packet, once read. -/
theorem packet_unset {y : State} {c : Call} (ha : y.activity = .decoding c) {v : Unset} (hv : v.For y)
    (hm : y.ctl.mode ≠ .unconfigured) (hl : y.lzma.l1Phase = .packets) (hp : y.lzma.pendLen = 0)
    (stop : ∀ e, SameButUnset (deliver y (.error e)) (deliver (y.given v) (.error e))) {i : Instr}
    (hi : i.isPacket = true) : SameButUnset (exec i y) (exec i (y.given v)) := by
  have copy := copyPacket_unset ha hv hm hl stop
  cases i with
  | matchNew dist len =>
    exact copy dist len
      { (y.lzma.pushRep dist).startCopy len with lzState := afterMatch y.lzma.lzState } rfl rfl
  | shortRep =>
    exact copy y.lzma.rep0.toNat 1
      { y.lzma.startCopy 1 with lzState := afterShortRep y.lzma.lzState } rfl rfl
  | rep0 len =>
    exact copy y.lzma.rep0.toNat len
      { y.lzma.startCopy len with lzState := afterRep y.lzma.lzState } rfl rfl
  | rep1 len =>
    exact copy y.lzma.rep1.toNat len
      { y.lzma.useRep1.startCopy len with lzState := afterRep y.lzma.lzState } rfl rfl
  | rep2 len =>
    exact copy y.lzma.rep2.toNat len
      { y.lzma.useRep2.startCopy len with lzState := afterRep y.lzma.lzState } rfl rfl
  | rep3 len =>
    exact copy y.lzma.rep3.toNat len
      { y.lzma.useRep3.startCopy len with lzState := afterRep y.lzma.lzState } rfl rfl
  | lit b =>
    show SameButUnset (execLit b y) (execLit b (y.given v))
    rw [execLit, execLit, State.call_ok ha, State.call_ok (given_activity ha v), ok_bind, ok_bind]
    cases c.needSpace with
    | error e => exact stop e
    | ok _ =>
      obtain ⟨params, host, act, ctl, cfg, lzma, dict, framer, bcj⟩ := y
      cases ha
      obtain ⟨vc, vd, vu, vp, vk, vb, vo⟩ := v
      obtain rfl : vk = dict.cap := hv.dictCap hm
      obtain ⟨t, w, h1, h2, hw⟩ := decRemaining_unset (c := c.committed.afterEmit)
        (v := ⟨vc, vd, vu, vp, dict.cap, vb, vo⟩)
        (x := { params := params, host := { host with out := host.out ++ [b] }
                activity := .decoding c.committed.afterEmit
                ctl := { ctl with inTotal := ctl.inTotal + BitVec.ofNat 64 c.taken, outTotal := ctl.outTotal + 1 }
                cfg := cfg, lzma := { lzma with lzState := afterLiteral lzma.lzState }, dict := dict.after b
                framer := framer, bcj := bcj })
        rfl ⟨hv.code, hv.pendDist, hv.unpackRemaining, hv.props, hv.dictCap⟩ hm
      refine (congrArg (SameButUnset · _) (congrArg (deliver _) h1)).symm ▸ ?_
      refine (congrArg (deliver _) h2).symm ▸ ?_
      exact .next w hw rfl
  | _ => simp [Instr.isPacket] at hi

/-- A packet is read and executed with what holds a value. -/
theorem packetStep_unset {s : State} {c : Call} (ha : s.activity = .decoding c) (hn : c.noted = none) {v : Unset}
    (hv : v.For s) (hm : s.ctl.mode ≠ .unconfigured) (hl : s.lzma.l1Phase = .packets) (hp : s.lzma.pendLen = 0)
    (hprops : v.props = s.cfg.props) : SameButUnset (packetStep s) (packetStep (s.given v)) := by
  have stop := stop_unset ha hn hv
  have stopRc := stop_unset_takeRc ha hn hv
  have hcode := hv.code (by rw [hl]; nofun)
  have hcap := hv.dictCap hm
  have hctx : (s.given v).packetCtx = s.packetCtx ∧ (s.given v).litOperand = s.litOperand := by
    simp only [State.packetCtx, State.litOperand, State.given, hprops, hcap, and_self]
  have hrc : (s.given v).rcRegs c = s.rcRegs c := by simp only [State.rcRegs, State.rcSource, State.given, hcode]
  unfold packetStep fetchPacket
  rw [State.call_ok ha, State.call_ok (given_activity ha v), ok_bind, ok_bind, hctx.1, hctx.2, hrc,
    show (s.given v).lzma.probs = s.lzma.probs from rfl]
  cases hr : runProg (packetProg s.packetCtx) (s.rcRegs c) s.lzma.probs with
  | error e => exact stop e
  | ok x =>
    obtain ⟨i, rc, m⟩ := x
    rcases runProg_all (all_packetProg s.packetCtx) hr with ⟨rfl, -⟩ | ⟨i, rfl, -, hi⟩
    · simp only [ok_bind]
      cases s.litOperand with
      | error e => exact stop e
      | ok _ => exact rfl
    · show SameButUnset (exec i (s.takeRc c rc m)) (exec i ((s.given v).takeRc c rc m))
      have e : (s.given v).takeRc c rc m = (s.takeRc c rc m).given { v with code := rc.code } := by
        rw [given_decoding ha]
        simp only [State.takeRc, State.take, State.notedNow, hcode]
        rfl
      have stopRc := stopRc rc m
      rw [e] at stopRc ⊢
      exact packet_unset (y := s.takeRc c rc m) (v := { v with code := rc.code })
        (c := { c with input := rc.bytes, noted := some (s.notedNow c) }) rfl
        ⟨fun _ => rfl, hv.pendDist, hv.unpackRemaining, hv.props, hv.dictCap⟩ hm hl hp stopRc hi

/-- `L2Phase` is marked alike. -/
theorem SameButUnset.mark {o o' : Host.Outcome State Fault Refusal} (h : SameButUnset o o') :
    SameButUnset (mapNext markLzmaData o) (mapNext markLzmaData o') := by
  cases o <;> cases o' <;> try exact h
  rename_i t t'
  obtain ⟨w, hw, rfl⟩ := h
  obtain ⟨params, host, act, ctl, cfg, lzma, dict, framer, bcj⟩ := t
  cases act with
  | idle => exact .next w hw rfl
  | merging j => exact .next w hw rfl
  | decoding c =>
    show SameButUnset (.next (if lzma.l1Phase = .packets then _ else _))
      (.next (if lzma.l1Phase = .packets then _ else _))
    by_cases hl : lzma.l1Phase = .packets
    · rw [if_pos hl, if_pos hl]
      exact .next w ⟨fun h => hw.code h, hw.pendDist, hw.unpackRemaining, hw.props, hw.dictCap⟩ rfl
    · rw [if_neg hl, if_neg hl]
      exact .next w hw rfl

/-- Two turns of the packet loop are alike: both done, or both steps. -/
def LoopResult.SameButUnset : LoopResult → LoopResult → Prop
  | .done, .done => True
  | .stepped o, .stepped o' => Machine.SameButUnset o o'
  | .done, .stepped _ => False
  | .stepped _, .done => False

theorem lzma1Step_unset {s : State} {c : Call} (ha : s.activity = .decoding c) (hn : c.noted = none) {v : Unset}
    (hv : v.For s) (hm : s.ctl.mode ≠ .unconfigured) (hprops : v.props = s.cfg.props) :
    (lzma1Step s c).SameButUnset (lzma1Step (s.given v) c) := by
  have hl' : (s.given v).lzma.l1Phase = s.lzma.l1Phase := rfl
  have hp' : (s.given v).lzma.pendLen = s.lzma.pendLen := rfl
  unfold lzma1Step
  rw [hl', hp', readRemaining_unset hv]
  cases hl : s.lzma.l1Phase with
  | finished => trivial
  | needInit => exact rcInitStep_unset ha hn hv
  | packets =>
    simp only
    split
    · rename_i hp; exact copyStep_unset ha hn hv hp hm
    · rename_i hp
      cases s.readRemaining with
      | error e => exact stop_unset ha hn hv e
      | ok n =>
        simp only
        split
        · trivial
        · split
          · exact stop_unset ha hn hv (.raise .needMoreOutput)
          · exact packetStep_unset ha hn hv hm hl (by simpa using hp) hprops

/-- The end of an LZMA chunk: `Code` holds no value from then on. -/
theorem endLzmaChunk_unset {s : State} {c : Call} (ha : s.activity = .decoding c) (hn : c.noted = none) {v : Unset}
    (hv : v.For s) : SameButUnset (endLzmaChunk s) (endLzmaChunk (s.given v)) := by
  have stop := stop_unset ha hn hv (.raise (.error .packedSizeMismatch))
  obtain ⟨params, host, act, ctl, cfg, lzma, dict, framer, bcj⟩ := s
  cases ha
  show SameButUnset (if framer.chunkPackRemaining ≠ 0 then _ else _)
    (if framer.chunkPackRemaining ≠ 0 then _ else _)
  by_cases h : framer.chunkPackRemaining ≠ 0
  · rw [if_pos h, if_pos h]; exact stop
  · rw [if_neg h, if_neg h]
    exact .next v ⟨fun h => absurd rfl h, hv.pendDist, hv.unpackRemaining, hv.props, hv.dictCap⟩ rfl

/-- One byte of an uncompressed chunk. -/
theorem copyChunkStep_unset {s : State} {c : Call} (ha : s.activity = .decoding c) (hn : c.noted = none) {v : Unset}
    (hv : v.For s) (hm : s.ctl.mode ≠ .unconfigured) :
    SameButUnset (copyChunkStep s c) (copyChunkStep (s.given v) c) := by
  have stop := stop_unset ha hn hv
  unfold copyChunkStep
  cases c.needSpace with
  | error e => exact stop e
  | ok _ =>
    simp only [ok_bind]
    cases c.input with
    | nil => exact stop _
    | cons b rest =>
      obtain ⟨params, host, act, ctl, cfg, lzma, dict, framer, bcj⟩ := s
      cases ha
      obtain ⟨vc, vd, vu, vp, vk, vb, vo⟩ := v
      obtain rfl : vk = dict.cap := hv.dictCap hm
      exact .next ⟨vc, vd, vu, vp, dict.cap, vb, vo⟩
        ⟨hv.code, hv.pendDist, hv.unpackRemaining, hv.props, hv.dictCap⟩ rfl

/-- The control byte of a chunk that keeps the properties is below 0xC0. -/
theorem lzmaControl_lt (mode : BitVec 2) (hmode : mode = 0 ∨ mode = 1) (u : BitVec 21) :
    lzmaControl mode u < 0xC0 := by
  rcases hmode with rfl | rfl <;> unfold lzmaControl <;> generalize u.extractLsb' 16 5 = x <;> revert x <;> decide

/-- The properties are set when a chunk that keeps them is accepted (47_lzma2_chunk.md rule R357). -/
theorem level_zero {s : State} (h : s.Lzma2Kept) {mode : BitVec 2} (hmode : mode = 0 ∨ mode = 1) (u : BitVec 21)
    (hc : ¬ lzmaControl mode u < s.framer.needInitLevel) : s.framer.needInitLevel = 0x00 := by
  have := lzmaControl_lt mode hmode u
  rcases h.level with e | e | e
  · exact e
  · exact absurd (e ▸ this) hc
  · refine absurd ?_ hc
    rw [e, BitVec.lt_def] at *
    exact Nat.lt_trans this (by decide)

/-- What a chunk header decodes to. -/
theorem decodeHeader_cases {l rest : List Byte} {i : Instr} (h : decodeHeader l = some (i, rest)) :
    i = .l2End ∨ (∃ n, i = .l2CopyReset n) ∨ (∃ n, i = .l2Copy n) ∨ (∃ b, i = .l2Reserved b) ∨
    (∃ u p, i = .l2LzmaM0 u p) ∨ (∃ u p, i = .l2LzmaM1 u p) ∨ (∃ u p b, i = .l2LzmaM2 u p b) ∨
    (∃ u p b, i = .l2LzmaM3 u p b) := by
  unfold decodeHeader decodeLzmaHeader at h
  repeat' split at h
  all_goals simp only [Option.some.injEq, Prod.mk.injEq, reduceCtorEq] at h
  all_goals obtain ⟨rfl, -⟩ := h
  all_goals simp

theorem headerStep_unset {s : State} {c : Call} (ha : s.activity = .decoding c) (hn : c.noted = none) {v : Unset}
    (hv : v.For s) (hm : s.ctl.mode = .lzma2) (hk : s.Lzma2Kept) :
    SameButUnset (headerStep s c) (headerStep (s.given v) c) := by
  unfold headerStep
  split
  · exact stop_unset ha hn hv (.raise .needMoreInput)
  · rename_i i rest hd
    have stop := stop_unset_take ha hn hv rest
    have hnot1 : s.ctl.mode ≠ .lzma1 := by rw [hm]; nofun
    have hcap := hv.dictCap (by rw [hm]; nofun)
    have h0 := @level_zero s hk
    obtain ⟨params, host, act, ctl, cfg, lzma, dict, framer, bcj⟩ := s
    cases ha
    obtain ⟨vc, vd, vu, vp, vk, vb, vo⟩ := v
    obtain rfl : vk = dict.cap := hcap
    rcases decodeHeader_cases hd with rfl | ⟨n, rfl⟩ | ⟨n, rfl⟩ | ⟨b, rfl⟩ | ⟨u, p, rfl⟩ |
      ⟨u, p, rfl⟩ | ⟨u, p, b, rfl⟩ | ⟨u, p, b, rfl⟩
    · exact .next ⟨vc, vd, vu, vp, dict.cap, vb, vo⟩
        ⟨hv.code, hv.pendDist, hv.unpackRemaining, hv.props, hv.dictCap⟩ rfl
    ·
      exact .next ⟨vc, vd, vu, vp, dict.cap, vb, vo⟩
        ⟨hv.code, hv.pendDist, hv.unpackRemaining,
          fun h => h.elim (fun h => absurd h hnot1) (fun h => absurd h.2 (by decide : ¬ (0xC0 : Byte) = 0)),
          hv.dictCap⟩ rfl
    ·
      show SameButUnset (deliver _ (if framer.needInitLevel = 0xE0 then _ else _))
        (deliver _ (if framer.needInitLevel = 0xE0 then _ else _))
      by_cases h : framer.needInitLevel = 0xE0
      · rw [if_pos h, if_pos h]; exact stop _
      · rw [if_neg h, if_neg h]
        exact .next ⟨vc, vd, vu, vp, dict.cap, vb, vo⟩
          ⟨hv.code, hv.pendDist, hv.unpackRemaining, hv.props, hv.dictCap⟩ rfl
    · exact stop (.raise (.error .badControl))
    ·
      show SameButUnset (deliver _ ((if lzmaControl 0 u < framer.needInitLevel then .error _ else .ok ()) >>= _))
        (deliver _ ((if lzmaControl 0 u < framer.needInitLevel then .error _ else .ok ()) >>= _))
      by_cases h : lzmaControl 0 u < framer.needInitLevel
      · rw [if_pos h]; exact stop _
      · rw [if_neg h]
        exact .next ⟨Config.wordReset, vd, vu, vp, dict.cap, vb, vo⟩
          ⟨fun h => absurd rfl h, hv.pendDist, hv.unpackRemaining, fun _ => hv.props (.inr ⟨hm, h0 (.inl rfl) u h⟩),
            hv.dictCap⟩ rfl
    ·
      show SameButUnset (deliver _ ((if lzmaControl 1 u < framer.needInitLevel then .error _ else .ok ()) >>= _))
        (deliver _ ((if lzmaControl 1 u < framer.needInitLevel then .error _ else .ok ()) >>= _))
      by_cases h : lzmaControl 1 u < framer.needInitLevel
      · rw [if_pos h]; exact stop _
      · rw [if_neg h]
        exact .next ⟨Config.wordReset, vd, vu, vp, dict.cap, vb, vo⟩
          ⟨fun h => absurd rfl h, hv.pendDist, hv.unpackRemaining, fun _ => hv.props (.inr ⟨hm, h0 (.inr rfl) u h⟩),
            hv.dictCap⟩ rfl
    ·
      show SameButUnset (deliver _ ((if lzmaControl 2 u < framer.needInitLevel then .error _ else .ok ()) >>= _))
        (deliver _ ((if lzmaControl 2 u < framer.needInitLevel then .error _ else .ok ()) >>= _))
      by_cases h : lzmaControl 2 u < framer.needInitLevel
      · rw [if_pos h]; exact stop _
      · rw [if_neg h]
        show SameButUnset (deliver _ (chunkProps b >>= _)) (deliver _ (chunkProps b >>= _))
        cases chunkProps b with
        | error e => exact stop e
        | ok props =>
          exact .next ⟨Config.wordReset, vd, vu, props, dict.cap, vb, vo⟩
            ⟨fun h => absurd rfl h, hv.pendDist, hv.unpackRemaining, fun _ => rfl, hv.dictCap⟩ rfl
    ·
      show SameButUnset (deliver _ ((if lzmaControl 3 u < framer.needInitLevel then .error _ else .ok ()) >>= _))
        (deliver _ ((if lzmaControl 3 u < framer.needInitLevel then .error _ else .ok ()) >>= _))
      by_cases h : lzmaControl 3 u < framer.needInitLevel
      · rw [if_pos h]; exact stop _
      · rw [if_neg h]
        show SameButUnset (deliver _ (chunkProps b >>= _)) (deliver _ (chunkProps b >>= _))
        cases chunkProps b with
        | error e => exact stop e
        | ok props =>
          exact .next ⟨Config.wordReset, vd, vu, props, dict.cap, vb, vo⟩
            ⟨fun h => absurd rfl h, hv.pendDist, hv.unpackRemaining, fun _ => rfl, hv.dictCap⟩ rfl

/-! ## Every step -/

/-- No step of a well-kept state reads a register that holds no value. -/
theorem step_unset {s : State} (h : s.Inv) {v : Unset} (hv : v.For s) : SameButUnset (step s) (step (s.given v)) := by
  unfold step stepBlock
  cases ha : s.activity with
  | idle =>
    obtain ⟨params, ⟨cmds, ret, out⟩, act, ctl, cfg, lzma, dict, framer, bcj⟩ := s
    cases ha
    cases cmds with
    | nil => exact .next v hv rfl
    | cons cmd rest =>
      exact step_unset_idle (s := ⟨params, ⟨rest, ret, out⟩, .idle, ctl, cfg, lzma, dict, framer, bcj⟩) rfl
        ⟨hv.code, hv.pendDist, hv.unpackRemaining, hv.props, hv.dictCap⟩ cmd
  | merging j =>
    have e : (s.given v).activity = .merging { j with saved := j.saved.given v } := by
      simp [State.given, State.givenBcj, ha]
    simp only [e]
    exact step_unset_merging ha hv
  | decoding c =>
    simp only [given_activity ha v, show (s.given v).ctl = s.ctl from rfl]
    obtain ⟨-, -, hn⟩ := h.decoding ha
    cases hm : s.ctl.mode with
    | unconfigured => exact rfl
    | lzma1 =>
      have hmode : s.ctl.mode ≠ .unconfigured := by rw [hm]; nofun
      have hturn := lzma1Step_unset ha hn hv hmode (hv.props (.inl hm))
      simp only [stepLzma1]
      cases ht : lzma1Step s c <;> cases ht' : lzma1Step (s.given v) c <;> rw [ht, ht'] at hturn
      · exact hturn
      · exact hturn.elim
      · exact hturn.elim
      · have hcode := hv.code fun h => by simp [lzma1Step, h] at ht
        obtain ⟨params, host, act, ctl, cfg, lzma, dict, framer, bcj⟩ := s
        cases ha
        exact .next v ⟨fun _ => hcode, hv.pendDist, hv.unpackRemaining, hv.props, hv.dictCap⟩ rfl
    | lzma2 =>
      have hmode : s.ctl.mode ≠ .unconfigured := by rw [hm]; nofun
      have hk := h.lzma2 hm
      have chunkTurn (h0 : s.framer.needInitLevel = 0x00) : SameButUnset
          (match lzma1Step s c with | .stepped o => mapNext markLzmaData o | .done => endLzmaChunk s)
          (match lzma1Step (s.given v) c with
            | .stepped o => mapNext markLzmaData o | .done => endLzmaChunk (s.given v)) := by
        have hturn := lzma1Step_unset ha hn hv hmode (hv.props (.inr ⟨hm, h0⟩))
        cases ht : lzma1Step s c <;> cases ht' : lzma1Step (s.given v) c <;> rw [ht, ht'] at hturn
        · exact hturn.mark
        · exact hturn.elim
        · exact hturn.elim
        · exact endLzmaChunk_unset ha hn hv
      simp only [stepLzma2, show (s.given v).framer = s.framer from rfl]
      cases hp : s.framer.l2Phase with
      | finished => exact endCall_unset ha hv _ _ _
      | control => exact headerStep_unset ha hn hv hm hk
      | copyData => exact copyChunkStep_unset ha hn hv hmode
      | lzmaInit => exact chunkTurn (hk.inChunk (.inl hp))
      | lzmaData => exact chunkTurn (hk.inChunk (.inr hp))

end Sys2Proof.Machine
end

