-- ==== Sys2Proof/Tests/Slice0.lean ====
section
/-! SUPPORT. Tests of the model: well-formedness refuses each kind of ill-formed term, every constructor's decoding
is shown by a word written out from 30_encoding.md, and each instruction runs one step. Expected results are those of
95_test_vectors.md where a test names a vector, else hand calculation from the rules. -/

namespace Sys2Proof.Tests

open Sys2Proof Sys2Proof.Machine

/-! ## Well-formedness (WellFormed.lean) -/

theorem test_wf_match_distance_zero : (Instr.matchNew 0 2).wellFormed = false := by decide
theorem test_wf_match_distance_beyond : (Instr.matchNew (2 ^ 32 + 1) 2).wellFormed = false := by decide
theorem test_wf_match_length_one : (Instr.matchNew 1 1).wellFormed = false := by decide
theorem test_wf_match_length_274 : (Instr.matchNew 1 274).wellFormed = false := by decide
theorem test_wf_rep_lengths : (Instr.rep0 1).wellFormed = false ∧ (Instr.rep1 274).wellFormed = false ∧
    (Instr.rep2 0).wellFormed = false ∧ (Instr.rep3 1).wellFormed = false := by decide
theorem test_wf_reserved_controls : (Instr.l2Reserved 0x02).wellFormed = false ∧
    (Instr.l2Reserved 0x80).wellFormed = false ∧ (Instr.l2Reserved 0x7F).wellFormed = true := by decide
theorem test_wf_plain_is_no_branch : (Instr.bcj2Plain 0 0xE8).wellFormed = false ∧
    (Instr.bcj2Plain 0 0xE9).wellFormed = false ∧ (Instr.bcj2Plain 0x0F 0x8F).wellFormed = false ∧
    (Instr.bcj2Plain 0x0E 0x8F).wellFormed = true := by decide

/-! ## Decoding: words written out from R125 to R136 -/

/-- `0`, then the literal's eight bits: 0x61 is 0110 0001. -/
theorem test_decode_lit :
    decode (.decisions [false, false, true, true, false, false, false, false, true]) = some (.lit 0x61) := by decide

/-- `10`, length 12 = mid branch `10` with symbol 2 `010`, then distance 201: slot 15 = `001111`, base 0xC0, `v` = 200 =
0xC0 + 8, so two direct bits `00` and align 8, least significant bit first `0001`. -/
theorem test_decode_match : decode (.decisions
    [true, false, true, false, false, true, false, false, false, true, true, true, true, false, false,
      false, false, false, true]) = some (.matchNew 201 12) := by decide

/-- `1100`; `1101` with length 273 = high branch `11` with symbol 255. -/
theorem test_decode_shortrep_rep0 :
    decode (.decisions [true, true, false, false]) = some .shortRep ∧
    decode (.decisions [true, true, false, true, true, true, true, true, true, true, true, true, true, true])
      = some (.rep0 273) := by decide

/-- `1110`, `11110`, `11111`, each with length 9 = low branch `0` with symbol 7. -/
theorem test_decode_rep1_rep2_rep3 :
    decode (.decisions [true, true, true, false, false, true, true, true]) = some (.rep1 9) ∧
    decode (.decisions [true, true, true, true, false, false, true, true, true]) = some (.rep2 9) ∧
    decode (.decisions [true, true, true, true, true, false, true, true, true]) = some (.rep3 9) := by decide

theorem test_decode_l2_plain_headers :
    decode (.bytes [0x00]) = some .l2End ∧
    decode (.bytes [0x01, 0x12, 0x34]) = some (.l2CopyReset 0x1234) ∧
    decode (.bytes [0x02, 0xFF, 0xFE]) = some (.l2Copy 0xFFFE) ∧
    decode (.bytes [0x03]) = some (.l2Reserved 0x03) ∧
    decode (.bytes [0x7F]) = some (.l2Reserved 0x7F) := by decide

/-- Control `1 mode U[20:16]`, then `U[15:0]` and `P`, most significant byte first. -/
theorem test_decode_l2_lzma_headers :
    decode (.bytes [0x9F, 0x00, 0x01, 0x00, 0x02]) = some (.l2LzmaM0 0x1F0001 0x0002) ∧
    decode (.bytes [0xA1, 0x23, 0x45, 0x67, 0x89]) = some (.l2LzmaM1 0x12345 0x6789) ∧
    decode (.bytes [0xC0, 0x00, 0x05, 0x00, 0x06, 0x5D]) = some (.l2LzmaM2 5 6 0x5D) ∧
    decode (.bytes [0xFF, 0xFF, 0xFF, 0xFF, 0xFF, 0x00]) = some (.l2LzmaM3 0x1FFFFF 0xFFFF 0x00) ∧
    decode (.bytes [0xC0, 0x00, 0x05, 0x00, 0x06]) = none := by decide

theorem test_decode_bcj2_pairs :
    decode (.pair 0x90 0xE8) = some (.bcj2Call 0x90) ∧ decode (.pair 0x0F 0xE9) = some (.bcj2Jmp 0x0F) ∧
    decode (.pair 0x0F 0x8C) = some (.bcj2Jcc 0xC) ∧ decode (.pair 0x0E 0x8C) = some (.bcj2Plain 0x0E 0x8C) := by decide

theorem test_decode_commands :
    decode (.command .reset) = some .reset ∧
    decode (.command (.configLzma1Raw [0x5D, 0, 0, 1, 0] 7)) = some (.configLzma1Raw [0x5D, 0, 0, 1, 0] 7) ∧
    decode (.command (.configLzma1Alone (Vector.replicate 13 0)))
      = some (.configLzma1Alone (Vector.replicate 13 0)) ∧
    decode (.command (.configLzma2 0x18)) = some (.configLzma2 0x18) ∧
    decode (.command (.decode [1] 2)) = some (.decode [1] 2) ∧
    decode (.command (.bcj2Run [1] [2] [3] [4] 5)) = some (.bcj2Run [1] [2] [3] [4] 5) := by decide

/-- Words as the opcode table numbers them: a control byte is the first byte, a BCJ2 pair is `(prev << 8) | b`. -/
theorem test_decode_table_words :
    decodeTableWord 8 0x01 = some (.l2CopyReset 0) ∧ decodeTableWord 8 0xE0 = some (.l2LzmaM3 0 0 0) ∧
    decodeTableWord 8 0xE8 = some (.bcj2Call 0) ∧ decodeTableWord 16 0x0F85 = some (.bcj2Jcc 5) := by decide

/-! ## Small states -/

def call0 (input : List Byte) (outSpace : Nat) : Call :=
  { input := input, outSpace := outSpace, consumed := 0, produced := 0, noted := none }

/-- A ring of 4096 bytes with these bytes written. -/
def ring (bs : List Byte) : Dict :=
  bs.foldl Dict.after { cap := 4096, writePos := 0, totalWritten := 0, ram := [] }

/-- An LZMA1 stream (`lc = 3, lp = 0, pb = 2`) past its initialisation, no call in progress. -/
def lz1Idle (bs : List Byte) (remaining : U64) (code : Word) : State :=
  { State.reset with
    ctl := .start .lzma1
    cfg := { State.reset.cfg with props := { lc := 3, lp := 0, pb := 2 } }
    dict := ring bs
    lzma := { State.reset.lzma with
      code := code, unpackRemaining := remaining, l1Phase := .packets, rep1 := 2, rep2 := 3, rep3 := 4 } }

/-- The same with a call in progress, 300 bytes of output space. -/
def lz1 (bs : List Byte) (remaining : U64) (code : Word) (input : List Byte) : State :=
  { lz1Idle bs remaining code with activity := .decoding (call0 input 300) }

/-- The same with a copy pending. -/
def copying (bs : List Byte) (len : BitVec 9) (dist : Word) : State :=
  { lz1 bs 500 0 [] with
    lzma := { (lz1 bs 500 0 []).lzma with pendLen := len, pendDist := dist } }

/-- An LZMA2 stream at a chunk header, `NeedInitLevel` as given. -/
def lz2 (level : Byte) (input : List Byte) : State :=
  { State.reset with
    ctl := .start .lzma2
    cfg := { State.reset.cfg with props := { lc := 3, lp := 0, pb := 2 } }
    dict := ring [0x41]
    lzma := { State.reset.lzma with rep0 := 7 }
    framer := { Framer.start with needInitLevel := level }
    activity := .decoding (call0 input 300) }

/-- An LZMA2 stream within an uncompressed chunk of which `left` bytes are due. -/
def lz2Copy (left : BitVec 17) (input : List Byte) (outSpace : Nat) : State :=
  { lz2 0xC0 [] with
    framer := { Framer.start with needInitLevel := 0xC0, l2Phase := .copyData, copyRemaining := left }
    activity := .decoding (call0 input outSpace) }

/-- An LZMA2 stream within the packets of an LZMA chunk. -/
def lz2Data (unpack : BitVec 22) (pack : BitVec 17) (input : List Byte) : State :=
  { lz2 0x00 [] with
    lzma := { State.reset.lzma with code := 0x30C00000, l1Phase := .packets }
    framer := { Framer.start with
      needInitLevel := 0x00, l2Phase := .lzmaData, chunkUnpackRemaining := unpack, chunkPackRemaining := pack }
    activity := .decoding (call0 input 300) }

/-- A BCJ2 run after its initialisation, the output byte `prev` being the last of `outPos`. -/
def merging (main call jump : List Byte) (code : Word) (prev : Byte) (outPos outSize : Word) : State :=
  { State.reset with
    activity := .merging
      { main := main, call := call, jump := jump, rc := [0, 0, 0, 0, 0], outSize := outSize, prev := prev,
        out := List.replicate outPos.toNat prev, saved := Bcj2Regs.initial }
    bcj := { Bcj2Regs.initial with code := code, rcPos := 5, outPos := outPos, outSize := outSize } }

/-- What a next state is asked. -/
def holds (o : Host.Outcome State Fault Refusal) (p : State → Bool) : Bool :=
  match o with
  | .next t => p t
  | .fault _ => false
  | .refused _ => false

/-! ## One step each: packets -/

/-- Bits `0 0110 0001`, the first byte of vector 4.1's stream: 'a' is emitted and written, one byte is taken. -/
theorem test_lit : holds (step (lz1 [] 1 0x307FFC00 [0x00])) (fun t =>
    t.host.out == [0x61] && t.dict.read 0 == some 0x61 && t.lzma.unpackRemaining == 0 &&
    t.lzma.range == 0x80000000 && t.ctl.inTotal == 1) = true := by decide

/-- Vector 5.1: 0x60 in matched mode against 0x61; the last bit is read with the cell 688 of context 3. -/
theorem test_lit_matched :
    holds (step { lz1 [0x61, 0x61, 0x61] 1 0x30400000 [0x00] with
      lzma := { (lz1 [0x61, 0x61, 0x61] 1 0x30400000 []).lzma with lzState := 7 } }) (fun t =>
    t.host.out == [0x60] && t.lzma.lzState == 4 &&
    t.lzma.probs.read (cellKey (.literal 3 257)) == 1056 && t.lzma.probs.read (cellKey (.literal 3 514)) == 992 &&
    t.lzma.probs.read (cellKey (.literal 3 688)) == 1056) = true := by decide

/-- Bits `10`, length 3 `0 001`, slot 0: distance 1 is pushed before the old rep distances. -/
theorem test_match : holds (step (lz1 [0x61] 9 0x84080000 [0x00, 0x00])) (fun t =>
    t.lzma.rep0 == 1 && t.lzma.rep1 == 1 && t.lzma.rep2 == 2 && t.lzma.rep3 == 3 && t.lzma.lzState == 7 &&
    t.lzma.pendLen == 3 && t.lzma.pendDist == 1 && t.host.out == []) = true := by decide

/-- Vector 7.3: a length beyond what remains is `MatchPastEnd`, and the packet is rolled back. -/
theorem test_match_past_end : holds (step (lz1 [0x61] 2 0x84080000 [0x00, 0x00])) (fun t =>
    t.host.ret == some { status := .invalidData, cause := some .matchPastEnd, consumed := .bytes 0, produced := 0 } &&
    t.lzma == (lz1 [0x61] 2 0x84080000 []).lzma && t.ctl.errorLatched) = true := by decide

/-- Bits `1100`. -/
theorem test_shortrep : holds (step (lz1 [0x61] 9 0xC8000000 [])) (fun t =>
    t.lzma.pendLen == 1 && t.lzma.pendDist == 1 && t.lzma.lzState == 9) = true := by decide

/-- Vector 7.2: nothing written yet, so distance 1 is out of reach. -/
theorem test_shortrep_out_of_reach : holds (step (lz1 [] 9 0xC8000000 [])) (fun t =>
    t.ctl.status == .invalidData && t.ctl.cause == some .invalidDistance && t.ctl.errorLatched) = true := by decide

/-- Bits `1101`, length 3 `0 001`. -/
theorem test_rep0 : holds (step (lz1 [0x61] 9 0xD1800000 [0x00])) (fun t =>
    t.lzma.pendLen == 3 && t.lzma.pendDist == 1 && t.lzma.lzState == 8 && t.lzma.rep1 == 2) = true := by decide

/-- Bits `1110`, length 2 `0 000`: (1,2,3,4) becomes (2,1,3,4). -/
theorem test_rep1 : holds (step (lz1 [1, 2, 3, 4] 9 0xE0800000 [0x00])) (fun t =>
    t.lzma.pendLen == 2 && t.lzma.pendDist == 2 && t.lzma.rep0 == 2 && t.lzma.rep1 == 1 &&
    t.lzma.rep2 == 3 && t.lzma.rep3 == 4) = true := by decide

/-- Bits `11110`, length 2: (1,2,3,4) becomes (3,1,2,4). -/
theorem test_rep2 : holds (step (lz1 [1, 2, 3, 4] 9 0xF0400000 [0x00])) (fun t =>
    t.lzma.pendDist == 3 && t.lzma.rep0 == 3 && t.lzma.rep1 == 1 && t.lzma.rep2 == 2 &&
    t.lzma.rep3 == 4) = true := by decide

/-- Bits `11111`, length 2: (1,2,3,4) becomes (4,1,2,3). -/
theorem test_rep3 : holds (step (lz1 [1, 2, 3, 4] 9 0xF8400000 [0x00])) (fun t =>
    t.lzma.pendDist == 4 && t.lzma.rep0 == 4 && t.lzma.rep1 == 1 && t.lzma.rep2 == 2 &&
    t.lzma.rep3 == 3) = true := by decide

/-- One byte of a pending copy at distance 2. -/
theorem test_copy_byte : holds (step (copying [0x61, 0x62] 3 2)) (fun t =>
    t.host.out == [0x61] && t.lzma.pendLen == 2 && t.dict.read 2 == some 0x61 &&
    t.dict.totalWritten == 3) = true := by decide

/-! ## One step each: chunks -/

/-- Vectors 8.1 and 8.7: sizes are `n + 1`; 0x02 before a dictionary reset is refused. -/
theorem test_l2_copy_reset : holds (step (lz2 0xE0 [0x01, 0x00, 0x04, 0x68])) (fun t =>
    t.framer.copyRemaining == 5 && t.framer.l2Phase == .copyData && t.framer.needInitLevel == 0xC0 &&
    t.dict.totalWritten == 0 && t.ctl.inTotal == 3) = true := by decide
theorem test_l2_copy_before_reset : holds (step (lz2 0xE0 [0x02, 0x00, 0x00])) (fun t =>
    t.ctl.cause == some .resetRequired && t.ctl.inTotal == 0) = true := by decide
theorem test_l2_copy : holds (step (lz2 0xC0 [0x02, 0xFF, 0xFF])) (fun t =>
    t.framer.copyRemaining == 65536 && t.dict.totalWritten == 1 && t.framer.needInitLevel == 0xC0) = true := by decide
theorem test_l2_end : holds (step (lz2 0xC0 [0x00])) (fun t =>
    t.framer.l2Phase == .finished && t.ctl.inTotal == 1) = true := by decide

/-- Vector 8.5. -/
theorem test_l2_reserved : holds (step (lz2 0xC0 [0x03, 0x00])) (fun t =>
    t.host.ret == some { status := .invalidData, cause := some .badControl, consumed := .bytes 0, produced := 0 } &&
    t.ctl.errorLatched) = true := by decide
theorem test_l2_lzma_m0 : holds (step (lz2 0x00 [0x80, 0x00, 0x02, 0x00, 0x06])) (fun t =>
    t.framer.chunkUnpackRemaining == 3 && t.framer.chunkPackRemaining == 7 && t.framer.l2Phase == .lzmaInit &&
    t.lzma.rep0 == 7 && t.lzma.code == 0) = true := by decide

/-- Vector 8.8: mode 1 where `NeedInitLevel` is still 0xC0. -/
theorem test_l2_lzma_m1_reset_required : holds (step (lz2 0xC0 [0xA0, 0x00, 0x00, 0x00, 0x04])) (fun t =>
    t.ctl.cause == some .resetRequired && t.lzma.rep0 == 7) = true := by decide
theorem test_l2_lzma_m1 : holds (step (lz2 0x00 [0xA0, 0x00, 0x00, 0x00, 0x04])) (fun t =>
    t.lzma.rep0 == 1 && t.framer.chunkUnpackRemaining == 1) = true := by decide

/-- Properties 0x00 is `lc = lp = pb = 0`. -/
theorem test_l2_lzma_m2 : holds (step (lz2 0xC0 [0xC0, 0x00, 0x05, 0x00, 0x06, 0x00])) (fun t =>
    t.cfg.props == { lc := 0, lp := 0, pb := 0 } && t.dict.totalWritten == 1 && t.lzma.rep0 == 1 &&
    t.framer.needInitLevel == 0x00) = true := by decide

/-- Vector 8.12. -/
theorem test_l2_lzma_m3_bad_props : holds (step (lz2 0xE0 [0xE0, 0x00, 0x00, 0x00, 0x04, 0xE1])) (fun t =>
    t.ctl.cause == some .badProps && t.ctl.inTotal == 0 && t.dict.totalWritten == 1) = true := by decide
theorem test_l2_lzma_m3 : holds (step (lz2 0xE0 [0xE0, 0x00, 0x05, 0x00, 0x07, 0x5D])) (fun t =>
    t.dict.totalWritten == 0 && t.framer.chunkPackRemaining == 8 && t.framer.control == 0xE0) = true := by decide

/-! ## One step each: BCJ2 tokens -/

/-- Vector 9.1, first decision: `dest = 0x1000 − (2 + 4)`, cell 0x90. -/
theorem test_bcj2_call : holds (step (merging [0xE8] [0x00, 0x00, 0x10, 0x00] [] 0x9FFFFC00 0x90 1 19)) (fun t =>
    (match t.activity with
      | .merging j => j.out == [0x90, 0xE8, 0xFA, 0x0F, 0x00, 0x00] && j.prev == 0x00
      | _ => false) &&
    t.bcj.probs == [(0x90, 992)] && t.bcj.callPos == 4 && t.bcj.outPos == 6) = true := by decide

/-- Vector 9.3: bit 0 in cell 0, the opcode is copied. -/
theorem test_bcj2_call_bit_zero : holds (step (merging [0xE8] [] [] 0 0x00 0 2)) (fun t =>
    (match t.activity with
      | .merging j => j.out == [0xE8] && j.prev == 0xE8
      | _ => false) && t.bcj.probs == [(0, 1056)] && t.bcj.callPos == 0) = true := by decide

/-- Vector 9.4: cell 256, the displacement cut to the end of the output. -/
theorem test_bcj2_jmp : holds (step (merging [0xE9] [] [0x00, 0x00, 0x00, 0x10] 0x9FFFFC00 0x00 0 3)) (fun t =>
    (match t.activity with
      | .merging j => j.out == [0xE9, 0x0B, 0x00]
      | _ => false) && t.bcj.probs == [(256, 992)] && t.bcj.jumpPos == 4 && t.bcj.outPos == 3) = true := by decide

/-- Vector 9.1, third decision: `dest = 0x20 − (14 + 4)`, cell 257. -/
theorem test_bcj2_jcc :
    holds (step (merging [0x85] [] [0x00, 0x00, 0x00, 0x20] 0x9FFFFC00 0x0F 13 19)) (fun t =>
    (match t.activity with
      | .merging j => j.out.drop 13 == [0x85, 0x0E, 0x00, 0x00, 0x00]
      | _ => false) && t.bcj.probs == [(257, 992)] && t.bcj.jumpPos == 4) = true := by decide
theorem test_bcj2_plain : holds (step (merging [0x85] [] [] 0x9FFFFC00 0x0E 1 19)) (fun t =>
    (match t.activity with
      | .merging j => j.out == [0x0E, 0x85] && j.prev == 0x85
      | _ => false) && t.bcj.probs == [] && t.bcj.mainPos == 1) = true := by decide

/-! ## One step each: commands -/

theorem test_reset : exec .reset { lz1Idle [1, 2] 9 0 with host := { cmds := [], ret := none, out := [7] } } =
    .next { State.reset with
      host := { cmds := [], ret := some { status := .ok, cause := none, consumed := .bytes 0, produced := 0 },
                out := [] } } := rfl

/-- Program 10.1's set-up: 5D is `lc = 3, lp = 0, pb = 2`; 00 00 01 00 is 65536. -/
theorem test_config_raw : holds (exec (.configLzma1Raw [0x5D, 0x00, 0x00, 0x01, 0x00] 7) State.reset) (fun t =>
    t.ctl.mode == .lzma1 && t.cfg.props == { lc := 3, lp := 0, pb := 2 } && t.dict.cap == 65536 &&
    t.lzma.unpackRemaining == 7) = true := by decide

/-- Vector 7.7. -/
theorem test_config_raw_bad_props : holds (exec (.configLzma1Raw [0x5D, 0x00, 0x00, 0x01] 7) State.reset) (fun t =>
    t.host.ret == some { status := .invalidData, cause := some .badProps, consumed := .bytes 0, produced := 0 } &&
    t.ctl.mode == .unconfigured && t.ctl.status == .ok) = true := by decide

/-- Vector 7.6. -/
theorem test_config_alone_unknown_size :
    holds (exec (.configLzma1Alone #v[0x5D, 0x00, 0x00, 0x01, 0x00, 0xFF, 0xFF, 0xFF, 0xFF, 0xFF, 0xFF, 0xFF, 0xFF])
      State.reset) (fun t =>
    t.host.ret == some { status := .notSupported, cause := some .unknownSize, consumed := .bytes 0, produced := 0 } &&
    t.ctl.mode == .unconfigured) = true := by decide
theorem test_config_alone :
    holds (exec (.configLzma1Alone #v[0x5D, 0x00, 0x00, 0x01, 0x00, 0x02, 0x01, 0, 0, 0, 0, 0, 0]) State.reset) (fun t =>
    t.dict.cap == 65536 && t.lzma.unpackRemaining == 0x102 && t.ctl.mode == .lzma1) = true := by decide

/-- The table of 95_test_vectors.md §8: 0x01 is 6144; 0x29 is refused. -/
theorem test_config_lzma2 : holds (exec (.configLzma2 0x01) State.reset) (fun t =>
    t.ctl.mode == .lzma2 && t.dict.cap == 6144 && t.framer.needInitLevel == 0xE0) = true := by decide
theorem test_config_lzma2_bad : holds (exec (.configLzma2 0x29) State.reset) (fun t =>
    t.ctl.mode == .unconfigured && t.dict.cap == 4096) = true := by decide

/-- Vector 7.5: nothing is latched. -/
theorem test_decode_unconfigured : holds (exec (.decode [0x00] 9) State.reset) (fun t =>
    t.host.ret == some { status := .internalError, cause := some .notConfigured, consumed := .bytes 0, produced := 0 } &&
    !t.ctl.errorLatched) = true := by decide
theorem test_decode_begins : holds (exec (.decode [0x01] 9) (lz1Idle [] 5 0)) (fun t =>
    t.activity == .decoding (call0 [0x01] 9)) = true := by decide

/-- Vector 9.1: `BCode` is bytes 1 to 4 of `rc`, most significant first. -/
theorem test_bcj2_run : holds (exec (.bcj2Run [0x90] [] [] [0x00, 0x9F, 0xFF, 0xFC, 0x00] 1) State.reset) (fun t =>
    t.bcj.code == 0x9FFFFC00 && t.bcj.rcPos == 5 && t.bcj.outSize == 1) = true := by decide

/-- Vector 9.7: four bytes of `rc`. -/
theorem test_bcj2_run_truncated : holds (exec (.bcj2Run [0x90] [] [] [0x00, 0x9F, 0xFF, 0xFC] 1) State.reset) (fun t =>
    t.host.ret == some { status := .invalidData, cause := some .bcj2Truncated, consumed := .streams 0 0 0 0,
                         produced := 0 } && t.bcj == State.reset.bcj && t.activity == .idle) = true := by decide

/-- A word of the opcode table, placed, is what the next step runs (log entry 17). -/
theorem test_fetch_word : step (State.reset.withFetchWord 8 0x01) =
    exec (.l2CopyReset 0) ((State.reset.withFetchWord 8 0x01).take (call0 [1, 0, 0, 0, 0, 0] 0) [0, 0, 0]) ∧
    step (State.reset.withFetchWord 16 0x0F85) = exec (.bcj2Jcc 5) (State.reset.withFetchWord 16 0x0F85) :=
  ⟨rfl, rfl⟩

/-! ## Witnesses: concrete states and operands that meet the hypotheses of each statement of Obligations.lean -/

theorem fold_after_kept (bs : List Byte) (d : Dict) (dm : Word) (h : d.Kept dm) : (bs.foldl Dict.after d).Kept dm := by
  induction bs generalizing d with
  | nil => exact h
  | cons b t ih => exact ih _ (h.after b)

theorem fold_after_wf (bs : List Byte) (d : Dict) (h : Memory.wf d.ram = true) :
    Memory.wf (bs.foldl Dict.after d).ram = true := by
  induction bs generalizing d with
  | nil => exact h
  | cons b t ih => exact ih _ (Memory.wf_set h _ _)

theorem ring_wf (bs : List Byte) : Memory.wf (ring bs).ram = true := fold_after_wf bs _ rfl

theorem ring_kept (bs : List Byte) : (ring bs).Kept 0xFFFFFFFF := by
  refine fold_after_kept bs _ _ ⟨by decide, by decide, by decide, by simp, ?_⟩
  intro dist hd hd'
  have h0 : (0 : U64).toNat = 0 := rfl
  simp only [Dict.reach] at hd'
  omega

/-- A state whose dictionary is a ring meets the invariant when its other parts do. -/
theorem inv_of_ring {s : State} {bs : List Byte} (hp : s.params.dictMax = 0xFFFFFFFF) (hd : s.dict = ring bs)
    (hprobs : Probs.kept s.lzma.probs = true) (hrange : Config.rangeTop ≤ s.lzma.range.toNat)
    (hreps : 1 ≤ s.lzma.rep0.toNat ∧ 1 ≤ s.lzma.rep1.toNat ∧ 1 ≤ s.lzma.rep2.toNat ∧ 1 ≤ s.lzma.rep3.toNat)
    (hlen : s.lzma.pendLen.toNat ≤ Config.matchMaxLen)
    (hdist : s.lzma.pendLen ≠ 0 → s.lzma.l1Phase = .packets)
    (h1 : s.ctl.mode = .lzma1 → s.Lzma1Kept) (h2 : s.ctl.mode = .lzma2 → s.Lzma2Kept)
    (hl : s.ctl.errorLatched = false) (hb : s.bcj = Bcj2Regs.initial) (ha : s.ActivityKept) : s.Inv where
  dictMax := by rw [hp]; decide
  probs := hprobs
  range := hrange
  rep0 := hreps.1
  rep1 := hreps.2.1
  rep2 := hreps.2.2.1
  rep3 := hreps.2.2.2
  pendLen := hlen
  pendDist := hdist
  ram := by rw [hd]; exact ring_wf bs
  dict := by rw [hd, hp]; exact ring_kept bs
  lzma1 := h1
  lzma2 := h2
  latched := fun h => by rw [hl] at h; cases h
  bcj := by rw [hb]; exact ⟨rfl, by decide⟩
  activity := ha

theorem range_init : Config.rangeTop ≤ Config.rangeInit.toNat := by decide

theorem reps_1234 : 1 ≤ (1 : Word).toNat ∧ 1 ≤ (2 : Word).toNat ∧ 1 ≤ (3 : Word).toNat ∧ 1 ≤ (4 : Word).toNat := by
  decide

theorem reps_7111 : 1 ≤ (7 : Word).toNat ∧ 1 ≤ (1 : Word).toNat ∧ 1 ≤ (1 : Word).toNat ∧ 1 ≤ (1 : Word).toNat := by
  decide

theorem witness_lz1Idle_inv (bs : List Byte) (remaining : U64) (code : Word) : (lz1Idle bs remaining code).Inv :=
  inv_of_ring rfl rfl rfl range_init reps_1234 (Nat.zero_le _) (fun h => absurd rfl h)
    (fun _ => ⟨Nat.zero_le _⟩) (fun h => by cases h) rfl rfl trivial

theorem witness_lz1_inv (bs : List Byte) (remaining : U64) (code : Word) (input : List Byte) :
    (lz1 bs remaining code input).Inv :=
  inv_of_ring rfl rfl rfl range_init reps_1234 (Nat.zero_le _) (fun h => absurd rfl h)
    (fun _ => ⟨Nat.zero_le _⟩) (fun h => by cases h) rfl rfl
    ⟨(fun h => by cases h), rfl, rfl⟩

theorem witness_copying_inv : (copying [0x61, 0x62] 273 2).Inv :=
  inv_of_ring (bs := [0x61, 0x62]) rfl rfl rfl (by decide) (by decide) (by decide) (fun _ => rfl)
    (fun _ => ⟨by decide⟩) (fun h => by cases h) rfl rfl
    ⟨by decide, rfl, rfl⟩

theorem witness_lz2_inv (input : List Byte) : (lz2 0xC0 input).Inv :=
  inv_of_ring (bs := [0x41]) rfl rfl rfl range_init reps_7111 (Nat.zero_le _) (fun h => absurd rfl h)
    (fun h => by cases h)
    (fun _ => {
      level := .inr (.inl rfl), between := fun _ => ⟨rfl, rfl⟩, inChunk := fun h => by rcases h with h | h <;> cases h
      inPackets := fun h => by cases h
      copying := fun h => by cases h
      pend := Nat.zero_le _, unpackMax := Nat.zero_le _, packMax := Nat.zero_le _, copyMax := Nat.zero_le _ })
    rfl rfl ⟨(fun h => by cases h), rfl, rfl⟩

theorem witness_lz2Copy_inv : (lz2Copy 65536 [] 0).Inv :=
  inv_of_ring (bs := [0x41]) rfl rfl rfl range_init reps_7111 (Nat.zero_le _) (fun h => absurd rfl h)
    (fun h => by cases h)
    (fun _ => {
      level := .inr (.inl rfl), between := fun _ => ⟨rfl, rfl⟩, inChunk := fun h => by rcases h with h | h <;> cases h
      inPackets := fun h => by cases h
      copying := fun _ => by decide
      pend := Nat.zero_le _, unpackMax := Nat.zero_le _, packMax := Nat.zero_le _, copyMax := by decide })
    rfl rfl ⟨(fun h => by cases h), rfl, rfl⟩

theorem witness_lz2Data_inv : (lz2Data (2 ^ 21) (2 ^ 16) [0x00]).Inv :=
  inv_of_ring (bs := [0x41]) rfl rfl rfl range_init (by decide) (Nat.zero_le _) (fun h => absurd rfl h)
    (fun h => by cases h)
    (fun _ => {
      level := .inl rfl, between := fun h => absurd rfl h, inChunk := fun _ => rfl
      inPackets := fun _ => rfl
      copying := fun h => by cases h
      pend := Nat.zero_le _, unpackMax := by decide, packMax := by decide, copyMax := Nat.zero_le _ })
    rfl rfl ⟨(fun h => by cases h), rfl, rfl⟩

/-- A run of three output bytes, one done. -/
def run3 : State := merging [0x90, 0x90] [] [] 0 0x90 1 3

theorem witness_run3_inv : run3.Inv where
  dictMax := by decide
  probs := rfl
  range := by decide
  rep0 := by decide
  rep1 := by decide
  rep2 := by decide
  rep3 := by decide
  pendLen := by decide
  pendDist := fun h => absurd rfl h
  ram := rfl
  dict := ⟨by decide, by decide, by decide, by simp [run3, merging, State.reset], fun dist h0 h1 => by
    have : dist ≤ 0 := Nat.le_trans h1 (Nat.min_le_left _ _)
    omega⟩
  lzma1 := fun h => by cases h
  lzma2 := fun h => by cases h
  latched := fun h => by cases h
  bcj := ⟨rfl, by decide⟩
  activity := ⟨rfl, by decide, by decide, rfl, by decide⟩

/-! ### Encodings, cells, range decoder -/

theorem witness_DecodeOfEncodeIsTheUnit : (Instr.matchNew (2 ^ 32) 273).wellFormed = true ∧
    (Instr.matchNew 1 2).wellFormed = true ∧ (Instr.l2Reserved 0x7F).wellFormed = true ∧
    (Instr.bcj2Plain 0x0F 0x7F).wellFormed = true := by decide

theorem witness_EncodeOfDecodeIsTheEncoding :
    decode (.bytes [0xFF, 0xFF, 0xFF, 0xFF, 0xFF, 0xFF]) = some (.l2LzmaM3 0x1FFFFF 0xFFFF 0xFF) ∧
    decode (.pair 0x0F 0x8F) = some (.bcj2Jcc 0xF) ∧
    decode (.decisions [true, true, false, false]) = some .shortRep := by decide

/-- The control bytes at which the header length changes, each one byte short and whole. -/
theorem witness_ControlByteTellsHeaderLength :
    decodeHeader [0x00] = some (.l2End, []) ∧ decodeHeader [0x01, 0] = none ∧
    decodeHeader [0x02, 0, 0] = some (.l2Copy 0, []) ∧ decodeHeader [0x03] = some (.l2Reserved 0x03, []) ∧
    decodeHeader [0x7F] = some (.l2Reserved 0x7F, []) ∧ decodeHeader [0x80, 0, 0, 0] = none ∧
    decodeHeader [0x80, 0, 0, 0, 0] = some (.l2LzmaM0 0 0, []) ∧
    decodeHeader [0xBF, 0, 0, 0, 0] = some (.l2LzmaM1 0x1F0000 0, []) ∧ decodeHeader [0xC0, 0, 0, 0, 0] = none ∧
    decodeHeader [0xC0, 0, 0, 0, 0, 0] = some (.l2LzmaM2 0 0 0, []) := by decide

theorem witness_PropsByteIsABijection :
    decodeProps 224 = some { lc := 8, lp := 4, pb := 4 } ∧ decodeProps 0 = some { lc := 0, lp := 0, pb := 0 } ∧
    decodeProps 225 = none := by decide

theorem witness_DictPropFollowsItsFormula : decodeDictProp 39 = some 0xC0000000 ∧
    decodeDictProp 40 = some 0xFFFFFFFF ∧ decodeDictProp 41 = none ∧ decodeDictProp 0 = some 4096 := by decide

/-- A literal state; a state past a match, with its match byte; the same with `Rep0` out of reach. -/
theorem witness_PacketNamesOnlyCellsOfTheRam :
    (lz1 [0xFF] 9 0 []).packetCtx = { st := 0, ps := 1, lit := some { ctx := 7, matchByte := none } } ∧
    ({ lz1 [0x40, 0xFF] 9 0 [] with
      lzma := { (lz1 [] 9 0 []).lzma with lzState := 7, rep0 := 2 } } : State).packetCtx
        = { st := 7, ps := 2, lit := some { ctx := 7, matchByte := some 0x40 } } ∧
    (({ lz1 [0xFF] 9 0 [] with lzma := { (lz1 [] 9 0 []).lzma with lzState := 11, rep0 := 2 } } : State).packetCtx.lit
        = none ∧ (ring [0xFF]).Kept 0xFFFFFFFF) ∧
    encode (.matchNew 201 12) = .decisions [true, false, true, false, false, true, false, false, false, true, true, true,
      true, false, false, false, false, false, true] ∧ (Instr.matchNew 201 12).wellFormed = true :=
  ⟨by decide, by decide, ⟨by decide, ring_kept _⟩, by decide, by decide⟩

/-- The cells of R125 to R129 for `MATCH` 201 12, written out: posState 1, the middle length tree, slot 15 with
`lps = 3`, two direct bits, the align tree. -/
theorem test_decisions_match : (Instr.matchNew 201 12).decisions 5 1 none =
    [.cell (.isMatch 5 1) true, .cell (.isRep 5) false, .cell (.lenChoice .len) true, .cell (.lenChoice2 .len) false,
      .cell (.lenMid .len 1 1) false, .cell (.lenMid .len 1 2) true, .cell (.lenMid .len 1 5) false,
      .cell (.posSlot 3 1) false, .cell (.posSlot 3 2) false, .cell (.posSlot 3 4) true, .cell (.posSlot 3 9) true,
      .cell (.posSlot 3 19) true, .cell (.posSlot 3 39) true, .direct false, .direct false,
      .cell (.align 1) false, .cell (.align 2) false, .cell (.align 4) false, .cell (.align 8) true] := by decide

/-- Vector 5.1's literal: 0x60 against the match byte 0x61 agrees in seven bits, then differs. -/
theorem test_decisions_matched_literal :
    literalDecisions { ctx := 3, matchByte := some 0x61 } 0x60 =
    [.cell (.literal 3 257) false, .cell (.literal 3 514) true, .cell (.literal 3 517) true,
      .cell (.literal 3 267) false, .cell (.literal 3 278) false, .cell (.literal 3 300) false,
      .cell (.literal 3 344) false, .cell (.literal 3 688) false] := by decide

theorem witness_CellsShareNoStorage : (Cell.literal 0xFFF 0x2FF).valid 12 = true ∧
    (Cell.specPos 13 31).valid 0 = true ∧ (Cell.isMatch 11 15).valid 0 = true := by decide

/-- Vectors 2.1 and 2.2: `Code` just below and at the bound. -/
theorem witness_DecodeBitFollowsItsRule : probOk 1024 = true ∧ Config.rangeTop ≤ (0xFFFFFFFF : Word).toNat ∧
    0x7FFFFC00 = (0xFFFFFFFF : Word).toNat / 2 ^ 11 * (1024 : Prob).toNat ∧
    (0x7FFFFBFF : Word).toNat < 0x7FFFFC00 ∧ 0x7FFFFC00 ≤ (0x7FFFFC00 : Word).toNat := by decide

/-- Vectors 2.10 and 2.11 about the half. -/
theorem witness_DirectBitFollowsItsRule : Config.rangeTop ≤ (0xFFFFFFFF : Word).toNat ∧
    0x7FFFFFFF = (0xFFFFFFFF : Word).toNat / 2 ∧ 0x7FFFFFFF ≤ (0x7FFFFFFF : Word).toNat ∧
    (0x7FFFFFFE : Word).toNat < 0x7FFFFFFF := by decide

theorem witness_ByteRequestChecksBudgetFirst : (1 : BitVec 17) ≠ 0 := by decide

/-- An LZMA chunk about to be initialised. -/
def lz2Init (pack : BitVec 17) (input : List Byte) : State :=
  { lz2Data 1 pack input with
    lzma := State.reset.lzma
    framer := { (lz2Data 1 pack input).framer with l2Phase := .lzmaInit } }

theorem witness_InitTakesFiveBytesOrNone :
    ((lz1 [] 0 0 [0, 1, 2, 3, 4]).activity = .decoding (call0 [0, 1, 2, 3, 4] 300) ∧
      (lz1 [] 0 0 [0, 1, 2, 3, 4]).ctl.mode = .lzma1 ∧
      (lz1 [] 0 0 [0, 1, 2, 3, 4]).params.checkRcByte0 = false) ∧
    ((lz2Init 5 [0, 1, 2, 3, 4]).activity = .decoding (call0 [0, 1, 2, 3, 4] 300) ∧
      (lz2Init 5 [0, 1, 2, 3, 4]).ctl.mode = .lzma2 ∧
      5 ≤ (lz2Init 5 [0, 1, 2, 3, 4]).framer.chunkPackRemaining.toNat) ∧
    ((lz2Init 4 []).activity = .decoding (call0 [] 300) ∧ (lz2Init 4 []).ctl.mode = .lzma2 ∧
      (lz2Init 4 []).framer.chunkPackRemaining.toNat < 5) ∧
    ((lz2Init 5 [0, 1, 2, 3]).activity = .decoding (call0 [0, 1, 2, 3] 300) ∧
      (call0 [0, 1, 2, 3] 300).input.length < 5) ∧
    (({ lz1 [] 0 0 [1, 1, 2, 3, 4] with params := { dictMax := 4096, checkRcByte0 := true } } : State).activity
        = .decoding (call0 [1, 1, 2, 3, 4] 300) ∧
      ({ lz1 [] 0 0 [1, 1, 2, 3, 4] with params := { dictMax := 4096, checkRcByte0 := true } } : State).ctl.mode
        = .lzma1 ∧ (1 : Byte) ≠ 0) ∧
    (call0 [] 0).noted = none := by decide

/-! ### Fetching -/

/-- `LIT`, `SHORTREP`, `REP0` and `MATCH` are each fetched somewhere. -/
theorem witness_FetchedPacketIsWhatItsBitsEncode :
    (∃ s', fetchPacket (lz1 [] 1 0x307FFC00 [0x00]) = .ok (.lit 0x61, s')) ∧
    (∃ s', fetchPacket (lz1 [0x61] 9 0xC8000000 []) = .ok (.shortRep, s')) ∧
    (∃ s', fetchPacket (lz1 [0x61] 9 0xD1800000 [0x00]) = .ok (.rep0 3, s')) ∧
    (∃ s', fetchPacket (lz1 [0x61] 9 0x84080000 [0x00, 0x00]) = .ok (.matchNew 1 3, s')) ∧
    Probs.wf (lz1 [0x61] 9 0x84080000 [0x00, 0x00]).lzma.probs = true :=
  ⟨⟨_, rfl⟩, ⟨_, rfl⟩, ⟨_, rfl⟩, ⟨_, rfl⟩, rfl⟩

theorem witness_PacketTakesAtMostFortyEightBytes :
    (lz1 [] 1 0x307FFC00 (List.replicate 48 0)).Inv ∧
    (lz1 [] 1 0x307FFC00 (List.replicate 48 0)).activity = .decoding (call0 (List.replicate 48 0) 300) ∧
    (lz1 [] 1 0x307FFC00 (List.replicate 48 0)).lzma.l1Phase = .packets ∧
    (lz2Data (2 ^ 21) (2 ^ 16) [0x00]).Inv ∧ (lz2Data 1 1 []).framer.l2Phase = .lzmaData ∧
    (∃ s', fetchPacket (lz2Data (2 ^ 21) (2 ^ 16) [0x00]) = .ok (.lit 0x61, s')) :=
  ⟨witness_lz1_inv _ _ _ _, rfl, rfl, witness_lz2Data_inv, rfl, ⟨_, rfl⟩⟩

theorem witness_FetchIgnoresLaterInput :
    (lz1 [] 1 0x307FFC00 [0x00]).activity = .decoding (call0 [0x00] 300) ∧
    ∃ s', fetchPacket (lz1 [] 1 0x307FFC00 [0x00]) = .ok (.lit 0x61, s') := ⟨rfl, ⟨_, rfl⟩⟩

/-! ### Packets and copies -/

theorem witness_LitWritesItsByte : (lz1 [] 1 0 []).activity = .decoding (call0 [] 300) ∧
    (call0 [] 300).outSpace ≠ 0 ∧ 1 ≤ (lz1 [] 1 0 []).dict.cap.toNat ∧
    (lz1 [] 1 0 []).readRemaining = .ok 1 := ⟨rfl, by decide, by decide, rfl⟩

/-- Distance and length at their largest: two bytes written, two bytes due. -/
theorem witness_MatchStartsItsCopy : (lz1 [1, 2] 2 0 []).activity = .decoding (call0 [] 300) ∧
    (lz1 [1, 2] 2 0 []).dict.cap = 4096 ∧ (lz1 [1, 2] 2 0 []).readRemaining = .ok 2 ∧ 1 ≤ 2 ∧
    2 ≤ min (lz1 [1, 2] 2 0 []).dict.totalWritten.toNat (4096 : Word).toNat ∧ 2 ≤ 2 :=
  ⟨rfl, rfl, rfl, by decide, by decide, by decide⟩

theorem witness_ShortRepStartsItsCopy : (lz1 [1] 1 0 []).activity = .decoding (call0 [] 300) ∧
    (lz1 [1] 1 0 []).dict.cap = 4096 ∧ (lz1 [1] 1 0 []).readRemaining = .ok 1 ∧
    1 ≤ (lz1 [1] 1 0 []).lzma.rep0.toNat ∧
    (lz1 [1] 1 0 []).lzma.rep0.toNat ≤ min (lz1 [1] 1 0 []).dict.totalWritten.toNat (4096 : Word).toNat :=
  ⟨rfl, rfl, rfl, by decide, by decide⟩

/-- The rep distances are 1, 2, 3, 4; four bytes are written. -/
theorem witness_RepPacketsStartTheirCopies : (lz1 [1, 2, 3, 4] 2 0 []).activity = .decoding (call0 [] 300) ∧
    (lz1 [1, 2, 3, 4] 2 0 []).dict.cap = 4096 ∧ (lz1 [1, 2, 3, 4] 2 0 []).readRemaining = .ok 2 ∧ 2 ≤ 2 ∧
    (lz1 [1, 2, 3, 4] 2 0 []).lzma.rep0.toNat = 1 ∧ (lz1 [1, 2, 3, 4] 2 0 []).lzma.rep1.toNat = 2 ∧
    (lz1 [1, 2, 3, 4] 2 0 []).lzma.rep2.toNat = 3 ∧ (lz1 [1, 2, 3, 4] 2 0 []).lzma.rep3.toNat = 4 ∧
    min (lz1 [1, 2, 3, 4] 2 0 []).dict.totalWritten.toNat (4096 : Word).toNat = 4 :=
  ⟨rfl, rfl, rfl, by decide, by decide, by decide, by decide, by decide, by decide⟩

/-- One beyond what is written; the distance 2^32; one byte more than remains. -/
theorem witness_CopyPacketsCheckDistanceThenLength :
    (lz1 [1, 2] 2 0 []).activity = .decoding (call0 [] 300) ∧ (lz1 [1, 2] 2 0 []).dict.cap = 4096 ∧
    (lz1 [1, 2] 2 0 []).readRemaining = .ok 2 ∧
    min (lz1 [1, 2] 2 0 []).dict.totalWritten.toNat (4096 : Word).toNat = 2 ∧
    (Instr.matchNew 3 2).copyOperands (lz1 [1, 2] 2 0 []).lzma = some (3, 2) ∧
    (Instr.matchNew 0 2).copyOperands (lz1 [1, 2] 2 0 []).lzma = some (0, 2) ∧
    (Instr.matchNew (2 ^ 32) 2).copyOperands (lz1 [1, 2] 2 0 []).lzma = some (2 ^ 32, 2) ∧
    (Instr.rep1 3).copyOperands (lz1 [1, 2] 2 0 []).lzma = some (2, 3) ∧
    Instr.shortRep.copyOperands (lz1 [1, 2] 2 0 []).lzma = some (1, 1) :=
  ⟨rfl, rfl, rfl, by decide, by decide, by decide, by decide, by decide, by decide⟩

/-- A literal, a match, a rep packet and a short rep that each leave the call in progress. -/
theorem witness_StateTellsTheLastPacket :
    (∃ t c, exec (.lit 0) (lz1 [1] 5 0 []) = .next t ∧ t.activity = .decoding c) ∧
    (∃ t c, exec (.matchNew 1 2) (lz1 [1] 5 0 []) = .next t ∧ t.activity = .decoding c) ∧
    (∃ t c, exec (.rep0 2) (lz1 [1] 5 0 []) = .next t ∧ t.activity = .decoding c) ∧
    (∃ t c, exec .shortRep (lz1 [1] 5 0 []) = .next t ∧ t.activity = .decoding c) :=
  ⟨⟨_, _, rfl, rfl⟩, ⟨_, _, rfl, rfl⟩, ⟨_, _, rfl, rfl⟩, ⟨_, _, rfl, rfl⟩⟩

theorem witness_WrittenBytesMoveOneDistanceBack : (ring [1, 2]).cap = 4096 ∧
    (ring [1, 2]).Kept 0xFFFFFFFF ∧ (ring [1, 2]).totalWritten.toNat + 1 < 2 ^ 64 :=
  ⟨rfl, ring_kept _, by decide⟩

theorem witness_CopyStepCopiesOneByte : (copying [1, 2] 2 2).activity = .decoding (call0 [] 300) ∧
    (copying [1, 2] 2 2).readRemaining = .ok 500 ∧ (copying [1, 2] 2 2).lzma.pendDist = 2 ∧
    (copying [1, 2] 2 2).dict.get (2 : Word).toNat = .ok 1 ∧ (call0 [] 0).outSpace = 0 ∧
    (call0 [] 0).noted = none := ⟨rfl, rfl, rfl, rfl, rfl, rfl⟩

/-- The longest copy, from distance 2 of two bytes. -/
theorem witness_OverlappingCopyRepeatsItself : (copying [0x61, 0x62] 273 2).Inv ∧
    (copying [0x61, 0x62] 273 2).activity = .decoding (call0 [] 300) ∧
    (copying [0x61, 0x62] 273 2).dict.cap = 4096 ∧ (copying [0x61, 0x62] 273 2).readRemaining = .ok 500 ∧
    (copying [0x61, 0x62] 273 2).lzma.pendDist = 2 ∧
    (copying [0x61, 0x62] 273 2).lzma.pendLen.toNat = 273 ∧
    (2 : Word).toNat ≤ min (copying [0x61, 0x62] 273 2).dict.totalWritten.toNat (4096 : Word).toNat ∧
    (copying [0x61, 0x62] 273 2).dict.totalWritten.toNat + 273 < 2 ^ 64 :=
  ⟨witness_copying_inv, rfl, rfl, rfl, rfl, rfl, by decide, by decide⟩

/-! ### The order of the steps -/

/-- Each phase, a copy pending, nothing remaining, and something remaining with no space and with space. -/
theorem witness_PacketLoopTakesItsStepsInOrder :
    ((lz1 [] 0 0 []).activity = .decoding (call0 [] 300) ∧ (lz1 [] 0 0 []).ctl.mode = .lzma1 ∧
      (lz1 [] 0 0 []).lzma.unpackRemaining = (BitVec.ofNat 64 0) ∧ (lz1 [] 0 0 []).lzma.pendLen = 0 ∧
      (lz1 [] 0 0 []).lzma.l1Phase = .packets) ∧
    ((lz1 [] 0xFFFFFFFFFFFFFFFF 0 []).lzma.unpackRemaining = (BitVec.ofNat 64 (2 ^ 64 - 1)) ∧
      2 ^ 64 - 1 < 2 ^ 64 ∧ 2 ^ 64 - 1 ≠ 0 ∧ (call0 [] 300).outSpace ≠ 0) ∧
    ({ lz1 [] 1 0 [] with activity := .decoding (call0 [] 0) } : State).activity = .decoding (call0 [] 0) ∧
    ((copying [1] 1 1).lzma.pendLen ≠ 0 ∧ (copying [1] 1 1).lzma.l1Phase = .packets ∧
      (copying [1] 1 1).lzma.unpackRemaining = (BitVec.ofNat 64 500)) ∧
    ({ lz1 [] 0 0 [] with
      lzma := { (lz1 [] 0 0 []).lzma with l1Phase := .finished } } : State).lzma.l1Phase = .finished ∧
    ({ lz1 [] 0 0 [] with
      lzma := { (lz1 [] 0 0 []).lzma with l1Phase := .needInit } } : State).lzma.l1Phase = .needInit := by decide

/-- An LZMA chunk whose initialisation succeeds, and one that waits for a byte; within its packets a copy pending, and a
packet due with no space and with space. -/
theorem witness_PacketLoopTakesItsStepsInOrder_chunk :
    ((lz2Init 5 [0, 1, 2, 3, 4]).ctl.mode = .lzma2 ∧ (lz2Init 5 [0, 1, 2, 3, 4]).framer.l2Phase = .lzmaInit ∧
      (lz2Init 5 [0, 1, 2, 3, 4]).lzma.l1Phase = .needInit ∧
      ∃ t c', rcInitStep (lz2Init 5 [0, 1, 2, 3, 4]) = .next t ∧ t.activity = .decoding c') ∧
    (∃ t, rcInitStep (lz2Init 5 [0, 1, 2, 3]) = .next t ∧ t.activity = .idle) ∧
    ((lz2Data 1 1 []).activity = .decoding (call0 [] 300) ∧ (lz2Data 1 1 []).ctl.mode = .lzma2 ∧
      (lz2Data 1 1 []).framer.l2Phase = .lzmaData ∧ (lz2Data 1 1 []).lzma.l1Phase = .packets ∧
      (lz2Data 1 1 []).lzma.pendLen = 0 ∧ (lz2Data 1 1 []).framer.chunkUnpackRemaining ≠ 0 ∧
      (call0 [] 300).outSpace ≠ 0) ∧
    (({ lz2Data 1 1 [] with activity := .decoding (call0 [] 0) } : State).activity = .decoding (call0 [] 0) ∧
      (call0 [] 0).outSpace = 0 ∧ (call0 [] 0).noted = none) ∧
    ({ lz2Data 1 1 [] with lzma := { (lz2Data 1 1 []).lzma with pendLen := 1, pendDist := 1 } } : State).lzma.pendLen
      ≠ 0 :=
  ⟨⟨rfl, rfl, rfl, _, _, rfl, rfl⟩, ⟨_, rfl, rfl⟩, by decide, by decide, by decide⟩

/-- The step of an LZMA chunk after its header: five bytes are taken and the framer's phase moves (R351). -/
theorem test_chunk_init : holds (step (lz2Init 9 [0, 0x30, 0x7F, 0xFC, 0, 0])) (fun t =>
    t.framer.l2Phase == .lzmaData && t.lzma.l1Phase == .packets && t.lzma.code == 0x307FFC00 &&
    t.framer.chunkPackRemaining == 4 && t.ctl.inTotal == 5) = true := by decide

theorem witness_StepRunsTheDecodedUnit :
    ((lz2 0xC0 [0x00]).ctl.mode = .lzma2 ∧ (lz2 0xC0 [0x00]).framer.l2Phase = .control ∧
      decodeHeader [0x00] = some (.l2End, [])) ∧
    ((lz1 [] 1 0x307FFC00 [0x00]).readRemaining = .ok 1 ∧
      ∃ s', fetchPacket (lz1 [] 1 0x307FFC00 [0x00]) = .ok (.lit 0x61, s')) ∧
    ((lz2Data 1 1 [0x00]).readRemaining = .ok 1 ∧
      ∃ s', fetchPacket (lz2Data 1 1 [0x00]) = .ok (.lit 0x61, s')) ∧
    (run3.bcj.outPos ≠ 3 ∧ [(0x90 : Byte), 0x90][run3.bcj.mainPos.toNat]? = some 0x90) ∧
    ({ State.reset with host := { cmds := [.reset], ret := none, out := [] } } : State).activity = .idle :=
  ⟨by decide, ⟨rfl, ⟨_, rfl⟩⟩, ⟨rfl, ⟨_, rfl⟩⟩, by decide, rfl⟩

/-! ### Chunks -/

theorem witness_EndChunkFinishesTheStream : (lz2 0xC0 []).activity = .decoding (call0 [] 300) ∧
    ({ lz2 0xC0 [] with framer := { Framer.start with l2Phase := .finished } } : State).activity
      = .decoding (call0 [] 300) ∧
    ({ lz2 0xC0 [] with framer := { Framer.start with l2Phase := .finished } } : State).framer.l2Phase = .finished ∧
    ({ lz2 0xC0 [] with framer := { Framer.start with l2Phase := .finished } } : State).ctl.mode = .lzma2 := by
  decide

theorem witness_CopyHeadersOpenTheirPayload : (lz2 0xC0 []).activity = .decoding (call0 [] 300) ∧
    (lz2 0xC0 []).framer.needInitLevel ≠ 0xE0 ∧ (lz2 0xE0 []).activity = .decoding (call0 [] 300) ∧
    (lz2 0xE0 []).framer.needInitLevel = 0xE0 := by decide

theorem witness_ReservedControlIsRefused :
    ((lz2 0xC0 [0x7F]).activity = .decoding (call0 [0x7F] 300) ∧ (call0 [0x7F] 300).noted = none ∧
      (lz2 0xC0 [0x7F]).ctl.mode = .lzma2 ∧ (lz2 0xC0 [0x7F]).framer.l2Phase = .control ∧
      (call0 [0x7F] 300).input = [0x7F] ∧ 0x03 ≤ (0x7F : Byte).toNat ∧ (0x7F : Byte).toNat ≤ 0x7F) ∧
    ((lz2 0xC0 [0x03]).activity = .decoding (call0 [0x03] 300) ∧ 0x03 ≤ (0x03 : Byte).toNat) := by decide

/-- `NeedInitLevel` at the largest that each mode accepts. -/
theorem witness_LzmaChunksWithoutPropsBegin : (lz2 0x80 []).activity = .decoding (call0 [] 300) ∧
    (lz2 0x80 []).framer.needInitLevel.toNat ≤ 0x80 + (0 : BitVec 21).toNat / 2 ^ 16 ∧
    (lz2 0xA0 []).activity = .decoding (call0 [] 300) ∧
    (lz2 0xA0 []).framer.needInitLevel.toNat ≤ 0xA0 + (0 : BitVec 21).toNat / 2 ^ 16 := by decide

theorem witness_LzmaChunksWithPropsBegin : decodeProps 224 = some { lc := 8, lp := 4, pb := 4 } ∧
    (lz2 0xC0 []).activity = .decoding (call0 [] 300) ∧
    (lz2 0xC0 []).framer.needInitLevel.toNat ≤ 0xC0 + (0 : BitVec 21).toNat / 2 ^ 16 ∧
    (lz2 0xE0 []).activity = .decoding (call0 [] 300) ∧
    (lz2 0xE0 []).framer.needInitLevel.toNat ≤ 0xE0 + (0 : BitVec 21).toNat / 2 ^ 16 := by decide

/-- One below the level; at the level with a properties byte of 225. -/
theorem witness_LzmaChunksCheckResetThenProps :
    ((lz2 0xE0 []).activity = .decoding (call0 [] 300) ∧
      0x80 + 0x20 * (2 : BitVec 2).toNat + (0x1FFFFF : BitVec 21).toNat / 2 ^ 16 <
        (lz2 0xE0 []).framer.needInitLevel.toNat) ∧
    ((lz2 0xC0 []).activity = .decoding (call0 [] 300) ∧
      (lz2 0xC0 []).framer.needInitLevel.toNat ≤ 0x80 + 0x20 * (2 : BitVec 2).toNat + (0 : BitVec 21).toNat / 2 ^ 16 ∧
      2 ≤ (2 : BitVec 2).toNat ∧ 224 < (225 : Byte).toNat) := by decide

theorem witness_IncompleteHeaderWaits :
    (lz2 0xC0 [0xC0, 0, 0, 0, 0]).activity = .decoding (call0 [0xC0, 0, 0, 0, 0] 300) ∧
    (call0 [0xC0, 0, 0, 0, 0] 300).noted = none ∧ (lz2 0xC0 [0xC0, 0, 0, 0, 0]).ctl.mode = .lzma2 ∧
    (lz2 0xC0 [0xC0, 0, 0, 0, 0]).framer.l2Phase = .control ∧
    decodeHeader (call0 [0xC0, 0, 0, 0, 0] 300).input = none := by decide

theorem witness_CopyChunkDeliversOneByte : ((lz2Copy 1 [7] 1).activity = .decoding (call0 [7] 1) ∧
      (call0 [7] 1).noted = none ∧ (lz2Copy 1 [7] 1).ctl.mode = .lzma2 ∧
      (lz2Copy 1 [7] 1).framer.l2Phase = .copyData ∧ (lz2Copy 1 [7] 1).dict.cap = 4096 ∧
      (call0 [7] 1).outSpace ≠ 0 ∧ (call0 [7] 1).input = [7]) ∧
    (lz2Copy 1 [7] 0).activity = .decoding (call0 [7] 0) ∧ (lz2Copy 1 [] 1).activity = .decoding (call0 [] 1) := by
  decide

theorem witness_LzmaChunkEndsWithItsPackSizeUsedUp : (lz2Data 0 0 []).activity = .decoding (call0 [] 300) ∧
    (lz2Data 0 0 []).ctl.mode = .lzma2 ∧ (lz2Data 0 0 []).framer.l2Phase = .lzmaData ∧
    (lz2Data 0 0 []).lzma.l1Phase = .packets ∧ (lz2Data 0 0 []).lzma.pendLen = 0 ∧
    (lz2Data 0 0 []).framer.chunkUnpackRemaining = 0 ∧ (lz2Data 0 0 []).framer.chunkPackRemaining = 0 ∧
    (lz2Data 0 1 []).activity = .decoding (call0 [] 300) ∧ (lz2Data 0 1 []).framer.chunkUnpackRemaining = 0 ∧
    (lz2Data 0 1 []).framer.chunkPackRemaining ≠ 0 := by decide

/-! ### BCJ2 -/

theorem witness_PlainTokenCopiesItsByte : ∃ j, run3.activity = .merging j := ⟨_, rfl⟩

/-- The last byte of an output of two. -/
theorem witness_LastOpcodeDecodesNoBit : (∃ j, (merging [0xE8] [] [] 0 0x12 1 2).activity = .merging j ∧
      (merging [0xE8] [] [] 0 0x12 1 2).bcj.outPos + 1 = j.outSize) ∧
    (Instr.bcj2Call 0x12).branchOperands = some (0xE8, 0x12, .call) ∧
    (Instr.bcj2Jcc 0xF).branchOperands = some (0x8F, 257, .jump) := ⟨⟨_, rfl, rfl⟩, rfl, rfl⟩

theorem witness_BranchBitZeroCopiesTheOpcode : (1 : Word) ≠ 2 ∧
    (merging [0xE8] [] [] 0 0 0 2).bcj.code = 0 ∧ ∃ p' rc', decodeBit
      ((merging [0xE8] [] [] 0 0 0 2).bcj.probs.read 0)
      { range := (merging [0xE8] [] [] 0 0 0 2).bcj.range, code := 0, src := .bcj2,
        bytes := [(0 : Byte), 0, 0, 0, 0].drop (merging [0xE8] [] [] 0 0 0 2).bcj.rcPos.toNat }
      = .ok (false, p', rc') := ⟨by decide, rfl, _, _, rfl⟩

/-- Vector 9.4: one displacement byte of four at the least, `dest = 0x10 − 5`. -/
theorem witness_BranchBitOneConvertsTheTarget : ∃ j p' rc' tail,
    (merging [0xE9] [] [0, 0, 0, 0x10] 0x9FFFFC00 0 0 2).activity = .merging j ∧ j.outSize = 2 ∧
    (Instr.bcj2Jmp 0).branchOperands = some (0xE9, 256, .jump) ∧
    (merging [0xE9] [] [0, 0, 0, 0x10] 0x9FFFFC00 0 0 2).bcj.outPos.toNat + 1 < (2 : Word).toNat ∧
    (merging [0xE9] [] [0, 0, 0, 0x10] 0x9FFFFC00 0 0 2).bcj.code = 0x9FFFFC00 ∧
    decodeBit ((merging [0xE9] [] [0, 0, 0, 0x10] 0x9FFFFC00 0 0 2).bcj.probs.read 256)
      { range := (merging [0xE9] [] [0, 0, 0, 0x10] 0x9FFFFC00 0 0 2).bcj.range, code := 0x9FFFFC00, src := .bcj2,
        bytes := j.rc.drop (merging [0xE9] [] [0, 0, 0, 0x10] 0x9FFFFC00 0 0 2).bcj.rcPos.toNat } = .ok (true, p', rc') ∧
    j.jump.drop (merging [0xE9] [] [0, 0, 0, 0x10] 0x9FFFFC00 0 0 2).bcj.jumpPos.toNat = 0 :: 0 :: 0 :: 0x10 :: tail ∧
    (0x0B + (0 + 1 + 4)) % 2 ^ 32 = 0x10 ∧
    [BitVec.ofNat 8 0x0B, BitVec.ofNat 8 (0x0B / 2 ^ 8), BitVec.ofNat 8 (0x0B / 2 ^ 16),
      BitVec.ofNat 8 (0x0B / 2 ^ 24)].take ((2 : Word).toNat - (0 + 1)) = [(0x0B : Byte)] :=
  ⟨_, _, _, [], rfl, rfl, rfl, by decide, rfl, rfl, rfl, by decide, by decide⟩

/-- `main` used up; a control bit that needs a byte `rc` does not hold; three bytes of a target. -/
theorem witness_TruncatedRunDeliversNothing :
    (merging [] [] [] 0 0 1 2).bcj.outPos ≠ 2 ∧ ([] : List Byte).length ≤ (merging [] [] [] 0 0 1 2).bcj.mainPos.toNat ∧
    decodeBit 31 { range := 0x01000000, code := 0, src := .bcj2, bytes := [] }
      = .error (.raise (.error .bcj2Truncated)) ∧
    (∃ p' rc', decodeBit 1024 { range := 0xFFFFFFFF, code := 0x9FFFFC00, src := .bcj2, bytes := [] }
      = .ok (true, p', rc')) ∧
    [(0 : Byte), 0, 0].length < (0 : Word).toNat + 4 := ⟨by decide, by decide, rfl, ⟨_, _, rfl⟩, by decide⟩

theorem witness_Bcj2RunBeginsAndEnds : State.reset.activity = .idle ∧ [(0 : Byte), 0, 0, 0].length < 5 ∧
    (∃ j, (merging [] [] [] 0 0 2 2).activity = .merging j ∧ (merging [] [] [] 0 0 2 2).bcj.outPos = j.outSize) ∧
    State.reset.params.checkRcByte0 = false ∧
    (({ State.reset with params := { dictMax := 4096, checkRcByte0 := true } } : State).activity = .idle ∧
      4 ≤ [(0 : Byte), 0, 0, 0].length ∧ (0x80 : Byte) ≠ 0) :=
  ⟨rfl, by decide, ⟨_, rfl, rfl⟩, rfl, rfl, by decide, by decide⟩

/-- The state a computation ends in. -/
def ofNext (o : Host.Outcome State Fault Refusal) : State :=
  match o with
  | .next t => t
  | .fault _ => State.reset
  | .refused _ => State.reset

/-- A run that delivers its byte, and one that is truncated. -/
theorem witness_Bcj2RunDeliversAllOrNothing : State.reset.cleared.Inv ∧ State.reset.cleared.activity = .idle ∧
    (∃ s' t, exec (.bcj2Run [0x90] [] [] [0, 0, 0, 0, 0] 1) State.reset.cleared = .next s' ∧ s'.EndsIn t) ∧
    (∃ s' t, exec (.bcj2Run [] [] [] [0, 0, 0, 0, 0] 1) State.reset.cleared = .next s' ∧ s'.EndsIn t) :=
  ⟨State.cleared_inv (by decide), rfl, ⟨_, _, rfl, rfl, 2, rfl⟩, ⟨_, _, rfl, rfl, 1, rfl⟩⟩

theorem witness_Bcj2RunLeavesTheEngineAlone :
    (∃ t, exec (.bcj2Run [0x90] [] [] [0, 0, 0, 0, 0] 1) State.reset = .next t) ∧
    (∃ j t, run3.activity = .merging j ∧ step run3 = .next t) := ⟨⟨_, rfl⟩, ⟨_, _, rfl, rfl⟩⟩

/-! ### Commands -/

theorem witness_BusyBlockLetsCommandsWait : run3.activity ≠ .idle ∧ (lz1 [] 1 0 []).activity ≠ .idle := by decide

theorem witness_ResetCommandIsPowerOn : (lz1Idle [1] 1 0).activity = .idle := rfl

/-- A dictionary size at the parameter's bound. -/
theorem witness_ConfigRawStartsAnLzma1Stream : State.reset.activity = .idle ∧
    decodeProps 0x5D = some { lc := 3, lp := 0, pb := 2 } ∧
    (0xFFFFFFFF : Word).toNat = (0xFF : Byte).toNat + (0xFF : Byte).toNat * 2 ^ 8 + (0xFF : Byte).toNat * 2 ^ 16 +
      (0xFF : Byte).toNat * 2 ^ 24 ∧
    (0xFFFFFFFF : Word).toNat ≤ State.reset.params.dictMax.toNat := by decide

theorem witness_ConfigAloneStartsAnLzma1Stream : State.reset.activity = .idle ∧
    decodeProps (#v[(0x5D : Byte), 0, 0, 1, 0, 7, 0, 0, 0, 0, 0, 0, 0][0]) = some { lc := 3, lp := 0, pb := 2 } ∧
    (65536 : Word).toNat = 0 + 0 * 2 ^ 8 + (1 : Byte).toNat * 2 ^ 16 + 0 * 2 ^ 24 ∧
    (65536 : Word).toNat ≤ State.reset.params.dictMax.toNat ∧ (7 : U64).toNat = (7 : Byte).toNat ∧
    (7 : U64) ≠ 0xFFFFFFFFFFFFFFFF := by decide

theorem witness_ConfigLzma2StartsAnLzma2Stream : State.reset.activity = .idle ∧
    decodeDictProp 40 = some 0xFFFFFFFF ∧ (0xFFFFFFFF : Word).toNat ≤ State.reset.params.dictMax.toNat := by decide

/-- Each way to fail at its boundary: properties byte 225, a size one above a parameter of 4096, an unknown size,
dictionary property 41. -/
theorem witness_FailedConfigureLeavesTheBlockUnconfigured : [(0x5D : Byte), 0, 0, 1].length ≠ 5 ∧
    224 < (225 : Byte).toNat ∧ (224 : Byte).toNat ≤ 224 ∧
    ({ State.reset.params with dictMax := 4096 } : Params).dictMax.toNat <
      (1 : Byte).toNat + (0x10 : Byte).toNat * 2 ^ 8 ∧
    (∀ k : Fin 8, (#v[(0x5D : Byte), 0, 0, 1, 0, 0xFF, 0xFF, 0xFF, 0xFF, 0xFF, 0xFF, 0xFF, 0xFF])[5 + k.val] = 0xFF) ∧
    40 < (41 : Byte).toNat ∧ decodeDictProp 1 = some 6144 ∧
    ({ State.reset.params with dictMax := 4096 } : Params).dictMax.toNat < (6144 : Word).toNat := by decide

theorem witness_DecodeBeginsOrIsAnsweredAtOnce :
    ((lz1Idle [] 1 0).activity = .idle ∧ (lz1Idle [] 1 0).ctl.mode ≠ .unconfigured ∧
      (lz1Idle [] 1 0).ctl.errorLatched = false) ∧
    (State.reset.activity = .idle ∧ State.reset.ctl.mode = .unconfigured) ∧
    (({ lz1Idle [] 1 0 with ctl := { (lz1Idle [] 1 0).ctl with errorLatched := true } } : State).ctl.errorLatched
      = true) := by decide

/-! ### The whole machine -/

/-- A call that ends for want of input, and one that ends with an error. -/
theorem witness_FailedTransactionLeavesNoTrace :
    (∃ t, (lz1 [] 9 0x307FFC00 []).Inv ∧ (lz1 [] 9 0x307FFC00 []).activity = .decoding (call0 [] 300) ∧
      step (lz1 [] 9 0x307FFC00 []) = .next t ∧ t.activity = .idle ∧ t.ctl.status ≠ .finished) ∧
    (∃ t, (lz1 [] 9 0xC8000000 []).Inv ∧ (lz1 [] 9 0xC8000000 []).activity = .decoding (call0 [] 300) ∧
      step (lz1 [] 9 0xC8000000 []) = .next t ∧ t.activity = .idle ∧ t.ctl.status ≠ .finished) :=
  ⟨⟨_, witness_lz1_inv _ _ _ _, rfl, rfl, rfl, by decide⟩, ⟨_, witness_lz1_inv _ _ _ _, rfl, rfl, rfl, by decide⟩⟩

/-- A step that emits, one that does not, and one that resets the dictionary. -/
theorem witness_EachStepEmitsWhatItWrites :
    (∃ t, step (lz1 [] 1 0x307FFC00 [0x00]) = .next t) ∧ (∃ t, step (lz1 [0x61] 9 0xC8000000 []) = .next t) ∧
    (∃ t, step (lz2 0xC0 [0xE0, 0, 0, 0, 4, 0x5D]) = .next t) ∧ (lz1 [] 1 0x307FFC00 [0x00]).Inv ∧
    (lz2 0xC0 [0xE0, 0, 0, 0, 4, 0x5D]).Inv :=
  ⟨⟨_, rfl⟩, ⟨_, rfl⟩, ⟨_, rfl⟩, witness_lz1_inv _ _ _ _, witness_lz2_inv _⟩

theorem witness_StepKeepsTheParameters : ∃ t, step (lz1 [] 1 0x307FFC00 [0x00]) = .next t := ⟨_, rfl⟩

/-- Kept states of each mode in the middle of a command, and a step from one. -/
theorem witness_StepKeepsTheInvariant : (lz1 [] 1 0x307FFC00 [0x00]).Inv ∧
    (∃ t, step (lz1 [] 1 0x307FFC00 [0x00]) = .next t) ∧ (lz2Data (2 ^ 21) (2 ^ 16) [0x00]).Inv ∧ run3.Inv :=
  ⟨witness_lz1_inv _ _ _ _, ⟨_, rfl⟩, witness_lz2Data_inv, witness_run3_inv⟩

theorem witness_WellKeptStateNeverFaults : (copying [0x61, 0x62] 273 2).Inv ∧ (lz2Copy 65536 [] 0).Inv :=
  ⟨witness_copying_inv, witness_lz2Copy_inv⟩

theorem witness_EveryCommandRunsToCompletion : run3.Inv ∧ run3.activity ≠ .idle := ⟨witness_run3_inv, by decide⟩

/-- An LZMA2 stream at its first chunk header, no call in progress. -/
def lz2Idle : State := { lz2 0xC0 [] with activity := .idle }

theorem witness_lz2Idle_inv : lz2Idle.Inv :=
  inv_of_ring (bs := [0x41]) rfl rfl rfl range_init reps_7111 (Nat.zero_le _) (fun h => absurd rfl h)
    (fun h => by cases h)
    (fun _ => {
      level := .inr (.inl rfl), between := fun _ => ⟨rfl, rfl⟩, inChunk := fun h => by rcases h with h | h <;> cases h
      inPackets := fun h => by cases h
      copying := fun h => by cases h
      pend := Nat.zero_le _, unpackMax := Nat.zero_le _, packMax := Nat.zero_le _, copyMax := Nat.zero_le _ })
    rfl rfl trivial

/-- The header of a one-byte chunk in the first call; its byte and the end of the stream in the second. -/
def firstEnd : State := ofNext (runCommand 2 (lz2Idle.calling [0x02, 0x00, 0x00] 1))

theorem witness_TwoCallsGiveWhatOneCallGives : lz2Idle.Inv ∧ lz2Idle.activity = .idle ∧
    lz2Idle.ctl.mode ≠ .unconfigured ∧ lz2Idle.ctl.errorLatched = false ∧
    (lz2Idle.calling [0x02, 0x00, 0x00] 1).EndsIn firstEnd ∧
    firstEnd.host.ret = some { status := .needMoreInput, cause := none, consumed := .bytes 3, produced := 0 } ∧
    (∃ u, (firstEnd.calling (([0x02, 0x00, 0x00] : List Byte).drop 3 ++ [0x41, 0x00]) (1 - 0 + 4)).EndsIn u ∧
      u.ctl.status = .finished) :=
  ⟨witness_lz2Idle_inv, rfl, by decide, rfl, ⟨rfl, 2, rfl⟩, rfl, ⟨_, ⟨rfl, 3, rfl⟩, rfl⟩⟩

end Sys2Proof.Tests
end

section
/-! PROOF. The parameters of 00_scope.md R8 through every step. Each operation of the model is said once to answer
states with the parameters it was begun with; the lemmas follow the definitions, from the shared operations up to
the step. -/

namespace Sys2Proof.Machine

variable {p : Params} {s : State}

/-! ## Operations that answer a state with given parameters -/

/-- Whatever state the operation answers, its parameters are `p`. -/
def OkWithParams {ε : Type} (p : Params) (r : Except ε State) : Prop := ∀ t, r = .ok t → t.params = p

/-- Whatever next state the outcome is, its parameters are `p`. -/
def NextWithParams (p : Params) (o : Host.Outcome State Fault Refusal) : Prop := ∀ t, o = .next t → t.params = p

theorem OkWithParams.ok {ε : Type} (h : s.params = p) : OkWithParams p (.ok s : Except ε State) := by
  rintro _ ⟨⟩
  exact h

theorem OkWithParams.error {ε : Type} (e : ε) : OkWithParams p (.error e) := by
  rintro _ ⟨⟩

/-- An operation followed by another: the second one decides, for each value the first one answers. -/
theorem OkWithParams.bind {ε α : Type} {x : Except ε α} {f : α → Except ε State}
    (h : ∀ a, x = .ok a → OkWithParams p (f a)) : OkWithParams p (x >>= f) := by
  cases x with
  | error e => exact .error e
  | ok a => exact h a rfl

theorem NextWithParams.next (h : s.params = p) : NextWithParams p (.next s) := by
  rintro _ ⟨⟩
  exact h

theorem NextWithParams.fault (f : Fault) : NextWithParams p (.fault f) := by
  rintro _ ⟨⟩

/-! ## Shared operations -/

@[simp] theorem State.rollback_params (s : State) (c : Call) : (s.rollback c).params = s.params := by
  unfold State.rollback
  split <;> rfl

theorem takeRaise_params (h : s.params = p) (r : Raise) : NextWithParams p (takeRaise s r) := by
  unfold takeRaise
  split
  · exact .next (by simp [h])
  · exact .next h
  · exact .fault _

theorem deliver_params (h : s.params = p) {r : Except Stop State} (hr : OkWithParams p r) :
    NextWithParams p (deliver s r) := by
  match r with
  | .ok s' => exact .next (hr s' rfl)
  | .error (.raise e) => exact takeRaise_params h e
  | .error (.fault f) => exact .fault f

theorem State.commit_params (h : s.params = p) : OkWithParams p s.commit := .bind fun _ _ => .ok h

theorem State.dictPut_params (h : s.params = p) (b : Byte) : OkWithParams p (s.dictPut b) := .bind fun _ _ => .ok h

theorem State.decRemaining_params (h : s.params = p) : OkWithParams p s.decRemaining := by
  unfold State.decRemaining
  split
  · exact .ok h
  · exact .ok h
  · exact .error _

/-! ## Packets -/

theorem copyPacket_params (h : s.params = p) (dist len : Nat) (lzma : Lzma) :
    NextWithParams p (copyPacket s dist len lzma) :=
  deliver_params h (.bind fun _ _ => State.commit_params h)

theorem execLit_params (h : s.params = p) (b : Byte) : NextWithParams p (execLit b s) :=
  deliver_params h <| .bind fun _ _ => .bind fun _ _ => .bind fun s1 h1 => .bind fun s2 h2 =>
    have h1' : s1.params = p := State.commit_params (by exact h) s1 h1
    State.decRemaining_params (State.dictPut_params h1' b s2 h2)

/-! ## Chunk headers -/

theorem execL2Copy_params (h : s.params = p) (n : BitVec 16) : NextWithParams p (execL2Copy n s) := by
  refine deliver_params h ?_
  split
  · exact .error _
  · exact State.commit_params h

/-! ## BCJ2 tokens -/

theorem branchToken_params (h : s.params = p) (b : Byte) (i : Nat) (t : TargetStream) :
    OkWithParams p (branchToken b i t s) := by
  refine .bind fun j _ => ?_
  dsimp only
  split
  · exact .ok h
  · refine .bind fun ⟨bit, _⟩ _ => ?_
    cases bit with
    | true => exact .bind fun _ _ => .ok h
    | false => exact .ok h

/-! ## Commands -/

theorem State.accept_params (h : s.params = p) (cmd : HostCmd) {run : State → Host.Outcome State Fault Refusal}
    (hrun : ∀ s' : State, s'.params = p → NextWithParams p (run s')) : NextWithParams p (s.accept cmd run) := by
  unfold State.accept
  split
  · exact hrun _ h
  · exact .next h
  · exact .next h

theorem configured_params (h : s.params = p) {r : Except Cause State} (hr : OkWithParams p r) :
    NextWithParams p (configured s r) := by
  match r with
  | .ok s' => exact .next (hr s' rfl)
  | .error c => exact .next h

theorem State.configureDict_params (h : s.params = p) (size : Word) : OkWithParams p (s.configureDict size) := by
  unfold State.configureDict
  split
  · exact .error _
  · exact .ok h

theorem State.configRaw_params (h : s.params = p) (props : List Byte) (n : U64) :
    OkWithParams p (s.configRaw props n) := by
  unfold State.configRaw
  split
  · exact .bind fun _ _ => .bind fun s1 h1 => .ok (State.configureDict_params h _ s1 h1)
  · exact .error _

theorem State.configAlone_params (h : s.params = p) (header : Vector Byte 13) :
    OkWithParams p (s.configAlone header) := by
  refine .bind fun _ _ => .bind fun s1 h1 => ?_
  dsimp only
  split
  · exact .error _
  · exact .ok (State.configureDict_params h _ s1 h1)

theorem State.configLzma2_params (h : s.params = p) (q : Byte) : OkWithParams p (s.configLzma2 q) := by
  unfold State.configLzma2
  split
  · exact .error _
  · exact .bind fun s1 h1 => .ok (State.configureDict_params h _ s1 h1)

theorem execReset_params (h : s.params = p) : NextWithParams p (execReset s) :=
  State.accept_params h _ fun s' h' => .next (s := s'.cleared.returnsOk) h'

theorem execDecode_params (h : s.params = p) (input : List Byte) (outSpace : Nat) :
    NextWithParams p (execDecode input outSpace s) := by
  refine State.accept_params h _ fun s' h' => ?_
  split
  · exact .next h'
  · split
    · exact .next h'
    · exact .next h'

theorem execBcj2Run_params (h : s.params = p) (main call jump rc : List Byte) (outSize : Word) :
    NextWithParams p (execBcj2Run main call jump rc outSize s) := by
  refine State.accept_params h _ fun s' h' => ?_
  refine deliver_params ?_ ?_
  · exact h'
  · cases Bcj2Regs.start s'.params.checkRcByte0 rc outSize with
    | error e => exact .error e
    | ok r => exact .ok h'

/-! ## Every unit -/

/-- Every row of the opcode table keeps the parameters. -/
theorem exec_params (h : s.params = p) (i : Instr) : NextWithParams p (exec i s) :=
  match i with
  | .lit b => execLit_params h b
  | .matchNew _ _ => copyPacket_params h _ _ _
  | .shortRep => copyPacket_params h _ _ _
  | .rep0 _ => copyPacket_params h _ _ _
  | .rep1 _ => copyPacket_params h _ _ _
  | .rep2 _ => copyPacket_params h _ _ _
  | .rep3 _ => copyPacket_params h _ _ _
  | .l2End => deliver_params h (State.commit_params h)
  | .l2CopyReset _ => deliver_params h (State.commit_params h)
  | .l2Copy n => execL2Copy_params h n
  | .l2Reserved _ => takeRaise_params h _
  | .l2LzmaM0 _ _ => deliver_params h (.bind fun _ _ => State.commit_params h)
  | .l2LzmaM1 _ _ => deliver_params h (.bind fun _ _ => State.commit_params h)
  | .l2LzmaM2 _ _ _ => deliver_params h (.bind fun _ _ => .bind fun _ _ => State.commit_params h)
  | .l2LzmaM3 _ _ _ => deliver_params h (.bind fun _ _ => .bind fun _ _ => State.commit_params h)
  | .bcj2Call _ => deliver_params h (branchToken_params h _ _ _)
  | .bcj2Jmp _ => deliver_params h (branchToken_params h _ _ _)
  | .bcj2Jcc _ => deliver_params h (branchToken_params h _ _ _)
  | .bcj2Plain _ _ => deliver_params h (.bind fun _ _ => .ok h)
  | .reset => execReset_params h
  | .configLzma1Raw _ _ => State.accept_params h _ fun _ h' => configured_params h' (State.configRaw_params h' _ _)
  | .configLzma1Alone _ => State.accept_params h _ fun _ h' => configured_params h' (State.configAlone_params h' _)
  | .configLzma2 _ => State.accept_params h _ fun _ h' => configured_params h' (State.configLzma2_params h' _)
  | .decode input outSpace => execDecode_params h input outSpace
  | .bcj2Run main call jump rc outSize => execBcj2Run_params h main call jump rc outSize

/-! ## The engine's loop -/

theorem fetchPacket_params {i : Instr} {t : State} (h : s.params = p) (hf : fetchPacket s = .ok (i, t)) :
    t.params = p := by
  obtain ⟨c, -, hf⟩ := bind_ok hf
  obtain ⟨⟨i', rc, probs⟩, -, hf⟩ := bind_ok hf
  cases i' with
  | some i' => cases hf; exact h
  | none =>
    obtain ⟨_, -, hf⟩ := bind_ok hf
    cases hf

theorem packetStep_params (h : s.params = p) : NextWithParams p (packetStep s) := by
  unfold packetStep
  split
  next i s' hf => exact exec_params (fetchPacket_params h hf) i
  next e _ => exact deliver_params h (.error e)

theorem rcInitStep_params (h : s.params = p) : NextWithParams p (rcInitStep s) :=
  deliver_params h (.bind fun _ _ => .bind fun _ _ => State.commit_params h)

theorem copyStep_params (h : s.params = p) : NextWithParams p (copyStep s) :=
  deliver_params h <| .bind fun _ _ => .bind fun _ _ => .bind fun b _ => .bind fun s1 h1 =>
    State.decRemaining_params (State.dictPut_params h b s1 h1)

/-- The steps one turn of the packet loop can take (46_lzma1_core.md rule R320): initialisation, a byte of a pending
copy, an event or fault before the packet, a packet. -/
theorem lzma1Step_stepped {c : Call} {o : Host.Outcome State Fault Refusal} (h : lzma1Step s c = .stepped o) :
    o = rcInitStep s ∨ o = copyStep s ∨ (∃ e, o = deliver s (.error e)) ∨ o = packetStep s := by
  unfold lzma1Step at h
  split at h
  · cases h
  · cases h; exact .inl rfl
  · split at h
    · cases h; exact .inr (.inl rfl)
    · split at h
      · cases h; exact .inr (.inr (.inl ⟨_, rfl⟩))
      · split at h
        · cases h
        · split at h
          · cases h; exact .inr (.inr (.inl ⟨.raise .needMoreOutput, rfl⟩))
          · cases h; exact .inr (.inr (.inr rfl))

theorem lzma1Step_params {c : Call} {o : Host.Outcome State Fault Refusal} (h : s.params = p)
    (ho : lzma1Step s c = .stepped o) : NextWithParams p o := by
  obtain rfl | rfl | ⟨e, rfl⟩ | rfl := lzma1Step_stepped ho
  · exact rcInitStep_params h
  · exact copyStep_params h
  · exact deliver_params h (.error e)
  · exact packetStep_params h

theorem stepLzma1_params (h : s.params = p) (c : Call) : NextWithParams p (stepLzma1 s c) := by
  unfold stepLzma1
  split
  next o ho => exact lzma1Step_params h ho
  next => exact .next h

theorem headerStep_params (h : s.params = p) (c : Call) : NextWithParams p (headerStep s c) := by
  unfold headerStep
  split
  · exact takeRaise_params h _
  next i rest _ => exact exec_params (s := s.take c rest) h i

theorem copyChunkStep_params (h : s.params = p) (c : Call) : NextWithParams p (copyChunkStep s c) := by
  refine deliver_params h (.bind fun _ _ => ?_)
  split
  · exact .error _
  next b rest _ =>
    exact .bind fun s1 h1 => .bind fun s2 h2 =>
      .ok (State.dictPut_params (State.commit_params (s := s.take c rest) h s1 h1) b s2 h2)

theorem endLzmaChunk_params (h : s.params = p) : NextWithParams p (endLzmaChunk s) := by
  unfold endLzmaChunk
  split
  · exact takeRaise_params h _
  · exact .next h

@[simp] theorem markLzmaData_params (s : State) : (markLzmaData s).params = s.params := by
  unfold markLzmaData
  split
  · split <;> rfl
  · rfl
  · rfl

theorem mapNext_params {f : State → State} (hf : ∀ t, (f t).params = t.params)
    {o : Host.Outcome State Fault Refusal} (ho : NextWithParams p o) : NextWithParams p (mapNext f o) := by
  cases o with
  | next t => exact .next ((hf t).trans (ho t rfl))
  | fault r => exact .fault r
  | refused r => rintro _ ⟨⟩

/-- A step within an LZMA chunk is a turn of the packet loop, or ends the chunk (47_lzma2_chunk.md rule R351). -/
theorem stepLzma2_lzmaChunk (c : Call) (hp : s.framer.l2Phase = .lzmaInit ∨ s.framer.l2Phase = .lzmaData) :
    (∃ o, lzma1Step s c = .stepped o ∧ stepLzma2 s c = mapNext markLzmaData o) ∨
    (lzma1Step s c = .done ∧ stepLzma2 s c = endLzmaChunk s) := by
  obtain hp | hp := hp <;> cases hl : lzma1Step s c <;> simp [stepLzma2, hp, hl]

theorem stepLzma2_lzmaChunk_params (h : s.params = p) (c : Call)
    (hp : s.framer.l2Phase = .lzmaInit ∨ s.framer.l2Phase = .lzmaData) : NextWithParams p (stepLzma2 s c) := by
  obtain ⟨o, ho, e⟩ | ⟨-, e⟩ := stepLzma2_lzmaChunk c hp <;> rw [e]
  · exact mapNext_params markLzmaData_params (lzma1Step_params h ho)
  · exact endLzmaChunk_params h

theorem stepLzma2_params (h : s.params = p) (c : Call) : NextWithParams p (stepLzma2 s c) := by
  cases hp : s.framer.l2Phase with
  | finished => simp only [stepLzma2, hp]; exact .next h
  | control => simp only [stepLzma2, hp]; exact headerStep_params h c
  | copyData => simp only [stepLzma2, hp]; exact copyChunkStep_params h c
  | lzmaInit => exact stepLzma2_lzmaChunk_params h c (.inl hp)
  | lzmaData => exact stepLzma2_lzmaChunk_params h c (.inr hp)

theorem stepMerge_params (h : s.params = p) (j : Bcj2Job) : NextWithParams p (stepMerge s j) := by
  unfold stepMerge
  split
  · exact .next h
  · split
    · exact takeRaise_params h _
    · exact exec_params h _

theorem stepIdle_params (h : s.params = p) : NextWithParams p (stepIdle s) := by
  unfold stepIdle
  split
  · exact .next h
  next cmd rest _ => exact exec_params (s := { s with host := { s.host with cmds := rest } }) h cmd.toInstr

theorem step_params (h : s.params = p) : NextWithParams p (step s) := by
  unfold step stepBlock
  split
  · exact stepIdle_params h
  next j _ => exact stepMerge_params h j
  next c _ =>
    split
    · exact .fault _
    · exact stepLzma1_params h c
    · exact stepLzma2_params h c

/-- Settles O55: the parameters go unchanged through every command, transaction and token. -/
theorem stepKeepsTheParameters : Obligations.StepKeepsTheParameters := by
  unfold Obligations.StepKeepsTheParameters
  intro s t h
  exact step_params rfl t h

end Sys2Proof.Machine
end

section
/-! PROOF. Power-on: the values of the registers and the invariant (10_state.md R57). -/

namespace Sys2Proof.Machine

/-- Settles O56: the state after power-on is a cleared block. -/
theorem resetMeetsTheInvariant : Obligations.ResetMeetsTheInvariant :=
  State.cleared_inv (s := State.reset) (by decide)

/-- Settles O47: each value is the one `State.reset` names; a RAM with nothing listed reads its fresh cells. -/
theorem powerOnValues : Obligations.PowerOnValues :=
  ⟨rfl, rfl, rfl, rfl, rfl, rfl, rfl, rfl, rfl, rfl, rfl, rfl, rfl, rfl, fun _ => rfl, fun _ => rfl, fun _ => rfl,
    rfl, rfl⟩

end Sys2Proof.Machine
end

section
/-! PROOF. The storage keys of the probability cells (10_state.md R34, R35): the key of a cell within its ranges is
read back to the cell, so no two cells share one. -/

namespace Sys2Proof.Machine

/-- The cell stored under a key: the array whose block of keys holds it, and the index within the block. -/
def cellOfKey (key : Nat) : Cell :=
  if key < 192 then .isMatch (key / 16) (key % 16)
  else if key < 384 then .isRep0Long ((key - 192) / 16) ((key - 192) % 16)
  else if key < 396 then .isRep (key - 384)
  else if key < 408 then .isRepG0 (key - 396)
  else if key < 420 then .isRepG1 (key - 408)
  else if key < 432 then .isRepG2 (key - 420)
  else if key < 688 then .posSlot ((key - 432) / 64) ((key - 432) % 64)
  else if key < 704 then .align (key - 688)
  else if key < 705 then .lenChoice .len
  else if key < 706 then .lenChoice2 .len
  else if key < 834 then .lenLow .len ((key - 706) / 8) ((key - 706) % 8)
  else if key < 962 then .lenMid .len ((key - 834) / 8) ((key - 834) % 8)
  else if key < 1218 then .lenHigh .len (key - 962)
  else if key < 1219 then .lenChoice .repLen
  else if key < 1220 then .lenChoice2 .repLen
  else if key < 1348 then .lenLow .repLen ((key - 1220) / 8) ((key - 1220) % 8)
  else if key < 1476 then .lenMid .repLen ((key - 1348) / 8) ((key - 1348) % 8)
  else if key < 1732 then .lenHigh .repLen (key - 1476)
  else if key < 2052 then .specPos ((key - 1732) / 32 + 4) ((key - 1732) % 32)
  else .literal ((key - 2052) / 0x300) ((key - 2052) % 0x300)

/-- The longest tree of `SpecPos` has 32 nodes (10_state.md R35), so 32 keys hold the tree of any slot. -/
theorem specPos_index_lt {slot k : Nat} (hs : slot < 14) (hk : k < 2 ^ (slot / 2 - 1)) : k < 32 :=
  hk.trans_le (Nat.pow_le_pow_right (show 2 > 0 by decide) (show slot / 2 - 1 ≤ 5 by omega))

theorem cellOfKey_of_cellKey {lcLp key : Nat} {c : Cell} (h : c.valid lcLp = true) (hkey : key = cellKey c) :
    cellOfKey key = c := by
  cases c with
  | specPos slot k =>
    simp only [Cell.valid, decide_eq_true_eq, cellKey] at h hkey
    obtain ⟨hlo, hhi, -, hk⟩ := h
    have hk32 := specPos_index_lt hhi hk
    simp (disch := omega) only [cellOfKey, if_pos, if_neg, Cell.specPos.injEq]
    omega
  | literal ctx k =>
    simp only [Cell.valid, decide_eq_true_eq, cellKey] at h hkey
    have hk : k < 0x300 := h.2
    simp (disch := omega) only [cellOfKey, if_neg, Cell.literal.injEq]
    omega
  | lenChoice d | lenChoice2 d => cases d <;> rw [hkey] <;> rfl
  | lenLow d ps k | lenMid d ps k | lenHigh d k =>
    cases d
    all_goals
      simp only [Cell.valid, decide_eq_true_eq, cellKey] at h hkey
      simp (disch := omega) only [cellOfKey, if_pos, if_neg, Cell.lenLow.injEq, Cell.lenMid.injEq,
        Cell.lenHigh.injEq, true_and]
      omega
  | isMatch s ps | isRep0Long s ps | posSlot lps k | isRep s | isRepG0 s | isRepG1 s | isRepG2 s | align k =>
    simp only [Cell.valid, decide_eq_true_eq, cellKey] at h hkey
    simp (disch := omega) only [cellOfKey, if_pos, if_neg, Cell.isMatch.injEq, Cell.isRep0Long.injEq,
      Cell.posSlot.injEq, Cell.isRep.injEq, Cell.isRepG0.injEq, Cell.isRepG1.injEq, Cell.isRepG2.injEq,
      Cell.align.injEq]
    omega

/-- Settles O8: a cell within its ranges is the one read back from its key. -/
theorem cellsShareNoStorage : Obligations.CellsShareNoStorage := by
  unfold Obligations.CellsShareNoStorage
  intro lcLp a b ha hb hkey
  exact (cellOfKey_of_cellKey ha rfl).symm.trans (cellOfKey_of_cellKey hb hkey)

end Sys2Proof.Machine
end

section
/-! PROOF. The packet a state reads next (46_lzma1_core.md R303): the cells its code names lie in the probability RAM,
the decisions of each code are those of its table (30_encoding.md R125, R127 to R129), and the literal's operands are
the dictionary's bytes (42_literal.md R220 to R225). -/

namespace Sys2Proof

variable {α : Type}

/-! ## Decisions of the trees -/

/-- The node before a bit, one bit on: the node of a walk from the root is the bits decided behind a leading 1. -/
theorem treeNode_succ (v i n : Nat) :
    2 * (2 ^ i + v / 2 ^ (n + 1)) + (v.testBit n).toNat = 2 ^ (i + 1) + v / 2 ^ n := by
  rw [toNat_testBit, Nat.pow_succ 2 n, ← Nat.div_div_eq_div_mul, Nat.pow_succ 2 i]
  omega

/-- A forward walk that has decided `i` bits of a symbol of `N` bits decides the other `n`. -/
theorem path_bitTree (cell : Nat → Cell) (k : Nat → BitProg α) (v : Nat) (rest : List Bool) {N i n : Nat}
    (h : i + n = N) :
    (bitTree cell n (2 ^ i + v / 2 ^ n) k).path (msbBits n v ++ rest) =
      (List.range' i n).map (fun j => .cell (cell (2 ^ j + v / 2 ^ (N - j))) (v.testBit (N - 1 - j))) ++
        (k (2 ^ N + v)).path rest := by
  induction n generalizing i with
  | zero => simp [bitTree, msbBits, ← h]
  | succ n ih =>
    have hnode : N - i = n + 1 := by omega
    have hbit : N - 1 - i = n := by omega
    simp only [bitTree, msbBits, List.cons_append, BitProg.path, List.range'_succ, List.map_cons, hnode, hbit,
      treeNode_succ]
    rw [ih (by omega)]

theorem path_forwardTree (cell : Nat → Cell) (k : Nat → BitProg α) {n v : Nat} (hv : v < 2 ^ n)
    (rest : List Bool) :
    (forwardTree cell n k).path (msbBits n v ++ rest) = treeDecisions cell n v ++ (k v).path rest := by
  have h := path_bitTree cell (fun m => k (m - 2 ^ n)) v rest (Nat.zero_add n)
  rw [Nat.div_eq_of_lt hv, Nat.add_sub_cancel_left] at h
  rw [treeDecisions, List.range_eq_range']
  exact h

theorem lsbBits_succ (n v : Nat) : lsbBits (n + 1) v = lsbBits n v ++ [v.testBit n] := by
  induction n generalizing v with
  | zero => rfl
  | succ n ih => rw [lsbBits, ih, lsbBits, List.cons_append, Nat.testBit_succ]

/-- The node of a reverse walk before bit `i` of a symbol, as `reverseDecisions` names it: the bits decided, in the
order decided, behind a leading 1 (41_bit_tree.md R203). -/
def reverseNode (v i : Nat) : Nat := (lsbBits i v).foldl (fun m b => 2 * m + b.toNat) 1

theorem reverseNode_succ (v i : Nat) : reverseNode v (i + 1) = 2 * reverseNode v i + (v.testBit i).toNat := by
  rw [reverseNode, lsbBits_succ, List.foldl_append]
  rfl

/-- A reverse walk that has decided the `i` low bits of a symbol decides the next `n`. -/
theorem path_reverseWalk (cell : Nat → Cell) (k : Nat → BitProg α) (v : Nat) (rest : List Bool) (i n : Nat) :
    (reverseWalk cell n (reverseNode v i) i (v % 2 ^ i) k).path (lsbBits n (v / 2 ^ i) ++ rest) =
      (List.range' i n).map (fun j => .cell (cell (reverseNode v j)) (v.testBit j)) ++
        (k (v % 2 ^ (i + n))).path rest := by
  induction n generalizing i with
  | zero => rfl
  | succ n ih =>
    have hsym : v % 2 ^ i + (v.testBit i).toNat * 2 ^ i = v % 2 ^ (i + 1) := by
      rw [toNat_testBit, mod_two_pow_succ, Nat.add_comm]
    have hrest : v / 2 ^ i / 2 = v / 2 ^ (i + 1) := by rw [Nat.div_div_eq_div_mul, Nat.pow_succ]
    simp only [reverseWalk, lsbBits, List.cons_append, BitProg.path, List.range'_succ, List.map_cons,
      Nat.testBit_div_two_pow, Nat.zero_add, ← reverseNode_succ, hsym, hrest]
    rw [ih, Nat.add_right_comm, Nat.add_assoc]

theorem path_reverseTree (cell : Nat → Cell) (k : Nat → BitProg α) {n v : Nat} (hv : v < 2 ^ n)
    (rest : List Bool) :
    (reverseTree cell n k).path (lsbBits n v ++ rest) = reverseDecisions cell n v ++ (k v).path rest := by
  have h := path_reverseWalk cell k v rest 0 n
  rw [Nat.pow_zero, Nat.mod_one, Nat.div_one, Nat.zero_add, Nat.mod_eq_of_lt hv] at h
  rw [reverseDecisions, List.range_eq_range']
  exact h

theorem path_directBits (k : Nat → BitProg α) (n value v : Nat) (rest : List Bool) :
    (directBits n value k).path (msbBits n v ++ rest) =
      (msbBits n v).map .direct ++ (k (value * 2 ^ n + v % 2 ^ n)).path rest := by
  induction n generalizing value with
  | zero => simp [directBits, msbBits, Nat.mod_one]
  | succ n ih =>
    simp only [directBits, msbBits, List.cons_append, BitProg.path, List.map_cons]
    rw [ih, toNat_testBit, mod_two_pow_succ]
    congr 4
    rw [Nat.pow_succ]; ring

/-! ## Decisions of a literal -/

/-- Two bytes that agree above bit `n` agree from it on exactly when their bits `n` do. -/
theorem div_two_pow_eq_iff_testBit {x y n : Nat} (h : x / 2 ^ (n + 1) = y / 2 ^ (n + 1)) :
    x / 2 ^ n = y / 2 ^ n ↔ x.testBit n = y.testBit n := by
  rw [Nat.pow_succ, ← Nat.div_div_eq_div_mul, ← Nat.div_div_eq_div_mul] at h
  rw [Nat.testBit_eq_decide_div_mod_eq, Nat.testBit_eq_decide_div_mod_eq, decide_eq_decide]
  omega

/-- Bytes that differ from bit `n` on differ from each lower bit on. -/
theorem div_two_pow_ne_of_le {x y m n : Nat} (hmn : m ≤ n) (h : x / 2 ^ n ≠ y / 2 ^ n) :
    x / 2 ^ m ≠ y / 2 ^ m := by
  intro he
  obtain ⟨d, rfl⟩ := Nat.exists_eq_add_of_le hmn
  rw [Nat.pow_add, ← Nat.div_div_eq_div_mul, ← Nat.div_div_eq_div_mul, he] at h
  exact h rfl

theorem msb_shiftLeft_eq_testBit (mb : Byte) {i n : Nat} (h : i + (n + 1) = 8) :
    (mb <<< i).msb = mb.toNat.testBit n := by
  have hi : i < 8 := by omega
  rw [BitVec.msb_shiftLeft, BitVec.getMsbD, decide_eq_true hi, Bool.true_and, BitVec.getLsbD,
    show 8 - 1 - i = n by omega]

theorem literalCell_of_agree {ctx : Nat} {mb b : Byte} {i n : Nat} (h : i + (n + 1) = 8)
    (hagree : mb.toNat / 2 ^ (n + 1) = b.toNat / 2 ^ (n + 1)) :
    literalCell { ctx := ctx, matchByte := some mb } b i =
      .literal ctx (0x100 + (mb.toNat.testBit n).toNat * 0x100 + (2 ^ i + b.toNat / 2 ^ (n + 1))) := by
  have h8 : 8 - i = n + 1 := by omega
  have h7 : 7 - i = n := by omega
  simp only [literalCell, h8, h7, hagree, if_true, toNat_testBit]

theorem literalCell_of_differ {ctx : Nat} {mb b : Byte} {j : Nat}
    (hdiffer : mb.toNat / 2 ^ (8 - j) ≠ b.toNat / 2 ^ (8 - j)) :
    literalCell { ctx := ctx, matchByte := some mb } b j = .literal ctx (2 ^ j + b.toNat / 2 ^ (8 - j)) := by
  simp only [literalCell, if_neg hdiffer]

/-- A matched walk whose `i` bits so far agree with the match byte: it goes on so, or leaves for the normal cells at
the first bit that does not (42_literal.md R223). -/
theorem path_matchedWalk (ctx : Nat) (k : Nat → BitProg α) (mb b : Byte) (rest : List Bool) {i n : Nat}
    (h : i + n = 8) (hagree : mb.toNat / 2 ^ n = b.toNat / 2 ^ n) :
    (matchedWalk ctx n (2 ^ i + b.toNat / 2 ^ n) (mb <<< i) k).path (msbBits n b.toNat ++ rest) =
      (List.range' i n).map
          (fun j => .cell (literalCell { ctx := ctx, matchByte := some mb } b j) (b.toNat.testBit (7 - j))) ++
        (k (2 ^ 8 + b.toNat)).path rest := by
  induction n generalizing i with
  | zero => simp [matchedWalk, msbBits, ← h]
  | succ n ih =>
    have hbit : 7 - i = n := by omega
    simp only [matchedWalk, msbBits, List.cons_append, BitProg.path, List.range'_succ, List.map_cons,
      treeNode_succ, literalCell_of_agree h hagree, hbit, msb_shiftLeft_eq_testBit mb h, ← BitVec.shiftLeft_add]
    congr 1
    by_cases hb : b.toNat.testBit n = mb.toNat.testBit n
    · rw [if_pos hb, ih (by omega) ((div_two_pow_eq_iff_testBit hagree).mpr hb.symm)]
    · have hn := mt (div_two_pow_eq_iff_testBit hagree).mp (Ne.symm hb)
      rw [if_neg hb, path_bitTree (.literal ctx) k b.toNat rest (show i + 1 + n = 8 by omega)]
      congr 1
      refine List.map_congr_left fun j hj => ?_
      have hj' : i + 1 ≤ j := (List.mem_range'_1.mp hj).1
      rw [literalCell_of_differ (div_two_pow_ne_of_le (by omega) hn)]

theorem path_literalProg (src : LitSrc) (k : Byte → BitProg α) (b : Byte) (rest : List Bool) :
    (literalProg src k).path (msbBits 8 b.toNat ++ rest) = literalDecisions src b ++ (k b).path rest := by
  have hroot : 2 ^ 0 + b.toNat / 2 ^ 8 = 1 := by rw [Nat.div_eq_of_lt b.isLt]; rfl
  have hend : BitVec.ofNat 8 (2 ^ 8 + b.toNat - 0x100) = b := by simp
  obtain ⟨ctx, matchByte⟩ := src
  rw [literalDecisions, List.range_eq_range']
  cases matchByte with
  | none =>
    have h := path_bitTree (.literal ctx) (fun m => k (BitVec.ofNat 8 (m - 0x100))) b.toNat rest (Nat.zero_add 8)
    rw [hroot, hend] at h
    exact h
  | some mb =>
    have h := path_matchedWalk ctx (fun m => k (BitVec.ofNat 8 (m - 0x100))) mb b rest (Nat.zero_add 8)
      (by rw [Nat.div_eq_of_lt mb.isLt, Nat.div_eq_of_lt b.isLt])
    rw [hroot, hend, BitVec.shiftLeft_zero] at h
    exact h

/-! ## Decisions of a length and of a distance -/

theorem path_lengthProg (d : LenSel) (ps : Nat) (k : Nat → BitProg α) {len : Nat} (h : lenOk len = true)
    (rest : List Bool) :
    (lengthProg d ps k).path (lengthBits len ++ rest) = lengthDecisions d ps len ++ (k len).path rest := by
  obtain ⟨hmin, hmax⟩ := (lenOk_iff len).mp h
  unfold lengthProg lengthBits lengthDecisions
  split
  · simp only [List.cons_append, BitProg.path]
    rw [path_forwardTree _ _ (by omega), show 2 + (len - 2) = len by omega]
  · split
    · simp only [List.cons_append, BitProg.path]
      rw [path_forwardTree _ _ (by omega), show 2 + 8 + (len - 10) = len by omega]
    · simp only [List.cons_append, BitProg.path]
      rw [path_forwardTree _ _ (by omega), show 2 + 16 + (len - 18) = len by omega]

theorem path_distanceProg (len : Nat) (k : Nat → BitProg α) {dist : Nat} (h : distOk dist = true)
    (rest : List Bool) :
    (distanceProg len k).path (distanceBits dist ++ rest) = distanceDecisions len dist ++ (k dist).path rest := by
  obtain ⟨hmin, -⟩ := (distOk_iff dist).mp h
  unfold distanceProg distanceBits distanceDecisions
  rw [List.append_assoc, path_forwardTree _ _ (slotOf_lt h), List.append_assoc]
  congr 1
  rcases Nat.lt_or_ge 4 dist with h4 | h4
  · obtain ⟨hs, hlo, hhi⟩ := slotOf_range h4
    generalize slotOf dist = slot at hs hlo hhi ⊢
    simp only [offsetBits, offsetDecisions, if_neg (Nat.not_lt.mpr hs)]
    by_cases h14 : slot < 14
    · simp only [if_pos h14]
      rw [path_reverseTree _ _ (by omega), show slotBase slot + (dist - 1 - slotBase slot) + 1 = dist by omega]
    · rw [slotBits_eq (Nat.not_lt.mp h14), Nat.pow_add] at hhi
      have hhigh : (dist - 1 - slotBase slot) / 16 % 2 ^ (slotBits slot - 4) = (dist - 1 - slotBase slot) / 16 :=
        Nat.mod_eq_of_lt (by omega)
      have hlow : (dist - 1 - slotBase slot) % 16 < 2 ^ 4 := Nat.mod_lt _ (by decide)
      simp only [if_neg h14, List.append_assoc]
      rw [path_directBits, path_reverseTree _ _ hlow, hhigh]
      congr 4
      omega
  · have hs : slotOf dist = dist - 1 := if_pos h4
    rw [hs, if_pos (by omega), offsetBits, if_pos (by omega), offsetDecisions, if_pos (by omega), List.nil_append,
      List.nil_append, Nat.sub_add_cancel hmin]

/-! ## The packet -/

/-- Reading a packet's encoding takes the decisions of its row of the table of R125, whatever the context. -/
theorem path_packetProg (c : PacketCtx) {i : Instr} {bits : List Bool} (hp : i.isPacket = true)
    (hw : i.wellFormed = true) (he : encode i = .decisions bits) :
    (packetProg c).path bits = i.decisions c.st c.ps c.lit := by
  have hlength (d : LenSel) (f : Nat → Instr) (len : Nat) (h : lenOk len = true) :
      (lengthProg d c.ps fun len => .done (some (f len))).path (lengthBits len) = lengthDecisions d c.ps len := by
    simpa [BitProg.path] using path_lengthProg d c.ps (fun len => .done (some (f len))) h []
  cases i with
  | lit b =>
    cases he
    cases hlit : c.lit with
    | none => simp [packetProg, Instr.decisions, BitProg.path, hlit]
    | some src =>
      have h := path_literalProg src (fun b => .done (some (Instr.lit b))) b []
      simpa [packetProg, Instr.decisions, BitProg.path, hlit] using h
  | matchNew dist len =>
    cases he
    obtain ⟨hd, hl⟩ := (Bool.and_eq_true _ _).mp hw
    have h := path_distanceProg len (fun dist => .done (some (Instr.matchNew dist len))) hd []
    rw [List.append_nil, BitProg.path, List.append_nil] at h
    simp [packetProg, Instr.decisions, BitProg.path, path_lengthProg _ _ _ hl, h]
  | shortRep => cases he; rfl
  | rep0 len | rep1 len | rep2 len | rep3 len =>
    cases he
    simp [packetProg, Instr.decisions, BitProg.path, hlength _ _ len hw]
  | _ => cases hp

/-! ## The cells of a packet -/

section Valid
variable {lcLp : Nat} {Q : α → Prop}

theorem all_valid_lengthProg {d : LenSel} {ps : Nat} {k : Nat → BitProg α} (hps : ps < 16)
    (hk : ∀ len, (k len).All (fun cell => cell.valid lcLp = true) Q) :
    (lengthProg d ps k).All (fun cell => cell.valid lcLp = true) Q :=
  all_lengthProg rfl rfl (fun _ h1 h8 => decide_eq_true ⟨hps, h1, h8⟩) (fun _ h1 h8 => decide_eq_true ⟨hps, h1, h8⟩)
    (fun _ h1 h256 => decide_eq_true ⟨h1, h256⟩) fun len _ => hk len

theorem all_valid_distanceProg {len : Nat} {k : Nat → BitProg α}
    (hk : ∀ dist, (k dist).All (fun cell => cell.valid lcLp = true) Q) :
    (distanceProg len k).All (fun cell => cell.valid lcLp = true) Q :=
  all_distanceProg (fun _ h1 h64 => decide_eq_true ⟨by omega, h1, h64⟩)
    (fun _ _ h4 h14 h1 hj => decide_eq_true ⟨h4, h14, h1, hj⟩) (fun _ h1 h16 => decide_eq_true ⟨h1, h16⟩)
    fun dist _ => hk dist

theorem all_bit {P : Cell → Prop} {c : Cell} {k : Bool → BitProg α} (hc : P c) (h0 : (k false).All P Q)
    (h1 : (k true).All P Q) : (BitProg.bit c k).All P Q :=
  ⟨hc, Bool.forall_bool.mpr ⟨h0, h1⟩⟩

end Valid

/-- A packet read with `State`, `posState` and a literal context in their ranges names cells of the arrays of R35. -/
theorem all_valid_packetProg {lcLp : Nat} {c : PacketCtx} (hst : c.st < 12) (hps : c.ps < 16)
    (hlit : ∀ src, c.lit = some src → src.ctx < 2 ^ lcLp) :
    (packetProg c).All (fun cell => cell.valid lcLp = true) (fun _ => True) := by
  refine all_bit (decide_eq_true ⟨hst, hps⟩) ?literal
    (all_bit (decide_eq_true hst) ?newDistance
      (all_bit (decide_eq_true hst)
        (all_bit (decide_eq_true ⟨hst, hps⟩) trivial ?rep0)
        (all_bit (decide_eq_true hst) ?rep1 (all_bit (decide_eq_true hst) ?rep2 ?rep3))))
  case literal =>
    cases h : c.lit with
    | none => trivial
    | some src => exact all_literalProg (fun _ hk => decide_eq_true ⟨hlit src h, hk⟩) fun _ => trivial
  case newDistance => exact all_valid_lengthProg hps fun _ => all_valid_distanceProg fun _ => trivial
  case rep0 | rep1 | rep2 | rep3 => exact all_valid_lengthProg hps fun _ => trivial

end Sys2Proof

namespace Sys2Proof.Machine

/-! ## The operands of a packet -/

theorem posState_lt_pow (totalWritten : U64) (pb : Fin 5) : posState totalWritten pb < 2 ^ pb.val :=
  Nat.mod_lt _ (Nat.two_pow_pos _)

/-- The context is the low `lp` bits of the position above the high `lc` bits of the byte before (R220). -/
theorem litContext_lt (totalWritten : U64) (prev : Byte) (p : LcLpPb) :
    litContext totalWritten prev p < 2 ^ (p.lc.val + p.lp.val) := by
  have hpos : totalWritten.toNat % 2 ^ p.lp.val < 2 ^ p.lp.val := Nat.mod_lt _ (Nat.two_pow_pos _)
  have hprev : prev.toNat / 2 ^ (8 - p.lc.val) < 2 ^ p.lc.val := by
    rw [Nat.div_lt_iff_lt_mul (Nat.two_pow_pos _), ← Nat.pow_add, Nat.add_sub_cancel' (Nat.le_of_lt_succ p.lc.isLt)]
    exact prev.isLt
  rw [Nat.add_comm, Nat.pow_add]
  calc totalWritten.toNat % 2 ^ p.lp.val * 2 ^ p.lc.val + prev.toNat / 2 ^ (8 - p.lc.val)
      < (totalWritten.toNat % 2 ^ p.lp.val + 1) * 2 ^ p.lc.val := by rw [Nat.succ_mul]; omega
    _ ≤ 2 ^ p.lp.val * 2 ^ p.lc.val := Nat.mul_le_mul_right _ hpos

/-- The literal's operands once the byte before is known: none further below `State` 7, else the match byte. -/
theorem State.litOperand_of_prevByte {s : State} {prev : Byte} (h : s.dict.prevByte = .ok prev) :
    s.litOperand =
      if s.lzma.lzState.val < 7 then
        .ok { ctx := litContext s.dict.totalWritten prev s.cfg.props, matchByte := none }
      else (s.dict.get s.lzma.rep0.toNat).map fun mb =>
        { ctx := litContext s.dict.totalWritten prev s.cfg.props, matchByte := some mb } := by
  simp only [State.litOperand, h, ok_bind, isLiteralState, decide_eq_true_eq]
  cases s.dict.get s.lzma.rep0.toNat <;> rfl

/-- What a literal's operands are when they can be read (42_literal.md R220, R224). -/
theorem State.litOperand_ok {s : State} {src : LitSrc} (h : s.litOperand = .ok src) :
    ∃ prev, s.dict.prevByte = .ok prev ∧ src.ctx = litContext s.dict.totalWritten prev s.cfg.props ∧
      (s.lzma.lzState.val < 7 → src.matchByte = none) ∧
      (7 ≤ s.lzma.lzState.val → ∃ mb, s.dict.get s.lzma.rep0.toNat = .ok mb ∧ src.matchByte = some mb) := by
  cases hp : s.dict.prevByte with
  | error e => simp [State.litOperand, hp] at h
  | ok prev =>
    rw [State.litOperand_of_prevByte hp] at h
    refine ⟨prev, rfl, ?_⟩
    by_cases h7 : s.lzma.lzState.val < 7
    · rw [if_pos h7] at h
      cases h
      exact ⟨rfl, fun _ => rfl, fun h7' => absurd h7 (Nat.not_lt.mpr h7')⟩
    · rw [if_neg h7] at h
      cases hg : s.dict.get s.lzma.rep0.toNat with
      | error e => simp [hg, Except.map] at h
      | ok mb =>
        rw [hg] at h
        cases h
        exact ⟨rfl, fun h7' => absurd h7' h7, fun _ => ⟨mb, rfl, rfl⟩⟩

/-- In a kept dictionary only the match byte can be missing (42_literal.md R225). -/
theorem State.litOperand_error {s : State} {dm : Word} {e : Stop} (hk : s.dict.Kept dm)
    (h : s.litOperand = .error e) :
    7 ≤ s.lzma.lzState.val ∧ s.dict.get s.lzma.rep0.toNat = .error (.raise (.error .invalidDistance)) := by
  obtain ⟨prev, hp⟩ := Dict.prevByte_ok hk
  rw [State.litOperand_of_prevByte hp] at h
  split at h
  · cases h
  next h7 =>
    refine ⟨Nat.not_lt.mp h7, ?_⟩
    rcases Dict.get_cases hk s.lzma.rep0.toNat with ⟨-, -, mb, hg⟩ | ⟨-, hg⟩
    · rw [hg] at h
      cases h
    · exact hg

theorem State.packetCtx_lit_eq_some {s : State} {src : LitSrc} :
    s.packetCtx.lit = some src ↔ s.litOperand = .ok src := by
  rw [State.packetCtx]
  cases s.litOperand <;> simp [Except.toOption]

theorem State.packetCtx_lit_eq_none {s : State} : s.packetCtx.lit = none ↔ ∃ e, s.litOperand = .error e := by
  rw [State.packetCtx]
  cases s.litOperand <;> simp [Except.toOption]

theorem Dict.prevByte_of_empty {d : Dict} {prev : Byte} (h : d.prevByte = .ok prev) (h0 : d.totalWritten = 0) :
    prev = 0 := by
  rw [Dict.prevByte, if_pos h0] at h
  cases h
  rfl

theorem Dict.prevByte_of_nonempty {d : Dict} {prev : Byte} (h : d.prevByte = .ok prev) (h0 : d.totalWritten ≠ 0) :
    d.get 1 = .ok prev := by
  rwa [Dict.prevByte, if_neg h0] at h

/-- The cells of the packet a state reads next are those of R35 for its `lc + lp`. -/
theorem State.all_valid_packetCtx (s : State) :
    (packetProg s.packetCtx).All (fun cell => cell.valid (s.cfg.props.lc.val + s.cfg.props.lp.val) = true)
      (fun _ => True) := by
  refine all_valid_packetProg s.lzma.lzState.isLt ?_ fun src hsrc => ?_
  · exact (posState_lt_pow _ _).trans_le
      (Nat.pow_le_pow_right (show 2 > 0 by decide) (show s.cfg.props.pb.val ≤ 4 by omega))
  · obtain ⟨prev, -, hctx, -, -⟩ := State.litOperand_ok (State.packetCtx_lit_eq_some.mp hsrc)
    rw [hctx]
    exact litContext_lt _ _ _

/-- Settles O7: the ranges of the operands bound the cells, the path of each code is its table's, and the literal's
operands are read from the dictionary. -/
theorem packetNamesOnlyCellsOfTheRam : Obligations.PacketNamesOnlyCellsOfTheRam := by
  unfold Obligations.PacketNamesOnlyCellsOfTheRam
  refine ⟨fun s ps hps => ?_, fun s dm hk hnone => ?_⟩
  · subst hps
    refine ⟨posState_lt_pow _ _, s.all_valid_packetCtx, fun i bits hp hw he => path_packetProg _ hp hw he, ?_⟩
    intro src hsrc
    obtain ⟨prev, hprev, hctx, hliteral, hmatched⟩ := State.litOperand_ok (State.packetCtx_lit_eq_some.mp hsrc)
    exact ⟨prev, Dict.prevByte_of_empty hprev, Dict.prevByte_of_nonempty hprev, hctx, hliteral, hmatched⟩
  · obtain ⟨e, he⟩ := State.packetCtx_lit_eq_none.mp hnone
    exact State.litOperand_error hk he

end Sys2Proof.Machine
end

section
/-! PROOF. The ring of the dictionary (20_memory.md R81, R83, R84): what a written byte does to every distance, and the
bytes a pending copy takes from it (R85, 46_lzma1_core.md R313). -/

namespace Sys2Proof.Machine

/-! ## Reading after a write -/

theorem Dict.Kept.cap_pos {d : Dict} {dm : Word} (h : d.Kept dm) : 0 < d.cap.toNat :=
  Nat.zero_lt_of_lt h.writePos

@[simp] theorem Dict.after_cap (d : Dict) (b : Byte) : (d.after b).cap = d.cap := rfl

theorem Dict.Kept.after_writePos {d : Dict} {dm : Word} (h : d.Kept dm) (b : Byte) :
    (d.after b).writePos.toNat = (d.writePos.toNat + 1) % d.cap.toNat := by
  simp only [Dict.after, BitVec.toNat_ofNat]
  exact Nat.mod_eq_of_lt ((Nat.mod_lt _ h.cap_pos).trans d.cap.isLt)

theorem Dict.after_totalWritten {d : Dict} (h : d.totalWritten.toNat + 1 < 2 ^ 64) (b : Byte) :
    (d.after b).totalWritten.toNat = d.totalWritten.toNat + 1 := by
  simp only [Dict.after, BitVec.toNat_add]
  exact Nat.mod_eq_of_lt h

/-- `DictGet` depends on nothing but the outcome of the check and the cell at the ring index. -/
theorem Dict.get_congr {d e : Dict} {j k : Nat} (hc : (1 ≤ j ∧ j ≤ d.reach) ↔ (1 ≤ k ∧ k ≤ e.reach))
    (hr : d.read (ringIndex d.writePos.toNat j d.cap.toNat) = e.read (ringIndex e.writePos.toNat k e.cap.toNat)) :
    d.get j = e.get k := by
  simp only [Dict.get, Dict.checkDistance, hc, hr]

theorem Dict.get_error {d : Dict} {dist : Nat} (h : ¬ (1 ≤ dist ∧ dist ≤ d.reach)) :
    d.get dist = .error (.raise (.error .invalidDistance)) := by
  simp [Dict.get, Dict.checkDistance_error h]

theorem Dict.Kept.get_after_one {d : Dict} {dm : Word} (h : d.Kept dm) (htw : d.totalWritten.toNat + 1 < 2 ^ 64)
    (b : Byte) : (d.after b).get 1 = .ok b := by
  refine Dict.get_ok ⟨Nat.le_refl 1, ?_⟩ ?_
  · have := h.cap_pos
    simp only [Dict.reach, Dict.after_totalWritten htw, Dict.after_cap]
    omega
  · rw [h.after_writePos, Dict.after_cap, ringIndex_next_one h.writePos]
    simp [Dict.read, Dict.after]

/-- A byte that stays within the ring moves one distance back. -/
theorem Dict.Kept.get_after_succ {d : Dict} {dm : Word} (h : d.Kept dm) (htw : d.totalWritten.toNat + 1 < 2 ^ 64)
    (b : Byte) {k : Nat} (hk : 1 ≤ k) (hcap : k < d.cap.toNat) : (d.after b).get (k + 1) = d.get k := by
  refine Dict.get_congr ?_ ?_
  · simp only [Dict.reach, Dict.after_totalWritten htw, Dict.after_cap]
    omega
  · rw [h.after_writePos, Dict.after_cap, ringIndex_next_succ h.writePos hk hcap]
    exact sparseGet_set_ne _ _ (ringIndex_ne_writePos h.writePos hk hcap)

/-- Settles O23: the write moves the ring index of every distance by one cell, and the window of the kept ring holds
a byte at each distance within reach. -/
theorem writtenBytesMoveOneDistanceBack : Obligations.WrittenBytesMoveOneDistanceBack := by
  unfold Obligations.WrittenBytesMoveOneDistanceBack
  intro d dm b h htw
  refine ⟨h.after b, rfl, h.get_after_one htw b, fun k hk hcap => h.get_after_succ htw b hk hcap, ?_, ?_⟩
  · intro dist h1 hreach
    obtain ⟨x, hx⟩ := Option.isSome_iff_exists.mp (h.window dist h1 hreach)
    exact ⟨x, Dict.get_ok ⟨h1, hreach⟩ hx, hx⟩
  · intro dist hd
    exact Dict.get_error (by simp only [Dict.reach]; omega)

/-! ## A pending copy -/

/-- The bytes a copy at distance `dist` gives from the dictionary `d` (R85): byte `k` stands at distance `dist - k` of
`d`, or is a byte of the copy itself. -/
def Dict.Repeats (d : Dict) (dist : Nat) (bs : List Byte) : Prop :=
  ∀ k, k < bs.length →
    (k < dist → ∃ b, d.get (dist - k) = .ok b ∧ bs[k]? = some b) ∧ (dist ≤ k → bs[k]? = bs[k - dist]?)

theorem Dict.repeats_nil (d : Dict) (dist : Nat) : d.Repeats dist [] := fun _ hk => absurd hk (Nat.not_lt_zero _)

/-- The byte at distance `dist`, and then what the copy gives once that byte has been written. -/
theorem Dict.Kept.repeats_cons {d : Dict} {dm : Word} (h : d.Kept dm) (htw : d.totalWritten.toNat + 1 < 2 ^ 64)
    {dist : Nat} {b : Byte} {bs : List Byte} (h1 : 1 ≤ dist) (hcap : dist ≤ d.cap.toNat)
    (hb : d.get dist = .ok b) (hbs : (d.after b).Repeats dist bs) : d.Repeats dist (b :: bs) := by
  intro k hk
  cases k with
  | zero => exact ⟨fun _ => ⟨b, hb, rfl⟩, fun h0 => absurd h0 (by omega)⟩
  | succ k =>
    obtain ⟨hbefore, hself⟩ := hbs k (by simpa using hk)
    refine ⟨fun hlt => ?_, fun hle => ?_⟩
    · obtain ⟨x, hx, hxk⟩ := hbefore (by omega)
      refine ⟨x, ?_, by simpa using hxk⟩
      rw [← h.get_after_succ htw b (by omega) (by omega), ← hx]
      congr 1
      omega
    · obtain rfl | hle := Nat.eq_or_lt_of_le hle
      · obtain ⟨x, hx, hxk⟩ := hbefore (by omega)
        rw [Nat.add_sub_cancel_left, h.get_after_one htw b] at hx
        cases hx
        simpa using hxk
      · rw [show k + 1 - dist = k - dist + 1 by omega, List.getElem?_cons_succ, List.getElem?_cons_succ]
        exact hself (by omega)

/-- A copy of `len` bytes at distance `dist` is pending: it fits in what remains and in the output space, and its
distance is within reach of a kept dictionary whose counter does not overflow. -/
structure State.Copying (s : State) (dm : Word) (dist : Word) (len : Nat) : Prop where
  call : ∃ c, s.activity = .decoding c ∧ len ≤ c.outSpace
  remaining : ∃ n, s.readRemaining = .ok n ∧ len ≤ n
  pendDist : s.lzma.pendDist = dist
  pendLen : s.lzma.pendLen.toNat = len
  kept : s.dict.Kept dm
  near : 1 ≤ dist.toNat
  reach : dist.toNat ≤ s.dict.reach
  total : s.dict.totalWritten.toNat + len < 2 ^ 64

@[simp] theorem Lzma.countDown_pendLen (l : Lzma) (m : Mode) : (l.countDown m).pendLen = l.pendLen := by
  cases m <;> rfl

@[simp] theorem Lzma.countDown_pendDist (l : Lzma) (m : Mode) : (l.countDown m).pendDist = l.pendDist := by
  cases m <;> rfl

theorem Dict.reach_le_after {d : Dict} (h : d.totalWritten.toNat + 1 < 2 ^ 64) (b : Byte) :
    d.reach ≤ (d.after b).reach := by
  simp only [Dict.reach, Dict.after_totalWritten h, Dict.after_cap]
  omega

/-- `Remaining` after it has counted down. -/
theorem State.readRemaining_countDown {s t : State} {n : Nat} (h : s.readRemaining = .ok n) (hn : 1 ≤ n)
    (hm : t.ctl.mode = s.ctl.mode)
    (hu : t.lzma.unpackRemaining = (s.lzma.countDown s.ctl.mode).unpackRemaining)
    (hc : t.framer = s.framer.countDown s.ctl.mode) : t.readRemaining = .ok (n - 1) := by
  unfold State.readRemaining at h ⊢
  rw [hm, hu, hc]
  cases hmode : s.ctl.mode with
  | unconfigured => rw [hmode] at h; cases h
  | lzma1 =>
    rw [hmode] at h
    cases h
    exact congrArg Except.ok (BitVec.toNat_sub_of_le (BitVec.le_def.mpr hn))
  | lzma2 =>
    rw [hmode] at h
    cases h
    exact congrArg Except.ok (BitVec.toNat_sub_of_le (BitVec.le_def.mpr hn))

/-- One step of a pending copy: the byte at its distance is written and emitted, and the rest of the copy is
pending. -/
theorem State.Copying.copyStep {s : State} {dm dist : Word} {len : Nat} (h : s.Copying dm dist (len + 1)) :
    ∃ b t, s.dict.get dist.toNat = .ok b ∧ copyStep s = .next t ∧ t.dict = s.dict.after b ∧
      t.host.out = s.host.out ++ [b] ∧ t.Copying dm dist len := by
  obtain ⟨⟨c, ha, hspace⟩, ⟨n, hr, hn⟩, rfl, hlen, hkept, hnear, hreach, htotal⟩ := h
  have htw : s.dict.totalWritten.toNat + 1 < 2 ^ 64 := by omega
  obtain ⟨b, hb⟩ := Option.isSome_iff_exists.mp (hkept.window _ hnear hreach)
  have hget := Dict.get_ok ⟨hnear, hreach⟩ hb
  refine ⟨b, _, hget, copyStep_ok ha (by omega) hr hget, rfl, rfl, ?_⟩
  exact {
    call := ⟨_, rfl, by rw [Call.afterEmit_outSpace]; omega⟩
    remaining := ⟨n - 1, State.readRemaining_countDown hr (by omega) rfl (by cases s.ctl.mode <;> rfl) rfl, by omega⟩
    pendDist := by simp
    pendLen := by rw [Lzma.countDown_pendLen]; bv_omega
    kept := hkept.after b
    near := hnear
    reach := hreach.trans (Dict.reach_le_after htw b)
    total := by rw [Dict.after_totalWritten htw]; omega }

/-- A pending copy run to its end, one byte after the other. -/
theorem State.Copying.copySteps {s : State} {dm dist : Word} {len : Nat} (h : s.Copying dm dist len) :
    ∃ t bs, copySteps len s = .next t ∧ t.lzma.pendLen = 0 ∧ t.host.out = s.host.out ++ bs ∧ bs.length = len ∧
      s.dict.Repeats dist.toNat bs := by
  induction len generalizing s with
  | zero => exact ⟨s, [], rfl, BitVec.eq_of_toNat_eq h.pendLen, by simp, rfl, s.dict.repeats_nil _⟩
  | succ len ih =>
    obtain ⟨b, s1, hb, hstep, hdict, hout, h1⟩ := h.copyStep
    obtain ⟨t, bs, hrun, hpend, hout', hlen, hrep⟩ := ih h1
    have htotal := h.total
    refine ⟨t, b :: bs, ?_, hpend, ?_, by simp [hlen], ?_⟩
    · simp only [Machine.copySteps, hstep, hrun]
    · simp [hout', hout]
    · exact h.kept.repeats_cons (by omega) h.near (h.reach.trans (Nat.min_le_right _ _)) hb (hdict ▸ hrep)

/-- Settles O25, by induction on the length of the copy. -/
theorem overlappingCopyRepeatsItself : Obligations.OverlappingCopyRepeatsItself := by
  unfold Obligations.OverlappingCopyRepeatsItself
  intro s c dist n len hinv ha hr hdist hlen hn hspace hnear hreach htotal
  have h : s.Copying s.params.dictMax dist len :=
    ⟨⟨c, ha, hspace⟩, ⟨n, hr, hn⟩, hdist, hlen, hinv.dict, hnear, hreach, htotal⟩
  obtain ⟨t, bs, hrun, hpend, hout, hlength, hrep⟩ := h.copySteps
  exact ⟨t, bs, hrun, hpend, hout, hlength, fun k hk => hrep k (by omega)⟩

end Sys2Proof.Machine
end

section
/-! PROOF. The output port and the dictionary through a step of a `Decode` call (20_memory.md R83, R87). Each operation
of the engine is said once to leave both alone, to write one byte and emit it, or, for two of the chunk headers, to
reset the dictionary (R82). -/

namespace Sys2Proof.Machine

/-! ## What an operation does to the dictionary and the output -/

/-- From `s` to `t` nothing is emitted and the dictionary is as it was. -/
def State.Silent (s t : State) : Prop :=
  t.host.out = s.host.out ∧ t.ctl.outTotal = s.ctl.outTotal ∧ t.dict = s.dict

/-- From `s` to `t` one byte is written to the dictionary and the same byte is emitted. -/
def State.Writes (s t : State) : Prop :=
  ∃ b, t.dict = s.dict.after b ∧ t.host.out = s.host.out ++ [b] ∧ t.ctl.outTotal = s.ctl.outTotal + 1

/-- From `s` to `t` nothing is emitted and the dictionary is reset. -/
def State.Resets (s t : State) : Prop :=
  t.host.out = s.host.out ∧ t.ctl.outTotal = s.ctl.outTotal ∧ t.dict = s.dict.clear

/-- From `s` to `t` what is written is emitted: one byte, or none. -/
def State.EmitsItsWrites (s t : State) : Prop := s.Writes t ∨ s.Silent t

/-- Whatever state the operation answers has the property `P`. -/
def Answers (P : State → Prop) (r : Except Stop State) : Prop := ∀ t, r = .ok t → P t

/-- Whatever next state the outcome is has the property `P`. -/
def EndsWith (P : State → Prop) (o : Host.Outcome State Fault Refusal) : Prop := ∀ t, o = .next t → P t

variable {s t : State} {P Q : State → Prop}

theorem Answers.ok (h : P s) : Answers P (.ok s) := by
  rintro _ ⟨⟩
  exact h

theorem Answers.error (e : Stop) : Answers P (.error e) := by
  rintro _ ⟨⟩

/-- An operation followed by another: the second one decides, for each value the first one answers. -/
theorem Answers.bind {α : Type} {x : Except Stop α} {f : α → Except Stop State}
    (h : ∀ a, x = .ok a → Answers P (f a)) : Answers P (x >>= f) := by
  intro t ht
  obtain ⟨a, ha, hf⟩ := bind_ok ht
  exact h a ha t hf

theorem EndsWith.next (h : P s) : EndsWith P (.next s) := by
  rintro _ ⟨⟩
  exact h

theorem EndsWith.mono {o : Host.Outcome State Fault Refusal} (hPQ : ∀ t, P t → Q t) (h : EndsWith P o) :
    EndsWith Q o := fun t ht => hPQ t (h t ht)

/-! ## Shared operations -/

theorem State.rollback_silent (s : State) (c : Call) : s.Silent (s.rollback c) := by
  unfold State.rollback
  split <;> exact ⟨rfl, rfl, rfl⟩

theorem takeRaise_silent (s : State) (r : Raise) : EndsWith s.Silent (takeRaise s r) := by
  unfold takeRaise
  split
  next c _ => exact .next (s.rollback_silent c)
  next => exact .next ⟨rfl, rfl, rfl⟩
  next => rintro _ ⟨⟩

/-- A transaction ends in its result, or in what an event leaves. -/
theorem deliver_or_silent {r : Except Stop State} (hr : Answers P r) :
    EndsWith (fun t => P t ∨ s.Silent t) (deliver s r) := by
  match r with
  | .ok s' => exact .next (.inl (hr s' rfl))
  | .error (.raise e) => exact (takeRaise_silent s e).mono fun _ => .inr
  | .error (.fault f) => rintro _ ⟨⟩

theorem deliver_silent {r : Except Stop State} (hr : Answers s.Silent r) : EndsWith s.Silent (deliver s r) :=
  (deliver_or_silent hr).mono fun _ h => h.elim id id

theorem State.commit_silent (h : s.Silent t) : Answers s.Silent t.commit := .bind fun _ _ => .ok h

theorem State.commit_resets (h : s.Resets t) : Answers s.Resets t.commit := .bind fun _ _ => .ok h

theorem State.dictPut_writes (h : s.Silent t) (b : Byte) : Answers s.Writes (t.dictPut b) := by
  obtain ⟨hout, htotal, hdict⟩ := h
  exact .bind fun _ _ => .ok ⟨b, by rw [hdict, Dict.put_after], by rw [hout], by rw [htotal]⟩

theorem State.decRemaining_writes (h : s.Writes t) : Answers s.Writes t.decRemaining := by
  unfold State.decRemaining
  split
  · exact .ok h
  · exact .ok h
  · exact .error _

/-! ## Packets -/

theorem copyPacket_silent (dist len : Nat) (lzma : Lzma) : EndsWith s.Silent (copyPacket s dist len lzma) :=
  deliver_silent (.bind fun _ _ => State.commit_silent ⟨rfl, rfl, rfl⟩)

theorem execLit_emits (b : Byte) : EndsWith s.EmitsItsWrites (execLit b s) :=
  deliver_or_silent <| .bind fun _ _ => .bind fun _ _ => .bind fun s1 h1 => .bind fun s2 h2 =>
    have hcommit : s.Silent s1 := State.commit_silent (by exact ⟨rfl, rfl, rfl⟩) s1 h1
    State.decRemaining_writes (State.dictPut_writes hcommit b s2 h2)

/-- A literal writes and emits its byte; a copy packet only starts its copy. -/
theorem exec_packet_emits {i : Instr} (hi : i.isPacket = true) : EndsWith s.EmitsItsWrites (exec i s) := by
  cases i with
  | lit b => exact execLit_emits b
  | matchNew dist len => exact (copyPacket_silent _ _ _).mono fun _ => .inr
  | shortRep => exact (copyPacket_silent _ _ _).mono fun _ => .inr
  | rep0 len => exact (copyPacket_silent _ _ _).mono fun _ => .inr
  | rep1 len => exact (copyPacket_silent _ _ _).mono fun _ => .inr
  | rep2 len => exact (copyPacket_silent _ _ _).mono fun _ => .inr
  | rep3 len => exact (copyPacket_silent _ _ _).mono fun _ => .inr
  | _ => cases hi

/-! ## The packet loop -/

theorem packetStep_emits {c : Call} (hinv : s.Inv) (ha : s.activity = .decoding c) :
    EndsWith s.EmitsItsWrites (packetStep s) := by
  unfold packetStep
  obtain ⟨i, rc, m, k, hf, hi, -⟩ | ⟨r, hf⟩ := fetchPacket_cases ha hinv.dict hinv.range hinv.probs <;> rw [hf]
  · exact exec_packet_emits (s := s.takeRc c rc m) hi
  · exact (takeRaise_silent s r).mono fun _ => .inr

theorem rcInitStep_silent : EndsWith s.Silent (rcInitStep s) :=
  deliver_silent (.bind fun _ _ => .bind fun _ _ => State.commit_silent ⟨rfl, rfl, rfl⟩)

theorem copyStep_emits : EndsWith s.EmitsItsWrites (copyStep s) :=
  deliver_or_silent <| .bind fun _ _ => .bind fun _ _ => .bind fun b _ => .bind fun s1 h1 =>
    State.decRemaining_writes (State.dictPut_writes (s := s) ⟨rfl, rfl, rfl⟩ b s1 h1)

theorem lzma1Step_emits {c : Call} {o : Host.Outcome State Fault Refusal} (hinv : s.Inv)
    (ha : s.activity = .decoding c) (ho : lzma1Step s c = .stepped o) : EndsWith s.EmitsItsWrites o := by
  obtain rfl | rfl | ⟨e, rfl⟩ | rfl := lzma1Step_stepped ho
  · exact rcInitStep_silent.mono fun _ => .inr
  · exact copyStep_emits
  · exact (deliver_silent (.error e)).mono fun _ => .inr
  · exact packetStep_emits hinv ha

theorem stepLzma1_emits {c : Call} (hinv : s.Inv) (ha : s.activity = .decoding c) :
    EndsWith s.EmitsItsWrites (stepLzma1 s c) := by
  unfold stepLzma1
  split
  next o ho => exact lzma1Step_emits hinv ha ho
  next => exact .next (.inr ⟨rfl, rfl, rfl⟩)

/-! ## The bytes of a chunk -/

theorem copyChunkStep_emits (c : Call) : EndsWith s.EmitsItsWrites (copyChunkStep s c) := by
  refine deliver_or_silent (.bind fun _ _ => ?_)
  split
  · exact .error _
  next b rest _ =>
    exact .bind fun s1 h1 => .bind fun s2 h2 =>
      have hcommit : s.Silent s1 := State.commit_silent (t := s.take c rest) ⟨rfl, rfl, rfl⟩ s1 h1
      .ok (State.dictPut_writes hcommit b s2 h2)

theorem endLzmaChunk_silent : EndsWith s.Silent (endLzmaChunk s) := by
  unfold endLzmaChunk
  split
  · exact takeRaise_silent s _
  · exact .next ⟨rfl, rfl, rfl⟩

/-- The mark of R351 is a register of the framer. -/
theorem State.EmitsItsWrites.markLzmaData (h : s.EmitsItsWrites t) : s.EmitsItsWrites (markLzmaData t) := by
  unfold Machine.markLzmaData
  split
  · split <;> exact h
  · exact h
  · exact h

theorem EndsWith.mapNext {f : State → State} (hf : ∀ t, P t → P (f t)) {o : Host.Outcome State Fault Refusal}
    (ho : EndsWith P o) : EndsWith P (mapNext f o) := by
  cases o with
  | next t => exact .next (hf t (ho t rfl))
  | fault r => rintro _ ⟨⟩
  | refused r => rintro _ ⟨⟩

theorem stepLzma2_lzmaChunk_emits {c : Call} (hinv : s.Inv) (ha : s.activity = .decoding c)
    (hp : s.framer.l2Phase = .lzmaInit ∨ s.framer.l2Phase = .lzmaData) :
    EndsWith s.EmitsItsWrites (stepLzma2 s c) := by
  obtain ⟨o, ho, e⟩ | ⟨-, e⟩ := stepLzma2_lzmaChunk c hp <;> rw [e]
  · exact EndsWith.mapNext (P := s.EmitsItsWrites) (fun _ h => h.markLzmaData) (lzma1Step_emits hinv ha ho)
  · exact endLzmaChunk_silent.mono fun _ => .inr

/-! ## Chunk headers -/

theorem decodeLzmaHeader_l2LzmaM3 {v b : Byte} {l rest : List Byte} {u : BitVec 21} {p : BitVec 16}
    (h : decodeLzmaHeader v l = some (.l2LzmaM3 u p b, rest)) : v.extractLsb' 5 2 = 3 := by
  unfold decodeLzmaHeader at h
  split at h
  · split at h
    · cases h
    · cases h
    · cases h
    next hmode => exact hmode
    · cases h
  · cases h

theorem decodeLzmaHeader_ne_l2CopyReset {v : Byte} {l rest : List Byte} {n : BitVec 16} :
    decodeLzmaHeader v l ≠ some (.l2CopyReset n, rest) := by
  intro h
  unfold decodeLzmaHeader at h
  split at h
  · split at h <;> cases h
  · cases h

/-- What a control byte and the bytes after it decode to (30_encoding.md R131). -/
theorem decodeHeader_cons {v : Byte} {tail rest : List Byte} {i : Instr}
    (h : decodeHeader (v :: tail) = some (i, rest)) :
    (v.msb = true ∧ decodeLzmaHeader v tail = some (i, rest)) ∨ i = .l2End ∨ (v = 0x01 ∧ ∃ n, i = .l2CopyReset n) ∨
      (∃ n, i = .l2Copy n) ∨ i = .l2Reserved v := by
  unfold decodeHeader at h
  dsimp only at h
  split at h
  next hmsb => exact .inl ⟨hmsb, h⟩
  next =>
    right
    split at h
    · cases h; exact .inl rfl
    · split at h
      next hv =>
        split at h <;> cases h
        exact .inr (.inl ⟨hv, _, rfl⟩)
      next =>
        split at h
        · split at h <;> cases h
          exact .inr (.inr (.inl ⟨_, rfl⟩))
        · cases h; exact .inr (.inr (.inr rfl))

/-- Only control byte 0x01 opens an uncompressed chunk that resets the dictionary (30_encoding.md R131). -/
theorem decodeHeader_l2CopyReset {l rest : List Byte} {n : BitVec 16}
    (h : decodeHeader l = some (.l2CopyReset n, rest)) : ∃ tail, l = 0x01 :: tail := by
  cases l with
  | nil => cases h
  | cons v tail =>
    obtain ⟨-, h⟩ | h | ⟨rfl, -⟩ | ⟨_, h⟩ | h := decodeHeader_cons h
    · exact absurd h decodeLzmaHeader_ne_l2CopyReset
    · cases h
    · exact ⟨tail, rfl⟩
    · cases h
    · cases h

theorem mode3_control_ge : ∀ v : Byte, v.msb = true → v.extractLsb' 5 2 = 3 → 0xE0 ≤ v.toNat := by
  decide

/-- Only control bytes 0xE0 to 0xFF open an LZMA chunk that resets the dictionary (30_encoding.md R131, R133). -/
theorem decodeHeader_l2LzmaM3 {l rest : List Byte} {u : BitVec 21} {p : BitVec 16} {b : Byte}
    (h : decodeHeader l = some (.l2LzmaM3 u p b, rest)) : ∃ v tail, l = v :: tail ∧ 0xE0 ≤ v.toNat := by
  cases l with
  | nil => cases h
  | cons v tail =>
    obtain ⟨hmsb, h⟩ | h | ⟨-, _, h⟩ | ⟨_, h⟩ | h := decodeHeader_cons h
    · exact ⟨v, tail, rfl, mode3_control_ge v hmsb (decodeLzmaHeader_l2LzmaM3 h)⟩
    · cases h
    · cases h
    · cases h
    · cases h

theorem execL2End_silent : EndsWith s.Silent (execL2End s) :=
  deliver_silent (State.commit_silent ⟨rfl, rfl, rfl⟩)

theorem execL2CopyReset_resets_or_silent (n : BitVec 16) :
    EndsWith (fun t => s.Resets t ∨ s.Silent t) (execL2CopyReset n s) :=
  deliver_or_silent (State.commit_resets ⟨rfl, rfl, rfl⟩)

theorem execL2Copy_silent (n : BitVec 16) : EndsWith s.Silent (execL2Copy n s) := by
  refine deliver_silent ?_
  split
  · exact .error _
  · exact State.commit_silent ⟨rfl, rfl, rfl⟩

theorem execL2LzmaM0_silent (n : BitVec 21) (p : BitVec 16) : EndsWith s.Silent (execL2LzmaM0 n p s) :=
  deliver_silent (.bind fun _ _ => State.commit_silent ⟨rfl, rfl, rfl⟩)

theorem execL2LzmaM1_silent (n : BitVec 21) (p : BitVec 16) : EndsWith s.Silent (execL2LzmaM1 n p s) :=
  deliver_silent (.bind fun _ _ => State.commit_silent ⟨rfl, rfl, rfl⟩)

theorem execL2LzmaM2_silent (n : BitVec 21) (p : BitVec 16) (v : Byte) :
    EndsWith s.Silent (execL2LzmaM2 n p v s) :=
  deliver_silent (.bind fun _ _ => .bind fun _ _ => State.commit_silent ⟨rfl, rfl, rfl⟩)

theorem execL2LzmaM3_resets_or_silent (n : BitVec 21) (p : BitVec 16) (v : Byte) :
    EndsWith (fun t => s.Resets t ∨ s.Silent t) (execL2LzmaM3 n p v s) :=
  deliver_or_silent (.bind fun _ _ => .bind fun _ _ => State.commit_resets ⟨rfl, rfl, rfl⟩)

/-- The presented bytes begin with a control byte that resets the dictionary (R82). -/
def Call.AtDictReset (c : Call) : Prop := ∃ v rest, c.input = v :: rest ∧ (v = 0x01 ∨ 0xE0 ≤ v.toNat)

/-- A chunk header emits nothing, and resets the dictionary only by its control byte. -/
theorem headerStep_resets_or_silent (c : Call) :
    EndsWith (fun t => (s.Resets t ∧ c.AtDictReset) ∨ s.Silent t) (headerStep s c) := by
  unfold headerStep
  split
  next => exact (takeRaise_silent s _).mono fun _ => .inr
  next i rest hd =>
    obtain rfl | ⟨n, rfl⟩ | ⟨n, rfl⟩ | ⟨v, rfl⟩ | ⟨u, p, rfl⟩ | ⟨u, p, rfl⟩ | ⟨u, p, v, rfl⟩ | ⟨u, p, v, rfl⟩ :=
      decodeHeader_cases hd
    · exact (execL2End_silent (s := s.take c rest)).mono fun _ => .inr
    · obtain ⟨tail, htail⟩ := decodeHeader_l2CopyReset hd
      exact (execL2CopyReset_resets_or_silent (s := s.take c rest) n).mono fun _ =>
        Or.imp_left fun h => ⟨h, 0x01, tail, htail, .inl rfl⟩
    · exact (execL2Copy_silent (s := s.take c rest) n).mono fun _ => .inr
    · exact (takeRaise_silent (s.take c rest) _).mono fun _ => .inr
    · exact (execL2LzmaM0_silent (s := s.take c rest) u p).mono fun _ => .inr
    · exact (execL2LzmaM1_silent (s := s.take c rest) u p).mono fun _ => .inr
    · exact (execL2LzmaM2_silent (s := s.take c rest) u p v).mono fun _ => .inr
    · obtain ⟨control, tail, htail, hcontrol⟩ := decodeHeader_l2LzmaM3 hd
      exact (execL2LzmaM3_resets_or_silent (s := s.take c rest) u p v).mono fun _ =>
        Or.imp_left fun h => ⟨h, control, tail, htail, .inr hcontrol⟩

/-! ## The step -/

/-- A step of an LZMA2 call, by its phase: only a chunk header may reset the dictionary. -/
theorem stepLzma2_emits_or_resets {c : Call} (hinv : s.Inv) (ha : s.activity = .decoding c) :
    EndsWith (fun t => s.EmitsItsWrites t ∨ (s.Resets t ∧ s.framer.l2Phase = .control ∧ c.AtDictReset))
      (stepLzma2 s c) := by
  cases hp : s.framer.l2Phase with
  | lzmaInit => exact (stepLzma2_lzmaChunk_emits hinv ha (.inl hp)).mono fun _ => .inl
  | lzmaData => exact (stepLzma2_lzmaChunk_emits hinv ha (.inr hp)).mono fun _ => .inl
  | finished =>
    have hstep : stepLzma2 s c = .next (finishCall s c) := by simp only [stepLzma2, hp]
    rw [hstep]
    exact .next (.inl (.inr ⟨rfl, rfl, rfl⟩))
  | copyData =>
    have hstep : stepLzma2 s c = copyChunkStep s c := by simp only [stepLzma2, hp]
    rw [hstep]
    exact (copyChunkStep_emits c).mono fun _ => .inl
  | control =>
    have hstep : stepLzma2 s c = headerStep s c := by simp only [stepLzma2, hp]
    rw [hstep]
    refine (headerStep_resets_or_silent c).mono fun t h => ?_
    obtain ⟨hreset, hcontrol⟩ | hsilent := h
    · exact .inr ⟨hreset, rfl, hcontrol⟩
    · exact .inl (.inr hsilent)

theorem step_emits_or_resets {c : Call} (hinv : s.Inv) (ha : s.activity = .decoding c) :
    EndsWith (fun t => s.EmitsItsWrites t ∨
      (s.Resets t ∧ s.ctl.mode = .lzma2 ∧ s.framer.l2Phase = .control ∧ c.AtDictReset)) (step s) := by
  unfold step stepBlock
  rw [ha]
  cases hm : s.ctl.mode with
  | unconfigured => exact absurd hm (hinv.decoding ha).1
  | lzma1 => exact (stepLzma1_emits hinv ha).mono fun _ => .inl
  | lzma2 =>
    exact (stepLzma2_emits_or_resets hinv ha).mono fun _ =>
      Or.imp_right fun ⟨hreset, hphase⟩ => ⟨hreset, rfl, hphase⟩

/-- Settles O54: by the mode and the phase, the step is a turn of the packet loop, a byte of an uncompressed chunk, a
chunk header, or the end of a chunk or of the stream. -/
theorem eachStepEmitsWhatItWrites : Obligations.EachStepEmitsWhatItWrites := by
  unfold Obligations.EachStepEmitsWhatItWrites
  intro s t c hinv ha h
  obtain (hwrites | ⟨hout, htotal, hdict⟩) | ⟨⟨hout, htotal, hdict⟩, hreset⟩ := step_emits_or_resets hinv ha t h
  · exact .inl hwrites
  · exact .inr ⟨hout, htotal, .inl hdict⟩
  · exact .inr ⟨hout, htotal, .inr ⟨hdict, hreset⟩⟩

end Sys2Proof.Machine
end

section
/-! PROOF. From the encoder to the decoder (30_encoding.md R125 to R136): what the decision bits of a packet, the bytes
of a chunk header and a pair are read as. -/

namespace Sys2Proof

/-! ## Packets -/

/-- A packet's decision bits are read as that packet whatever the context, and what follows them is left: no code
begins with another (R125). -/
theorem readBits_packetProg {c : PacketCtx} {src : LitSrc} (hlit : c.lit = some src) {i : Instr} {bits : List Bool}
    (hw : i.wellFormed = true) (he : encode i = .decisions bits) (rest : List Bool) :
    (packetProg c).readBits (bits ++ rest) = some (some i, rest) := by
  cases i with
  | lit b =>
    cases he
    simp [packetProg, BitProg.readBits, hlit, readBits_literalProg]
  | matchNew dist len =>
    cases he
    obtain ⟨hd, hl⟩ := (Bool.and_eq_true _ _).mp hw
    simp [packetProg, BitProg.readBits, readBits_lengthProg _ _ _ hl, readBits_distanceProg _ _ hd]
  | shortRep => cases he; rfl
  | rep0 len | rep1 len | rep2 len | rep3 len =>
    cases he
    simp [packetProg, BitProg.readBits, readBits_lengthProg _ _ _ hw]
  | _ => cases he

/-! ## Chunk headers -/

theorem decodeHeader_of_msb {c : Byte} (h : c.msb = true) (t : List Byte) :
    decodeHeader (c :: t) = decodeLzmaHeader c t :=
  if_pos h

/-- A control byte below 0x80 and above 2 is a header of its own (R131). -/
theorem decodeHeader_reserved {c : Byte} (h : 0x03 ≤ c.toNat ∧ c.toNat ≤ 0x7F) (t : List Byte) :
    decodeHeader (c :: t) = some (.l2Reserved c, t) := by
  obtain ⟨hmsb, h0, h1, h2⟩ : c.msb = false ∧ c ≠ 0x00 ∧ c ≠ 0x01 ∧ c ≠ 0x02 := by
    revert c
    decide
  simp only [decodeHeader, hmsb, if_neg h0, if_neg h1, if_neg h2, Bool.false_eq_true, if_false]

theorem be16_extractLsb' (u : BitVec 21) : be16 (u.extractLsb' 8 8) (u.extractLsb' 0 8) = u.extractLsb' 0 16 := by
  simpa using be16_be16Bytes (u.extractLsb' 0 16)

/-- A header's bytes are read as that header, and what follows them is left. -/
theorem decodeHeader_append {i : Instr} {bs : List Byte} (hw : i.wellFormed = true) (he : encode i = .bytes bs)
    (rest : List Byte) : decodeHeader (bs ++ rest) = some (i, rest) := by
  cases i with
  | l2End => cases he; rfl
  | l2CopyReset n =>
    cases he
    exact congrArg (fun n => some (Instr.l2CopyReset n, rest)) (be16_be16Bytes n)
  | l2Copy n =>
    cases he
    exact congrArg (fun n => some (Instr.l2Copy n, rest)) (be16_be16Bytes n)
  | l2Reserved c =>
    cases he
    exact decodeHeader_reserved (of_decide_eq_true hw) rest
  | l2LzmaM0 u p | l2LzmaM1 u p | l2LzmaM2 u p v | l2LzmaM3 u p v =>
    cases he
    rw [List.cons_append, decodeHeader_of_msb (lzmaControl_msb _ u)]
    simp [decodeLzmaHeader, lzmaControl_mode, lzmaControl_high, lzmaSizes, be16Bytes, be16_be16Bytes,
      be16_extractLsb', unpackSize_parts]
  | _ => cases he

/-! ## Pairs and commands -/

theorem decodePair_of_encode {i : Instr} {prev b : Byte} (hw : i.wellFormed = true) (he : encode i = .pair prev b) :
    decodePair prev b = i := by
  cases i with
  | bcj2Call prev => cases he; exact Laws.EncodedSize.bcj2Call prev hw
  | bcj2Jmp prev => cases he; exact Laws.EncodedSize.bcj2Jmp prev hw
  | bcj2Jcc cc => cases he; exact Laws.EncodedSize.bcj2Jcc cc hw
  | bcj2Plain prev b => cases he; exact Laws.EncodedSize.bcj2Plain prev b hw
  | _ => cases he

theorem toInstr_of_encode {i : Instr} {c : HostCmd} (he : encode i = .command c) : c.toInstr = i := by
  cases i with
  | reset | configLzma1Raw | configLzma1Alone | configLzma2 | decode | bcj2Run => cases he; rfl
  | _ => cases he

/-- Settles O1: by the form of the encoding, each read back by its own law; nothing follows it. -/
theorem decodeOfEncodeIsTheUnit : Obligations.DecodeOfEncodeIsTheUnit := by
  unfold Obligations.DecodeOfEncodeIsTheUnit
  intro i hw
  cases he : encode i with
  | decisions bits =>
    have h := readBits_packetProg (c := .neutral) rfl hw he []
    rw [List.append_nil] at h
    simp only [decode, h]
  | bytes bs =>
    have h := decodeHeader_append hw he []
    rw [List.append_nil] at h
    simp only [decode, h]
  | pair prev b => exact congrArg some (decodePair_of_encode hw he)
  | command c => exact congrArg some (toInstr_of_encode he)

end Sys2Proof
end

section
/-! PROOF. From the decoder to the encoder (30_encoding.md R125 to R138): what is decoded begins with the encoding of
the unit it is decoded to, so no encoding is unused and no two stand for one unit. -/

namespace Sys2Proof

variable {α : Type}

/-! ## Bits of a number, put together -/

theorem msbBits_mod_of_le (v : Nat) {m n : Nat} (h : n ≤ m) : msbBits n (v % 2 ^ m) = msbBits n v := by
  induction n with
  | zero => rfl
  | succ n ih =>
    have hn : n < m := h
    rw [msbBits, msbBits, Nat.testBit_mod_two_pow, decide_eq_true hn, Bool.true_and, ih hn.le]

/-- A bit above `n` bits comes before them. -/
theorem msbBits_cons (b : Bool) {n v : Nat} (hv : v < 2 ^ n) :
    msbBits (n + 1) (b.toNat * 2 ^ n + v) = b :: msbBits n v := by
  have hlow : (b.toNat * 2 ^ n + v) % 2 ^ n = v := by rw [Nat.mul_add_mod_self_right, Nat.mod_eq_of_lt hv]
  have hhigh : (b.toNat * 2 ^ n + v).testBit n = b := by
    rw [Nat.mul_comm, Nat.testBit_two_pow_mul_add _ hv]
    cases b <;> simp
  rw [msbBits, hhigh, ← msbBits_mod_of_le _ (Nat.le_refl n), hlow]

/-- A bit below `n` bits comes before them in the reverse order. -/
theorem lsbBits_cons (b : Bool) (n v : Nat) : lsbBits (n + 1) (b.toNat + 2 * v) = b :: lsbBits n v := by
  have hb : b.toNat ≤ 1 := Bool.toNat_le b
  have hhigh : (b.toNat + 2 * v) / 2 = v := by omega
  have hlow : (b.toNat + 2 * v).testBit 0 = b := by cases b <;> simp [Nat.testBit_zero]
  rw [lsbBits, hhigh, hlow]

theorem cons_lt_two_pow (b : Bool) {n v : Nat} (hv : v < 2 ^ n) : b.toNat * 2 ^ n + v < 2 ^ (n + 1) := by
  have := Nat.mul_le_mul_right (2 ^ n) (Bool.toNat_le b)
  rw [Nat.pow_succ]
  omega

/-- The node a walk ends at, by the bit taken first and the bits after it. -/
theorem walk_cons (m b n v : Nat) : (2 * m + b) * 2 ^ n + v = m * 2 ^ (n + 1) + (b * 2 ^ n + v) := by
  rw [Nat.pow_succ]
  ring

/-! ## What a program reads begins with its code -/

variable {l : List Bool} {r : α × List Bool}

theorem readBits_bit_some {c : Cell} {k : Bool → BitProg α} (h : (BitProg.bit c k).readBits l = some r) :
    ∃ b l', l = b :: l' ∧ (k b).readBits l' = some r := by
  cases l with
  | nil => cases h
  | cons b l' => exact ⟨b, l', rfl, h⟩

theorem readBits_direct_some {k : Bool → BitProg α} (h : (BitProg.direct k).readBits l = some r) :
    ∃ b l', l = b :: l' ∧ (k b).readBits l' = some r := by
  cases l with
  | nil => cases h
  | cons b l' => exact ⟨b, l', rfl, h⟩

theorem readBits_bitTree_some {cell : Nat → Cell} {k : Nat → BitProg α} {n m : Nat}
    (h : (bitTree cell n m k).readBits l = some r) :
    ∃ v l', v < 2 ^ n ∧ l = msbBits n v ++ l' ∧ (k (m * 2 ^ n + v)).readBits l' = some r := by
  induction n generalizing m l with
  | zero => exact ⟨0, l, Nat.one_pos, rfl, by simpa [bitTree] using h⟩
  | succ n ih =>
    obtain ⟨b, l₁, rfl, h₁⟩ := readBits_bit_some h
    obtain ⟨v, l₂, hv, rfl, h₂⟩ := ih h₁
    rw [walk_cons] at h₂
    exact ⟨_, l₂, cons_lt_two_pow b hv, by rw [msbBits_cons b hv, List.cons_append], h₂⟩

theorem readBits_forwardTree_some {cell : Nat → Cell} {k : Nat → BitProg α} {n : Nat}
    (h : (forwardTree cell n k).readBits l = some r) :
    ∃ v l', v < 2 ^ n ∧ l = msbBits n v ++ l' ∧ (k v).readBits l' = some r := by
  obtain ⟨v, l', hv, hl, h'⟩ := readBits_bitTree_some h
  rw [Nat.one_mul, Nat.add_sub_cancel_left] at h'
  exact ⟨v, l', hv, hl, h'⟩

theorem readBits_reverseWalk_some {cell : Nat → Cell} {k : Nat → BitProg α} {n m i sym : Nat}
    (h : (reverseWalk cell n m i sym k).readBits l = some r) :
    ∃ v l', v < 2 ^ n ∧ l = lsbBits n v ++ l' ∧ (k (sym + v * 2 ^ i)).readBits l' = some r := by
  induction n generalizing m i sym l with
  | zero => exact ⟨0, l, Nat.one_pos, rfl, by simpa [reverseWalk] using h⟩
  | succ n ih =>
    obtain ⟨b, l₁, rfl, h₁⟩ := readBits_bit_some h
    obtain ⟨v, l₂, hv, rfl, h₂⟩ := ih h₁
    have hb : b.toNat ≤ 1 := Bool.toNat_le b
    have hsym : sym + b.toNat * 2 ^ i + v * 2 ^ (i + 1) = sym + (b.toNat + 2 * v) * 2 ^ i := by
      rw [Nat.pow_succ]
      ring
    rw [hsym] at h₂
    exact ⟨_, l₂, by rw [Nat.pow_succ]; omega, by rw [lsbBits_cons, List.cons_append], h₂⟩

theorem readBits_reverseTree_some {cell : Nat → Cell} {k : Nat → BitProg α} {n : Nat}
    (h : (reverseTree cell n k).readBits l = some r) :
    ∃ v l', v < 2 ^ n ∧ l = lsbBits n v ++ l' ∧ (k v).readBits l' = some r := by
  obtain ⟨v, l', hv, hl, h'⟩ := readBits_reverseWalk_some h
  rw [Nat.zero_add, Nat.pow_zero, Nat.mul_one] at h'
  exact ⟨v, l', hv, hl, h'⟩

theorem readBits_directBits_some {k : Nat → BitProg α} {n value : Nat}
    (h : (directBits n value k).readBits l = some r) :
    ∃ v l', v < 2 ^ n ∧ l = msbBits n v ++ l' ∧ (k (value * 2 ^ n + v)).readBits l' = some r := by
  induction n generalizing value l with
  | zero => exact ⟨0, l, Nat.one_pos, rfl, by simpa [directBits] using h⟩
  | succ n ih =>
    obtain ⟨b, l₁, rfl, h₁⟩ := readBits_direct_some h
    obtain ⟨v, l₂, hv, rfl, h₂⟩ := ih h₁
    rw [walk_cons] at h₂
    exact ⟨_, l₂, cons_lt_two_pow b hv, by rw [msbBits_cons b hv, List.cons_append], h₂⟩

theorem readBits_matchedWalk_some {ctx : Nat} {k : Nat → BitProg α} {n m : Nat} {mb : Byte}
    (h : (matchedWalk ctx n m mb k).readBits l = some r) :
    ∃ v l', v < 2 ^ n ∧ l = msbBits n v ++ l' ∧ (k (m * 2 ^ n + v)).readBits l' = some r := by
  induction n generalizing m mb l with
  | zero => exact ⟨0, l, Nat.one_pos, rfl, by simpa [matchedWalk] using h⟩
  | succ n ih =>
    obtain ⟨b, l₁, rfl, h₁⟩ := readBits_bit_some h
    have hrest : ∃ v l', v < 2 ^ n ∧ l₁ = msbBits n v ++ l' ∧
        (k ((2 * m + b.toNat) * 2 ^ n + v)).readBits l' = some r := by
      split at h₁
      · exact ih h₁
      · exact readBits_bitTree_some h₁
    obtain ⟨v, l₂, hv, rfl, h₂⟩ := hrest
    rw [walk_cons] at h₂
    exact ⟨_, l₂, cons_lt_two_pow b hv, by rw [msbBits_cons b hv, List.cons_append], h₂⟩

/-! ## The literal, length and distance codes -/

theorem readBits_literalProg_some {src : LitSrc} {k : Byte → BitProg α}
    (h : (literalProg src k).readBits l = some r) :
    ∃ (b : Byte) (l' : List Bool), l = msbBits 8 b.toNat ++ l' ∧ (k b).readBits l' = some r := by
  have hwalk : ∃ v l', v < 2 ^ 8 ∧ l = msbBits 8 v ++ l' ∧
      (k (BitVec.ofNat 8 (1 * 2 ^ 8 + v - 0x100))).readBits l' = some r := by
    unfold literalProg at h
    split at h
    · exact readBits_bitTree_some h
    · exact readBits_matchedWalk_some h
  obtain ⟨v, l', hv, hl, h'⟩ := hwalk
  rw [show 1 * 2 ^ 8 + v - 0x100 = v by omega] at h'
  exact ⟨BitVec.ofNat 8 v, l', by rwa [BitVec.toNat_ofNat, Nat.mod_eq_of_lt hv], h'⟩

theorem readBits_lengthProg_some {d : LenSel} {ps : Nat} {k : Nat → BitProg α}
    (h : (lengthProg d ps k).readBits l = some r) :
    ∃ len l', lenOk len = true ∧ l = lengthBits len ++ l' ∧ (k len).readBits l' = some r := by
  obtain ⟨b, l₁, rfl, h₁⟩ := readBits_bit_some h
  cases b with
  | false =>
    obtain ⟨v, l₂, hv, rfl, h₂⟩ := readBits_forwardTree_some h₁
    refine ⟨2 + v, l₂, (lenOk_iff _).mpr (by omega), ?_, h₂⟩
    rw [lengthBits, if_pos (by omega), Nat.add_sub_cancel_left, List.cons_append]
  | true =>
    obtain ⟨b, l₂, rfl, h₂⟩ := readBits_bit_some h₁
    cases b with
    | false =>
      obtain ⟨v, l₃, hv, rfl, h₃⟩ := readBits_forwardTree_some h₂
      refine ⟨2 + 8 + v, l₃, (lenOk_iff _).mpr (by omega), ?_, h₃⟩
      rw [lengthBits, if_neg (by omega), if_pos (by omega), Nat.add_sub_cancel_left]
      rfl
    | true =>
      obtain ⟨v, l₃, hv, rfl, h₃⟩ := readBits_forwardTree_some h₂
      refine ⟨2 + 16 + v, l₃, (lenOk_iff _).mpr (by omega), ?_, h₃⟩
      rw [lengthBits, if_neg (by omega), if_neg (by omega), Nat.add_sub_cancel_left]
      rfl

/-- Every place in the range of a slot from 4 on is a distance of that slot (44_distance.md R265). -/
theorem slotOf_of_offset {slot off : Nat} (h4 : 4 ≤ slot) (hoff : off < 2 ^ slotBits slot) :
    slotOf (slotBase slot + off + 1) = slot := by
  obtain ⟨f, hf, hbits⟩ : ∃ f, 1 ≤ f ∧ slotBits slot = f := ⟨slotBits slot, by simp only [slotBits]; omega, rfl⟩
  have hslot : slot = 2 * (f + 1) + slot % 2 := by
    simp only [slotBits] at hbits
    omega
  rw [hbits] at hoff
  have htwo : 2 ^ 1 ≤ 2 ^ f := Nat.pow_le_pow_right Nat.two_pos hf
  have hpow : 2 ^ (f + 1) = 2 * 2 ^ f := Nat.pow_succ'
  have hbase : slotBase slot = 2 * 2 ^ f + slot % 2 * 2 ^ f := by rw [slotBase, hbits, Nat.add_mul]
  have hhalf : slot % 2 * 2 ^ f ≤ 1 * 2 ^ f := Nat.mul_le_mul_right _ (by omega)
  have hlog : Nat.log2 (slotBase slot + off) = f + 1 := by
    rw [Nat.log2_eq_iff (by omega), Nat.pow_succ' (n := f + 1)]
    omega
  have hlow : (slotBase slot + off) / 2 ^ f = 2 + slot % 2 := by
    rw [slotBase, hbits, Nat.add_comm, Nat.add_mul_div_right _ _ (Nat.two_pow_pos f), Nat.div_eq_of_lt hoff,
      Nat.zero_add]
  rw [slotOf, if_neg (by omega), Nat.add_sub_cancel, hlog, Nat.add_sub_cancel, hlow]
  omega

theorem distanceBits_of_offset {slot off : Nat} (h4 : 4 ≤ slot) (hoff : off < 2 ^ slotBits slot) :
    distanceBits (slotBase slot + off + 1) = msbBits 6 slot ++ offsetBits slot off := by
  rw [distanceBits, slotOf_of_offset h4 hoff, Nat.add_sub_cancel, Nat.add_sub_cancel_left]

theorem distOk_of_offset {slot off : Nat} (hslot : slot < 64) (hoff : off < 2 ^ slotBits slot) :
    distOk (slotBase slot + off + 1) = true := by
  have := slot_end_le hslot
  exact (distOk_iff _).mpr (by omega)

theorem readBits_distanceProg_some {len : Nat} {k : Nat → BitProg α}
    (h : (distanceProg len k).readBits l = some r) :
    ∃ dist l', distOk dist = true ∧ l = distanceBits dist ++ l' ∧ (k dist).readBits l' = some r := by
  obtain ⟨slot, l₁, hslot, rfl, h₁⟩ := readBits_forwardTree_some h
  by_cases h4 : slot < 4
  · rw [if_pos h4] at h₁
    have hs : slotOf (slot + 1) = slot := if_pos (by omega)
    refine ⟨slot + 1, l₁, (distOk_iff _).mpr (by omega), ?_, h₁⟩
    rw [distanceBits, hs, offsetBits, if_pos h4, List.append_nil]
  · rw [if_neg h4] at h₁
    have hoffset : ∃ off l', off < 2 ^ slotBits slot ∧ l₁ = offsetBits slot off ++ l' ∧
        (k (slotBase slot + off + 1)).readBits l' = some r := by
      by_cases h14 : slot < 14
      · rw [if_pos h14] at h₁
        obtain ⟨low, l₂, hlow, rfl, h₂⟩ := readBits_reverseTree_some h₁
        exact ⟨low, l₂, hlow, by rw [offsetBits, if_neg h4, if_pos h14], h₂⟩
      · rw [if_neg h14] at h₁
        obtain ⟨high, l₂, hhigh, rfl, h₂⟩ := readBits_directBits_some h₁
        obtain ⟨low, l₃, hlow, rfl, h₃⟩ := readBits_reverseTree_some h₂
        have hdiv : (high * 16 + low) / 16 = high := by omega
        have hmod : (high * 16 + low) % 16 = low := by omega
        rw [Nat.zero_mul, Nat.zero_add, Nat.add_assoc (slotBase slot)] at h₃
        refine ⟨high * 16 + low, l₃, ?_, ?_, h₃⟩
        · rw [slotBits_eq (Nat.not_lt.mp h14), Nat.pow_add]
          omega
        · rw [offsetBits, if_neg h4, if_neg h14, hdiv, hmod, List.append_assoc]
    obtain ⟨off, l₂, hoff, rfl, h₂⟩ := hoffset
    refine ⟨_, l₂, distOk_of_offset hslot hoff, ?_, h₂⟩
    rw [distanceBits_of_offset (Nat.not_lt.mp h4) hoff, List.append_assoc]

/-! ## Packets -/

/-- The four packets that are a length after their flags. -/
theorem readBits_lengthPacket {d : LenSel} {ps : Nat} {f : Nat → Instr} {i : Instr} {rest : List Bool}
    (h : (lengthProg d ps fun len => .done (some (f len))).readBits l = some (some i, rest)) :
    ∃ len, lenOk len = true ∧ i = f len ∧ l = lengthBits len ++ rest := by
  obtain ⟨len, l', hlen, rfl, h'⟩ := readBits_lengthProg_some h
  cases h'
  exact ⟨len, hlen, rfl, rfl⟩

/-- The bits read as a packet are its encoding, and the packet is well-formed, whatever the context (R125). -/
theorem encode_of_readBits_packetProg {c : PacketCtx} {i : Instr} {rest : List Bool}
    (h : (packetProg c).readBits l = some (some i, rest)) :
    ∃ bits, l = bits ++ rest ∧ encode i = .decisions bits ∧ i.wellFormed = true := by
  obtain ⟨isMatch, l₁, rfl, h₁⟩ := readBits_bit_some h
  cases isMatch with
  | false =>
    cases hlit : c.lit with
    | none => simp [hlit, BitProg.readBits] at h₁
    | some src =>
      simp only [hlit] at h₁
      obtain ⟨b, l₂, rfl, h₂⟩ := readBits_literalProg_some h₁
      cases h₂
      exact ⟨_, rfl, rfl, rfl⟩
  | true =>
  obtain ⟨isRep, l₂, rfl, h₂⟩ := readBits_bit_some h₁
  cases isRep with
  | false =>
    obtain ⟨len, l₃, hlen, rfl, h₃⟩ := readBits_lengthProg_some h₂
    obtain ⟨dist, l₄, hdist, rfl, h₄⟩ := readBits_distanceProg_some h₃
    cases h₄
    exact ⟨_, by simp, rfl, (Bool.and_eq_true _ _).mpr ⟨hdist, hlen⟩⟩
  | true =>
  obtain ⟨isRepG0, l₃, rfl, h₃⟩ := readBits_bit_some h₂
  cases isRepG0 with
  | false =>
    obtain ⟨isRep0Long, l₄, rfl, h₄⟩ := readBits_bit_some h₃
    cases isRep0Long with
    | false =>
      cases h₄
      exact ⟨_, rfl, rfl, rfl⟩
    | true =>
      obtain ⟨len, hlen, rfl, rfl⟩ := readBits_lengthPacket h₄
      exact ⟨_, rfl, rfl, hlen⟩
  | true =>
  obtain ⟨isRepG1, l₄, rfl, h₄⟩ := readBits_bit_some h₃
  cases isRepG1 with
  | false =>
    obtain ⟨len, hlen, rfl, rfl⟩ := readBits_lengthPacket h₄
    exact ⟨_, rfl, rfl, hlen⟩
  | true =>
  obtain ⟨isRepG2, l₅, rfl, h₅⟩ := readBits_bit_some h₄
  cases isRepG2 with
  | false | true =>
    obtain ⟨len, hlen, rfl, rfl⟩ := readBits_lengthPacket h₅
    exact ⟨_, rfl, rfl, hlen⟩

/-! ## Chunk headers -/

theorem be16Bytes_be16 (b0 b1 : Byte) : be16Bytes (be16 b0 b1) = [b0, b1] := by
  rw [be16Bytes, be16, BitVec.extractLsb'_append_eq_left, BitVec.extractLsb'_append_eq_right]

/-- The fields of an LZMA control byte, put together again (R133). -/
theorem lzmaControl_fields {c : Byte} (h : c.msb = true) (low : BitVec 16) :
    lzmaControl (c.extractLsb' 5 2) (c.extractLsb' 0 5 ++ low) = c := by
  have hbyte : ∀ c : Byte, c.msb = true → 1#1 ++ c.extractLsb' 5 2 ++ c.extractLsb' 0 5 = c := by decide
  rw [lzmaControl, BitVec.extractLsb'_append_eq_left, hbyte c h]

theorem lzmaSizes_be16 (high : BitVec 5) (u1 u0 p1 p0 : Byte) :
    lzmaSizes (high ++ be16 u1 u0) (be16 p1 p0) = [u1, u0, p1, p0] := by
  rw [lzmaSizes, BitVec.extractLsb'_append_eq_right, be16Bytes_be16, be16Bytes_be16]
  rfl

variable {c : Byte} {t rest : List Byte} {i : Instr}

theorem encode_of_decodeLzmaHeader (hc : c.msb = true) (h : decodeLzmaHeader c t = some (i, rest)) :
    ∃ bs, c :: t = bs ++ rest ∧ encode i = .bytes bs ∧ i.wellFormed = true := by
  have hcontrol (low : BitVec 16) (mode : BitVec 2) (hmode : c.extractLsb' 5 2 = mode) :
      lzmaControl mode (c.extractLsb' 0 5 ++ low) = c :=
    hmode ▸ lzmaControl_fields hc low
  unfold decodeLzmaHeader at h
  split at h
  case h_2 => cases h
  next u1 u0 p1 p0 t =>
    split at h
    next hmode =>
      cases h
      exact ⟨[c, u1, u0, p1, p0], rfl, by rw [encode, hcontrol _ 0 hmode, lzmaSizes_be16], rfl⟩
    next hmode =>
      cases h
      exact ⟨[c, u1, u0, p1, p0], rfl, by rw [encode, hcontrol _ 1 hmode, lzmaSizes_be16], rfl⟩
    next v t hmode =>
      cases h
      exact ⟨[c, u1, u0, p1, p0, v], rfl, by rw [encode, hcontrol _ 2 hmode, lzmaSizes_be16]; rfl, rfl⟩
    next v t hmode =>
      cases h
      exact ⟨[c, u1, u0, p1, p0, v], rfl, by rw [encode, hcontrol _ 3 hmode, lzmaSizes_be16]; rfl, rfl⟩
    next => cases h

/-- A control byte that opens no other chunk is reserved (R131). -/
theorem reserved_range (hmsb : ¬ c.msb = true) (h0 : c ≠ 0x00) (h1 : c ≠ 0x01) (h2 : c ≠ 0x02) :
    0x03 ≤ c.toNat ∧ c.toNat ≤ 0x7F := by
  revert c
  decide

/-- The bytes read as a header are its encoding (R131 to R133). -/
theorem encode_of_decodeHeader (h : decodeHeader (c :: t) = some (i, rest)) :
    ∃ bs, c :: t = bs ++ rest ∧ encode i = .bytes bs ∧ i.wellFormed = true := by
  unfold decodeHeader at h
  dsimp only at h
  split at h
  next hmsb => exact encode_of_decodeLzmaHeader hmsb h
  next hmsb =>
  split at h
  next h0 =>
    cases h
    exact ⟨[c], rfl, by rw [h0, encode], rfl⟩
  next h0 =>
  split at h
  next h1 =>
    split at h <;> cases h
    next s1 s0 => exact ⟨[c, s1, s0], rfl, by rw [h1, encode, be16Bytes_be16], rfl⟩
  next h1 =>
  split at h
  next h2 =>
    split at h <;> cases h
    next s1 s0 => exact ⟨[c, s1, s0], rfl, by rw [h2, encode, be16Bytes_be16], rfl⟩
  next h2 =>
    cases h
    exact ⟨[c], rfl, rfl, decide_eq_true (reserved_range hmsb h0 h1 h2)⟩

/-! ## Pairs and commands -/

theorem isBranch_false {prev b : Byte} (hE8 : b ≠ 0xE8) (hE9 : b ≠ 0xE9)
    (hjcc : ¬ (prev = 0x0F ∧ b.extractLsb' 4 4 = 8)) : isBranch prev b = false := by
  have hcall : ∀ b : Byte, b ≠ 0xE8 → b ≠ 0xE9 → ((b &&& 0xFE) == 0xE8) = false := by decide
  have hcond : ∀ b : Byte, b.extractLsb' 4 4 ≠ 8 → ((b &&& 0xF0) == 0x80) = false := by decide
  rw [isBranch, hcall b hE8 hE9, Bool.false_or, Bool.and_eq_false_iff]
  rcases not_and_or.mp hjcc with hprev | hb
  · exact .inl (beq_false_of_ne hprev)
  · exact .inr (hcond b hb)

theorem encode_decodePair (prev b : Byte) :
    encode (decodePair prev b) = .pair prev b ∧ (decodePair prev b).wellFormed = true := by
  unfold decodePair
  split
  next hE8 => exact ⟨by rw [encode, hE8], rfl⟩
  next hE8 =>
  split
  next hE9 => exact ⟨by rw [encode, hE9], rfl⟩
  next hE9 =>
  split
  next hjcc =>
    have hcond : ∀ b : Byte, b.extractLsb' 4 4 = 8 → 8#4 ++ b.extractLsb' 0 4 = b := by decide
    exact ⟨by rw [encode, hcond b hjcc.2, hjcc.1], rfl⟩
  next hjcc => exact ⟨rfl, by rw [Instr.wellFormed, isBranch_false hE8 hE9 hjcc]; rfl⟩

theorem encode_toInstr (c : HostCmd) : encode c.toInstr = .command c ∧ c.toInstr.wellFormed = true := by
  cases c <;> exact ⟨rfl, rfl⟩

/-! ## Every encoding -/

theorem decode_decisions_some {bits : List Bool} (h : decode (.decisions bits) = some i) :
    (packetProg .neutral).readBits bits = some (some i, []) := by
  simp only [decode] at h
  split at h
  next hr =>
    cases h
    exact hr
  next => cases h

theorem decode_bytes_some {bs : List Byte} (h : decode (.bytes bs) = some i) : decodeHeader bs = some (i, []) := by
  simp only [decode] at h
  split at h
  next hr =>
    cases h
    exact hr
  next => cases h

/-- Settles O2: by the form of the encoding, each of which is read as a unit with that encoding and leaves nothing. -/
theorem encodeOfDecodeIsTheEncoding : Obligations.EncodeOfDecodeIsTheEncoding := by
  unfold Obligations.EncodeOfDecodeIsTheEncoding
  intro e i h
  cases e with
  | decisions bits =>
    obtain ⟨bits', rfl, henc, hw⟩ := encode_of_readBits_packetProg (decode_decisions_some h)
    exact ⟨by rw [List.append_nil, henc], hw⟩
  | bytes bs =>
    cases bs with
    | nil => cases h
    | cons c t =>
      obtain ⟨bs', hbs, henc, hw⟩ := encode_of_decodeHeader (decode_bytes_some h)
      exact ⟨by rw [henc, hbs, List.append_nil], hw⟩
  | pair prev b =>
    cases h
    exact encode_decodePair prev b
  | command c =>
    cases h
    exact encode_toInstr c

end Sys2Proof
end

section
/-! PROOF. The length of a chunk header (30_encoding.md R134), the properties bytes (R120, R123), and words written out
from the tables (R125 to R136). -/

namespace Sys2Proof

/-! ## The length of a chunk header -/

/-- The control byte `c` is that of a header of `n` bytes: with the bytes `t` after it a shorter list is none yet, and a
longer one is taken up to there. -/
def HeaderHasLength (c : Byte) (t : List Byte) (n : Nat) : Prop :=
  ((c :: t).length < n → decodeHeader (c :: t) = none) ∧
    (n ≤ (c :: t).length → ∃ i, decodeHeader (c :: t) = some (i, (c :: t).drop n))

theorem headerHasLength_one {c : Byte} {t : List Byte} (h : ∃ i, decodeHeader (c :: t) = some (i, t)) :
    HeaderHasLength c t 1 :=
  ⟨fun hlt => absurd hlt (by simp), fun _ => h⟩

theorem headerHasLength_copy {c : Byte} (hc : c = 0x01 ∨ c = 0x02) (t : List Byte) : HeaderHasLength c t 3 := by
  rcases hc with rfl | rfl
  all_goals
    match t with
    | [] | [_] => exact ⟨fun _ => rfl, fun hle => absurd hle (by simp)⟩
    | s1 :: s0 :: t => exact ⟨fun hlt => absurd hlt (by simp), fun _ => ⟨_, rfl⟩⟩

/-- Modes 0 and 1 have five header bytes, modes 2 and 3 a properties byte after them (R133). -/
theorem headerHasLength_lzma {c : Byte} (hmsb : c.msb = true) (t : List Byte) :
    HeaderHasLength c t (if c < 0xC0 then 5 else 6) := by
  have hlow : ∀ c : Byte, c.msb = true → c < 0xC0 → c.extractLsb' 5 2 = 0 ∨ c.extractLsb' 5 2 = 1 := by decide
  have hhigh : ∀ c : Byte, c.msb = true → ¬ c < 0xC0 → c.extractLsb' 5 2 = 2 ∨ c.extractLsb' 5 2 = 3 := by
    decide
  unfold HeaderHasLength
  rw [decodeHeader_of_msb hmsb]
  match t with
  | [] | [_] | [_, _] | [_, _, _] =>
    refine ⟨fun _ => rfl, fun hle => absurd hle ?_⟩
    split <;> simp
  | u1 :: u0 :: p1 :: p0 :: t =>
    split
    next hc =>
      refine ⟨fun hlt => absurd hlt (by simp), fun _ => ?_⟩
      rcases hlow c hmsb hc with hmode | hmode <;> simp [decodeLzmaHeader, hmode]
    next hc =>
      cases t with
      | nil =>
        refine ⟨fun _ => ?_, fun hle => absurd hle (by simp)⟩
        rcases hhigh c hmsb hc with hmode | hmode <;> simp [decodeLzmaHeader, hmode]
      | cons v t =>
        refine ⟨fun hlt => absurd hlt (by simp), fun _ => ?_⟩
        rcases hhigh c hmsb hc with hmode | hmode <;> simp [decodeLzmaHeader, hmode]

/-- Settles O4: by the class of the control byte. -/
theorem controlByteTellsHeaderLength : Obligations.ControlByteTellsHeaderLength := by
  unfold Obligations.ControlByteTellsHeaderLength
  rintro c t n rfl
  show HeaderHasLength c t _
  have hmsb : ∀ c : Byte, ¬ c < 0x80 → c.msb = true := by decide
  have hlow : ∀ c : Byte, c < 0x80 → ¬ c.msb = true := by decide
  split
  next h0 =>
    subst h0
    exact headerHasLength_one ⟨_, rfl⟩
  next h0 =>
  split
  next hcopy => exact headerHasLength_copy hcopy t
  next hcopy =>
  obtain ⟨h1, h2⟩ := not_or.mp hcopy
  split
  next h80 => exact headerHasLength_one ⟨_, decodeHeader_reserved (reserved_range (hlow c h80) h0 h1 h2) t⟩
  next h80 => exact headerHasLength_lzma (hmsb c h80) t

/-! ## Properties bytes -/

theorem decodeProps_eq_none {v : Byte} (h : 224 < v.toNat) : decodeProps v = none :=
  dif_neg (Nat.not_le.mpr h)

/-- The three digits of the properties byte. -/
theorem decodeProps_eq_some {v : Byte} (h : v.toNat ≤ 224) :
    ∃ p, decodeProps v = some p ∧ p.lc.val = v.toNat % 9 ∧ p.lp.val = v.toNat / 9 % 5 ∧ p.pb.val = v.toNat / 45 :=
  ⟨_, dif_pos h, rfl, rfl, rfl⟩

theorem encodeProps_toNat (p : LcLpPb) : (encodeProps p).toNat = p.lc.val + 9 * p.lp.val + 45 * p.pb.val := by
  rw [encodeProps, BitVec.toNat_ofNat]
  omega

theorem decodeProps_encodeProps (p : LcLpPb) : decodeProps (encodeProps p) = some p := by
  have hv := encodeProps_toNat p
  obtain ⟨⟨lc, hlc⟩, ⟨lp, hlp⟩, ⟨pb, hpb⟩⟩ := p
  dsimp only at hv
  rw [decodeProps, dif_pos (by omega), Option.some.injEq]
  simp only [LcLpPb.mk.injEq, Fin.mk.injEq, hv]
  omega

end Sys2Proof

namespace Sys2Proof.Machine

/-- Settles O5: the byte is the number whose digits, the lowest first, are `lc` in base 9, `lp` in base 5 and `pb`. -/
theorem propsByteIsABijection : Obligations.PropsByteIsABijection := by
  unfold Obligations.PropsByteIsABijection
  refine ⟨fun v hv => ?_, fun v hv => ?_, fun p => ⟨decodeProps_encodeProps p, encodeProps_toNat p⟩, rfl⟩
  · obtain ⟨p, hp, hlc, hlp, hpb⟩ := decodeProps_eq_some hv
    have hback : encodeProps p = v := by
      apply BitVec.eq_of_toNat_eq
      rw [encodeProps_toNat]
      omega
    exact ⟨p, hp, by rw [configProps, hp], by rw [chunkProps, hp], hlc, hlp, hpb, hback⟩
  · have hnone := decodeProps_eq_none hv
    exact ⟨by rw [configProps, hnone], by rw [chunkProps, hnone]⟩

end Sys2Proof.Machine

namespace Sys2Proof

theorem two_or_low_bit (q : Nat) : 2 ||| (q &&& 1) = 2 + q % 2 := by
  rw [Nat.and_one_is_mod]
  rcases Nat.mod_two_eq_zero_or_one q with h | h <;> rw [h] <;> rfl

/-- Settles O6: below 40 the exponent is at most 30, so the size fits 32 bits. -/
theorem dictPropFollowsItsFormula : Obligations.DictPropFollowsItsFormula := by
  unfold Obligations.DictPropFollowsItsFormula
  intro q
  refine ⟨fun hlt => ?_, fun heq => ?_, fun hgt => if_pos hgt⟩
  · refine ⟨_, by rw [decodeDictProp, if_neg (by omega), if_neg (by omega)], ?_⟩
    have hpow : 2 ^ (q.toNat / 2 + 11) ≤ 2 ^ 30 := Nat.pow_le_pow_right Nat.two_pos (by omega)
    have hfit : (2 + q.toNat % 2) * 2 ^ (q.toNat / 2 + 11) ≤ 3 * 2 ^ 30 := Nat.mul_le_mul (by omega) hpow
    rw [BitVec.toNat_ofNat, Nat.mod_eq_of_lt (by omega), two_or_low_bit, Nat.shiftLeft_eq]
  · rw [decodeDictProp, if_neg (by omega), if_pos heq]

/-- Settles O3: each word is the encoding of its unit. -/
theorem specWordsDecodeToTheirUnits : Obligations.SpecWordsDecodeToTheirUnits :=
  have read (i : Instr) (hw : i.wellFormed = true) : decode (encode i) = some i := decodeOfEncodeIsTheUnit i hw
  ⟨read (.lit 0x61) rfl, read (.matchNew 2 4) rfl, read .shortRep rfl, read (.rep2 3) rfl, read (.l2CopyReset 4) rfl,
    read (.l2LzmaM3 5 7 0x5D) rfl, read (.l2LzmaM0 0x10002 6) rfl, read (.bcj2Call 0x90) rfl, read (.bcj2Jcc 5) rfl,
    read (.bcj2Plain 0x0E 0x85) rfl⟩

end Sys2Proof
end

section
/-! PROOF. What fetching a packet reads and leaves (46_lzma1_core.md R302, R303; 40_range_coder.md R173): the decisions
the range decoder takes one after the other, each in a cell that no other of them names. -/

namespace Sys2Proof

variable {α : Type}

/-- The cells of two decisions have different keys. -/
def Decision.Apart (d e : Decision) : Prop :=
  ∀ c b c' b', d = .cell c b → e = .cell c' b' → Machine.cellKey c ≠ Machine.cellKey c'

/-! ## The order in which a packet names cells -/

/-- A place in the order in which a packet names its cells: the flags of R125, the literal's tree or the length's,
the slot's, then that of the bits within the slot; in a tree a node after its parent. The three nodes of a matched
literal's table for one place in the tree have one rank. -/
def Cell.rank : Cell → Nat
  | .isMatch _ _ => 0
  | .isRep _ => 1
  | .isRepG0 _ => 2
  | .isRepG1 _ => 3
  | .isRep0Long _ _ => 3
  | .isRepG2 _ => 4
  | .literal _ k => 1 + k % 0x100
  | .lenChoice _ => 5
  | .lenChoice2 _ => 6
  | .lenLow _ _ k => 7 + k
  | .lenMid _ _ k => 7 + k
  | .lenHigh _ k => 7 + k
  | .posSlot _ k => 0x300 + k
  | .specPos _ k => 0x400 + k
  | .align k => 0x400 + k

/-- The ranks of the cells a program names rise strictly, from at least `lo`. -/
def BitProg.Rising : Nat → BitProg α → Prop
  | _, .done _ => True
  | lo, .bit c k => lo ≤ c.rank ∧ ∀ b, (k b).Rising (c.rank + 1)
  | lo, .direct k => ∀ b, (k b).Rising lo

theorem BitProg.Rising.mono {p : BitProg α} {lo lo' : Nat} (h : p.Rising lo') (hle : lo ≤ lo') : p.Rising lo := by
  induction p with
  | done a => trivial
  | bit c k _ => exact ⟨hle.trans h.1, h.2⟩
  | direct k ih => exact fun b => ih b (h b)

/-- What rises from `lo` names no cell of a lower rank. -/
theorem BitProg.Rising.all {p : BitProg α} {lo : Nat} (h : p.Rising lo) :
    p.All (fun c => lo ≤ c.rank) (fun _ => True) := by
  induction p generalizing lo with
  | done a => trivial
  | bit c k ih =>
    exact ⟨h.1, fun b => ih b ((h.2 b).mono (h.1.trans (Nat.le_succ _)))⟩
  | direct k ih => exact fun b => ih b (h b)

theorem rising_bit {c : Cell} {k : Bool → BitProg α} {lo : Nat} (rank : Nat) (hc : c.rank = rank) (hlo : lo ≤ rank)
    (h0 : (k false).Rising (rank + 1)) (h1 : (k true).Rising (rank + 1)) : (BitProg.bit c k).Rising lo := by
  subst hc
  exact ⟨hlo, Bool.forall_bool.mpr ⟨h0, h1⟩⟩

/-- A walk stays below the nodes of the tree. -/
theorem walk_succ_le {m n top : Nat} (htop : (m + 1) * 2 ^ (n + 1) ≤ top) (b : Bool) :
    (2 * m + b.toNat + 1) * 2 ^ n ≤ top ∧ 2 * m < top := by
  have hb : b.toNat ≤ 1 := Bool.toNat_le b
  have hpos : 1 ≤ 2 ^ n := Nat.one_le_two_pow
  have hup : (m + 1) * 2 ^ (n + 1) = (2 * m + 2) * 2 ^ n := by rw [Nat.pow_succ]; ring
  have hle : (2 * m + b.toNat + 1) * 2 ^ n ≤ (2 * m + 2) * 2 ^ n := Nat.mul_le_mul_right _ (by omega)
  have hself : 2 * m + 2 ≤ (2 * m + 2) * 2 ^ n := Nat.le_mul_of_pos_right _ hpos
  omega

/-- A walk names nodes of rising index: each is at least twice the one before. -/
theorem rising_bitTree {cell : Nat → Cell} {k : Nat → BitProg α} {base lo m n top : Nat} (hm : 1 ≤ m)
    (hlo : lo ≤ base + m) (htop : (m + 1) * 2 ^ n ≤ top) (hc : ∀ j, 2 * j < top → (cell j).rank = base + j)
    (hk : ∀ v, (k v).Rising (base + top)) : (bitTree cell n m k).Rising lo := by
  induction n generalizing m lo with
  | zero => exact (hk m).mono (by omega)
  | succ n ih =>
    have hrank := hc m (walk_succ_le htop false).2
    refine ⟨by omega, fun b => ?_⟩
    exact ih (by omega) (by omega) (walk_succ_le htop b).1

theorem rising_forwardTree {cell : Nat → Cell} {k : Nat → BitProg α} {base lo n : Nat} (hlo : lo ≤ base + 1)
    (hc : ∀ j, (cell j).rank = base + j) (hk : ∀ v, (k v).Rising (base + 2 * 2 ^ n)) :
    (forwardTree cell n k).Rising lo :=
  rising_bitTree (Nat.le_refl 1) hlo (Nat.le_refl _) (fun j _ => hc j) fun _ => hk _

theorem rising_reverseWalk {cell : Nat → Cell} {k : Nat → BitProg α} {base lo m n i sym : Nat} (hm : 1 ≤ m)
    (hlo : lo ≤ base + m) (hc : ∀ j, (cell j).rank = base + j) (hk : ∀ v lo, (k v).Rising lo) :
    (reverseWalk cell n m i sym k).Rising lo := by
  induction n generalizing m i sym lo with
  | zero => exact hk sym lo
  | succ n ih =>
    have hrank := hc m
    exact ⟨by omega, fun b => ih (by omega) (by omega)⟩

theorem rising_directBits {k : Nat → BitProg α} {lo n value : Nat} (hk : ∀ v, (k v).Rising lo) :
    (directBits n value k).Rising lo := by
  induction n generalizing value with
  | zero => exact hk value
  | succ n ih => exact fun b => ih

theorem rising_matchedWalk {ctx : Nat} {k : Nat → BitProg α} {lo m n : Nat} {mb : Byte} (hm : 1 ≤ m)
    (hlo : lo ≤ 1 + m) (htop : (m + 1) * 2 ^ n ≤ 2 * 0x100) (hk : ∀ v lo, (k v).Rising lo) :
    (matchedWalk ctx n m mb k).Rising lo := by
  induction n generalizing m mb lo with
  | zero => exact hk m lo
  | succ n ih =>
    have hnode := (walk_succ_le htop false).2
    have hrank : (Cell.literal ctx (0x100 + mb.msb.toNat * 0x100 + m)).rank = 1 + m := by
      simp only [Cell.rank]
      omega
    refine ⟨by omega, fun b => ?_⟩
    have htop' := (walk_succ_le htop b).1
    dsimp only
    split
    · exact ih (by omega) (by omega) htop'
    · exact rising_bitTree (base := 1) (by omega) (by omega) htop'
        (fun j hj => by simp only [Cell.rank]; omega) fun v => hk v _

theorem rising_literalProg {src : LitSrc} {k : Byte → BitProg α} (hk : ∀ b lo, (k b).Rising lo) :
    (literalProg src k).Rising 1 := by
  unfold literalProg
  split
  · exact rising_bitTree (base := 1) (top := 2 * 0x100) (Nat.le_refl 1) (by omega) (by decide)
      (fun j hj => by simp only [Cell.rank]; omega) fun v => hk _ _
  · exact rising_matchedWalk (Nat.le_refl 1) (by omega) (by decide) fun v => hk _

theorem rising_lengthProg {d : LenSel} {ps lo : Nat} {k : Nat → BitProg α} (hlo : lo ≤ 5)
    (hk : ∀ len, (k len).Rising 0x300) : (lengthProg d ps k).Rising lo :=
  have htree {cell : Nat → Cell} {f : Nat → Nat} {n : Nat} (hc : ∀ j, (cell j).rank = 7 + j)
      (hn : 7 + 2 * 2 ^ n ≤ 0x300) {lo : Nat} (hlo : lo ≤ 7) :
      (forwardTree cell n fun x => k (f x)).Rising lo :=
    rising_forwardTree (hlo.trans (by omega)) hc fun v => (hk (f v)).mono hn
  rising_bit 5 rfl hlo (htree (fun _ => rfl) (by decide) (by decide))
    (rising_bit 6 rfl (Nat.le_refl 6) (htree (fun _ => rfl) (by decide) (by decide))
      (htree (fun _ => rfl) (by decide) (by decide)))

theorem rising_distanceProg {len : Nat} {k : Nat → BitProg α} (hk : ∀ dist lo, (k dist).Rising lo) :
    (distanceProg len k).Rising 0x300 := by
  refine rising_forwardTree (by omega) (fun _ => rfl) fun slot => ?_
  split
  · exact hk _ _
  · split
    · exact rising_reverseWalk (base := 0x400) (Nat.le_refl 1) (by decide) (fun _ => rfl) fun _ => hk _
    · exact rising_directBits fun high =>
        rising_reverseWalk (base := 0x400) (Nat.le_refl 1) (by decide) (fun _ => rfl) fun _ => hk _

/-- No packet names a cell twice. -/
theorem rising_packetProg (c : PacketCtx) : (packetProg c).Rising 0 := by
  have hlength {d : LenSel} {f : Nat → Instr} {lo : Nat} (hlo : lo ≤ 5) :
      (lengthProg d c.ps fun len => .done (some (f len))).Rising lo :=
    rising_lengthProg hlo fun _ => trivial
  refine rising_bit 0 rfl (Nat.le_refl 0) ?literal
    (rising_bit 1 rfl (Nat.le_refl 1) ?newDistance
      (rising_bit 2 rfl (Nat.le_refl 2) (rising_bit 3 rfl (Nat.le_refl 3) trivial (hlength (by decide)))
        (rising_bit 3 rfl (Nat.le_refl 3) (hlength (by decide))
          (rising_bit 4 rfl (Nat.le_refl 4) (hlength (by decide)) (hlength (by decide))))))
  case literal =>
    cases c.lit with
    | none => trivial
    | some src => exact rising_literalProg fun _ _ => trivial
  case newDistance => exact rising_lengthProg (by decide) fun _ => rising_distanceProg fun _ _ => trivial

end Sys2Proof

namespace Sys2Proof.Machine

variable {α : Type}

/-! ## Cells apart -/

/-- What the cells decided on have, whatever bits come. -/
theorem path_all {P : Cell → Prop} {Q : α → Prop} {p : BitProg α} (hp : p.All P Q) {bits : List Bool} {c : Cell}
    {b : Bool} (h : .cell c b ∈ p.path bits) : P c := by
  induction p generalizing bits with
  | done a => cases h
  | bit c' k ih =>
    cases bits with
    | nil => cases h
    | cons b' l =>
      rcases List.mem_cons.mp h with heq | hmem
      · cases heq
        exact hp.1
      · exact ih b' (hp.2 b') hmem
  | direct k ih =>
    cases bits with
    | nil => cases h
    | cons b' l =>
      rcases List.mem_cons.mp h with heq | hmem
      · cases heq
      · exact ih b' (hp b') hmem

/-- Cells of the RAM named in rising order are apart: a cell's key determines it, so its rank too. -/
theorem path_apart {lcLp lo : Nat} {Q : α → Prop} {p : BitProg α} (hr : p.Rising lo)
    (hv : p.All (fun cell => cell.valid lcLp = true) Q) (bits : List Bool) : (p.path bits).Pairwise Decision.Apart := by
  induction p generalizing bits lo with
  | done a => exact .nil
  | bit c k ih =>
    cases bits with
    | nil => exact .nil
    | cons b l =>
      refine List.pairwise_cons.mpr ⟨fun d hd => ?_, ih b (hr.2 b) (hv.2 b) l⟩
      rintro _ _ c' b' ⟨⟩ rfl hkey
      have hrank := path_all (hr.2 b).all hd
      have heq := cellsShareNoStorage lcLp c c' hv.1 (path_all (hv.2 b) hd) hkey
      rw [heq] at hrank
      exact absurd hrank (Nat.lt_irrefl _)
  | direct k ih =>
    cases bits with
    | nil => exact .nil
    | cons b l =>
      refine List.pairwise_cons.mpr ⟨?_, ih b (hr b) (hv b) l⟩
      rintro _ _ _ _ _ _ ⟨⟩

/-! ## Decisions taken one after the other -/

/-- The range decoder takes these decisions one after the other, from `rc` and the cells `m` to `rc'` and `m'`, each
cell adapted as it is read. -/
def Rc.Takes : Probs → Rc → List Decision → Rc → Probs → Prop
  | m, rc, [], rc', m' => rc = rc' ∧ m = m'
  | m, rc, .cell c b :: ds, rc', m' =>
    ∃ p rc1, decodeBit (m.read (cellKey c)) rc = .ok (b, p, rc1) ∧ Rc.Takes (m.write (cellKey c) p) rc1 ds rc' m'
  | m, rc, .direct b :: ds, rc', m' => ∃ rc1, decodeDirect rc = .ok (b, rc1) ∧ Rc.Takes m rc1 ds rc' m'

/-- A program is read by the decisions of its path on some bits, and on those bits it gives what it is read as. -/
theorem runProg_takes {p : BitProg α} {rc rc' : Rc} {m m' : Probs} {a : α}
    (h : runProg p rc m = .ok (a, rc', m')) :
    ∃ bits, p.readBits bits = some (a, []) ∧ (p.path bits).map Decision.bit = bits ∧
      Rc.Takes m rc (p.path bits) rc' m' := by
  induction p generalizing rc m with
  | done a' =>
    cases h
    exact ⟨[], rfl, rfl, rfl, rfl⟩
  | bit c k ih =>
    simp only [runProg] at h
    split at h
    · cases h
    next b p rc1 hd =>
      obtain ⟨bits, hread, hbits, htakes⟩ := ih b h
      exact ⟨b :: bits, hread, congrArg (b :: ·) hbits, p, rc1, hd, htakes⟩
  | direct k ih =>
    simp only [runProg] at h
    split at h
    · cases h
    next b rc1 hd =>
      obtain ⟨bits, hread, hbits, htakes⟩ := ih b h
      exact ⟨b :: bits, hread, congrArg (b :: ·) hbits, rc1, hd, htakes⟩

/-- The value `DecodeBit` leaves in its cell (R174, R175). -/
theorem decodeBit_adapts {p p' : Prob} {rc rc' : Rc} {b : Bool} (h : decodeBit p rc = .ok (b, p', rc')) :
    p' = if b then probDown p else probUp p := by
  unfold decodeBit at h
  split at h
  · cases h
  · dsimp only at h
    split at h
    all_goals
      obtain ⟨rc1, -, h⟩ := bind_ok h
      cases h
      rfl

section Takes
variable {m m' : Probs} {rc rc' : Rc} {ds : List Decision}

/-- While no cell is named twice, each holds the value it had before the first decision. -/
theorem Rc.Takes.follows {m₀ : Probs} (h : Rc.Takes m rc ds rc' m') (hap : ds.Pairwise Decision.Apart)
    (hm : ∀ cell b, .cell cell b ∈ ds → m.read (cellKey cell) = m₀.read (cellKey cell)) :
    Rc.Follows m₀ rc ds rc' := by
  induction ds generalizing m rc with
  | nil => exact h.1
  | cons d ds ih =>
    obtain ⟨hhead, htail⟩ := List.pairwise_cons.mp hap
    cases d with
    | cell c b =>
      obtain ⟨p, rc1, hd, h⟩ := h
      rw [hm c b List.mem_cons_self] at hd
      refine ⟨p, rc1, hd, ih h htail fun cell b' hmem => ?_⟩
      rw [Probs.read_write_ne _ _ (hhead _ hmem _ _ _ _ rfl rfl).symm, hm cell b' (List.mem_cons_of_mem _ hmem)]
    | direct b =>
      obtain ⟨rc1, hd, h⟩ := h
      exact ⟨rc1, hd, ih h htail fun cell b' hmem => hm cell b' (List.mem_cons_of_mem _ hmem)⟩

theorem Rc.Takes.frame {key : Nat} (h : Rc.Takes m rc ds rc' m')
    (hkey : ∀ cell b, .cell cell b ∈ ds → cellKey cell ≠ key) : m'.read key = m.read key := by
  induction ds generalizing m rc with
  | nil => rw [h.2]
  | cons d ds ih =>
    have hrest : ∀ cell b, .cell cell b ∈ ds → cellKey cell ≠ key :=
      fun cell b hmem => hkey cell b (List.mem_cons_of_mem _ hmem)
    cases d with
    | cell c b =>
      obtain ⟨p, rc1, -, h⟩ := h
      rw [ih h hrest, Probs.read_write_ne _ _ (hkey c b List.mem_cons_self).symm]
    | direct b =>
      obtain ⟨rc1, -, h⟩ := h
      exact ih h hrest

theorem Rc.Takes.adapts (h : Rc.Takes m rc ds rc' m') (hwf : Probs.wf m = true) (hap : ds.Pairwise Decision.Apart)
    {cell : Cell} {b : Bool} (hmem : .cell cell b ∈ ds) :
    m'.read (cellKey cell) =
      if b then probDown (m.read (cellKey cell)) else probUp (m.read (cellKey cell)) := by
  induction ds generalizing m rc with
  | nil => cases hmem
  | cons d ds ih =>
    obtain ⟨hhead, htail⟩ := List.pairwise_cons.mp hap
    cases d with
    | cell c b' =>
      obtain ⟨p, rc1, hd, h⟩ := h
      rcases List.mem_cons.mp hmem with heq | hmem
      · cases heq
        rw [h.frame fun c' b' hmem' => (hhead _ hmem' _ _ _ _ rfl rfl).symm, Probs.read_write_self hwf,
          decodeBit_adapts hd]
      · rw [ih h (Probs.wf_write hwf _ _) htail hmem,
          Probs.read_write_ne _ _ (hhead _ hmem _ _ _ _ rfl rfl).symm]
    | direct b' =>
      obtain ⟨rc1, -, h⟩ := h
      rcases List.mem_cons.mp hmem with heq | hmem
      · cases heq
      · exact ih h hwf htail hmem

end Takes

/-! ## The fetch -/

/-- A packet that is fetched was read by its program from the call's bytes. -/
theorem fetchPacket_ok {s s' : State} {c : Call} {i : Instr} (ha : s.activity = .decoding c)
    (h : fetchPacket s = .ok (i, s')) :
    ∃ rc' m', runProg (packetProg s.packetCtx) (s.rcRegs c) s.lzma.probs = .ok (some i, rc', m') ∧
      s' = s.takeRc c rc' m' := by
  rw [fetchPacket, State.call_ok ha, ok_bind] at h
  obtain ⟨⟨i', rc', m'⟩, hrun, h⟩ := bind_ok h
  cases i' with
  | some i' =>
    cases h
    exact ⟨rc', m', hrun, rfl⟩
  | none =>
    obtain ⟨_, -, h⟩ := bind_ok h
    cases h

/-- Settles O14: the decisions that read the packet are those of its encoding, and as no cell is named twice each is
read and adapted from the value it had. -/
theorem fetchedPacketIsWhatItsBitsEncode : Obligations.FetchedPacketIsWhatItsBitsEncode := by
  unfold Obligations.FetchedPacketIsWhatItsBitsEncode
  intro s s' c i ha h
  obtain ⟨rc', m', hrun, rfl⟩ := fetchPacket_ok ha h
  obtain ⟨bits, hread, hbits, htakes⟩ := runProg_takes hrun
  obtain ⟨bits', rfl, henc, hw⟩ := encode_of_readBits_packetProg hread
  rw [List.append_nil] at hbits htakes
  have hpacket : i.isPacket = true := by
    rcases runProg_all (all_packetProg s.packetCtx) hrun with ⟨hnone, -⟩ | ⟨_, hsome, -, hp⟩
    · cases hnone
    · cases hsome
      exact hp
  have hap := path_apart (rising_packetProg s.packetCtx) s.all_valid_packetCtx bits'
  exact ⟨hpacket, hw, bits', _, rc', m', henc, rfl, hbits, htakes.follows hap fun _ _ _ => rfl, rfl,
    fun hwf _ _ hmem => htakes.adapts hwf hap hmem, fun _ hkey => htakes.frame hkey⟩

end Sys2Proof.Machine
end

section
/-! PROOF. The invariant through packets (40_range_coder.md R180, R181; 10_state.md R39; 46_lzma1_core.md R320). A
transaction of a call is open from the bytes or decision bits it takes to its commit: the invariant is said of what an
event leaves and of what the commit leaves, and each operation between the two is said once to keep it. -/

namespace Sys2Proof.Machine

variable {s t : State} {c : Call} {n : Nat}

/-! ## The packet registers -/

/-- The packet registers within their bounds, as `State.Inv` asks. -/
structure Lzma.Kept (l : Lzma) : Prop where
  probs : Probs.kept l.probs = true
  range : Config.rangeTop ≤ l.range.toNat
  rep0 : 1 ≤ l.rep0.toNat
  rep1 : 1 ≤ l.rep1.toNat
  rep2 : 1 ≤ l.rep2.toNat
  rep3 : 1 ≤ l.rep3.toNat
  pendLen : l.pendLen.toNat ≤ Config.matchMaxLen
  pendDist : l.pendLen ≠ 0 → l.l1Phase = .packets

theorem State.Inv.lzma (h : s.Inv) : s.lzma.Kept := { h with }

theorem Config.rangeTop_le_rangeInit : Config.rangeTop ≤ Config.rangeInit.toNat := by decide

theorem Lzma.Kept.useRep1 {l : Lzma} (h : l.Kept) : l.useRep1.Kept := { h with rep0 := h.rep1, rep1 := h.rep0 }

theorem Lzma.Kept.useRep2 {l : Lzma} (h : l.Kept) : l.useRep2.Kept :=
  { h with rep0 := h.rep2, rep1 := h.rep0, rep2 := h.rep1 }

theorem Lzma.Kept.useRep3 {l : Lzma} (h : l.Kept) : l.useRep3.Kept :=
  { h with rep0 := h.rep3, rep1 := h.rep0, rep2 := h.rep1, rep3 := h.rep2 }

/-- A distance within reach of a dictionary fits the register (10_state.md R39). -/
theorem Lzma.Kept.pushRep {l : Lzma} (h : l.Kept) {d : Dict} {dist : Nat} (h1 : 1 ≤ dist) (hreach : dist ≤ d.reach) :
    (l.pushRep dist).Kept :=
  { h with
    rep0 := by
      have hfit : dist < 2 ^ 32 := (hreach.trans (Nat.min_le_right _ _)).trans_lt d.cap.isLt
      rw [Lzma.pushRep_rep0, BitVec.toNat_ofNat, Nat.mod_eq_of_lt hfit]
      exact h1
    rep1 := h.rep0
    rep2 := h.rep1
    rep3 := h.rep2 }

theorem Lzma.startCopy_pendLen_toNat (l : Lzma) {len : Nat} (h : len ≤ Config.matchMaxLen) :
    (l.startCopy len).pendLen.toNat = len := by
  simp only [Config.matchMaxLen] at h
  rw [Lzma.startCopy_pendLen, BitVec.toNat_ofNat]
  exact Nat.mod_eq_of_lt (by omega)

theorem Lzma.Kept.startCopy {l : Lzma} (h : l.Kept) (hp : l.l1Phase = .packets) {len : Nat}
    (hlen : len ≤ Config.matchMaxLen) (st : Fin 12) : ({ l.startCopy len with lzState := st } : Lzma).Kept :=
  { h with
    pendLen := (l.startCopy_pendLen_toNat hlen).trans_le hlen
    pendDist := fun _ => hp }

theorem Lzma.Kept.rcRestart {l : Lzma} (h : l.Kept) (hp : l.pendLen = 0) : l.rcRestart.Kept :=
  { h with
    range := Config.rangeTop_le_rangeInit
    pendDist := fun hne => absurd hp hne }

theorem Lzma.Kept.stateReset {l : Lzma} (h : l.Kept) : l.stateReset.Kept :=
  { h with
    probs := Probs.kept_nil
    rep0 := Nat.le_refl 1
    rep1 := Nat.le_refl 1
    rep2 := Nat.le_refl 1
    rep3 := Nat.le_refl 1 }

/-! ## The framer -/

/-- The framer's registers within their bounds, and those that go with its own phase (47_lzma2_chunk.md R357, R372). -/
structure Framer.Kept (f : Framer) : Prop where
  level : f.needInitLevel = 0x00 ∨ f.needInitLevel = 0xC0 ∨ f.needInitLevel = 0xE0
  inChunk : f.l2Phase = .lzmaInit ∨ f.l2Phase = .lzmaData → f.needInitLevel = 0x00
  copying : f.l2Phase = .copyData → 1 ≤ f.copyRemaining.toNat
  unpackMax : f.chunkUnpackRemaining.toNat ≤ 2 ^ 21
  packMax : f.chunkPackRemaining.toNat ≤ 2 ^ 16
  copyMax : f.copyRemaining.toNat ≤ 2 ^ 16

theorem State.Lzma2Kept.framer (h : s.Lzma2Kept) : s.framer.Kept := { h with }

/-- Between the packets of LZMA chunks the packet registers are at rest. -/
theorem State.Lzma2Kept.of_framer (hf : s.framer.Kept) (hphase : s.framer.l2Phase ≠ .lzmaData)
    (hinit : s.lzma.l1Phase = .needInit) (hpend : s.lzma.pendLen = 0) : s.Lzma2Kept :=
  { hf with
    between := fun _ => ⟨hinit, hpend⟩
    inPackets := fun h => absurd h hphase
    pend := by rw [hpend]; exact Nat.zero_le _ }

/-- Packets are read in `LzmaData` only. -/
theorem State.Lzma2Kept.lzmaData (h : s.Lzma2Kept) (hp : s.lzma.l1Phase = .packets) : s.framer.l2Phase = .lzmaData :=
  Decidable.byContradiction fun hne => by
    rw [(h.between hne).1] at hp
    cases hp

theorem Framer.Kept.startCopy {f : Framer} (h : f.Kept) (control : Byte) (size : BitVec 16) :
    (f.startCopy control size).Kept := by
  have hsize : (size.setWidth 17 + 1).toNat = size.toNat + 1 := by bv_omega
  have hlt := size.isLt
  exact { h with
    inChunk := fun hp => by simp at hp
    copying := fun _ => by rw [Framer.startCopy_copyRemaining, hsize]; omega
    copyMax := by rw [Framer.startCopy_copyRemaining, hsize]; omega }

theorem Framer.Kept.startLzma {f : Framer} (h : f.Kept) (control : Byte) (u : BitVec 21) (p : BitVec 16) :
    (f.startLzma control u p).Kept :=
  { h with
    level := .inl rfl
    inChunk := fun _ => rfl
    copying := fun hp => by simp at hp
    unpackMax := by
      have hu : (u.setWidth 22 + 1).toNat = u.toNat + 1 := by bv_omega
      have hlt := u.isLt
      rw [Framer.startLzma_chunkUnpackRemaining, hu]
      omega
    packMax := by
      have hp : (p.setWidth 17 + 1).toNat = p.toNat + 1 := by bv_omega
      have hlt := p.isLt
      rw [Framer.startLzma_chunkPackRemaining, hp]
      omega }

/-! ## Events -/

/-- An event ends the command; what it leaves is kept. -/
theorem State.Inv.raised (h : s.Inv) (r : Raise) : EndsWith State.Inv (Machine.takeRaise s r) := by
  cases ha : s.activity with
  | idle =>
    intro t ht
    rw [Machine.takeRaise, ha] at ht
    cases ht
  | decoding c => exact fun t ht => h.takeRaise ha r ht
  | merging j =>
    rw [takeRaise_merging ha]
    exact .next { h with
      lzma1 := fun hm => { h.lzma1 hm with }
      lzma2 := fun hm => { h.lzma2 hm with }
      bcj := (h.merging ha).saved
      activity := trivial }

/-- A transaction whose events leave a kept state and whose answers are kept ends in a kept state. -/
theorem deliver_inv {r : Except Stop State} (he : ∀ e, EndsWith State.Inv (takeRaise s e))
    (hr : Answers State.Inv r) : EndsWith State.Inv (deliver s r) := by
  match r with
  | .ok s' => exact .next (hr s' rfl)
  | .error (.raise e) => exact he e
  | .error (.fault f) => rintro _ ⟨⟩

/-! ## Open transactions -/

/-- A transaction of the call `c` is open: what an event leaves is kept, and so is what the commit leaves. -/
structure State.Opened (s : State) (c : Call) : Prop where
  activity : s.activity = .decoding c
  raised : ∀ r, EndsWith State.Inv (takeRaise s r)
  committed : (s.committed c).Inv

theorem State.Opened.commit (h : s.Opened c) : Answers State.Inv s.commit := by
  rw [State.commit_ok h.activity]
  exact .ok h.committed

theorem State.Inv.committed (h : s.Inv) (ha : s.activity = .decoding c) : (s.committed c).Inv := by
  obtain ⟨hmode, hlatch, -⟩ := h.decoding ha
  exact { h with
    lzma1 := fun hm => { h.lzma1 hm with }
    lzma2 := fun hm => { h.lzma2 hm with }
    activity := ⟨hmode, hlatch, rfl⟩ }

theorem State.Inv.opened_take (h : s.Inv) (ha : s.activity = .decoding c) (rest : List Byte) :
    (s.take c rest).Opened { c with input := rest, noted := some (s.notedNow c) } where
  activity := rfl
  raised := fun r _ ht => h.takeRaise_take ha rest r ht
  committed :=
    { h.committed ha with
      lzma1 := fun hm => { h.lzma1 hm with }
      lzma2 := fun hm => { h.lzma2 hm with } }

/-- The budget of an LZMA chunk only falls. -/
theorem Rc.Advances.budget_le {before after : Rc} {k : Nat} (h : before.Advances after k) {left : BitVec 17}
    (hsrc : ∀ l, before.src = .chunk l → l = left) : (after.src.budget left).toNat ≤ left.toNat := by
  obtain ⟨-, -, h⟩ := h
  cases hb : before.src with
  | stream => rw [hb] at h; rw [show after.src = .stream from h]; exact Nat.le_refl _
  | bcj2 => rw [hb] at h; rw [show after.src = .bcj2 from h]; exact Nat.le_refl _
  | chunk l =>
    rw [hb] at h
    obtain ⟨-, left', hafter, hleft⟩ := h
    obtain rfl := hsrc l hb
    rw [hafter]
    exact Nat.le.intro hleft

theorem State.rcSource_chunk {l : BitVec 17} (h : s.rcSource = .chunk l) : l = s.framer.chunkPackRemaining := by
  unfold State.rcSource at h
  split at h <;> cases h
  rfl

theorem State.Inv.opened_takeRc (h : s.Inv) (ha : s.activity = .decoding c) {rc : Rc} {m : Probs} {k : Nat}
    (hrange : Config.rangeTop ≤ rc.range.toNat) (hm : Probs.kept m = true) (hadv : (s.rcRegs c).Advances rc k) :
    (s.takeRc c rc m).Opened { c with input := rc.bytes, noted := some (s.notedNow c) } where
  activity := rfl
  raised := fun r _ ht => h.takeRaise_takeRc ha rc m r ht
  committed :=
    { h.committed ha with
      probs := hm
      range := hrange
      lzma1 := fun hm => { h.lzma1 hm with }
      lzma2 := fun hm =>
        { h.lzma2 hm with
          packMax := (hadv.budget_le fun _ => State.rcSource_chunk).trans (h.lzma2 hm).packMax } }

/-! ## Operations of a call -/

theorem State.readRemaining_lzma1 (hm : s.ctl.mode = .lzma1) : s.readRemaining = .ok s.lzma.unpackRemaining.toNat := by
  rw [State.readRemaining, hm]

theorem State.readRemaining_lzma2 (hm : s.ctl.mode = .lzma2) :
    s.readRemaining = .ok s.framer.chunkUnpackRemaining.toNat := by
  rw [State.readRemaining, hm]

/-- The packet registers change while packets are read; a pending copy fits in what remains. -/
theorem State.Inv.withLzma (h : s.Inv) (hr : s.readRemaining = .ok n) (hphase : s.lzma.l1Phase = .packets) {l : Lzma}
    (hl : l.Kept) (hlphase : l.l1Phase = .packets) (hunpack : l.unpackRemaining = s.lzma.unpackRemaining)
    (hlen : l.pendLen.toNat ≤ n) : ({ s with lzma := l } : State).Inv :=
  { hl, h with
    lzma1 := fun hm => ⟨by
      rw [State.readRemaining_lzma1 (s := s) hm] at hr
      cases hr
      exact hlen.trans_eq (congrArg BitVec.toNat hunpack.symm)⟩
    lzma2 := fun hm =>
      { h.lzma2 hm with
        between := fun hne => absurd ((h.lzma2 hm).lzmaData hphase) hne
        inPackets := fun _ => hlphase
        pend := by
          rw [State.readRemaining_lzma2 (s := s) hm] at hr
          cases hr
          exact hlen } }

/-- `Remaining` counts down; a pending copy fits in what is left. -/
theorem State.Inv.countDown (h : s.Inv) (hr : s.readRemaining = .ok n) (hlt : s.lzma.pendLen.toNat < n) :
    ({ s with lzma := s.lzma.countDown s.ctl.mode, framer := s.framer.countDown s.ctl.mode } : State).Inv := by
  cases hm : s.ctl.mode with
  | unconfigured => exact { h with lzma1 := fun hm => { h.lzma1 hm with }, lzma2 := fun hm => { h.lzma2 hm with } }
  | lzma1 =>
    rw [State.readRemaining_lzma1 hm] at hr
    cases hr
    exact { h with
      lzma1 := fun _ => ⟨by simp only [Lzma.countDown]; bv_omega⟩
      lzma2 := fun hm' => by rw [hm] at hm'; cases hm' }
  | lzma2 =>
    rw [State.readRemaining_lzma2 hm] at hr
    cases hr
    have hk := h.lzma2 hm
    have hmax := hk.unpackMax
    have hsub : (s.framer.chunkUnpackRemaining - 1).toNat = s.framer.chunkUnpackRemaining.toNat - 1 := by bv_omega
    exact { h with
      lzma1 := fun hm' => by rw [hm] at hm'; cases hm'
      lzma2 := fun _ =>
        { hk with
          pend := by simp only [Framer.countDown, Lzma.countDown, hsub]; omega
          unpackMax := by simp only [Framer.countDown, hsub]; omega } }

/-- A byte is written to the dictionary and emitted (20_memory.md R83). -/
theorem State.Inv.emit (h : s.Inv) (ha : s.activity = .decoding c) (b : Byte) :
    ({ s with
      dict := s.dict.after b
      activity := .decoding c.afterEmit
      host := { s.host with out := s.host.out ++ [b] }
      ctl := { s.ctl with outTotal := s.ctl.outTotal + 1 } } : State).Inv :=
  { h with
    ram := Memory.wf_set h.ram _ b
    dict := h.dict.after b
    lzma1 := fun hm => { h.lzma1 hm with }
    lzma2 := fun hm => { h.lzma2 hm with }
    activity := by
      obtain ⟨hmode, hlatch, hnoted⟩ := h.decoding ha
      exact ⟨hmode, hlatch, hnoted⟩ }

/-- The packet registers at rest, the framer, the dictionary and the properties change between the packets of LZMA
chunks. -/
theorem State.Inv.betweenChunks (h : s.Inv) (hm : s.ctl.mode = .lzma2) {l : Lzma} {f : Framer} {d : Dict}
    {cfg : ConfigRegs} (hl : l.Kept) (hinit : l.l1Phase = .needInit) (hpend : l.pendLen = 0) (hf : f.Kept)
    (hphase : f.l2Phase ≠ .lzmaData) (hram : Memory.wf d.ram = true) (hd : d.Kept s.params.dictMax) :
    ({ s with cfg := cfg, lzma := l, framer := f, dict := d } : State).Inv :=
  { hl, h with
    ram := hram
    dict := hd
    lzma1 := fun hm' => by rw [show s.ctl.mode = .lzma1 from hm'] at hm; cases hm
    lzma2 := fun _ => .of_framer hf hphase hinit hpend }

/-! ## Packets -/

/-- A copy packet starts its copy with the rep distances it leaves, kept where its distance is within reach. -/
theorem copyPacket_inv (ht : t.Opened c) (hr : t.readRemaining = .ok n) (hphase : t.lzma.l1Phase = .packets)
    {dist len : Nat} {l : Lzma} (hl : 1 ≤ dist → dist ≤ t.dict.reach → l.Kept) (hlphase : l.l1Phase = .packets)
    (hunpack : l.unpackRemaining = t.lzma.unpackRemaining) (hlen : len ≤ Config.matchMaxLen) (st : Fin 12) :
    EndsWith State.Inv (copyPacket t dist len { l.startCopy len with lzState := st }) := by
  obtain ⟨h1, hreach, hn, e⟩ | ⟨r, e⟩ := copyPacket_cases dist len { l.startCopy len with lzState := st }
    ht.activity hr <;> rw [e]
  · have hk := (hl h1 hreach).startCopy hlphase hlen st
    have hpend : (l.startCopy len).pendLen.toNat ≤ n := (l.startCopy_pendLen_toNat hlen).trans_le hn
    exact .next (ht.committed.withLzma (n := n) hr hphase hk hlphase hunpack hpend)
  · exact ht.raised r

theorem execLit_inv (b : Byte) (ht : t.Opened c) (hspace : c.outSpace ≠ 0) (hr : t.readRemaining = .ok n)
    (hn : n ≠ 0) (hphase : t.lzma.l1Phase = .packets) (hpend : t.lzma.pendLen = 0) :
    EndsWith State.Inv (execLit b t) := by
  have hpend0 : t.lzma.pendLen.toNat = 0 := by rw [hpend]; rfl
  have hlit := ht.committed.withLzma (n := n) (l := { t.lzma with lzState := afterLiteral t.lzma.lzState }) hr hphase
    { ht.committed.lzma with } hphase rfl (by simp only [hpend0]; omega)
  rw [execLit_ok b ht.activity hspace hr]
  exact .next ((hlit.emit rfl b).countDown (n := n) hr (by simp only [hpend0]; omega))

theorem lenOk_iff {len : Nat} : lenOk len = true ↔ Config.matchMinLen ≤ len ∧ len ≤ Config.matchMaxLen :=
  decide_eq_true_iff

/-- Every packet, executed where the packet loop fetches one: no copy pending, space for a byte, bytes remaining. -/
theorem exec_packet_inv {i : Instr} (hi : i.isPacket = true) (hw : i.wellFormed = true) (ht : t.Opened c)
    (hspace : c.outSpace ≠ 0) (hr : t.readRemaining = .ok n) (hn : n ≠ 0) (hphase : t.lzma.l1Phase = .packets)
    (hpend : t.lzma.pendLen = 0) : EndsWith State.Inv (exec i t) := by
  have hl : t.lzma.Kept := ht.committed.lzma
  cases i with
  | lit b => exact execLit_inv b ht hspace hr hn hphase hpend
  | matchNew dist len =>
    have hlen := (lenOk_iff.mp (Bool.and_eq_true _ _ ▸ hw).2).2
    exact copyPacket_inv (l := t.lzma.pushRep dist) ht hr hphase hl.pushRep hphase rfl hlen _
  | shortRep => exact copyPacket_inv ht hr hphase (fun _ _ => hl) hphase rfl (by decide) _
  | rep0 len => exact copyPacket_inv ht hr hphase (fun _ _ => hl) hphase rfl (lenOk_iff.mp hw).2 _
  | rep1 len => exact copyPacket_inv ht hr hphase (fun _ _ => hl.useRep1) hphase rfl (lenOk_iff.mp hw).2 _
  | rep2 len => exact copyPacket_inv ht hr hphase (fun _ _ => hl.useRep2) hphase rfl (lenOk_iff.mp hw).2 _
  | rep3 len => exact copyPacket_inv ht hr hphase (fun _ _ => hl.useRep3) hphase rfl (lenOk_iff.mp hw).2 _
  | _ => cases hi

/-! ## The packet loop -/

theorem packetStep_inv (h : s.Inv) (ha : s.activity = .decoding c) (hspace : c.outSpace ≠ 0)
    (hr : s.readRemaining = .ok n) (hn : n ≠ 0) (hphase : s.lzma.l1Phase = .packets) (hpend : s.lzma.pendLen = 0) :
    EndsWith State.Inv (packetStep s) := by
  unfold packetStep
  obtain ⟨i, rc, m, k, hf, hi, hw, hrange, hm, hadv⟩ | ⟨r, hf⟩ := fetchPacket_cases ha h.dict h.range h.probs <;>
    rw [hf]
  · exact exec_packet_inv hi hw (h.opened_takeRc ha hrange hm hadv) hspace hr hn hphase hpend
  · exact h.raised r

theorem copyStep_inv (h : s.Inv) (ha : s.activity = .decoding c) (hr : s.readRemaining = .ok n)
    (hpend : s.lzma.pendLen ≠ 0) (hn : s.lzma.pendLen.toNat ≤ n) : EndsWith State.Inv (copyStep s) := by
  by_cases hspace : c.outSpace = 0
  · have e : copyStep s = takeRaise s .needMoreOutput := by
      simp [copyStep, State.call_ok ha, Call.needSpace_error hspace]
    rw [e]
    exact h.raised _
  obtain ⟨-, -, b, hget⟩ | ⟨-, hget⟩ := Dict.get_cases h.dict s.lzma.pendDist.toNat
  · have hphase := h.pendDist hpend
    have hmax := h.pendLen
    have hsub : (s.lzma.pendLen - 1).toNat = s.lzma.pendLen.toNat - 1 := by bv_omega
    have hpos : s.lzma.pendLen.toNat ≠ 0 := fun h0 => hpend (BitVec.eq_of_toNat_eq h0)
    have hcopy := h.withLzma (l := { s.lzma with pendLen := s.lzma.pendLen - 1 }) hr hphase
      { h.lzma with pendLen := by simp only [hsub]; omega, pendDist := fun _ => hphase } hphase rfl
      (by simp only [hsub]; omega)
    rw [copyStep_ok ha hspace hr hget]
    exact .next ((hcopy.emit ha b).countDown (n := n) hr (by simp only [hsub]; omega))
  · have e : copyStep s = takeRaise s (.error .invalidDistance) := by
      simp [copyStep, State.call_ok ha, Call.needSpace_ok hspace, hget]
    rw [e]
    exact h.raised _

/-- What remains in a call, and that a pending copy fits in it. -/
theorem State.Inv.remaining (h : s.Inv) (ha : s.activity = .decoding c) :
    ∃ n, s.readRemaining = .ok n ∧ s.lzma.pendLen.toNat ≤ n := by
  cases hm : s.ctl.mode with
  | unconfigured => exact absurd hm (h.decoding ha).1
  | lzma1 => exact ⟨_, State.readRemaining_lzma1 hm, (h.lzma1 hm).pend⟩
  | lzma2 => exact ⟨_, State.readRemaining_lzma2 hm, (h.lzma2 hm).pend⟩

/-- `RcInit` is the one turn of the packet loop after which the invariant waits for the mark of R351. -/
theorem lzma1Step_inv (h : s.Inv) (ha : s.activity = .decoding c) {o : Host.Outcome State Fault Refusal}
    (ho : lzma1Step s c = .stepped o) : (o = rcInitStep s ∧ s.lzma.l1Phase = .needInit) ∨ EndsWith State.Inv o := by
  obtain ⟨n, hr, hn⟩ := h.remaining ha
  unfold lzma1Step at ho
  split at ho
  next => cases ho
  next hphase => cases ho; exact .inl ⟨rfl, hphase⟩
  next hphase =>
    right
    rw [hr] at ho
    split at ho
    next hpend => cases ho; exact copyStep_inv h ha hr hpend hn
    next hpend =>
      dsimp only at ho
      split at ho
      · cases ho
      next hn0 =>
        split at ho
        · cases ho; exact h.raised _
        next hspace => cases ho; exact packetStep_inv h ha hspace hr hn0 hphase (not_not.mp hpend)

theorem lzma1Step_done_pendLen (h : s.Inv) (hd : lzma1Step s c = .done) : s.lzma.pendLen = 0 := by
  by_contra hpend
  rw [lzma1Step, h.pendDist hpend] at hd
  dsimp only at hd
  rw [if_pos hpend] at hd
  cases hd

end Sys2Proof.Machine
end

section
/-! PROOF. The invariant through the calls (46_lzma1_core.md R320 to R323; 47_lzma2_chunk.md R351 to R373):
`RcInit` with the mark of R351, the end of a stream, chunk headers, the bytes of a chunk and its end. -/

namespace Sys2Proof.Machine

variable {s t : State} {c : Call}

/-! ## Initialisation of the range decoder -/

/-- The block after `RcInit` has answered `rc` to the call `c` (40_range_coder.md R171). -/
def State.rcStarted (s : State) (c : Call) (rc : Rc) : State :=
  let opened := s.takeRc c rc s.lzma.probs
  { opened.committed { c with input := rc.bytes, noted := some (s.notedNow c) } with
    lzma := { opened.lzma with l1Phase := .packets } }

theorem rcInitStep_ok (ha : s.activity = .decoding c) {rc : Rc}
    (hrc : rcInit s.params.checkRcByte0 s.rcSource c.input = .ok rc) : rcInitStep s = .next (s.rcStarted c rc) := by
  rw [rcInitStep, State.call_ok ha, ok_bind, hrc, ok_bind]
  dsimp only
  rw [State.commit_ok (c := { c with input := rc.bytes, noted := some (s.notedNow c) }) rfl]
  rfl

theorem rcInitStep_raise (ha : s.activity = .decoding c) {r : Raise}
    (hrc : rcInit s.params.checkRcByte0 s.rcSource c.input = .error (.raise r)) : rcInitStep s = takeRaise s r := by
  rw [rcInitStep, State.call_ok ha, ok_bind, hrc, error_bind, deliver_raise]

/-- The packet registers with the range decoder started; the framer, which in an LZMA2 chunk is marked with it. -/
theorem State.Inv.startPackets (h : s.Inv) {f : Framer}
    (hf : s.ctl.mode = .lzma2 → f = { s.framer with l2Phase := .lzmaData } ∧ s.framer.l2Phase = .lzmaInit) :
    ({ s with lzma := { s.lzma with l1Phase := .packets }, framer := f } : State).Inv :=
  { h with
    pendDist := fun _ => rfl
    lzma1 := fun hm => { h.lzma1 hm with }
    lzma2 := fun hm => by
      obtain ⟨rfl, hphase⟩ := hf hm
      exact { h.lzma2 hm with
        between := fun hne => absurd rfl hne
        inChunk := fun _ => (h.lzma2 hm).inChunk (.inl hphase)
        inPackets := fun _ => rfl
        copying := fun hp => by cases hp } }

theorem markLzmaData_eq (ha : s.activity = .decoding c) (hp : s.lzma.l1Phase = .packets) :
    markLzmaData s = { s with framer := { s.framer with l2Phase := .lzmaData } } := by
  simp only [markLzmaData, ha, hp, if_true]

theorem State.Inv.markLzmaData (h : s.Inv) : (Machine.markLzmaData s).Inv := by
  unfold Machine.markLzmaData
  split
  next =>
    split
    next hp =>
      exact { h with
        lzma1 := fun hm => { h.lzma1 hm with }
        lzma2 := fun hm =>
          { h.lzma2 hm with
            between := fun hne => absurd rfl hne
            inChunk := fun _ => (h.lzma2 hm).inChunk (.inr ((h.lzma2 hm).lzmaData hp))
            inPackets := fun _ => hp
            copying := nofun } }
    next => exact h
  next => exact h
  next => exact h

/-- The range decoder starts, in an LZMA2 chunk with the mark of R351, or an event is taken. -/
theorem rcInitStep_inv (h : s.Inv) (ha : s.activity = .decoding c) :
    (s.ctl.mode = .lzma1 → EndsWith State.Inv (rcInitStep s)) ∧
    (s.ctl.mode = .lzma2 → s.framer.l2Phase = .lzmaInit →
      EndsWith State.Inv (mapNext markLzmaData (rcInitStep s))) := by
  obtain ⟨rc, hrc, hrange, hadv⟩ | ⟨r, hrc⟩ := rcInit_cases s.params.checkRcByte0 s.rcSource c.input
  · have hopen := h.opened_takeRc (k := 5) ha (hrange ▸ Config.rangeTop_le_rangeInit) h.probs hadv
    rw [rcInitStep_ok ha hrc]
    refine ⟨fun hm => .next (hopen.committed.startPackets fun hm' => ?_), fun hm hphase => .next ?_⟩
    · rw [show s.ctl.mode = .lzma2 from hm'] at hm
      cases hm
    · rw [markLzmaData_eq (s := s.rcStarted c rc) rfl rfl]
      exact hopen.committed.startPackets fun _ => ⟨rfl, hphase⟩
  · rw [rcInitStep_raise ha hrc]
    exact ⟨fun _ => h.raised r, fun _ _ => EndsWith.mapNext (fun _ ht => ht.markLzmaData) (h.raised r)⟩

/-! ## Calls -/

theorem finishCall_inv (h : s.Inv) (ha : s.activity = .decoding c) : (finishCall s c).Inv :=
  h.endCall ha .finished nofun

theorem stepLzma1_inv (h : s.Inv) (ha : s.activity = .decoding c) (hm : s.ctl.mode = .lzma1) :
    EndsWith State.Inv (stepLzma1 s c) := by
  unfold stepLzma1
  split
  next o ho =>
    obtain ⟨rfl, -⟩ | ho := lzma1Step_inv h ha ho
    · exact (rcInitStep_inv h ha).1 hm
    · exact ho
  next hd =>
    have hpend := lzma1Step_done_pendLen h hd
    have hfinished : ({ s with lzma := { s.lzma with l1Phase := .finished } } : State).Inv :=
      { h with
        pendDist := fun hne => absurd hpend hne
        lzma1 := fun hm' => { h.lzma1 hm' with }
        lzma2 := fun hm' => by rw [show s.ctl.mode = .lzma2 from hm'] at hm; cases hm }
    exact .next (finishCall_inv hfinished ha)

/-! ## Chunks -/

/-- What a chunk header leaves, from an open transaction between chunks: the packet registers at rest. -/
theorem State.Opened.commitHeader (ht : t.Opened c) (hm : t.ctl.mode = .lzma2) {l : Lzma} {f : Framer} {d : Dict}
    {cfg : ConfigRegs} (hl : l.Kept) (hinit : l.l1Phase = .needInit) (hpend : l.pendLen = 0) (hf : f.Kept)
    (hphase : f.l2Phase ≠ .lzmaData) (hram : Memory.wf d.ram = true) (hd : d.Kept t.params.dictMax) :
    Answers State.Inv ({ t with cfg := cfg, lzma := l, framer := f, dict := d } : State).commit := by
  rw [State.commit_ok (c := c) (by exact ht.activity)]
  exact .ok (ht.committed.betweenChunks hm hl hinit hpend hf hphase hram hd)

/-- An LZMA chunk opens with the packet registers at rest, whatever it resets. -/
theorem State.Opened.commitLzmaHeader (ht : t.Opened c) (hm : t.ctl.mode = .lzma2) {l : Lzma} (hl : l.Kept)
    (hpend : l.pendLen = 0) (control : Byte) (u : BitVec 21) (p : BitVec 16) {d : Dict} {cfg : ConfigRegs}
    (hram : Memory.wf d.ram = true) (hd : d.Kept t.params.dictMax) :
    Answers State.Inv
      ({ t with cfg := cfg, lzma := l.rcRestart, framer := t.framer.startLzma control u p, dict := d } :
        State).commit :=
  ht.commitHeader hm (hl.rcRestart hpend) rfl hpend ((ht.committed.lzma2 hm).framer.startLzma control u p) nofun hram hd

/-- Every chunk header, executed between chunks. -/
theorem exec_header_inv {l rest : List Byte} {i : Instr} (hd : decodeHeader l = some (i, rest)) (ht : t.Opened c)
    (hm : t.ctl.mode = .lzma2) (hinit : t.lzma.l1Phase = .needInit) (hpend : t.lzma.pendLen = 0) :
    EndsWith State.Inv (exec i t) := by
  have hl : t.lzma.Kept := ht.committed.lzma
  have hf : t.framer.Kept := (ht.committed.lzma2 hm).framer
  have hram : Memory.wf t.dict.ram = true := ht.committed.ram
  have hdict : t.dict.Kept t.params.dictMax := ht.committed.dict
  obtain rfl | ⟨n, rfl⟩ | ⟨n, rfl⟩ | ⟨v, rfl⟩ | ⟨u, p, rfl⟩ | ⟨u, p, rfl⟩ | ⟨u, p, v, rfl⟩ | ⟨u, p, v, rfl⟩ :=
    decodeHeader_cases hd
  · have hend : ({ t.framer with control := 0x00, l2Phase := .finished } : Framer).Kept :=
      { hf with inChunk := fun hp => by simp at hp, copying := nofun }
    exact deliver_inv ht.raised (ht.commitHeader hm hl hinit hpend hend nofun hram hdict)
  · have hcopy : ({ t.framer.startCopy 0x01 n with needInitLevel := 0xC0 } : Framer).Kept :=
      { hf.startCopy 0x01 n with level := .inr (.inl rfl), inChunk := fun hp => by simp at hp }
    exact deliver_inv ht.raised (ht.commitHeader hm hl hinit hpend hcopy nofun rfl hdict.clear)
  · refine deliver_inv ht.raised ?_
    split
    · exact .error _
    · exact ht.commitHeader hm hl hinit hpend (hf.startCopy 0x02 n) nofun hram hdict
  · exact ht.raised _
  · exact deliver_inv ht.raised (.bind fun _ _ => ht.commitLzmaHeader hm hl hpend _ u p hram hdict)
  · exact deliver_inv ht.raised (.bind fun _ _ => ht.commitLzmaHeader hm hl.stateReset hpend _ u p hram hdict)
  · exact deliver_inv ht.raised (.bind fun _ _ => .bind fun _ _ =>
      ht.commitLzmaHeader hm hl.stateReset hpend _ u p hram hdict)
  · exact deliver_inv ht.raised (.bind fun _ _ => .bind fun _ _ =>
      ht.commitLzmaHeader hm hl.stateReset hpend _ u p rfl hdict.clear)

theorem headerStep_inv (h : s.Inv) (ha : s.activity = .decoding c) (hm : s.ctl.mode = .lzma2)
    (hphase : s.framer.l2Phase = .control) : EndsWith State.Inv (headerStep s c) := by
  obtain ⟨hinit, hpend⟩ := (h.lzma2 hm).between (by rw [hphase]; nofun)
  unfold headerStep
  split
  next => exact h.raised _
  next i rest hd => exact exec_header_inv hd (h.opened_take ha rest) hm hinit hpend

/-- The framer after one byte of an uncompressed chunk (47_lzma2_chunk.md R369). -/
theorem Framer.Kept.copied {f : Framer} (hf : f.Kept) (hphase : f.l2Phase = .copyData) :
    ({ f with
      copyRemaining := f.copyRemaining - 1
      l2Phase := if f.copyRemaining - 1 = 0 then .control else f.l2Phase } : Framer).Kept := by
  have hpos := hf.copying hphase
  have hmax := hf.copyMax
  have hsub : (f.copyRemaining - 1).toNat = f.copyRemaining.toNat - 1 := by bv_omega
  refine { hf with inChunk := fun hp => ?_, copying := fun hp => ?_, copyMax := by simp only [hsub]; omega }
  · rw [hphase] at hp
    split at hp <;> simp at hp
  · by_contra hlt
    have hzero : f.copyRemaining - 1 = 0 := BitVec.eq_of_toNat_eq (by simpa using hlt)
    dsimp only at hp
    rw [if_pos hzero] at hp
    cases hp

theorem copyChunkStep_inv (h : s.Inv) (ha : s.activity = .decoding c) (hm : s.ctl.mode = .lzma2)
    (hphase : s.framer.l2Phase = .copyData) : EndsWith State.Inv (copyChunkStep s c) := by
  obtain ⟨hinit, hpend⟩ := (h.lzma2 hm).between (by rw [hphase]; nofun)
  refine deliver_inv h.raised (.bind fun _ _ => ?_)
  split
  next => exact .error _
  next b rest _ =>
    have hput := (h.opened_take ha rest).committed.emit rfl b
    rw [State.commit_ok (State.take_activity s c rest), ok_bind, State.dictPut_ok rfl, ok_bind]
    refine .ok (hput.betweenChunks hm hput.lzma hinit hpend ((h.lzma2 hm).framer.copied hphase) ?_ hput.ram hput.dict)
    dsimp only
    rw [show (s.take c rest).framer.l2Phase = .copyData from hphase]
    split <;> nofun

theorem endLzmaChunk_inv (h : s.Inv) (hm : s.ctl.mode = .lzma2) (hpend : s.lzma.pendLen = 0) :
    EndsWith State.Inv (endLzmaChunk s) := by
  unfold endLzmaChunk
  split
  · exact h.raised _
  · have hl : ({ s.lzma with l1Phase := .needInit } : Lzma).Kept :=
      { h.lzma with pendDist := fun hne => absurd hpend hne }
    have hf : ({ s.framer with l2Phase := .control } : Framer).Kept :=
      { (h.lzma2 hm).framer with inChunk := fun hp => by simp at hp, copying := nofun }
    exact .next (h.betweenChunks hm hl rfl hpend hf nofun h.ram h.dict)

theorem stepLzma2_lzmaChunk_inv (h : s.Inv) (ha : s.activity = .decoding c) (hm : s.ctl.mode = .lzma2)
    (hp : s.framer.l2Phase = .lzmaInit ∨ s.framer.l2Phase = .lzmaData) : EndsWith State.Inv (stepLzma2 s c) := by
  obtain ⟨o, ho, e⟩ | ⟨hd, e⟩ := stepLzma2_lzmaChunk c hp <;> rw [e]
  · obtain ⟨rfl, hinit⟩ | ho := lzma1Step_inv h ha ho
    · refine (rcInitStep_inv h ha).2 hm (hp.resolve_right fun hdata => ?_)
      rw [(h.lzma2 hm).inPackets hdata] at hinit
      cases hinit
    · exact EndsWith.mapNext (fun _ ht => ht.markLzmaData) ho
  · exact endLzmaChunk_inv h hm (lzma1Step_done_pendLen h hd)

theorem stepLzma2_inv (h : s.Inv) (ha : s.activity = .decoding c) (hm : s.ctl.mode = .lzma2) :
    EndsWith State.Inv (stepLzma2 s c) := by
  cases hp : s.framer.l2Phase with
  | finished => simp only [stepLzma2, hp]; exact .next (finishCall_inv h ha)
  | control => simp only [stepLzma2, hp]; exact headerStep_inv h ha hm hp
  | copyData => simp only [stepLzma2, hp]; exact copyChunkStep_inv h ha hm hp
  | lzmaInit => exact stepLzma2_lzmaChunk_inv h ha hm (.inl hp)
  | lzmaData => exact stepLzma2_lzmaChunk_inv h ha hm (.inr hp)

end Sys2Proof.Machine
end

section
/-! PROOF. The invariant through the BCJ2 runs (48_bcj2.md R401 to R411), the host's commands (49_host_commands.md)
and, with the calls, every step. -/

namespace Sys2Proof.Machine

variable {s t : State}

/-! ## BCJ2 runs -/

section Run
variable {j : Bcj2Job} {r r' : Bcj2Regs}

/-- A run goes on: the unit and the job change together. -/
theorem State.Inv.withRun (h : s.Inv) (hr : r.Kept) (hj : j.Kept r) : (s.merging (j, r)).Inv :=
  { h with
    lzma1 := fun hm => { h.lzma1 hm with }
    lzma2 := fun hm => { h.lzma2 hm with }
    bcj := hr
    activity := hj }

/-- What a run is asked depends on two of the unit's positions. -/
theorem Bcj2Job.Kept.congr (h : j.Kept r) (hout : r'.outPos = r.outPos) (hmain : r'.mainPos = r.mainPos) : j.Kept r' :=
  { out := hout ▸ h.out, outMax := hout ▸ h.outMax, mainPos := hout ▸ hmain ▸ h.mainPos, saved := h.saved }

theorem Bcj2Job.Kept.copyMain (h : j.Kept r) (hne : r.outPos ≠ j.outSize) (b : Byte) :
    (Machine.copyMain j r b).1.Kept (Machine.copyMain j r b).2 := by
  obtain ⟨hout, houtMax, hmain, hsaved⟩ := h
  have hlt : r.outPos.toNat ≠ j.outSize.toNat := fun he => hne (BitVec.eq_of_toNat_eq he)
  have hsucc : (r.outPos + 1).toNat = r.outPos.toNat + 1 := by bv_omega
  exact {
    out := by simp only [Machine.copyMain, List.length_append, List.length_singleton, hout, hsucc]
    outMax := by simp only [Machine.copyMain, hsucc]; omega
    mainPos := by simp only [Machine.copyMain, hsucc]; bv_omega
    saved := hsaved }

theorem Bcj2Regs.Kept.controlBit (h : r.Kept) {i : Nat} {bit : Bool} (hc : r.controlBit j i = .ok (bit, r')) :
    r'.Kept ∧ r'.outPos = r.outPos ∧ r'.mainPos = r.mainPos := by
  obtain ⟨⟨b, p, rc⟩, hd, hc⟩ := bind_ok hc
  cases hc
  obtain ⟨_, _, _, _, e, hp, hrange, -⟩ | ⟨_, e, -⟩ :=
    decodeBit_cases (Probs.kept_read h.probs i) (rc := r.rc j) h.range
  · rw [hd] at e
    cases e
    exact ⟨⟨Probs.kept_write h.probs i hp, hrange⟩, rfl, rfl⟩
  · rw [hd] at e
    cases e

theorem Bcj2Regs.Kept.takeTarget (h : r.Kept) {target : TargetStream} {src : Word}
    (ht : r.takeTarget j target = .ok (src, r')) : r'.Kept ∧ r'.outPos = r.outPos ∧ r'.mainPos = r.mainPos := by
  cases target with
  | call =>
    obtain ⟨_, -, ht⟩ := bind_ok ht
    cases ht
    exact ⟨{ h with }, rfl, rfl⟩
  | jump =>
    obtain ⟨_, -, ht⟩ := bind_ok ht
    cases ht
    exact ⟨{ h with }, rfl, rfl⟩

theorem destBytes_length_le (dest outPos outSize : Word) :
    (destBytes dest outPos outSize).length ≤ outSize.toNat - outPos.toNat := List.length_take_le _ _

/-- A converted displacement stops at the end of the output (48_bcj2.md R407). -/
theorem Bcj2Job.Kept.emitDest (h : j.Kept r) (src : Word) :
    (Machine.emitDest j r src).1.Kept (Machine.emitDest j r src).2 := by
  obtain ⟨hout, houtMax, hmain, hsaved⟩ := h
  have hlen := destBytes_length_le (branchDest src r.outPos) r.outPos j.outSize
  have hsize := j.outSize.isLt
  have hadd : (r.outPos + BitVec.ofNat 32 (destBytes (branchDest src r.outPos) r.outPos j.outSize).length).toNat =
      r.outPos.toNat + (destBytes (branchDest src r.outPos) r.outPos j.outSize).length := by
    rw [BitVec.toNat_add, BitVec.toNat_ofNat, Nat.add_mod_mod, Nat.mod_eq_of_lt (by omega)]
  exact {
    out := by simp only [Machine.emitDest, List.length_append, hout, hadd]
    outMax := by simp only [Machine.emitDest, hadd]; omega
    mainPos := by simp only [Machine.emitDest, hadd]; omega
    saved := hsaved }

theorem branchToken_inv (h : s.Inv) (ha : s.activity = .merging j) (hne : s.bcj.outPos ≠ j.outSize) (b : Byte) (i : Nat)
    (target : TargetStream) : Answers State.Inv (branchToken b i target s) := by
  have hj := (h.merging ha).copyMain hne b
  have hr : (copyMain j s.bcj b).2.Kept := { h.bcj with }
  rw [branchToken, State.job_ok ha, ok_bind]
  dsimp only
  split
  · exact .ok (h.withRun hr hj)
  · refine .bind fun ⟨bit, r2⟩ hbit => ?_
    obtain ⟨hr2, hout2, hmain2⟩ := hr.controlBit hbit
    have hj2 := hj.congr hout2 hmain2
    cases bit with
    | false => exact .ok (h.withRun hr2 { hj2 with })
    | true =>
      refine .bind fun ⟨src, r3⟩ htarget => ?_
      obtain ⟨hr3, hout3, hmain3⟩ := hr2.takeTarget htarget
      exact .ok (h.withRun { hr3 with } ((hj2.congr hout3 hmain3).emitDest src))

theorem bcj2Plain_inv (h : s.Inv) (ha : s.activity = .merging j) (hne : s.bcj.outPos ≠ j.outSize) (prev b : Byte) :
    EndsWith State.Inv (execBcj2Plain prev b s) := by
  refine deliver_inv h.raised ?_
  rw [State.job_ok ha, ok_bind]
  exact .ok (h.withRun { h.bcj with } { (h.merging ha).copyMain hne b with })

/-- Every token of a run whose output is not complete. -/
theorem exec_token_inv (h : s.Inv) (ha : s.activity = .merging j) (hne : s.bcj.outPos ≠ j.outSize) (b : Byte) :
    EndsWith State.Inv (exec (decodePair j.prev b) s) := by
  have branch (b : Byte) (i : Nat) (target : TargetStream) :=
    deliver_inv h.raised (branchToken_inv h ha hne b i target)
  unfold decodePair
  split
  · exact branch _ _ _
  · split
    · exact branch _ _ _
    · split
      · exact branch _ _ _
      · exact bcj2Plain_inv h ha hne j.prev b

theorem stepMerge_inv (h : s.Inv) (ha : s.activity = .merging j) : EndsWith State.Inv (stepMerge s j) := by
  unfold stepMerge
  split
  next => exact .next ((h.host _).returns _ _ _ _)
  next hne =>
    split
    next => exact h.raised _
    next b _ => exact exec_token_inv h ha hne b

end Run

/-! ## Commands -/

/-- A command that runs in an idle block keeps the invariant where its own part does; the commands that wait are no part
of it. -/
theorem State.Inv.accept (h : s.Inv) (cmd : HostCmd) {run : State → Host.Outcome State Fault Refusal}
    (hrun : ∀ s' : State, s'.Inv → s'.activity = .idle → EndsWith State.Inv (run s')) :
    EndsWith State.Inv (s.accept cmd run) := by
  unfold State.accept
  split
  next ha => exact hrun _ (h.host _) ha
  next => exact .next (h.host _)
  next => exact .next (h.host _)

/-- A configure command that fails leaves a cleared block. -/
theorem configured_inv (h : s.Inv) {r : Except Cause State} (hr : ∀ t, r = .ok t → t.Inv) :
    EndsWith State.Inv (configured s r) := by
  match r with
  | .ok s' => exact .next ((hr s' rfl).returns _ _ _ _)
  | .error c => exact .next ((State.cleared_inv h.dictMax).returns _ _ _ _)

theorem State.Inv.configureDict (h : s.Inv) (ha : s.activity = .idle) {size : Word}
    (ht : s.configureDict size = .ok t) : t.Inv ∧ t.activity = .idle := by
  unfold State.configureDict at ht
  split at ht
  · cases ht
  next hle =>
    cases ht
    exact ⟨{ h with
      ram := rfl
      dict := .configure s.dict h.dictMax (BitVec.not_lt.mp hle)
      lzma1 := fun hm => { h.lzma1 hm with }
      lzma2 := fun hm => { h.lzma2 hm with } }, ha⟩

theorem State.Inv.openLzma1 (h : s.Inv) (ha : s.activity = .idle) (p : LcLpPb) (size : U64) :
    (s.openLzma1 p size).Inv :=
  { h.lzma.stateReset with
    dictMax := h.dictMax
    range := Config.rangeTop_le_rangeInit
    pendLen := Nat.zero_le _
    pendDist := fun hne => absurd rfl hne
    ram := rfl
    dict := h.dict.clear
    lzma1 := fun _ => ⟨Nat.zero_le _⟩
    lzma2 := nofun
    latched := nofun
    bcj := h.bcj
    activity := by rw [State.ActivityKept, State.openLzma1_activity, ha]; trivial }

theorem Framer.start_kept : Framer.start.Kept where
  level := .inr (.inr rfl)
  inChunk := by simp [Framer.start]
  copying := nofun
  unpackMax := Nat.zero_le _
  packMax := Nat.zero_le _
  copyMax := Nat.zero_le _

theorem State.Inv.startLzma2 (h : s.Inv) (ha : s.activity = .idle) : s.startLzma2.Inv :=
  { h with
    range := Config.rangeTop_le_rangeInit
    pendLen := Nat.zero_le _
    pendDist := fun hne => absurd rfl hne
    ram := rfl
    dict := h.dict.clear
    lzma1 := nofun
    lzma2 := fun _ => .of_framer Framer.start_kept nofun rfl rfl
    latched := nofun
    activity := by rw [State.ActivityKept, State.startLzma2_activity, ha]; trivial }

/-- `bind_ok` for an operation that fails with something else than a `Stop`: the causes of the configure commands. -/
theorem except_bind_ok {ε α β : Type} {x : Except ε α} {f : α → Except ε β} {b : β} (h : x >>= f = .ok b) :
    ∃ a, x = .ok a ∧ f a = .ok b := by
  cases x with
  | error e => cases h
  | ok a => exact ⟨a, rfl, h⟩

theorem State.Inv.configRaw (h : s.Inv) (ha : s.activity = .idle) {props : List Byte} {size : U64}
    (ht : s.configRaw props size = .ok t) : t.Inv := by
  unfold State.configRaw at ht
  split at ht
  next =>
    obtain ⟨p, -, ht⟩ := except_bind_ok ht
    obtain ⟨s1, hs, ht⟩ := except_bind_ok ht
    cases ht
    obtain ⟨h1, ha1⟩ := h.configureDict ha hs
    exact h1.openLzma1 ha1 p size
  next => cases ht

theorem State.Inv.configAlone (h : s.Inv) (ha : s.activity = .idle) {header : Vector Byte 13}
    (ht : s.configAlone header = .ok t) : t.Inv := by
  obtain ⟨p, -, ht⟩ := except_bind_ok ht
  obtain ⟨s1, hs, ht⟩ := except_bind_ok ht
  obtain ⟨h1, ha1⟩ := h.configureDict ha hs
  dsimp only at ht
  split at ht
  next => cases ht
  next => cases ht; exact h1.openLzma1 ha1 p _

theorem State.Inv.configLzma2 (h : s.Inv) (ha : s.activity = .idle) {q : Byte} (ht : s.configLzma2 q = .ok t) :
    t.Inv := by
  unfold State.configLzma2 at ht
  split at ht
  next => cases ht
  next =>
    obtain ⟨s1, hs, ht⟩ := except_bind_ok ht
    cases ht
    obtain ⟨h1, ha1⟩ := h.configureDict ha hs
    have h2 : ({ s1 with cfg := { s1.cfg with lzma2DictProp := q } } : State).Inv :=
      { h1 with lzma1 := fun hm => { h1.lzma1 hm with }, lzma2 := fun hm => { h1.lzma2 hm with } }
    exact h2.startLzma2 ha1

/-- A `Decode` call begins in a configured block without a latched error, or is answered at once. -/
theorem execDecode_inv (h : s.Inv) (input : List Byte) (outSpace : Nat) :
    EndsWith State.Inv (execDecode input outSpace s) := by
  refine h.accept _ fun s' h' _ => ?_
  split
  next => exact .next (h'.returns _ _ _ _)
  next hm =>
    split
    next => exact .next (h'.returns _ _ _ _)
    next hl =>
      exact .next { h' with
        lzma1 := fun hm => { h'.lzma1 hm with }
        lzma2 := fun hm => { h'.lzma2 hm with }
        activity := ⟨hm, Bool.eq_false_of_not_eq_true hl, rfl⟩ }

/-- The unit at the start of a run (10_state.md R46). -/
theorem Bcj2Regs.start_kept {check : Bool} {rc : List Byte} {outSize : Word} {r : Bcj2Regs}
    (hr : Bcj2Regs.start check rc outSize = .ok r) : r.Kept ∧ r.outPos = 0 ∧ r.mainPos = 0 := by
  obtain ⟨rc', hrc, hr⟩ := bind_ok hr
  cases hr
  obtain ⟨_, e, hrange, -⟩ | ⟨_, e⟩ := rcInit_cases check .bcj2 rc <;> rw [hrc] at e <;> cases e
  exact ⟨⟨Probs.kept_nil, hrange ▸ Config.rangeTop_le_rangeInit⟩, rfl, rfl⟩

theorem execBcj2Run_inv (h : s.Inv) (main call jump rc : List Byte) (outSize : Word) :
    EndsWith State.Inv (execBcj2Run main call jump rc outSize s) := by
  refine h.accept _ fun s' h' _ => ?_
  dsimp only
  cases hr : Bcj2Regs.start s'.params.checkRcByte0 rc outSize with
  | error e =>
    cases e with
    | raise r => exact .next (h'.returns _ _ _ _)
    | fault f => rintro _ ⟨⟩
  | ok r =>
    obtain ⟨hk, hout, hmain⟩ := Bcj2Regs.start_kept hr
    exact .next (h'.withRun hk
      { out := by rw [hout]; rfl
        outMax := by rw [hout]; exact Nat.zero_le _
        mainPos := by rw [hmain]; exact Nat.zero_le _
        saved := h'.bcj })

/-- Every command of the host. -/
theorem exec_command_inv (h : s.Inv) (cmd : HostCmd) : EndsWith State.Inv (exec cmd.toInstr s) := by
  cases cmd with
  | reset => exact h.accept _ fun s' h' _ => .next ((State.cleared_inv h'.dictMax).returns _ _ _ _)
  | configLzma1Raw props size => exact h.accept _ fun s' h' ha => configured_inv h' fun _ => h'.configRaw ha
  | configLzma1Alone header => exact h.accept _ fun s' h' ha => configured_inv h' fun _ => h'.configAlone ha
  | configLzma2 q => exact h.accept _ fun s' h' ha => configured_inv h' fun _ => h'.configLzma2 ha
  | decode input outSpace => exact execDecode_inv h input outSpace
  | bcj2Run main call jump rc outSize => exact execBcj2Run_inv h main call jump rc outSize

/-! ## The step -/

theorem stepIdle_inv (h : s.Inv) : EndsWith State.Inv (stepIdle s) := by
  unfold stepIdle
  split
  next => exact .next h
  next cmd _ _ => exact exec_command_inv (h.host _) cmd

theorem step_inv (h : s.Inv) : EndsWith State.Inv (step s) := by
  unfold step stepBlock
  split
  next => exact stepIdle_inv h
  next j ha => exact stepMerge_inv h ha
  next c ha =>
    split
    next hm => exact absurd hm (h.decoding ha).1
    next hm => exact stepLzma1_inv h ha hm
    next hm => exact stepLzma2_inv h ha hm

/-- Settles O57: by the command in progress, the mode and the phase, each turn is a transaction whose events leave the
state it began in and whose commit keeps the invariant. -/
theorem stepKeepsTheInvariant : Obligations.StepKeepsTheInvariant := by
  unfold Obligations.StepKeepsTheInvariant
  intro s t h ht
  exact step_inv h t ht

end Sys2Proof.Machine
end

section
/-! PROOF. The rules of the range decoder in unbounded arithmetic (40_range_coder.md R171 to R178): a bit and a direct
bit, the adaptations and their fixed points, a byte request, and `RcInit` as a transaction. -/

namespace Sys2Proof.Machine

/-! ## Normalisation -/

/-- One byte shifted into `Code` (R176): the bits of the product by 256 and those of the byte do not meet. -/
theorem shiftLeft_or_byte (code : Word) (b : Byte) :
    code <<< 8 ||| b.setWidth 32 = BitVec.ofNat 32 (code.toNat * 256 + b.toNat) := by
  have hadd : code.toNat * 256 + b.toNat = code.toNat <<< 8 ||| b.toNat := by
    rw [← Nat.shiftLeft_add_eq_or_of_lt b.isLt, Nat.shiftLeft_eq]
  apply BitVec.eq_of_toNat_eq
  rw [hadd, BitVec.toNat_or, BitVec.toNat_shiftLeft, BitVec.toNat_setWidth, BitVec.toNat_ofNat, Nat.or_mod_two_pow]

/-- Normalisation of an interval given in unbounded arithmetic, followed by what is made of it: one byte is taken
exactly when the range is below 2^24 (R176), and then the range is not below it again (R181). -/
theorem normalise_bind {α : Type} (f : Rc → α) {rc : Rc} {range' code' : Nat} (hrange : rc.range.toNat = range')
    (hcode : rc.code.toNat = code') (hmin : 2 ^ 16 ≤ range') :
    (normalise rc >>= fun rc' => .ok (f rc')) =
      if range' < 2 ^ 24 then
        (rcByte rc.src rc.bytes).map fun x =>
          f { range := BitVec.ofNat 32 (range' * 256), code := BitVec.ofNat 32 (code' * 256 + x.1.toNat),
              src := x.2.1, bytes := x.2.2 }
      else .ok (f { rc with range := BitVec.ofNat 32 range', code := BitVec.ofNat 32 code' }) := by
  subst hrange hcode
  unfold normalise
  by_cases hlt : rc.range.toNat < 2 ^ 24
  · rw [if_pos (show rc.range.toNat < Config.rangeTop from hlt), if_pos hlt]
    cases rcByte rc.src rc.bytes with
    | error e => rfl
    | ok x =>
      have hshift : rc.range <<< 8 = BitVec.ofNat 32 (rc.range.toNat * 256) := by
        apply BitVec.eq_of_toNat_eq
        rw [BitVec.toNat_shiftLeft, BitVec.toNat_ofNat, Nat.shiftLeft_eq]
      have htop : ¬ (rc.range <<< 8).toNat < Config.rangeTop := by
        rw [hshift, BitVec.toNat_ofNat, Config.rangeTop]
        omega
      dsimp only [ok_bind]
      rw [if_neg htop, hshift, shiftLeft_or_byte]
      rfl
  · rw [if_neg (show ¬ rc.range.toNat < Config.rangeTop from hlt), if_neg hlt]
    rw [BitVec.ofNat_toNat, BitVec.ofNat_toNat, BitVec.setWidth_eq, BitVec.setWidth_eq]
    rfl

/-! ## Adaptation -/

theorem probUp_toNat_of_any (p : Prob) : (probUp p).toNat = p.toNat + (2048 - p.toNat) / 32 := by
  have hp := p.isLt
  rw [probUp, BitVec.toNat_ofNat]
  exact Nat.mod_eq_of_lt (by omega)

/-- A sequence that comes to a fixed point with its step `n + 1`, and not before, is there from then on. -/
theorem iterate_eq_fixed_iff {α : Type} {f : α → α} {a x y : α} {n : Nat} (hy : f^[n] a = y) (hxy : y ≠ x)
    (hstep : f y = x) (hfix : f x = x) (k : Nat) : f^[k] a = x ↔ n + 1 ≤ k := by
  have stays {i j : Nat} (hij : i ≤ j) (hi : f^[i] a = x) : f^[j] a = x := by
    obtain ⟨d, rfl⟩ := Nat.exists_eq_add_of_le' hij
    rw [Function.iterate_add_apply, hi, Function.iterate_fixed hfix]
  constructor
  · intro hk
    by_contra hlt
    exact hxy (hy ▸ stays (Nat.le_of_not_lt hlt) hk)
  · intro hk
    exact stays hk (by rw [Function.iterate_succ_apply', hy, hstep])

theorem probUp_iterate_126 : probUp^[126] 1024 = 2016 := by
  have h42 : probUp^[42] 1024 = 1768 := by decide
  have h84 : probUp^[42] 1768 = 1962 := by decide
  have h126 : probUp^[42] 1962 = 2016 := by decide
  rw [show 126 = 42 + (42 + 42) from rfl, Function.iterate_add_apply, Function.iterate_add_apply, h42, h84, h126]

theorem probDown_iterate_126 : probDown^[126] 1024 = 32 := by
  have h21 : probDown^[21] 1024 = 532 := by decide
  have h42 : probDown^[21] 532 = 280 := by decide
  have h63 : probDown^[21] 280 = 151 := by decide
  have h84 : probDown^[21] 151 = 86 := by decide
  have h105 : probDown^[21] 86 = 53 := by decide
  have h126 : probDown^[21] 53 = 32 := by decide
  rw [show 126 = 21 + (21 + (21 + (21 + (21 + 21)))) from rfl]
  simp only [Function.iterate_add_apply, h21, h42, h63, h84, h105, h126]

/-- Settles O10: the two formulas never leave 11 bits, and each sequence reaches the value before its fixed point with
the 126th update. -/
theorem adaptationFollowsItsRules : Obligations.AdaptationFollowsItsRules :=
  ⟨fun p => ⟨probUp_toNat_of_any p, probDown_toNat p⟩, by decide, by decide,
    iterate_eq_fixed_iff probUp_iterate_126 (by decide) (by decide) (by decide),
    iterate_eq_fixed_iff probDown_iterate_126 (by decide) (by decide) (by decide)⟩

/-! ## Bits -/

/-- Settles O9: the bound stays away from both ends of the interval, so one byte is enough to normalise either part. -/
theorem decodeBitFollowsItsRule : Obligations.DecodeBitFollowsItsRule := by
  unfold Obligations.DecodeBitFollowsItsRule
  intro p rc bound range' code' p' bit hp hr hbound h
  have heq : (rcBound rc.range p).toNat = bound := (rcBound_toNat rc.range p).trans hbound.symm
  have hge := rcBound_ge hr hp
  have hle := rcBound_lt hr hp
  rw [heq] at hge hle
  unfold decodeBit
  rw [if_neg (by simp [hp])]
  dsimp only
  obtain ⟨rfl, hlt, rfl, rfl, hp'⟩ | ⟨rfl, hle', rfl, rfl, hp'⟩ := h
  · have hcell : BitVec.ofNat 11 p' = probUp p := by rw [hp', ← probUp_toNat hp, BitVec.ofNat_toNat, BitVec.setWidth_eq]
    rw [if_pos (BitVec.lt_def.mpr (heq.symm ▸ hlt)), hcell]
    exact normalise_bind (fun rc' => (false, probUp p, rc')) heq rfl (by omega)
  · have hcell : BitVec.ofNat 11 p' = probDown p := by
      rw [hp', ← probDown_toNat p, BitVec.ofNat_toNat, BitVec.setWidth_eq]
    rw [if_neg (BitVec.not_lt.mpr (BitVec.le_def.mpr (heq.symm ▸ hle'))), hcell]
    refine normalise_bind (fun rc' => (true, probDown p, rc')) ?_ ?_ (by omega)
    · rw [BitVec.toNat_sub_of_le (BitVec.le_def.mpr (by omega)), heq]
    · rw [BitVec.toNat_sub_of_le (BitVec.le_def.mpr (by omega)), heq]

/-- Settles O11: half of a range of at least 2^24 is normalised by one byte at the most. -/
theorem directBitFollowsItsRule : Obligations.DirectBitFollowsItsRule := by
  unfold Obligations.DirectBitFollowsItsRule
  intro rc range' code' bit hr hrange h
  have hhalf : (rc.range >>> 1).toNat = range' := by
    rw [BitVec.toNat_ushiftRight, Nat.shiftRight_eq_div_pow, hrange]
  have hmin : 2 ^ 16 ≤ range' := by
    simp only [Config.rangeTop] at hr
    omega
  unfold decodeDirect
  dsimp only
  obtain ⟨rfl, hle, rfl⟩ | ⟨rfl, hlt, rfl⟩ := h
  · have hcode : rc.range >>> 1 ≤ rc.code := BitVec.le_def.mpr (hhalf.symm ▸ hle)
    rw [if_pos hcode]
    exact normalise_bind (fun rc' => (true, rc')) hhalf (by rw [BitVec.toNat_sub_of_le hcode, hhalf]) hmin
  · rw [if_neg (BitVec.not_le.mpr (BitVec.lt_def.mpr (hhalf.symm ▸ hlt)))]
    exact normalise_bind (fun rc' => (false, rc')) hhalf rfl hmin

/-! ## Bytes -/

theorem RcSource.draw_chunk_ok {left : BitVec 17} {k : Nat} (h : k ≤ left.toNat) :
    (RcSource.chunk left).draw k = .ok (.chunk (left - BitVec.ofNat 17 k)) := if_neg (Nat.not_lt.mpr h)

theorem RcSource.draw_chunk_error {left : BitVec 17} {k : Nat} (h : left.toNat < k) :
    (RcSource.chunk left).draw k = .error (.raise (.error .packedOverrun)) := if_pos h

/-- A byte request, the budget allowing it. -/
theorem rcByte_cons {src src' : RcSource} (h : src.draw 1 = .ok src') (b : Byte) (rest : List Byte) :
    rcByte src (b :: rest) = .ok (b, src', rest) := by
  rw [rcByte, h, ok_bind]

theorem rcByte_nil {src src' : RcSource} (h : src.draw 1 = .ok src') : rcByte src [] = .error (.raise src.starved) := by
  rw [rcByte, h, ok_bind]

/-- The budget is checked before the presence of the byte. -/
theorem rcByte_overrun {src : RcSource} {e : Stop} (h : src.draw 1 = .error e) (bytes : List Byte) :
    rcByte src bytes = .error e := by
  rw [rcByte, h, error_bind]

/-- Settles O12: only a chunk has a budget, and each source has its own event for a missing byte. -/
theorem byteRequestChecksBudgetFirst : Obligations.ByteRequestChecksBudgetFirst := by
  have draw {left : BitVec 17} (h : left ≠ 0) : (RcSource.chunk left).draw 1 = .ok (.chunk (left - 1)) :=
    RcSource.draw_chunk_ok (Nat.pos_of_ne_zero fun h0 => h (BitVec.eq_of_toNat_eq h0))
  exact ⟨rcByte_cons rfl, rcByte_nil rfl, fun _ b rest h => rcByte_cons (draw h) b rest, fun _ h => rcByte_nil (draw h),
    rcByte_overrun (RcSource.draw_chunk_error Nat.one_pos), rcByte_cons rfl, rcByte_nil rfl⟩

/-! ## Initialisation -/

/-- `RcInit` from five bytes, the budget allowing them (R171, R183). -/
theorem rcInit_ok {check : Bool} {src src' : RcSource} (h : src.draw 5 = .ok src') {b0 : Byte}
    (hcheck : check = true → b0 = 0) (b1 b2 b3 b4 : Byte) (rest : List Byte) :
    rcInit check src (b0 :: b1 :: b2 :: b3 :: b4 :: rest) =
      .ok { range := Config.rangeInit, code := be32 b1 b2 b3 b4, src := src', bytes := rest } := by
  rw [rcInit, h, ok_bind]
  exact if_neg (by simpa using hcheck)

theorem rcInit_overrun {check : Bool} {src : RcSource} {e : Stop} (h : src.draw 5 = .error e) (bytes : List Byte) :
    rcInit check src bytes = .error e := by
  rw [rcInit, h, error_bind]

theorem rcInit_starved {check : Bool} {src src' : RcSource} (h : src.draw 5 = .ok src') {bytes : List Byte}
    (hlen : bytes.length < 5) : rcInit check src bytes = .error (.raise src.starved) := by
  rw [rcInit, h, ok_bind]
  split
  next => simp only [List.length_cons] at hlen; omega
  next => rfl

theorem rcInit_badByte0 {src src' : RcSource} (h : src.draw 5 = .ok src') {b0 : Byte} (hb0 : b0 ≠ 0)
    {rest : List Byte} (hlen : 4 ≤ rest.length) :
    rcInit true src (b0 :: rest) = .error (.raise (.error .badRcInit)) := by
  obtain ⟨b1, b2, b3, b4, rest, rfl⟩ : ∃ b1 b2 b3 b4 rest', rest = b1 :: b2 :: b3 :: b4 :: rest' := by
    match rest, hlen with
    | b1 :: b2 :: b3 :: b4 :: rest', _ => exact ⟨b1, b2, b3, b4, rest', rfl⟩
  rw [rcInit, h, ok_bind]
  exact if_pos (by simpa using hb0)

variable {s : State} {c : Call}

theorem State.rcSource_lzma1 (hm : s.ctl.mode = .lzma1) : s.rcSource = .stream := by
  rw [State.rcSource, hm]

theorem State.rcSource_lzma2 (hm : s.ctl.mode = .lzma2) : s.rcSource = .chunk s.framer.chunkPackRemaining := by
  rw [State.rcSource, hm]

/-- The bytes of `RcInit` are there to draw in an LZMA1 stream, and in a chunk whose budget holds them. -/
theorem State.rcSource_draw_five
    (h : s.ctl.mode = .lzma1 ∨ s.ctl.mode = .lzma2 ∧ 5 ≤ s.framer.chunkPackRemaining.toNat) :
    (∃ src, s.rcSource.draw 5 = .ok src) ∧ s.rcSource.starved = .needMoreInput := by
  obtain hm | ⟨hm, hbudget⟩ := h
  · rw [State.rcSource_lzma1 hm]
    exact ⟨⟨_, rfl⟩, rfl⟩
  · rw [State.rcSource_lzma2 hm]
    exact ⟨⟨_, RcSource.draw_chunk_ok hbudget⟩, rfl⟩

/-- The block after `RcInit` has taken five bytes, written out. -/
theorem State.rcStarted_eq {rc : Rc} (hn : c.noted = none) (hlen : c.input.length = rc.bytes.length + 5) :
    s.rcStarted c rc = { s with
      lzma := { s.lzma with range := rc.range, code := rc.code, l1Phase := .packets }
      framer := { s.framer with chunkPackRemaining := rc.src.budget s.framer.chunkPackRemaining }
      activity := .decoding { c with input := rc.bytes, consumed := c.consumed + 5 }
      ctl := { s.ctl with inTotal := s.ctl.inTotal + 5 } } := by
  have htaken : ({ c with input := rc.bytes, noted := some (s.notedNow c) } : Call).taken = 5 := by
    simp only [Call.taken, State.notedNow, hlen, Nat.add_sub_cancel_left]
  simp only [State.rcStarted, State.committed, Call.committed, htaken, hn]
  rfl

/-- An event of `RcInit` ends the call with nothing consumed. -/
theorem rcInitStep_endCall (ha : s.activity = .decoding c) (hn : c.noted = none) {r : Raise}
    (hrc : rcInit s.params.checkRcByte0 s.rcSource c.input = .error (.raise r)) :
    rcInitStep s = .next (s.endCall c r.status r.cause r.latches) := by
  rw [rcInitStep_raise ha hrc, takeRaise_decoding ha, State.rollback_none s hn]

/-- Settles O13: by the mode and the budget, `RcInit` draws its five bytes, or ends the call. -/
theorem initTakesFiveBytesOrNone : Obligations.InitTakesFiveBytesOrNone := by
  unfold Obligations.InitTakesFiveBytesOrNone
  intro s c ha hn
  refine ⟨fun b0 b1 b2 b3 b4 rest hin hcheck => ?_, fun hm hbudget => ?_, fun h => ?_⟩
  · have starts {src : RcSource} (hdraw : s.rcSource.draw 5 = .ok src) := by
      have hrc := hin ▸ rcInit_ok hdraw hcheck b1 b2 b3 b4 rest
      exact (rcInitStep_ok ha hrc).trans (congrArg _ (State.rcStarted_eq hn (by simp [hin])))
    refine ⟨fun hm => ?_, fun hm hbudget => ?_⟩
    · exact starts (src := .stream) (by rw [State.rcSource_lzma1 hm]; rfl)
    · exact starts (by rw [State.rcSource_lzma2 hm, RcSource.draw_chunk_ok hbudget])
  · have hdraw := (congrArg (RcSource.draw · 5) (State.rcSource_lzma2 hm)).trans (RcSource.draw_chunk_error hbudget)
    exact rcInitStep_endCall ha hn (rcInit_overrun hdraw _)
  · obtain ⟨⟨src, hdraw⟩, hstarved⟩ := State.rcSource_draw_five h
    refine ⟨fun hlen => ?_, fun b0 rest hin hlen hb0 hcheck => ?_⟩
    · exact rcInitStep_endCall ha hn (hstarved ▸ rcInit_starved hdraw hlen)
    · exact rcInitStep_endCall ha hn (by rw [hin, hcheck, rcInit_badByte0 hdraw hb0 hlen])

end Sys2Proof.Machine
end

section
/-! PROOF. `State` after a packet (45_state_machine.md R281 to R285). The transition functions are said by value, each
packet is said once to leave its own transition of `State` or to end the call. -/

namespace Sys2Proof.Machine

/-! ## The transition functions -/

theorem afterLiteral_val (st : Fin 12) :
    (afterLiteral st).val = if st.val < 4 then 0 else if st.val < 10 then st.val - 3 else st.val - 6 := by
  simp only [afterLiteral, apply_ite Fin.val, Fin.val_zero]

theorem afterMatch_val (st : Fin 12) : (afterMatch st).val = if st.val < 7 then 7 else 10 := by
  simp only [afterMatch, isLiteralState, decide_eq_true_eq, apply_ite Fin.val]
  rfl

theorem afterRep_val (st : Fin 12) : (afterRep st).val = if st.val < 7 then 8 else 11 := by
  simp only [afterRep, isLiteralState, decide_eq_true_eq, apply_ite Fin.val]
  rfl

theorem afterShortRep_val (st : Fin 12) : (afterShortRep st).val = if st.val < 7 then 9 else 11 := by
  simp only [afterShortRep, isLiteralState, decide_eq_true_eq, apply_ite Fin.val]
  rfl

theorem isLiteralState_afterLiteral : ∀ st, isLiteralState (afterLiteral st) = true := by decide

theorem isLiteralState_afterMatch : ∀ st, isLiteralState (afterMatch st) = false := by decide

theorem isLiteralState_afterRep : ∀ st, isLiteralState (afterRep st) = false := by decide

theorem isLiteralState_afterShortRep : ∀ st, isLiteralState (afterShortRep st) = false := by decide

/-- The transition of `State` that the unit makes: by the kind of a packet, none for any other unit. -/
def stateAfter : Instr → Fin 12 → Fin 12
  | .lit _ => afterLiteral
  | .matchNew _ _ => afterMatch
  | .shortRep => afterShortRep
  | .rep0 _ | .rep1 _ | .rep2 _ | .rep3 _ => afterRep
  | _ => id

/-- Only a literal leads to a literal state. -/
theorem isLiteralState_stateAfter {i : Instr} (hi : i.isPacket = true) (st : Fin 12) :
    isLiteralState (stateAfter i st) = true ↔ ∃ b, i = .lit b := by
  cases i with
  | lit b => simp [stateAfter, isLiteralState_afterLiteral]
  | matchNew dist len => simp [stateAfter, isLiteralState_afterMatch]
  | shortRep => simp [stateAfter, isLiteralState_afterShortRep]
  | rep0 len | rep1 len | rep2 len | rep3 len => simp [stateAfter, isLiteralState_afterRep]
  | _ => cases hi

/-! ## Shared operations -/

variable {s : State} {st : Fin 12}

theorem takeRaise_idle (s : State) (r : Raise) : EndsWith (fun t => t.activity = .idle) (takeRaise s r) := by
  unfold takeRaise
  split
  next => exact .next rfl
  next => exact .next rfl
  next => rintro _ ⟨⟩

/-- A transaction ends in its result, or an event ends the command. -/
theorem deliver_idle_or {P : State → Prop} {r : Except Stop State} (hr : Answers P r) :
    EndsWith (fun t => t.activity = .idle ∨ P t) (deliver s r) := by
  match r with
  | .ok s' => exact .next (.inr (hr s' rfl))
  | .error (.raise e) => exact (takeRaise_idle s e).mono fun _ => .inl
  | .error (.fault f) => rintro _ ⟨⟩

theorem State.commit_lzState (h : s.lzma.lzState = st) : Answers (·.lzma.lzState = st) s.commit :=
  .bind fun _ _ => .ok h

theorem State.dictPut_lzState (h : s.lzma.lzState = st) (b : Byte) : Answers (·.lzma.lzState = st) (s.dictPut b) :=
  .bind fun _ _ => .ok h

theorem State.decRemaining_lzState (h : s.lzma.lzState = st) : Answers (·.lzma.lzState = st) s.decRemaining := by
  unfold State.decRemaining
  split
  · exact .ok h
  · exact .ok h
  · exact .error _

/-! ## Packets -/

theorem copyPacket_lzState (dist len : Nat) (lzma : Lzma) :
    EndsWith (fun t => t.activity = .idle ∨ t.lzma.lzState = lzma.lzState) (copyPacket s dist len lzma) :=
  deliver_idle_or (.bind fun _ _ => State.commit_lzState rfl)

theorem execLit_lzState (b : Byte) :
    EndsWith (fun t => t.activity = .idle ∨ t.lzma.lzState = afterLiteral s.lzma.lzState) (execLit b s) :=
  deliver_idle_or <| .bind fun _ _ => .bind fun _ _ => .bind fun s1 h1 => .bind fun s2 h2 =>
    have hcommit : s1.lzma.lzState = afterLiteral s.lzma.lzState := State.commit_lzState rfl s1 h1
    State.decRemaining_lzState (State.dictPut_lzState hcommit b s2 h2)

/-- A packet ends the call, or leaves the transition of its kind. -/
theorem exec_packet_lzState {i : Instr} (hi : i.isPacket = true) :
    EndsWith (fun t => t.activity = .idle ∨ t.lzma.lzState = stateAfter i s.lzma.lzState) (exec i s) := by
  cases i with
  | lit b => exact execLit_lzState b
  | matchNew | shortRep | rep0 | rep1 | rep2 | rep3 => exact copyPacket_lzState _ _ _
  | _ => cases hi

/-- Settles O22, by the transition each packet makes where it leaves the call in progress. -/
theorem stateTellsTheLastPacket : Obligations.StateTellsTheLastPacket := by
  unfold Obligations.StateTellsTheLastPacket
  intro s t c c' i hi _ hnext ht
  have hst : t.lzma.lzState = stateAfter i s.lzma.lzState :=
    (exec_packet_lzState hi t hnext).resolve_left (by simp [ht])
  rw [hst]
  refine ⟨?_, ?_, ?_, ?_, isLiteralState_stateAfter hi _⟩
  · rintro ⟨b, rfl⟩
    exact afterLiteral_val _
  · rintro ⟨dist, len, rfl⟩
    exact afterMatch_val _
  · rintro ⟨len, rfl | rfl | rfl | rfl⟩ <;> exact afterRep_val _
  · rintro rfl
    exact afterShortRep_val _

end Sys2Proof.Machine
end

section
/-! PROOF. The packets and the copy engine (46_lzma1_core.md R304 to R313): the whole next state of a literal, of a copy
packet that passes its checks and of one byte of a pending copy, and what a check that fails leaves. -/

namespace Sys2Proof.Machine

variable {s : State} {c : Call}

/-! ## Literals -/

theorem Dict.after_read_self (d : Dict) (b : Byte) : (d.after b).read d.writePos.toNat = some b :=
  sparseGet_set_self _ _ _

theorem Dict.after_read_ne (d : Dict) (b : Byte) {a : Nat} (h : a ≠ d.writePos.toNat) :
    (d.after b).read a = d.read a :=
  sparseGet_set_ne _ _ h

/-- The write position goes round the ring (20_memory.md R83). -/
theorem Dict.after_writePos {d : Dict} (hcap : 1 ≤ d.cap.toNat) (b : Byte) :
    (d.after b).writePos.toNat = (d.writePos.toNat + 1) % d.cap.toNat := by
  simp only [Dict.after, BitVec.toNat_ofNat]
  exact Nat.mod_eq_of_lt ((Nat.mod_lt _ hcap).trans d.cap.isLt)

/-- Settles O17, by the whole next state of a literal and the three facts about the ring after one byte. -/
theorem litWritesItsByte : Obligations.LitWritesItsByte := by
  unfold Obligations.LitWritesItsByte
  intro s c n b ha hspace hcap hr
  exact ⟨_, execLit_ok b ha hspace hr, s.dict.after_read_self b, fun _ => s.dict.after_read_ne b,
    Dict.after_writePos hcap b, rfl, rfl, rfl, rfl, rfl, rfl, rfl, rfl, rfl, rfl⟩

/-! ## Copy packets -/

/-- Settles O18: a copy packet within reach whose operands are those of `MATCH`. -/
theorem matchStartsItsCopy : Obligations.MatchStartsItsCopy := by
  unfold Obligations.MatchStartsItsCopy
  intro s c n dist len ha hr h1 hreach hlen
  exact copyPacket_ok _ ha ⟨h1, hreach⟩ hr hlen

/-- Settles O19: a copy packet within reach whose operands are `Rep0` and one byte. -/
theorem shortRepStartsItsCopy : Obligations.ShortRepStartsItsCopy := by
  unfold Obligations.ShortRepStartsItsCopy
  intro s c n ha hr h1 hreach hn
  exact copyPacket_ok _ ha ⟨h1, hreach⟩ hr hn

/-- Settles O20: copy packets within reach, each with the rotation of its own rep distance. -/
theorem repPacketsStartTheirCopies : Obligations.RepPacketsStartTheirCopies := by
  unfold Obligations.RepPacketsStartTheirCopies
  intro s c n len ha hr hlen
  refine ⟨fun h1 hreach => ?_, fun h1 hreach => ?_, fun h1 hreach => ?_, fun h1 hreach => ?_⟩
  all_goals exact copyPacket_ok _ ha ⟨h1, hreach⟩ hr hlen

/-- Every packet with copy operands is the one copy packet, with registers of its own. -/
theorem exec_copyOperands {i : Instr} {dist len : Nat} (h : i.copyOperands s.lzma = some (dist, len)) :
    ∃ l, exec i s = copyPacket s dist len l := by
  cases i with
  | matchNew | shortRep | rep0 | rep1 | rep2 | rep3 => cases h; exact ⟨_, rfl⟩
  | _ => cases h

theorem copyPacket_invalidDistance {dist : Nat} (hd : ¬ (1 ≤ dist ∧ dist ≤ s.dict.reach)) (len : Nat) (l : Lzma) :
    copyPacket s dist len l = takeRaise s (.error .invalidDistance) := by
  rw [copyPacket, State.checkCopy_invalidDistance hd, error_bind, deliver_raise]

theorem copyPacket_matchPastEnd {dist len n : Nat} (hd : 1 ≤ dist ∧ dist ≤ s.dict.reach)
    (hr : s.readRemaining = .ok n) (hlen : n < len) (l : Lzma) :
    copyPacket s dist len l = takeRaise s (.error .matchPastEnd) := by
  rw [copyPacket, State.checkCopy_matchPastEnd hd hr hlen, error_bind, deliver_raise]

/-- Settles O21: the check of the one copy packet fails by its distance, or by its length at a distance within reach. -/
theorem copyPacketsCheckDistanceThenLength : Obligations.CopyPacketsCheckDistanceThenLength := by
  unfold Obligations.CopyPacketsCheckDistanceThenLength
  intro s c n dist len i ha hr hi
  obtain ⟨l, hexec⟩ := exec_copyOperands hi
  rw [hexec]
  refine ⟨fun hd => ?_, fun hd => ?_, fun h1 hreach hlen => ?_⟩
  · rw [copyPacket_invalidDistance (by simp only [Dict.reach]; omega), takeRaise_decoding ha]
    rfl
  · have := s.dict.cap.isLt
    omega
  · rw [copyPacket_matchPastEnd ⟨h1, hreach⟩ hr hlen, takeRaise_decoding ha]
    rfl

/-! ## A pending copy -/

theorem copyStep_noSpace (ha : s.activity = .decoding c) (hspace : c.outSpace = 0) :
    copyStep s = takeRaise s .needMoreOutput := by
  rw [copyStep, State.call_ok ha, ok_bind, Call.needSpace_error hspace, error_bind, deliver_raise]

/-- A transaction that has taken nothing ends the call with its event. -/
theorem takeRaise_endCall (ha : s.activity = .decoding c) (hn : c.noted = none) (r : Raise) :
    takeRaise s r = .next (s.endCall c r.status r.cause r.latches) := by
  rw [takeRaise_decoding ha, State.rollback_none s hn]

/-- Settles O24: with output space the whole next state of one byte of a copy, without it the event. -/
theorem copyStepCopiesOneByte : Obligations.CopyStepCopiesOneByte := by
  unfold Obligations.CopyStepCopiesOneByte
  intro s c n b ha hr hget
  refine ⟨fun hspace => copyStep_ok ha hspace hr hget, fun hspace hn => ?_⟩
  rw [copyStep_noSpace ha hspace, takeRaise_endCall ha hn]
  rfl

end Sys2Proof.Machine
end

section
/-! PROOF. The order of the steps (46_lzma1_core.md R320 to R323; 47_lzma2_chunk.md R351): each turn of the packet loop
said once by the condition under which it is taken, and the step as `exec` of the unit that stands there. -/

namespace Sys2Proof.Machine

variable {s : State} {c : Call} {n : Nat}

/-! ## The step by the command in progress -/

theorem step_idle (ha : s.activity = .idle) : step s = stepIdle s := by
  simp only [step, stepBlock, ha]

theorem step_merging {j : Bcj2Job} (ha : s.activity = .merging j) : step s = stepMerge s j := by
  simp only [step, stepBlock, ha]

theorem step_lzma1 (ha : s.activity = .decoding c) (hm : s.ctl.mode = .lzma1) : step s = stepLzma1 s c := by
  simp only [step, stepBlock, ha, hm]

theorem step_lzma2 (ha : s.activity = .decoding c) (hm : s.ctl.mode = .lzma2) : step s = stepLzma2 s c := by
  simp only [step, stepBlock, ha, hm]

/-! ## The turns of the packet loop -/

theorem lzma1Step_finished (hp : s.lzma.l1Phase = .finished) : lzma1Step s c = .done := by
  simp only [lzma1Step, hp]

theorem lzma1Step_needInit (hp : s.lzma.l1Phase = .needInit) : lzma1Step s c = .stepped (rcInitStep s) := by
  simp only [lzma1Step, hp]

theorem lzma1Step_copy (hp : s.lzma.l1Phase = .packets) (hpend : s.lzma.pendLen ≠ 0) :
    lzma1Step s c = .stepped (copyStep s) := by
  simp only [lzma1Step, hp, if_pos hpend]

theorem lzma1Step_done (hp : s.lzma.l1Phase = .packets) (hpend : s.lzma.pendLen = 0) (hr : s.readRemaining = .ok 0) :
    lzma1Step s c = .done := by
  simp [lzma1Step, hp, hpend, hr]

theorem lzma1Step_noSpace (hp : s.lzma.l1Phase = .packets) (hpend : s.lzma.pendLen = 0)
    (hr : s.readRemaining = .ok n) (hn : n ≠ 0) (hspace : c.outSpace = 0) :
    lzma1Step s c = .stepped (takeRaise s .needMoreOutput) := by
  simp [lzma1Step, hp, hpend, hr, hn, hspace]

theorem lzma1Step_packet (hp : s.lzma.l1Phase = .packets) (hpend : s.lzma.pendLen = 0)
    (hr : s.readRemaining = .ok n) (hn : n ≠ 0) (hspace : c.outSpace ≠ 0) :
    lzma1Step s c = .stepped (packetStep s) := by
  simp [lzma1Step, hp, hpend, hr, hn, hspace]

theorem stepLzma1_stepped {o : Host.Outcome State Fault Refusal} (h : lzma1Step s c = .stepped o) :
    stepLzma1 s c = o := by
  simp only [stepLzma1, h]

theorem stepLzma1_done (h : lzma1Step s c = .done) :
    stepLzma1 s c = .next (finishCall { s with lzma := { s.lzma with l1Phase := .finished } } c) := by
  simp only [stepLzma1, h]

theorem stepLzma2_stepped (hp : s.framer.l2Phase = .lzmaInit ∨ s.framer.l2Phase = .lzmaData)
    {o : Host.Outcome State Fault Refusal} (h : lzma1Step s c = .stepped o) :
    stepLzma2 s c = mapNext markLzmaData o := by
  obtain hp | hp := hp <;> simp only [stepLzma2, hp, h]

theorem stepLzma2_done (hp : s.framer.l2Phase = .lzmaInit ∨ s.framer.l2Phase = .lzmaData) (h : lzma1Step s c = .done) :
    stepLzma2 s c = endLzmaChunk s := by
  obtain hp | hp := hp <;> simp only [stepLzma2, hp, h]

/-! ## The mark of R351 -/

theorem markLzmaData_idle (ha : s.activity = .idle) : markLzmaData s = s := by
  simp only [markLzmaData, ha]

theorem markLzmaData_lzmaData (hp : s.framer.l2Phase = .lzmaData) : markLzmaData s = s := by
  unfold markLzmaData
  split
  · split
    · rw [← hp]
    · rfl
  · rfl
  · rfl

/-- The mark changes nothing where each next state is marked already or has ended the call. -/
theorem mapNext_markLzmaData {o : Host.Outcome State Fault Refusal}
    (h : EndsWith (fun t => t.activity = .idle ∨ t.framer.l2Phase = .lzmaData) o) : mapNext markLzmaData o = o := by
  cases o with
  | next t => exact congrArg _ ((h t rfl).elim markLzmaData_idle markLzmaData_lzmaData)
  | fault f => rfl
  | refused r => rfl

theorem State.commit_l2Phase {p : L2Phase} (h : s.framer.l2Phase = p) : Answers (·.framer.l2Phase = p) s.commit :=
  .bind fun _ _ => .ok h

theorem State.dictPut_l2Phase {p : L2Phase} (h : s.framer.l2Phase = p) (b : Byte) :
    Answers (·.framer.l2Phase = p) (s.dictPut b) :=
  .bind fun _ _ => .ok h

theorem State.decRemaining_l2Phase {p : L2Phase} (h : s.framer.l2Phase = p) :
    Answers (·.framer.l2Phase = p) s.decRemaining := by
  unfold State.decRemaining
  split
  · exact .ok h
  · exact .ok h
  · exact .error _

theorem copyStep_l2Phase {p : L2Phase} (h : s.framer.l2Phase = p) :
    EndsWith (fun t => t.activity = .idle ∨ t.framer.l2Phase = p) (copyStep s) :=
  deliver_idle_or <| .bind fun _ _ => .bind fun _ _ => .bind fun b _ => .bind fun s1 h1 =>
    State.decRemaining_l2Phase (State.dictPut_l2Phase h b s1 h1)

/-- A packet leaves the framer's phase alone, or ends the call. -/
theorem exec_packet_l2Phase {i : Instr} (hi : i.isPacket = true) {p : L2Phase} (h : s.framer.l2Phase = p) :
    EndsWith (fun t => t.activity = .idle ∨ t.framer.l2Phase = p) (exec i s) := by
  cases i with
  | lit b =>
    exact deliver_idle_or <| .bind fun _ _ => .bind fun _ _ => .bind fun s1 h1 => .bind fun s2 h2 =>
      State.decRemaining_l2Phase (State.dictPut_l2Phase (State.commit_l2Phase (by exact h) s1 h1) b s2 h2)
  | matchNew | shortRep | rep0 | rep1 | rep2 | rep3 =>
    exact deliver_idle_or (.bind fun _ _ => State.commit_l2Phase h)
  | _ => cases hi

/-- What is fetched is a packet, and its transaction is open in the state after it. -/
theorem fetchPacket_isPacket {s' : State} {i : Instr} (ha : s.activity = .decoding c)
    (h : fetchPacket s = .ok (i, s')) :
    i.isPacket = true ∧ i.wellFormed = true ∧ ∃ rc m, s' = s.takeRc c rc m := by
  obtain ⟨rc, m, hrun, rfl⟩ := fetchPacket_ok ha h
  obtain ⟨hnone, -⟩ | ⟨_, hsome, hw, hp⟩ := runProg_all (all_packetProg s.packetCtx) hrun
  · cases hnone
  · cases hsome
    exact ⟨hp, hw, rc, m, rfl⟩

theorem packetStep_l2Phase (ha : s.activity = .decoding c) {p : L2Phase} (h : s.framer.l2Phase = p) :
    EndsWith (fun t => t.activity = .idle ∨ t.framer.l2Phase = p) (packetStep s) := by
  unfold packetStep
  split
  next i s' hf =>
    obtain ⟨hi, -, rc, m, rfl⟩ := fetchPacket_isPacket ha hf
    exact exec_packet_l2Phase hi h
  next e _ => exact deliver_idle_or (.error e)

/-! ## The order -/

/-- The initialisation of an LZMA chunk leaves the call in progress with packets to read, or ends the call. -/
theorem rcInitStep_packets (ha : s.activity = .decoding c) :
    EndsWith (fun t => t.activity = .idle ∨ t.lzma.l1Phase = .packets) (rcInitStep s) := by
  obtain ⟨rc, hrc, -⟩ | ⟨r, hrc⟩ := rcInit_cases s.params.checkRcByte0 s.rcSource c.input
  · rw [rcInitStep_ok ha hrc]
    exact .next (.inr rfl)
  · rw [rcInitStep_raise ha hrc]
    exact (takeRaise_idle s r).mono fun _ => .inl

/-- Settles O26: by the phase, what is pending, what remains and the output space, each turn of the loop, and the mark
of R351 on it, which changes only an initialisation. -/
theorem packetLoopTakesItsStepsInOrder : Obligations.PacketLoopTakesItsStepsInOrder := by
  unfold Obligations.PacketLoopTakesItsStepsInOrder
  refine ⟨fun s c n ha hm hrem hn => ?_, fun s c ha hm => ⟨fun hphase hinit => ?_, fun hphase hpackets => ?_⟩⟩
  · have hr : s.readRemaining = .ok n := by
      rw [State.readRemaining_lzma1 hm, hrem, BitVec.toNat_ofNat, Nat.mod_eq_of_lt hn]
    rw [step_lzma1 ha hm]
    refine ⟨fun hp => ?_, fun hp => ?_, fun hp hpend => ?_, fun hp hpend h0 => ?_, fun hp hpend h0 hspace hnoted => ?_,
      fun hp hpend h0 hspace => ?_⟩
    · rw [stepLzma1_done (lzma1Step_finished hp), ← hp]
      rfl
    · exact stepLzma1_stepped (lzma1Step_needInit hp)
    · exact stepLzma1_stepped (lzma1Step_copy hp hpend)
    · exact stepLzma1_done (lzma1Step_done hp hpend (h0 ▸ hr))
    · rw [stepLzma1_stepped (lzma1Step_noSpace hp hpend hr h0 hspace), takeRaise_endCall ha hnoted]
      rfl
    · exact stepLzma1_stepped (lzma1Step_packet hp hpend hr h0 hspace)
  · have hstep : step s = mapNext markLzmaData (rcInitStep s) :=
      (step_lzma2 ha hm).trans (stepLzma2_stepped (.inl hphase) (lzma1Step_needInit hinit))
    refine ⟨fun t c' ht ha' => ?_, fun t ht ha' => ?_⟩
    · have hp : t.lzma.l1Phase = .packets := (rcInitStep_packets ha t ht).resolve_left (by simp [ha'])
      exact ⟨hp, by rw [hstep, ht, mapNext, markLzmaData_eq ha' hp]⟩
    · rw [hstep, ht, mapNext, markLzmaData_idle ha']
  · have hstep {o} (h : lzma1Step s c = .stepped o) : step s = mapNext markLzmaData o :=
      (step_lzma2 ha hm).trans (stepLzma2_stepped (.inr hphase) h)
    have hr : s.readRemaining = .ok s.framer.chunkUnpackRemaining.toNat := State.readRemaining_lzma2 hm
    have hne (h0 : s.framer.chunkUnpackRemaining ≠ 0) : s.framer.chunkUnpackRemaining.toNat ≠ 0 :=
      fun h => h0 (BitVec.eq_of_toNat_eq h)
    refine ⟨fun hpend => ?_, fun hpend h0 hspace hnoted => ?_, fun hpend h0 hspace => ?_⟩
    · rw [hstep (lzma1Step_copy hpackets hpend), mapNext_markLzmaData (copyStep_l2Phase hphase)]
    · rw [hstep (lzma1Step_noSpace hpackets hpend hr (hne h0) hspace), takeRaise_endCall ha hnoted]
      rfl
    · rw [hstep (lzma1Step_packet hpackets hpend hr (hne h0) hspace),
        mapNext_markLzmaData (packetStep_l2Phase ha hphase)]

/-- Settles O27: by where the machine stands, the step reads the unit there and runs it. -/
theorem stepRunsTheDecodedUnit : Obligations.StepRunsTheDecodedUnit := by
  unfold Obligations.StepRunsTheDecodedUnit
  refine ⟨fun s c i rest ha hm hphase hd => ?_, fun s s' c n i ha hphase hpend hr hn hspace hf => ?_,
    fun s j b ha hout hb => ?_, fun s cmd rest ha hcmds => ?_⟩
  · rw [step_lzma2 ha hm]
    simp only [stepLzma2, hphase, headerStep, hd]
  · have hturn : lzma1Step s c = .stepped (exec i s') := by
      rw [lzma1Step_packet hphase hpend hr hn hspace, packetStep, hf]
    exact ⟨fun hm => (step_lzma1 ha hm).trans (stepLzma1_stepped hturn),
      fun hm hdata => (step_lzma2 ha hm).trans (stepLzma2_stepped (.inr hdata) hturn)⟩
  · rw [step_merging ha]
    simp only [stepMerge, if_neg hout, hb]
  · rw [step_idle ha]
    simp only [stepIdle, hcmds]

end Sys2Proof.Machine
end

section
/-! PROOF. What a packet takes from the input (46_lzma1_core.md R302, R314, R324): it is read alike whatever follows it, a
byte at the most for each of its decisions, and 48 bytes are enough for any. -/

namespace Sys2Proof

variable {α : Type}

/-! ## How many decisions a program takes -/

/-- The program takes `n` decisions at the most, whatever bits come. -/
def BitProg.AtMost : Nat → BitProg α → Prop
  | _, .done _ => True
  | n, .bit _ k => 1 ≤ n ∧ ∀ b, (k b).AtMost (n - 1)
  | n, .direct k => 1 ≤ n ∧ ∀ b, (k b).AtMost (n - 1)

theorem atMost_done (n : Nat) (a : α) : (BitProg.done a).AtMost n := trivial

theorem BitProg.AtMost.mono {p : BitProg α} {n n' : Nat} (h : p.AtMost n) (hle : n ≤ n') : p.AtMost n' := by
  induction p generalizing n n' with
  | done a => trivial
  | bit c k ih => exact ⟨h.1.trans hle, fun b => ih b (h.2 b) (Nat.sub_le_sub_right hle 1)⟩
  | direct k ih => exact ⟨h.1.trans hle, fun b => ih b (h.2 b) (Nat.sub_le_sub_right hle 1)⟩

theorem atMost_bit {c : Cell} {k : Bool → BitProg α} {n : Nat} (h0 : (k false).AtMost n) (h1 : (k true).AtMost n) :
    (BitProg.bit c k).AtMost (n + 1) :=
  ⟨Nat.le_add_left 1 n, Bool.forall_bool.mpr ⟨h0, h1⟩⟩

/-- A walk takes a decision for each level, and ends below the nodes of its tree. -/
theorem atMost_bitTree {cell : Nat → Cell} {k : Nat → BitProg α} {n m d top : Nat} (htop : (m + 1) * 2 ^ n ≤ top)
    (hk : ∀ v, v < top → (k v).AtMost d) : (bitTree cell n m k).AtMost (n + d) := by
  induction n generalizing m with
  | zero => exact (hk m (by omega)).mono (by omega)
  | succ n ih =>
    rw [Nat.add_right_comm]
    exact ⟨Nat.le_add_left 1 _, fun b => ih (walk_succ_le htop b).1⟩

theorem atMost_forwardTree {cell : Nat → Cell} {k : Nat → BitProg α} {n d : Nat}
    (hk : ∀ v, v < 2 ^ n → (k v).AtMost d) : (forwardTree cell n k).AtMost (n + d) :=
  atMost_bitTree (Nat.le_refl _) fun v hv => hk _ (by omega)

theorem atMost_reverseWalk {cell : Nat → Cell} {k : Nat → BitProg α} {n m i sym d : Nat} (hk : ∀ v, (k v).AtMost d) :
    (reverseWalk cell n m i sym k).AtMost (n + d) := by
  induction n generalizing m i sym with
  | zero => exact (hk sym).mono (by omega)
  | succ n ih =>
    rw [Nat.add_right_comm]
    exact ⟨Nat.le_add_left 1 _, fun b => ih⟩

theorem atMost_directBits {k : Nat → BitProg α} {n value d : Nat} (hk : ∀ v, (k v).AtMost d) :
    (directBits n value k).AtMost (n + d) := by
  induction n generalizing value with
  | zero => exact (hk value).mono (by omega)
  | succ n ih =>
    rw [Nat.add_right_comm]
    exact ⟨Nat.le_add_left 1 _, fun b => ih⟩

theorem atMost_matchedWalk {ctx n m d : Nat} {mb : Byte} {k : Nat → BitProg α} (hk : ∀ v, (k v).AtMost d) :
    (matchedWalk ctx n m mb k).AtMost (n + d) := by
  induction n generalizing m mb with
  | zero => exact (hk m).mono (by omega)
  | succ n ih =>
    rw [Nat.add_right_comm]
    refine ⟨Nat.le_add_left 1 _, fun b => ?_⟩
    dsimp only
    split
    · exact ih
    · exact atMost_bitTree (Nat.le_refl _) fun v _ => hk v

theorem atMost_literalProg {src : LitSrc} {k : Byte → BitProg α} {d : Nat} (hk : ∀ b, (k b).AtMost d) :
    (literalProg src k).AtMost (8 + d) := by
  unfold literalProg
  split
  · exact atMost_bitTree (Nat.le_refl _) fun v _ => hk _
  · exact atMost_matchedWalk fun v => hk _

theorem atMost_lengthProg {d : LenSel} {ps n : Nat} {k : Nat → BitProg α} (hk : ∀ len, (k len).AtMost n) :
    (lengthProg d ps k).AtMost (10 + n) := by
  have hlow : 3 + n ≤ 8 + n := by omega
  rw [show 10 + n = (8 + n) + 1 + 1 by omega]
  exact atMost_bit ((atMost_forwardTree fun v _ => hk _).mono (by omega))
    (atMost_bit ((atMost_forwardTree fun v _ => hk _).mono hlow) (atMost_forwardTree fun v _ => hk _))

/-- A slot has up to 30 further bits, 26 of them direct. -/
theorem atMost_distanceProg {len n : Nat} {k : Nat → BitProg α} (hk : ∀ dist, (k dist).AtMost n) :
    (distanceProg len k).AtMost (36 + n) := by
  rw [show 36 + n = 6 + (30 + n) by omega]
  refine atMost_forwardTree fun slot hslot => ?_
  split
  · exact (hk _).mono (by omega)
  · split
    · exact (atMost_reverseWalk fun v => hk _).mono (by simp only [slotBits]; omega)
    · refine (atMost_directBits (d := 4 + n) fun high => ?_).mono (by simp only [slotBits]; omega)
      exact atMost_reverseWalk fun v => hk _

/-- A packet is 48 decisions at the most (R314): two flags, a length of 10 and a distance of 36. -/
theorem atMost_packetProg (c : PacketCtx) : (packetProg c).AtMost 48 := by
  have hlength {d : LenSel} {f : Nat → Instr} {n : Nat} (hn : 10 ≤ n) :
      (lengthProg d c.ps fun len => .done (some (f len))).AtMost n :=
    (atMost_lengthProg (n := 0) fun _ => atMost_done _ _).mono hn
  refine atMost_bit ?literal
    (atMost_bit ?newDistance
      (atMost_bit (atMost_bit trivial (hlength (by decide)))
        (atMost_bit (hlength (by decide)) (atMost_bit (hlength (by decide)) (hlength (by decide))))))
  case literal =>
    cases c.lit with
    | none => trivial
    | some src => exact (atMost_literalProg (d := 0) fun _ => atMost_done _ _).mono (by decide)
  case newDistance => exact atMost_lengthProg fun _ => atMost_distanceProg (n := 0) fun _ => atMost_done _ _

/-- The decisions of each kind of packet at the most (R125, R314). -/
theorem length_of_encode_packet {i : Instr} {bits : List Bool} (hi : i.isPacket = true) (hw : i.wellFormed = true)
    (he : encode i = .decisions bits) :
    bits.length ≤ 48 ∧ ((∃ b, i = .lit b) → bits.length ≤ 9) ∧ (i = .shortRep → bits.length ≤ 4) ∧
      ((∃ len, i = .rep0 len ∨ i = .rep1 len ∨ i = .rep2 len ∨ i = .rep3 len) → bits.length ≤ 15) := by
  have hlen (len : Nat) := (Laws.EncodedSize.length_lengthBits len).2
  cases i with
  | lit b => cases he; simp [Laws.EncodedSize.length_msbBits]
  | shortRep => cases he; simp
  | matchNew dist len =>
    have hdist := Laws.EncodedSize.length_distanceBits (Bool.and_eq_true _ _ ▸ hw).1
    have := hlen len
    cases he
    simp only [List.length_cons, List.length_append]
    exact ⟨by omega, by simp, by simp, by simp⟩
  | rep0 len | rep1 len | rep2 len | rep3 len =>
    have := hlen len
    cases he
    simp only [List.length_cons]
    exact ⟨by omega, by simp, by simp, fun _ => by omega⟩
  | _ => cases hi

end Sys2Proof

namespace Sys2Proof.Machine

variable {α : Type}

/-! ## A byte for a decision -/

/-- Decisions taken from a kept RAM and a range in bounds take a byte each at the most (40_range_coder.md R176). -/
theorem Rc.Takes.advances {m m' : Probs} {rc rc' : Rc} {ds : List Decision} (h : Rc.Takes m rc ds rc' m')
    (hr : Config.rangeTop ≤ rc.range.toNat) (hm : Probs.kept m = true) : ∃ k, rc.Advances rc' k ∧ k ≤ ds.length := by
  induction ds generalizing m rc with
  | nil =>
    obtain ⟨rfl, -⟩ := h
    exact ⟨0, .refl _ _ rfl rfl, Nat.le_refl 0⟩
  | cons d ds ih =>
    cases d with
    | cell c b =>
      obtain ⟨p, rc1, hd, h⟩ := h
      obtain ⟨_, _, _, n, e, hp, hr1, hadv, hn⟩ | ⟨_, e, -⟩ := decodeBit_cases (Probs.kept_read hm (cellKey c)) hr <;>
        rw [hd] at e <;> cases e
      obtain ⟨k, hk, hle⟩ := ih h hr1 (Probs.kept_write hm (cellKey c) hp)
      exact ⟨n + k, hadv.trans hk, by rw [List.length_cons]; omega⟩
    | direct b =>
      obtain ⟨rc1, hd, h⟩ := h
      obtain ⟨_, _, n, e, hr1, hadv, hn⟩ | ⟨_, e, -⟩ := decodeDirect_cases hr <;> rw [hd] at e <;> cases e
      obtain ⟨k, hk, hle⟩ := ih h hr1 hm
      exact ⟨n + k, hadv.trans hk, by rw [List.length_cons]; omega⟩

/-- How an operation followed by another stops. -/
theorem bind_error {α β : Type} {x : Except Stop α} {f : α → Except Stop β} {e : Stop} (h : x >>= f = .error e) :
    x = .error e ∨ ∃ a, x = .ok a ∧ f a = .error e := by
  cases x with
  | error e' =>
    cases h
    exact .inl rfl
  | ok a => exact .inr ⟨a, rfl, h⟩

theorem rcByte_present {src : RcSource} {bytes : List Byte} (h : 1 ≤ bytes.length) :
    rcByte src bytes ≠ .error (.raise .needMoreInput) := by
  obtain ⟨b, t, rfl⟩ := List.exists_cons_of_length_pos h
  intro he
  obtain he | ⟨_, -, he⟩ := bind_error he
  · unfold RcSource.draw at he
    split at he
    · split at he <;> cases he
    · cases he
    · cases he
  · cases he

theorem normalise_present {rc : Rc} (h : 1 ≤ rc.bytes.length) : normalise rc ≠ .error (.raise .needMoreInput) := by
  unfold normalise
  intro he
  split at he
  · obtain he | ⟨⟨b, src, bytes⟩, -, he⟩ := bind_error he
    · exact rcByte_present h he
    · dsimp only at he
      split at he <;> cases he
  · cases he

theorem decodeBit_present {p : Prob} {rc : Rc} (h : 1 ≤ rc.bytes.length) :
    decodeBit p rc ≠ .error (.raise .needMoreInput) := by
  unfold decodeBit
  intro he
  split at he
  · cases he
  · dsimp only at he
    split at he
    all_goals
      obtain he | ⟨_, -, he⟩ := bind_error he
      · exact normalise_present (by exact h) he
      · cases he

theorem decodeDirect_present {rc : Rc} (h : 1 ≤ rc.bytes.length) :
    decodeDirect rc ≠ .error (.raise .needMoreInput) := by
  unfold decodeDirect
  intro he
  dsimp only at he
  split at he
  all_goals
    obtain he | ⟨_, -, he⟩ := bind_error he
    · exact normalise_present (by exact h) he
    · cases he

/-- A decision that takes a byte at the most leaves the others. -/
theorem Rc.Advances.pred_le_length {before after : Rc} {k n : Nat} (h : before.Advances after k) (hk : k ≤ 1)
    (hn : n ≤ before.bytes.length) : n - 1 ≤ after.bytes.length := by
  rw [h.1, List.length_drop]
  omega

/-- As many bytes as a program takes decisions are enough for it. -/
theorem runProg_present {p : BitProg α} {n : Nat} {rc : Rc} {m : Probs} (hp : p.AtMost n) (hn : n ≤ rc.bytes.length)
    (hr : Config.rangeTop ≤ rc.range.toNat) (hm : Probs.kept m = true) :
    runProg p rc m ≠ .error (.raise .needMoreInput) := by
  induction p generalizing n rc m with
  | done a => exact nofun
  | bit c k ih =>
    obtain ⟨b, p', rc1, j, e, hp', hr1, hadv, hj⟩ | ⟨r, e, -⟩ := decodeBit_cases (Probs.kept_read hm (cellKey c)) hr
    · simp only [runProg, e]
      exact ih b (hp.2 b) (hadv.pred_le_length hj hn) hr1 (Probs.kept_write hm (cellKey c) hp')
    · have hne := decodeBit_present (p := m.read (cellKey c)) (hp.1.trans hn)
      rw [e] at hne
      simpa [runProg, e] using hne
  | direct k ih =>
    obtain ⟨b, rc1, j, e, hr1, hadv, hj⟩ | ⟨r, e, -⟩ := decodeDirect_cases hr
    · simp only [runProg, e]
      exact ih b (hp.2 b) (hadv.pred_le_length hj hn) hr1 hm
    · have hne := decodeDirect_present (hp.1.trans hn)
      rw [e] at hne
      simpa [runProg, e] using hne

/-- Settles O15: a packet takes a byte at the most for each decision of its encoding, and 48 bytes are enough for
48 decisions; a literal whose match byte is out of reach does not ask for input. -/
theorem packetTakesAtMostFortyEightBytes : Obligations.PacketTakesAtMostFortyEightBytes := by
  unfold Obligations.PacketTakesAtMostFortyEightBytes
  intro s c hinv ha _ _
  refine ⟨fun i s' c' hf ha' => ?_, fun hlen he => ?_⟩
  · obtain ⟨rc, m, hrun, rfl⟩ := fetchPacket_ok ha hf
    obtain ⟨hi, hw, -⟩ := fetchPacket_isPacket ha hf
    cases ha'
    obtain ⟨bits, hread, hbits, htakes⟩ := runProg_takes hrun
    obtain ⟨bits', rfl, henc, -⟩ := encode_of_readBits_packetProg hread
    obtain ⟨k, ⟨hdrop, hk, -⟩, hle⟩ := htakes.advances hinv.range hinv.probs
    have hcount := congrArg List.length hbits
    rw [List.append_nil, List.length_map] at hcount
    rw [List.append_nil, hcount] at hle
    obtain ⟨h48, hlit, hshort, hrep⟩ := length_of_encode_packet hi hw henc
    exact ⟨k, hdrop, hk, hle.trans h48, fun h => hle.trans (hlit h), fun h => hle.trans (hshort h),
      fun h => hle.trans (hrep h)⟩
  · rw [fetchPacket, State.call_ok ha, ok_bind] at he
    obtain he | ⟨⟨i, rc, m⟩, -, he⟩ := bind_error he
    · exact runProg_present (atMost_packetProg _) hlen hinv.range hinv.probs he
    · cases i with
      | some i => cases he
      | none =>
        obtain ⟨src, hsrc⟩ | hsrc := State.litOperand_cases hinv.dict <;> rw [hsrc] at he <;> cases he

/-! ## Later input -/

/-- A packet whose program is read whole is fetched (the converse of `fetchPacket_ok`). -/
theorem fetchPacket_of_runProg {s : State} {c : Call} {i : Instr} {rc : Rc} {m : Probs} (ha : s.activity = .decoding c)
    (h : runProg (packetProg s.packetCtx) (s.rcRegs c) s.lzma.probs = .ok (some i, rc, m)) :
    fetchPacket s = .ok (i, s.takeRc c rc m) := by
  rw [fetchPacket, State.call_ok ha, ok_bind, h, ok_bind]

/-- Settles O16: the packet's program is read alike whatever bytes follow, and the rest of the fetch does not look at the
input. -/
theorem fetchIgnoresLaterInput : Obligations.FetchIgnoresLaterInput := by
  unfold Obligations.FetchIgnoresLaterInput
  intro s s' c i more ha h
  obtain ⟨rc, m, hrun, rfl⟩ := fetchPacket_ok ha h
  exact ⟨rc, m, rfl, fetchPacket_of_runProg rfl (runProg_append _ hrun more)⟩

end Sys2Proof.Machine
end

section
/-! PROOF. Every command ends (46_lzma1_core.md R325; 49_host_commands.md R430). Each transaction of a call is said once
to leave the call in progress with less to do, or to end it with an event that leaves the state it began in; each token
of a BCJ2 run adds to the output or ends the run. -/

namespace Sys2Proof.Machine

variable {s t y : State} {c : Call} {n : Nat}

/-! ## Operations without a fault -/

/-- The operation answers a value with the property `P` or raises an event; it is no fault. -/
def Settles {α : Type} (P : α → Prop) : Except Stop α → Prop
  | .ok a => P a
  | .error (.raise _) => True
  | .error (.fault _) => False

theorem Settles.bind {α β : Type} {P : α → Prop} {Q : β → Prop} {x : Except Stop α} {f : α → Except Stop β}
    (hx : Settles P x) (hf : ∀ a, P a → Settles Q (f a)) : Settles Q (x >>= f) := by
  match x with
  | .ok a => exact hf a hx
  | .error (.raise r) => trivial
  | .error (.fault f) => exact hx

/-! ## What is left to do in a call -/

/-- The call later on: it has taken `k` of its bytes, each is consumed, and the space for output has become output. -/
def Call.Continues (c c' : Call) : Prop :=
  ∃ k, k ≤ c.input.length ∧ c'.input = c.input.drop k ∧ c'.consumed = c.consumed + k ∧
    c'.outSpace + c'.produced = c.outSpace + c.produced

theorem Call.Continues.refl (c : Call) : c.Continues c := ⟨0, Nat.zero_le _, rfl, rfl, rfl⟩

theorem Call.Continues.trans {c1 c2 c3 : Call} (h1 : c1.Continues c2) (h2 : c2.Continues c3) : c1.Continues c3 := by
  obtain ⟨k, hk, hin, hcons, hout⟩ := h1
  obtain ⟨l, hl, hin', hcons', hout'⟩ := h2
  rw [hin, List.length_drop] at hl
  exact ⟨k + l, by omega, by rw [hin', hin, List.drop_drop], by omega, by omega⟩

/-- A transaction that has taken `k` bytes, committed. -/
theorem Call.Continues.committed {k : Nat} (hk : k ≤ c.input.length) (noted : Noted) (hn : noted.input = c.input) :
    c.Continues { c with input := c.input.drop k, noted := some noted }.committed := by
  refine ⟨k, hk, rfl, ?_, rfl⟩
  simp only [Call.committed, Call.taken, hn, List.length_drop]
  omega

theorem Call.Continues.afterEmit {c' : Call} (h : c.Continues c') (hspace : c'.outSpace ≠ 0) :
    c.Continues c'.afterEmit := by
  obtain ⟨k, hk, hin, hcons, hout⟩ := h
  exact ⟨k, hk, hin, hcons, by rw [Call.afterEmit_outSpace, Call.afterEmit_produced]; omega⟩

/-- The part of `State.stepsLeft` that the packet registers and the call decide. -/
def Call.load (c : Call) (l : Lzma) : Nat :=
  3 * (c.input.length + c.outSpace) + if l.pendLen = 0 then 1 else 0

/-- The part of `State.stepsLeft` that the framer decides. -/
def Framer.load (f : Framer) : Nat := if f.l2Phase = .lzmaInit ∨ f.l2Phase = .lzmaData then 1 else 0

theorem State.stepsLeft_decoding (ha : s.activity = .decoding c) : s.stepsLeft = c.load s.lzma + s.framer.load := by
  simp only [State.stepsLeft, ha, Call.load, Framer.load]

theorem State.stepsLeft_merging {j : Bcj2Job} (ha : s.activity = .merging j) :
    s.stepsLeft = j.outSize.toNat - s.bcj.outPos.toNat := by
  simp only [State.stepsLeft, ha]

/-! ## Transactions of a call -/

/-- The call goes on in `t`, with the property `P` of that state and of the call there. -/
def Call.GoesOn (c : Call) (P : State → Call → Prop) (t : State) : Prop :=
  ∃ c', t.activity = .decoding c' ∧ c.Continues c' ∧ P t c'

/-- How a transaction that the call `c` begins in `s` ends the step: the call goes on, or an event ends it and leaves the
state the transaction began in (60_exceptions.md R471). -/
def State.Transacts (s : State) (c : Call) (P : State → Call → Prop) (o : Host.Outcome State Fault Refusal) : Prop :=
  (∃ t, o = .next t ∧ c.GoesOn P t) ∨ ∃ r : Raise, o = .next (s.endCall c r.status r.cause r.latches)

variable {P Q : State → Call → Prop}

theorem State.Transacts.mono {o : Host.Outcome State Fault Refusal} (h : s.Transacts c P o)
    (hPQ : ∀ t c', t.activity = .decoding c' → P t c' → Q t c') : s.Transacts c Q o :=
  h.imp_left fun ⟨t, ho, c', ha, hc, hp⟩ => ⟨t, ho, c', ha, hc, hPQ t c' ha hp⟩

/-- A transaction whose events leave `s` transacts where what it answers goes on. -/
theorem deliver_transacts (hy : ∀ r : Raise, takeRaise y r = .next (s.endCall c r.status r.cause r.latches))
    {r : Except Stop State} (hr : Settles (c.GoesOn P) r) : s.Transacts c P (deliver y r) := by
  match r with
  | .ok t => exact .inl ⟨t, rfl, hr⟩
  | .error (.raise e) => exact .inr ⟨e, hy e⟩
  | .error (.fault f) => exact hr.elim

/-- A turn of the packet loop: the framer's phase is kept, and less is left to do. -/
def State.Turned (s : State) (c : Call) (t : State) (c' : Call) : Prop :=
  t.framer.l2Phase = s.framer.l2Phase ∧ c'.load t.lzma < c.load s.lzma

/-- A byte less of input or of space, no copy begun or ended. -/
theorem Call.load_add_three_le {c' : Call} {l l' : Lzma} (hpend : l'.pendLen = l.pendLen)
    (h : c'.input.length + c'.outSpace + 1 ≤ c.input.length + c.outSpace) : c'.load l' + 3 ≤ c.load l := by
  unfold Call.load
  rw [hpend]
  omega

theorem Call.load_lt {c' : Call} {l l' : Lzma} (h : c'.input.length + c'.outSpace < c.input.length + c.outSpace) :
    c'.load l' < c.load l := by
  unfold Call.load
  split <;> split <;> omega

/-- `Remaining` counts down leaves the framer's phase alone. -/
@[simp] theorem Framer.countDown_l2Phase (f : Framer) (m : Mode) : (f.countDown m).l2Phase = f.l2Phase := by
  cases m <;> rfl

theorem rcInitStep_turns (ha : s.activity = .decoding c) (hn : c.noted = none) :
    s.Transacts c (s.Turned c) (rcInitStep s) := by
  obtain ⟨rc, hrc, -, hdrop, hlen, -⟩ | ⟨r, hrc⟩ := rcInit_cases s.params.checkRcByte0 s.rcSource c.input
  · dsimp only at hdrop hlen
    refine .inl ⟨_, rcInitStep_ok ha hrc, _, rfl, ?_, rfl, Call.load_lt ?_⟩
    · rw [hdrop]
      exact .committed hlen (s.notedNow c) rfl
    · rw [Call.committed_input, Call.committed_outSpace, hdrop, List.length_drop]
      dsimp only
      omega
  · exact .inr ⟨r, rcInitStep_endCall ha hn hrc⟩

theorem copyStep_turns (h : s.Inv) (ha : s.activity = .decoding c) (hr : s.readRemaining = .ok n) :
    s.Transacts c (s.Turned c) (copyStep s) := by
  have hevent := takeRaise_endCall ha (h.decoding ha).2.2
  by_cases hspace : c.outSpace = 0
  · exact .inr ⟨_, (copyStep_noSpace ha hspace).trans (hevent _)⟩
  obtain ⟨-, -, b, hget⟩ | ⟨-, hget⟩ := Dict.get_cases h.dict s.lzma.pendDist.toNat
  · refine .inl ⟨_, copyStep_ok ha hspace hr hget, _, rfl, (Call.Continues.refl c).afterEmit hspace, ?_, ?_⟩
    · exact Framer.countDown_l2Phase _ _
    · exact Call.load_lt (by rw [Call.afterEmit_input, Call.afterEmit_outSpace]; omega)
  · have e : copyStep s = takeRaise s (.error .invalidDistance) := by
      simp [copyStep, State.call_ok ha, Call.needSpace_ok hspace, hget]
    exact .inr ⟨_, e.trans (hevent _)⟩

/-- A packet, read by the first `k` bytes of the call and executed where the packet loop fetches one: a literal fills
space, a copy packet leaves a copy pending. -/
theorem exec_packet_turns {i : Instr} (hi : i.isPacket = true) (hw : i.wellFormed = true)
    (ha : s.activity = .decoding c) (hn : c.noted = none) (hspace : c.outSpace ≠ 0) (hr : s.readRemaining = .ok n)
    (hpend : s.lzma.pendLen = 0) (rc : Rc) (m : Probs) {k : Nat} (hk : k ≤ c.input.length)
    (hrc : rc.bytes = c.input.drop k) : s.Transacts c (s.Turned c) (exec i (s.takeRc c rc m)) := by
  have hcall : c.Continues { c with input := rc.bytes, noted := some (s.notedNow c) }.committed := by
    rw [hrc]
    exact .committed hk (s.notedNow c) rfl
  have hbytes : rc.bytes.length ≤ c.input.length := by
    rw [hrc, List.length_drop]
    omega
  have copy {dist len : Nat} {l : Lzma} (hlen : 1 ≤ len ∧ len ≤ Config.matchMaxLen)
      (hl : l.pendLen = BitVec.ofNat 9 len) : s.Transacts c (s.Turned c) (copyPacket (s.takeRc c rc m) dist len l) := by
    obtain ⟨-, -, -, e⟩ | ⟨r, e⟩ := copyPacket_cases (s := s.takeRc c rc m) dist len l rfl hr
    · have hne : l.pendLen ≠ 0 := by
        simp only [Config.matchMaxLen] at hlen
        rw [hl]
        bv_omega
      refine .inl ⟨_, e, _, rfl, hcall, rfl, ?_⟩
      simp only [Call.load, hpend, if_neg hne, if_true, Call.committed_input, Call.committed_outSpace]
      omega
    · exact .inr ⟨r, e.trans (takeRaise_takeRc ha hn rc m r)⟩
  have len_le {len : Nat} (h : lenOk len = true) : 1 ≤ len ∧ len ≤ Config.matchMaxLen :=
    (lenOk_iff.mp h).imp_left (Nat.le_trans (by decide))
  cases i with
  | lit b =>
    refine .inl ⟨_, execLit_ok (s := s.takeRc c rc m) b rfl hspace hr, _, rfl, hcall.afterEmit hspace, ?_, ?_⟩
    · exact Framer.countDown_l2Phase _ _
    · refine Call.load_lt ?_
      rw [Call.afterEmit_input, Call.afterEmit_outSpace, Call.committed_input, Call.committed_outSpace]
      dsimp only
      omega
  | matchNew dist len => exact copy (len_le (Bool.and_eq_true _ _ ▸ hw).2) rfl
  | shortRep => exact copy ⟨Nat.le_refl 1, by decide⟩ rfl
  | rep0 len | rep1 len | rep2 len | rep3 len => exact copy (len_le hw) rfl
  | _ => cases hi

theorem packetStep_turns (h : s.Inv) (ha : s.activity = .decoding c) (hspace : c.outSpace ≠ 0)
    (hr : s.readRemaining = .ok n) (hpend : s.lzma.pendLen = 0) : s.Transacts c (s.Turned c) (packetStep s) := by
  have hn := (h.decoding ha).2.2
  unfold packetStep
  obtain ⟨i, rc, m, k, hf, hi, hw, -, -, hdrop, hk, -⟩ | ⟨r, hf⟩ := fetchPacket_cases ha h.dict h.range h.probs <;>
    rw [hf]
  · exact exec_packet_turns hi hw ha hn hspace hr hpend rc m hk hdrop
  · exact .inr ⟨r, takeRaise_endCall ha hn r⟩

/-- A turn of the packet loop transacts, unless the stream or the chunk is done. -/
theorem lzma1Step_turns (h : s.Inv) (ha : s.activity = .decoding c) {o : Host.Outcome State Fault Refusal}
    (ho : lzma1Step s c = .stepped o) : s.Transacts c (s.Turned c) o := by
  obtain ⟨n, hr, -⟩ := h.remaining ha
  have hn := (h.decoding ha).2.2
  cases hphase : s.lzma.l1Phase with
  | finished => rw [lzma1Step_finished hphase] at ho; cases ho
  | needInit =>
    rw [lzma1Step_needInit hphase] at ho
    cases ho
    exact rcInitStep_turns ha hn
  | packets =>
    by_cases hpend : s.lzma.pendLen = 0
    · by_cases h0 : n = 0
      · rw [lzma1Step_done hphase hpend (h0 ▸ hr)] at ho
        cases ho
      · by_cases hspace : c.outSpace = 0
        · rw [lzma1Step_noSpace hphase hpend hr h0 hspace] at ho
          cases ho
          exact .inr ⟨_, takeRaise_endCall ha hn _⟩
        · rw [lzma1Step_packet hphase hpend hr h0 hspace] at ho
          cases ho
          exact packetStep_turns h ha hspace hr hpend
    · rw [lzma1Step_copy hphase hpend] at ho
      cases ho
      exact copyStep_turns h ha hr

/-! ## Transactions of a chunk -/

/-- At least a byte is taken and no copy starts: less is left to do, even where a chunk begins. -/
def Call.Lighter (c : Call) (l : Lzma) (t : State) (c' : Call) : Prop := c'.load t.lzma + 3 ≤ c.load l

/-- A header is taken from the front of the presented bytes, and has at least its control byte (30_encoding.md R134). -/
theorem decodeHeader_drop {l rest : List Byte} {i : Instr} (h : decodeHeader l = some (i, rest)) :
    ∃ k, 1 ≤ k ∧ k ≤ l.length ∧ rest = l.drop k := by
  cases l with
  | nil => cases h
  | cons v tail =>
    generalize hn : (if v = 0x00 then 1 else if v = 0x01 ∨ v = 0x02 then 3 else if v < 0x80 then 1
         else if v < 0xC0 then 5 else 6) = n
    have hpos : 1 ≤ n := by
      rw [← hn]
      repeat' split
      all_goals decide
    obtain ⟨hshort, hwhole⟩ := controlByteTellsHeaderLength v tail n hn.symm
    by_cases hlt : (v :: tail).length < n
    · rw [hshort hlt] at h
      cases h
    · obtain ⟨i', hi'⟩ := hwhole (by omega)
      rw [hi'] at h
      cases h
      exact ⟨n, hpos, by omega, rfl⟩

theorem exec_header_transacts {rest : List Byte} {i : Instr} (hd : decodeHeader c.input = some (i, rest))
    (ha : s.activity = .decoding c) (hn : c.noted = none) :
    s.Transacts c (c.Lighter s.lzma) (exec i (s.take c rest)) := by
  have hevent := takeRaise_take ha hn rest
  obtain ⟨k, hpos, hk, rfl⟩ := decodeHeader_drop hd
  have commit {z : State} (hz : z.activity = (s.take c (c.input.drop k)).activity)
      (hpend : z.lzma.pendLen = s.lzma.pendLen) : Settles (c.GoesOn (c.Lighter s.lzma)) z.commit := by
    rw [State.commit_ok (hz.trans (State.take_activity s c _))]
    refine ⟨_, rfl, .committed hk (s.notedNow c) rfl, Call.load_add_three_le hpend ?_⟩
    rw [Call.committed_input, Call.committed_outSpace, List.length_drop]
    dsimp only
    omega
  have level (control : Byte) : Settles (fun _ => True) ((s.take c (c.input.drop k)).checkInitLevel control) := by
    unfold State.checkInitLevel
    split <;> trivial
  have props (v : Byte) : Settles (fun _ => True) (chunkProps v) := by
    unfold chunkProps
    split <;> trivial
  obtain rfl | ⟨size, rfl⟩ | ⟨size, rfl⟩ | ⟨v, rfl⟩ | ⟨u, p, rfl⟩ | ⟨u, p, rfl⟩ | ⟨u, p, v, rfl⟩ | ⟨u, p, v, rfl⟩ :=
    decodeHeader_cases hd
  · rw [exec, execL2End]
    exact deliver_transacts hevent (commit rfl rfl)
  · rw [exec, execL2CopyReset]
    exact deliver_transacts hevent (commit rfl rfl)
  · refine deliver_transacts hevent ?_
    split
    · trivial
    · exact commit rfl rfl
  · exact .inr ⟨_, hevent _⟩
  · exact deliver_transacts hevent ((level _).bind fun _ _ => commit rfl rfl)
  · exact deliver_transacts hevent ((level _).bind fun _ _ => commit rfl rfl)
  · exact deliver_transacts hevent ((level _).bind fun _ _ => (props v).bind fun _ _ => commit rfl rfl)
  · exact deliver_transacts hevent ((level _).bind fun _ _ => (props v).bind fun _ _ => commit rfl rfl)

theorem headerStep_transacts (ha : s.activity = .decoding c) (hn : c.noted = none) :
    s.Transacts c (c.Lighter s.lzma) (headerStep s c) := by
  unfold headerStep
  split
  next => exact .inr ⟨_, takeRaise_endCall ha hn _⟩
  next i rest hd => exact exec_header_transacts hd ha hn

theorem copyChunkStep_transacts (ha : s.activity = .decoding c) (hn : c.noted = none) :
    s.Transacts c (c.Lighter s.lzma) (copyChunkStep s c) := by
  refine deliver_transacts (takeRaise_endCall ha hn) ?_
  by_cases hspace : c.outSpace = 0
  · rw [Call.needSpace_error hspace]
    trivial
  rw [Call.needSpace_ok hspace, ok_bind]
  split
  next => trivial
  next b rest hin =>
    rw [State.commit_ok (State.take_activity s c rest), ok_bind, State.dictPut_ok rfl, ok_bind]
    have hrest : rest = c.input.drop 1 := by rw [hin, List.drop_one, List.tail_cons]
    have hlen : c.input.length = rest.length + 1 := by rw [hin, List.length_cons]
    subst hrest
    refine ⟨_, rfl, (Call.Continues.committed (by omega) (s.notedNow c) rfl).afterEmit hspace,
      Call.load_add_three_le rfl ?_⟩
    rw [Call.afterEmit_input, Call.afterEmit_outSpace, Call.committed_input, Call.committed_outSpace]
    dsimp only
    omega

/-! ## Steps of a call -/

theorem markLzmaData_cases (t : State) :
    markLzmaData t = t ∨ markLzmaData t = { t with framer := { t.framer with l2Phase := .lzmaData } } := by
  unfold markLzmaData
  split
  · split
    · exact .inr rfl
    · exact .inl rfl
  · exact .inl rfl
  · exact .inl rfl

/-- The mark of R351 leaves a chunk's load as it is. -/
theorem Call.GoesOn.markLzmaData (hp : s.framer.l2Phase = .lzmaInit ∨ s.framer.l2Phase = .lzmaData)
    (h : c.GoesOn (s.Turned c) t) :
    c.GoesOn (fun t c' => c'.load t.lzma + t.framer.load < c.load s.lzma + s.framer.load) (markLzmaData t) := by
  obtain ⟨c', ha, hc, hphase, hload⟩ := h
  have hs : s.framer.load = 1 := if_pos hp
  have ht : t.framer.load = 1 := if_pos (hphase ▸ hp)
  obtain e | e := markLzmaData_cases t <;> rw [e, hs]
  · exact ⟨c', ha, hc, by dsimp only; omega⟩
  · have hmarked : ({ t.framer with l2Phase := .lzmaData } : Framer).load = 1 := if_pos (.inr rfl)
    exact ⟨c', ha, hc, (congrArg (c'.load t.lzma + ·) hmarked).trans_lt (by omega)⟩

/-- Every step of a call: it goes on with less left to do, an event ends it and leaves the state before, or the stream is
finished. -/
theorem step_decoding (h : s.Inv) (ha : s.activity = .decoding c) :
    s.Transacts c (fun t _ => t.stepsLeft < s.stepsLeft) (step s) ∨
      ∃ l, step s = .next (({ s with lzma := l } : State).endCall c .finished none false) := by
  obtain ⟨hmode, -, hn⟩ := h.decoding ha
  have left {P : State → Call → Prop} {o : Host.Outcome State Fault Refusal} (ho : s.Transacts c P o)
      (hP : ∀ t c', P t c' → c'.load t.lzma + t.framer.load < c.load s.lzma + s.framer.load) :
      s.Transacts c (fun t _ => t.stepsLeft < s.stepsLeft) o :=
    ho.mono fun t c' ha' hp => by simpa only [State.stepsLeft_decoding ha', State.stepsLeft_decoding ha] using hP t c' hp
  have lighter (t : State) (c' : Call) (hlight : c.Lighter s.lzma t c') :
      c'.load t.lzma + t.framer.load < c.load s.lzma + s.framer.load := by
    have hle : t.framer.load ≤ 1 := by
      unfold Framer.load
      split <;> decide
    unfold Call.Lighter at hlight
    omega
  cases hm : s.ctl.mode with
  | unconfigured => exact absurd hm hmode
  | lzma1 =>
    rw [step_lzma1 ha hm]
    cases hturn : lzma1Step s c with
    | done => exact .inr ⟨_, stepLzma1_done hturn⟩
    | stepped o =>
      rw [stepLzma1_stepped hturn]
      refine .inl (left (lzma1Step_turns h ha hturn) fun t c' ⟨hphase, hload⟩ => ?_)
      simp only [Framer.load, hphase]
      omega
  | lzma2 =>
    rw [step_lzma2 ha hm]
    have chunk (hp : s.framer.l2Phase = .lzmaInit ∨ s.framer.l2Phase = .lzmaData) :
        s.Transacts c (fun t _ => t.stepsLeft < s.stepsLeft) (stepLzma2 s c) := by
      obtain ⟨o, ho, e⟩ | ⟨-, e⟩ := stepLzma2_lzmaChunk c hp <;> rw [e]
      · obtain ⟨t, rfl, ht⟩ | ⟨r, rfl⟩ := lzma1Step_turns h ha ho
        · exact left (.inl ⟨_, rfl, ht.markLzmaData hp⟩) fun _ _ hlt => hlt
        · exact .inr ⟨r, rfl⟩
      · unfold endLzmaChunk
        split
        · exact .inr ⟨_, takeRaise_endCall ha hn _⟩
        · refine left (P := fun t c' => c'.load t.lzma = c.load s.lzma ∧ t.framer.load = 0)
            (.inl ⟨_, rfl, c, ha, .refl c, rfl, rfl⟩) fun t c' ⟨hload, hframer⟩ => ?_
          have hs : s.framer.load = 1 := if_pos hp
          omega
    cases hp : s.framer.l2Phase with
    | finished => exact .inr ⟨s.lzma, by simp only [stepLzma2, hp]; rfl⟩
    | control => simp only [stepLzma2, hp]; exact .inl (left (headerStep_transacts ha hn) lighter)
    | copyData => simp only [stepLzma2, hp]; exact .inl (left (copyChunkStep_transacts ha hn) lighter)
    | lzmaInit => exact .inl (chunk (.inl hp))
    | lzmaData => exact .inl (chunk (.inr hp))

/-! ## Steps of a BCJ2 run -/

section Run
variable {j : Bcj2Job} {r : Bcj2Regs}

/-- The run goes on in `t` towards the same end, with more output. -/
def Bcj2Job.GoesOn (j : Bcj2Job) (t : State) : Prop :=
  ∃ j', t.activity = .merging j' ∧ j'.outSize = j.outSize ∧ j.out.length < j'.out.length

theorem Bcj2Regs.Kept.controlBit_settles (h : r.Kept) (i : Nat) : Settles (fun _ => True) (r.controlBit j i) := by
  unfold Bcj2Regs.controlBit
  obtain ⟨_, _, _, _, e, -⟩ | ⟨_, e, -⟩ := decodeBit_cases (Probs.kept_read h.probs i) (rc := r.rc j) h.range <;>
    rw [e] <;> trivial

theorem readTarget_settles (stream : List Byte) (pos : Word) : Settles (fun _ => True) (readTarget stream pos) := by
  unfold readTarget
  split <;> trivial

theorem Bcj2Regs.takeTarget_settles (r : Bcj2Regs) (j : Bcj2Job) (target : TargetStream) :
    Settles (fun _ => True) (r.takeTarget j target) := by
  cases target <;> exact (readTarget_settles _ _).bind fun _ _ => trivial

/-- Every branch token copies its opcode byte, whatever it emits after it. -/
theorem branchToken_settles (h : s.Inv) (ha : s.activity = .merging j) (b : Byte) (i : Nat) (target : TargetStream) :
    Settles j.GoesOn (branchToken b i target s) := by
  have hr : (copyMain j s.bcj b).2.Kept := { h.bcj with }
  rw [branchToken, State.job_ok ha, ok_bind]
  dsimp only
  split
  · exact ⟨_, rfl, rfl, by simp [copyMain]⟩
  · refine (hr.controlBit_settles i).bind fun ⟨bit, r2⟩ _ => ?_
    cases bit with
    | false => exact ⟨_, rfl, rfl, by simp [copyMain]⟩
    | true =>
      exact (r2.takeTarget_settles j target).bind fun _ _ =>
        ⟨_, rfl, rfl, by simp only [copyMain, emitDest, List.length_append, List.length_singleton]; omega⟩

/-- The run goes on, or has ended and returned. -/
def Bcj2Job.Runs (j : Bcj2Job) (t : State) : Prop := j.GoesOn t ∨ t.activity = .idle ∧ t.host.ret.isSome = true

theorem takeRaise_returns (ha : s.activity = .merging j) (r : Raise) : ∃ t, takeRaise s r = .next t ∧ j.Runs t :=
  ⟨_, takeRaise_merging ha r, .inr ⟨rfl, rfl⟩⟩

theorem deliver_runs (ha : s.activity = .merging j) {r : Except Stop State} (hr : Settles j.GoesOn r) :
    ∃ t, deliver s r = .next t ∧ j.Runs t := by
  match r with
  | .ok t => exact ⟨t, rfl, .inl hr⟩
  | .error (.raise e) => exact takeRaise_returns ha e
  | .error (.fault f) => exact hr.elim

theorem exec_token_runs (h : s.Inv) (ha : s.activity = .merging j) (b : Byte) :
    ∃ t, exec (decodePair j.prev b) s = .next t ∧ j.Runs t := by
  have branch (b : Byte) (i : Nat) (target : TargetStream) := deliver_runs ha (branchToken_settles h ha b i target)
  unfold decodePair
  split
  · exact branch _ _ _
  · split
    · exact branch _ _ _
    · split
      · exact branch _ _ _
      · refine deliver_runs ha ?_
        rw [State.job_ok ha, ok_bind]
        exact ⟨_, rfl, rfl, by simp⟩

theorem step_merging_runs (h : s.Inv) (ha : s.activity = .merging j) : ∃ t, step s = .next t ∧ j.Runs t := by
  rw [step_merging ha, stepMerge]
  split
  · exact ⟨_, rfl, .inr ⟨rfl, rfl⟩⟩
  · split
    · exact takeRaise_returns ha _
    · exact exec_token_runs h ha _

/-- More output of a kept run is less left to do. -/
theorem Bcj2Job.GoesOn.stepsLeft_lt (h : s.Inv) (ha : s.activity = .merging j) (ht : t.Inv) (hgo : j.GoesOn t) :
    t.stepsLeft < s.stepsLeft := by
  obtain ⟨j', ha', hsize, hlen⟩ := hgo
  have hj := h.merging ha
  have hj' := ht.merging ha'
  have hout := hj.out
  have hout' := hj'.out
  have hmax' := hj'.outMax
  rw [hsize] at hmax'
  rw [State.stepsLeft_merging ha, State.stepsLeft_merging ha', hsize]
  omega

end Run

/-! ## Every command -/

/-- A step of a command in progress ends it, or leaves less to do. -/
theorem step_ends_or_lt (h : s.Inv) (hbusy : s.activity ≠ .idle) :
    ∃ t, step s = .next t ∧
      (t.activity = .idle ∧ t.host.ret.isSome = true ∨ t.activity ≠ .idle ∧ t.stepsLeft < s.stepsLeft) := by
  cases ha : s.activity with
  | idle => exact absurd ha hbusy
  | decoding c =>
    obtain (⟨t, e, c', ha', -, hlt⟩ | ⟨r, e⟩) | ⟨l, e⟩ := step_decoding h ha
    · exact ⟨t, e, .inr ⟨by simp [ha'], hlt⟩⟩
    · exact ⟨_, e, .inl ⟨rfl, rfl⟩⟩
    · exact ⟨_, e, .inl ⟨rfl, rfl⟩⟩
  | merging j =>
    obtain ⟨t, e, hgo | hend⟩ := step_merging_runs h ha
    · obtain ⟨j', ha', -⟩ := id hgo
      exact ⟨t, e, .inr ⟨by simp [ha'], hgo.stepsLeft_lt h ha (step_inv h t e)⟩⟩
    · exact ⟨t, e, .inl hend⟩

theorem runCommand_idle (ha : s.activity = .idle) (k : Nat) : runCommand k s = .next s := by
  cases k <;> simp only [runCommand, ha]

theorem runCommand_step (hbusy : s.activity ≠ .idle) (ht : step s = .next t) (k : Nat) :
    runCommand (k + 1) s = runCommand k t := by
  cases ha : s.activity with
  | idle => exact absurd ha hbusy
  | decoding c => simp only [runCommand, ha, ht]
  | merging j => simp only [runCommand, ha, ht]

/-- Settles O59, by induction on what is left to do: each step leaves less, or is the last. -/
theorem everyCommandRunsToCompletion : Obligations.EveryCommandRunsToCompletion := by
  unfold Obligations.EveryCommandRunsToCompletion
  intro s
  induction hn : s.stepsLeft using Nat.strong_induction_on generalizing s with
  | h n ih =>
    intro h hbusy
    obtain ⟨t, ht, ⟨hidle, hret⟩ | ⟨hbusy', hlt⟩⟩ := step_ends_or_lt h hbusy
    · exact ⟨1, t, Nat.le_add_left 1 n, by rw [runCommand_step hbusy ht, runCommand], hidle, hret⟩
    · obtain ⟨k, u, hk, hrun, hu⟩ := ih _ (hn ▸ hlt) t rfl (step_inv h t ht) hbusy'
      exact ⟨k + 1, u, by omega, by rw [runCommand_step hbusy ht, hrun], hu⟩

end Sys2Proof.Machine
end

section
/-! PROOF. Two calls against one (46_lzma1_core.md R324). A call is joined to a longer one: to one that presents more
bytes and more space, or to one that has delivered bytes before. Each operation is said once to answer the joined state,
so that a run of the one call is a run of the other; the first of two calls is joined to the single call by what it was not
given, the second by what the first one has delivered, and where the first ends the two joined states are the same. -/

namespace Sys2Proof.Machine

variable {s t y : State} {c : Call} {n : Nat}

/-! ## The joined state -/

/-- How a call stands to the longer one it is part of: the bytes and the space that the longer call presents beyond its
own, the output and the counts of what the longer one has done before it, and the host's return and the status that stand
while the longer one runs. -/
structure Joining where
  more : List Byte
  space : Nat
  out : List Byte
  used : Nat
  made : Nat
  ret : Option Return
  status : Status
  cause : Option Cause

/-- The longer call presents nothing beyond. -/
def Joining.Full (x : Joining) : Prop := x.more = [] ∧ x.space = 0

/-- The values noted by a transaction of the longer call. -/
def Joining.noted (x : Joining) (v : Noted) : Noted := { v with input := v.input ++ x.more }

/-- The longer call, where it has come to. -/
def Joining.call (x : Joining) (c : Call) : Call :=
  { input := c.input ++ x.more, outSpace := c.outSpace + x.space, consumed := x.used + c.consumed
    produced := x.made + c.produced, noted := c.noted.map x.noted }

/-- What the longer call returns, counts added up. -/
def Joining.returned (x : Joining) (r : Return) : Return :=
  { r with
    consumed := match r.consumed with
      | .bytes n => .bytes (x.used + n)
      | .streams m k l r => .streams m k l r
    produced := x.made + r.produced }

/-- The activity of the longer call. -/
def Joining.activity (x : Joining) : Activity → Activity
  | .idle => .idle
  | .decoding c => .decoding (x.call c)
  | .merging j => .merging j

/-- The host's side while the longer call runs, and once it has returned. -/
def Joining.host (x : Joining) (p : HostPort) : Activity → HostPort
  | .idle => { p with out := x.out ++ p.out, ret := p.ret.map x.returned }
  | .decoding _ => { p with out := x.out ++ p.out, ret := x.ret }
  | .merging _ => p

/-- The status and its cause while the longer call runs, and once it has returned. -/
def Joining.ctl (x : Joining) (r : Control) : Activity → Control
  | .idle => r
  | .decoding _ => { r with status := x.status, cause := x.cause }
  | .merging _ => r

/-- The state of the longer call. -/
def State.joined (s : State) (x : Joining) : State :=
  { s with host := x.host s.host s.activity, activity := x.activity s.activity, ctl := x.ctl s.ctl s.activity }

variable {x : Joining}

theorem State.joined_decoding (ha : s.activity = .decoding c) :
    s.joined x = { s with
      host := { s.host with out := x.out ++ s.host.out, ret := x.ret }
      activity := .decoding (x.call c)
      ctl := { s.ctl with status := x.status, cause := x.cause } } := by
  simp only [State.joined, Joining.host, Joining.activity, Joining.ctl, ha]

theorem State.joined_activity (ha : s.activity = .decoding c) : (s.joined x).activity = .decoding (x.call c) := by
  rw [State.joined_decoding ha]

@[simp] theorem State.joined_mode (s : State) (x : Joining) : (s.joined x).ctl.mode = s.ctl.mode := by
  simp only [State.joined]
  cases s.activity <;> rfl

theorem State.joined_rcSource (s : State) (x : Joining) : (s.joined x).rcSource = s.rcSource := by
  simp only [State.rcSource, State.joined_mode]
  rfl

theorem State.joined_readRemaining (s : State) (x : Joining) : (s.joined x).readRemaining = s.readRemaining :=
  State.readRemaining_congr (s.joined_mode x) rfl rfl

theorem State.joined_checkCopy (s : State) (x : Joining) (dist len : Nat) :
    (s.joined x).checkCopy dist len = s.checkCopy dist len := by
  rw [State.checkCopy, State.joined_readRemaining]
  rfl

theorem State.joined_take (ha : s.activity = .decoding c) (rest : List Byte) :
    (s.joined x).take (x.call c) (rest ++ x.more) = (s.take c rest).joined x := by
  rw [State.joined_decoding ha]
  rfl

theorem State.joined_takeRc (ha : s.activity = .decoding c) (rc : Rc) (m : Probs) :
    (s.joined x).takeRc (x.call c) { rc with bytes := rc.bytes ++ x.more } m = (s.takeRc c rc m).joined x := by
  rw [State.joined_decoding ha]
  rfl

theorem Joining.call_taken (x : Joining) (c : Call) : (x.call c).taken = c.taken := by
  obtain ⟨input, outSpace, consumed, produced, noted⟩ := c
  cases noted with
  | none => rfl
  | some v => simp [Call.taken, Joining.call, Joining.noted, Nat.add_sub_add_right]

theorem Joining.call_committed (x : Joining) (c : Call) : (x.call c).committed = x.call c.committed := by
  simp only [Call.committed, Joining.call_taken]
  simp only [Joining.call, Option.map_none, Nat.add_assoc]

theorem Joining.call_afterEmit (x : Joining) {c : Call} (h : c.outSpace ≠ 0) :
    (x.call c).afterEmit = x.call c.afterEmit := by
  simp only [Call.afterEmit, Joining.call, Nat.add_assoc, Call.mk.injEq, and_true, true_and]
  omega

theorem Joining.call_outSpace_ne (x : Joining) {c : Call} (h : c.outSpace ≠ 0) : (x.call c).outSpace ≠ 0 := by
  simp only [Joining.call]
  omega

/-! ## Operations of the joined state -/

/-- What an operation answers, it answers to the longer call too, by `f`; where that call presents nothing beyond, it stops
alike. -/
def Joins {α : Type} (x : Joining) (f : α → α) (r r' : Except Stop α) : Prop :=
  match r with
  | .ok a => r' = .ok (f a)
  | .error e => x.Full → r' = .error e

theorem Joins.same {α : Type} (r : Except Stop α) : Joins x id r r := by
  cases r with
  | ok a => exact rfl
  | error e => exact fun _ => rfl

theorem Joins.bind {α β : Type} {f : α → α} {g : β → β} {r r' : Except Stop α} {k k' : α → Except Stop β}
    (h : Joins x f r r') (hk : ∀ a, r = .ok a → Joins x g (k a) (k' (f a))) : Joins x g (r >>= k) (r' >>= k') := by
  cases r with
  | ok a =>
    rw [show r' = .ok (f a) from h]
    exact hk a rfl
  | error e =>
    intro hx
    rw [h hx]
    rfl

/-- The step of the longer call: it goes on where the shorter one does, and ends like it where nothing is presented beyond. -/
def StepJoins (x : Joining) (o o' : Host.Outcome State Fault Refusal) : Prop :=
  ∀ t, o = .next t → t.activity ≠ .idle ∨ x.Full → o' = .next (t.joined x)

theorem StepJoins.next (x : Joining) (t : State) : StepJoins x (.next t) (.next (t.joined x)) := by
  rintro _ ⟨⟩ -
  rfl

theorem StepJoins.fault (f : Fault) (o' : Host.Outcome State Fault Refusal) : StepJoins x (.fault f) o' := by
  rintro _ ⟨⟩

/-- The end of a call, `c` or one that was rolled back to `c'`. -/
theorem State.joined_endCall {c' : Call} (ha : s.activity = .decoding c') (st : Status) (ca : Option Cause) (l : Bool) :
    (s.joined x).endCall (x.call c) st ca l = (s.endCall c st ca l).joined x := by
  rw [State.joined_decoding ha]
  rfl

theorem State.rollback_activity (ha : s.activity = .decoding c) : ∃ c', (s.rollback c).activity = .decoding c' := by
  unfold State.rollback
  split
  · exact ⟨c, ha⟩
  · exact ⟨_, rfl⟩

theorem State.joined_rollback (ha : s.activity = .decoding c) :
    (s.joined x).rollback (x.call c) = (s.rollback c).joined x := by
  cases hn : c.noted with
  | none => rw [State.rollback_none _ hn, State.rollback_none _ (by rw [Joining.call, hn]; rfl)]
  | some v =>
    rw [State.joined_decoding ha]
    simp only [State.rollback, hn, Joining.call, Option.map_some]
    rfl

/-- An event raised in both calls ends both, rolled back alike. -/
theorem takeRaise_joins (ha : s.activity = .decoding c) (r : Raise) :
    StepJoins x (takeRaise s r) (takeRaise (s.joined x) r) := by
  obtain ⟨c', ha'⟩ := State.rollback_activity ha
  rw [takeRaise_decoding (State.joined_activity ha), takeRaise_decoding ha, State.joined_rollback ha,
    State.joined_endCall ha']
  exact .next x _

/-- A step that ends the call asks nothing of a longer call that presents more. -/
theorem StepJoins.of_idle {o o' : Host.Outcome State Fault Refusal} (hidle : EndsWith (fun t => t.activity = .idle) o)
    (h : x.Full → StepJoins x o o') : StepJoins x o o' := fun t ht hgo =>
  h (hgo.resolve_left fun hne => hne (hidle t ht)) t ht hgo

/-- A transaction of the joined calls. -/
theorem deliver_joins (ha : s.activity = .decoding c) {r r' : Except Stop State} (h : Joins x (·.joined x) r r') :
    StepJoins x (deliver s r) (deliver (s.joined x) r') := by
  match r with
  | .ok t =>
    rw [show r' = .ok (t.joined x) from h]
    exact .next x t
  | .error (.raise e) =>
    refine .of_idle (takeRaise_idle s e) fun hx => ?_
    rw [h hx]
    exact takeRaise_joins ha e
  | .error (.fault f) => exact .fault f _

theorem needSpace_joins (x : Joining) (c : Call) : Joins x id c.needSpace (x.call c).needSpace := by
  by_cases hspace : c.outSpace = 0
  · rw [Call.needSpace_error hspace]
    intro hx
    exact Call.needSpace_error (by simp only [Joining.call, hspace, hx.2])
  · rw [Call.needSpace_ok hspace, Call.needSpace_ok (x.call_outSpace_ne hspace)]
    exact rfl

theorem outSpace_ne_of_needSpace {v : Unit} (h : c.needSpace = .ok v) : c.outSpace ≠ 0 := fun hspace => by
  rw [Call.needSpace_error hspace] at h
  cases h

theorem commit_joins (ha : s.activity = .decoding c) : Joins x (·.joined x) s.commit (s.joined x).commit := by
  rw [State.commit_ok ha, State.commit_ok (State.joined_activity ha), Joining.call_committed, Joining.call_taken,
    State.joined_decoding ha]
  exact rfl

theorem dictPut_joins (ha : s.activity = .decoding c) (hspace : c.outSpace ≠ 0) (b : Byte) :
    Joins x (·.joined x) (s.dictPut b) ((s.joined x).dictPut b) := by
  rw [State.dictPut_ok ha, State.dictPut_ok (State.joined_activity ha), Joining.call_afterEmit x hspace,
    State.joined_decoding ha]
  simp only [List.append_assoc]
  exact rfl

theorem decRemaining_joins (s : State) (x : Joining) : Joins x (·.joined x) s.decRemaining (s.joined x).decRemaining := by
  simp only [State.decRemaining, State.joined_mode]
  cases s.ctl.mode with
  | unconfigured => exact fun _ => rfl
  | lzma1 => exact rfl
  | lzma2 => exact rfl

theorem rcInit_joins (check : Bool) (src : RcSource) (bytes : List Byte) :
    Joins x (fun rc => { rc with bytes := rc.bytes ++ x.more }) (rcInit check src bytes)
      (rcInit check src (bytes ++ x.more)) := by
  cases h : rcInit check src bytes with
  | ok rc => exact rcInit_append h x.more
  | error e =>
    intro hx
    rw [hx.1, List.append_nil, h]

theorem runProg_joins {α : Type} (prog : BitProg α) (rc : Rc) (m : Probs) :
    Joins x (fun a => (a.1, { a.2.1 with bytes := a.2.1.bytes ++ x.more }, a.2.2)) (runProg prog rc m)
      (runProg prog { rc with bytes := rc.bytes ++ x.more } m) := by
  cases h : runProg prog rc m with
  | ok a => exact runProg_append prog h x.more
  | error e =>
    intro hx
    rw [hx.1, List.append_nil, h]

/-! ## The packet loop -/

theorem rcInitStep_joins (ha : s.activity = .decoding c) : StepJoins x (rcInitStep s) (rcInitStep (s.joined x)) := by
  refine deliver_joins ha ?_
  rw [State.call_ok ha, State.call_ok (State.joined_activity ha), ok_bind, ok_bind, State.joined_rcSource]
  refine (rcInit_joins _ _ _).bind fun rc _ => ?_
  dsimp only
  rw [State.joined_takeRc ha]
  exact commit_joins rfl

theorem copyStep_joins (ha : s.activity = .decoding c) : StepJoins x (copyStep s) (copyStep (s.joined x)) := by
  refine deliver_joins ha ?_
  rw [State.call_ok ha, State.call_ok (State.joined_activity ha), ok_bind, ok_bind]
  refine (needSpace_joins x c).bind fun _ hspace => (Joins.same _).bind fun b _ => ?_
  exact (dictPut_joins ha (outSpace_ne_of_needSpace hspace) b).bind fun s1 _ => decRemaining_joins _ x

theorem copyPacket_joins (ha : s.activity = .decoding c) (dist len : Nat) (l : Lzma) :
    StepJoins x (copyPacket s dist len l) (copyPacket (s.joined x) dist len l) := by
  refine deliver_joins ha ?_
  rw [State.joined_checkCopy]
  exact (Joins.same _).bind fun _ _ => commit_joins (s := { s with lzma := l }) ha

theorem execLit_joins (ha : s.activity = .decoding c) (b : Byte) : StepJoins x (execLit b s) (execLit b (s.joined x)) := by
  refine deliver_joins ha ?_
  rw [State.call_ok ha, State.call_ok (State.joined_activity ha), ok_bind, ok_bind]
  refine (needSpace_joins x c).bind fun _ hspace => ?_
  refine (commit_joins (s := { s with lzma := { s.lzma with lzState := afterLiteral s.lzma.lzState } }) ha).bind
    fun s1 hs1 => ?_
  rw [State.commit_ok (by exact ha)] at hs1
  cases hs1
  exact (dictPut_joins (c := c.committed) rfl (outSpace_ne_of_needSpace hspace) b).bind fun s2 _ => decRemaining_joins s2 x

theorem exec_packet_joins (ha : s.activity = .decoding c) {i : Instr} (hi : i.isPacket = true) :
    StepJoins x (exec i s) (exec i (s.joined x)) := by
  cases i with
  | lit b => exact execLit_joins ha b
  | matchNew | shortRep | rep0 | rep1 | rep2 | rep3 => exact copyPacket_joins ha _ _ _
  | _ => cases hi

theorem State.joined_rcRegs (s : State) (x : Joining) (c : Call) :
    (s.joined x).rcRegs (x.call c) = { s.rcRegs c with bytes := (s.rcRegs c).bytes ++ x.more } := by
  rw [State.rcRegs, State.joined_rcSource]
  rfl

/-- A packet is fetched by the longer call as by the shorter one; a literal whose operands cannot be read stops both. -/
theorem fetchPacket_joins (ha : s.activity = .decoding c) :
    Joins x (fun a => (a.1, a.2.joined x)) (fetchPacket s) (fetchPacket (s.joined x)) := by
  rw [fetchPacket, fetchPacket, State.call_ok ha, State.call_ok (State.joined_activity ha), ok_bind, ok_bind,
    State.joined_rcRegs]
  refine (runProg_joins _ _ _).bind fun ⟨i, rc, m⟩ _ => ?_
  cases i with
  | some i =>
    dsimp only
    rw [State.joined_takeRc ha]
    exact rfl
  | none => exact (Joins.same s.litOperand).bind fun _ _ _ => rfl

theorem packetStep_joins (ha : s.activity = .decoding c) : StepJoins x (packetStep s) (packetStep (s.joined x)) := by
  have hfetch := fetchPacket_joins (x := x) ha
  unfold packetStep
  cases hf : fetchPacket s with
  | ok a =>
    obtain ⟨hi, -, rc, m, hs⟩ := fetchPacket_isPacket ha hf
    rw [hf] at hfetch
    rw [show fetchPacket (s.joined x) = .ok (a.1, a.2.joined x) from hfetch]
    exact exec_packet_joins (by rw [hs]; rfl) hi
  | error e =>
    have hidle := (deliver_idle_or (s := s) (P := fun _ => False) (.error e)).mono fun _ h => h.resolve_right id
    refine .of_idle hidle fun hx => ?_
    rw [hf] at hfetch
    rw [hfetch hx]
    exact deliver_joins ha fun _ => rfl

/-- Both turns are a step, joined, or both calls have come to the end of the stream or the chunk. -/
def LoopResult.Joins (x : Joining) : LoopResult → LoopResult → Prop
  | .done, .done => True
  | .stepped o, .stepped o' => StepJoins x o o'
  | .done, .stepped _ => False
  | .stepped _, .done => False

theorem lzma1Step_joins (ha : s.activity = .decoding c) (hr : s.readRemaining = .ok n) :
    (lzma1Step s c).Joins x (lzma1Step (s.joined x) (x.call c)) := by
  have hr' := (s.joined_readRemaining x).trans hr
  cases hphase : s.lzma.l1Phase with
  | finished =>
    rw [lzma1Step_finished hphase, lzma1Step_finished (s := s.joined x) hphase]
    trivial
  | needInit =>
    rw [lzma1Step_needInit hphase, lzma1Step_needInit (s := s.joined x) hphase]
    exact rcInitStep_joins ha
  | packets =>
    by_cases hpend : s.lzma.pendLen = 0
    · by_cases h0 : n = 0
      · subst h0
        rw [lzma1Step_done hphase hpend hr, lzma1Step_done (s := s.joined x) hphase hpend hr']
        trivial
      · by_cases hspace : c.outSpace = 0
        · rw [lzma1Step_noSpace hphase hpend hr h0 hspace]
          by_cases hspace' : (x.call c).outSpace = 0
          · rw [lzma1Step_noSpace (s := s.joined x) hphase hpend hr' h0 hspace']
            exact takeRaise_joins ha _
          · rw [lzma1Step_packet (s := s.joined x) hphase hpend hr' h0 hspace']
            refine StepJoins.of_idle (takeRaise_idle s _) fun hx => absurd ?_ hspace'
            simp only [Joining.call, hspace, hx.2]
        · rw [lzma1Step_packet hphase hpend hr h0 hspace,
            lzma1Step_packet (s := s.joined x) hphase hpend hr' h0 (x.call_outSpace_ne hspace)]
          exact packetStep_joins ha
    · rw [lzma1Step_copy hphase hpend, lzma1Step_copy (s := s.joined x) hphase hpend]
      exact copyStep_joins ha

/-! ## The chunks -/

/-- A header that is whole is decoded alike whatever bytes follow (30_encoding.md R134). -/
theorem decodeHeader_of_append {l rest : List Byte} {i : Instr} (h : decodeHeader l = some (i, rest))
    (more : List Byte) : decodeHeader (l ++ more) = some (i, rest ++ more) := by
  cases l with
  | nil => cases h
  | cons v tail =>
    obtain ⟨bs, hl, he, hw⟩ := encode_of_decodeHeader h
    rw [hl, List.append_assoc]
    exact decodeHeader_append hw he _

theorem exec_header_joins {l rest : List Byte} {i : Instr} (hd : decodeHeader l = some (i, rest))
    (ha : s.activity = .decoding c) : StepJoins x (exec i s) (exec i (s.joined x)) := by
  obtain rfl | ⟨size, rfl⟩ | ⟨size, rfl⟩ | ⟨v, rfl⟩ | ⟨u, p, rfl⟩ | ⟨u, p, rfl⟩ | ⟨u, p, v, rfl⟩ | ⟨u, p, v, rfl⟩ :=
    decodeHeader_cases hd
  · exact deliver_joins ha (commit_joins (s := { s with framer := _ }) ha)
  · exact deliver_joins ha (commit_joins (s := { s with dict := _, framer := _ }) ha)
  · refine deliver_joins ha ?_
    rw [show (s.joined x).framer = s.framer from rfl]
    by_cases hlevel : s.framer.needInitLevel = 0xE0
    · rw [if_pos hlevel, if_pos hlevel]
      exact fun _ => rfl
    · rw [if_neg hlevel, if_neg hlevel]
      exact commit_joins (s := { s with framer := _ }) ha
  · exact takeRaise_joins ha _
  · exact deliver_joins ha ((Joins.same _).bind fun _ _ => commit_joins (s := { s with lzma := _, framer := _ }) ha)
  · exact deliver_joins ha ((Joins.same _).bind fun _ _ => commit_joins (s := { s with lzma := _, framer := _ }) ha)
  · exact deliver_joins ha ((Joins.same _).bind fun _ _ => (Joins.same _).bind fun _ _ =>
      commit_joins (s := { s with cfg := _, lzma := _, framer := _ }) ha)
  · exact deliver_joins ha ((Joins.same _).bind fun _ _ => (Joins.same _).bind fun _ _ =>
      commit_joins (s := { s with cfg := _, dict := _, lzma := _, framer := _ }) ha)

theorem headerStep_joins (ha : s.activity = .decoding c) :
    StepJoins x (headerStep s c) (headerStep (s.joined x) (x.call c)) := by
  unfold headerStep
  cases hd : decodeHeader c.input with
  | none =>
    refine .of_idle (takeRaise_idle s _) fun hx => ?_
    rw [show (x.call c).input = c.input by simp only [Joining.call, hx.1, List.append_nil], hd]
    exact takeRaise_joins ha _
  | some a =>
    rw [show decodeHeader (x.call c).input = some (a.1, a.2 ++ x.more) from decodeHeader_of_append hd x.more]
    dsimp only
    rw [State.joined_take ha]
    exact exec_header_joins hd rfl

theorem copyChunkStep_joins (ha : s.activity = .decoding c) :
    StepJoins x (copyChunkStep s c) (copyChunkStep (s.joined x) (x.call c)) := by
  refine deliver_joins ha ((needSpace_joins x c).bind fun _ hspace => ?_)
  cases hin : c.input with
  | nil =>
    intro hx
    simp only [Joining.call, hin, hx.1, List.append_nil]
  | cons b rest =>
    rw [show (x.call c).input = b :: (rest ++ x.more) by simp only [Joining.call, hin, List.cons_append]]
    dsimp only
    rw [State.joined_take ha]
    refine (commit_joins (s := s.take c rest) rfl).bind fun s1 hs1 => ?_
    rw [State.commit_ok (State.take_activity s c rest)] at hs1
    cases hs1
    exact (dictPut_joins rfl (by exact outSpace_ne_of_needSpace hspace) b).bind fun s2 _ => rfl

theorem endLzmaChunk_joins (ha : s.activity = .decoding c) : StepJoins x (endLzmaChunk s) (endLzmaChunk (s.joined x)) := by
  unfold endLzmaChunk
  rw [show (s.joined x).framer = s.framer from rfl]
  split
  · exact takeRaise_joins ha _
  · exact .next x { s with lzma := _, framer := _ }

/-! ## The step -/

theorem markLzmaData_joined (t : State) (x : Joining) : markLzmaData (t.joined x) = (markLzmaData t).joined x := by
  cases ha : t.activity with
  | idle => simp only [markLzmaData, State.joined, Joining.activity, ha]
  | merging j => simp only [markLzmaData, State.joined, Joining.activity, ha]
  | decoding c =>
    by_cases hp : t.lzma.l1Phase = .packets
    · rw [markLzmaData_eq ha hp, markLzmaData_eq (State.joined_activity ha) hp]
      rfl
    · simp only [markLzmaData, State.joined, Joining.activity, ha, if_neg hp]

theorem markLzmaData_activity (t : State) : (markLzmaData t).activity = t.activity := by
  obtain e | e := markLzmaData_cases t <;> rw [e]

/-- The mark of R351 is the same in both calls. -/
theorem StepJoins.mark {o o' : Host.Outcome State Fault Refusal} (h : StepJoins x o o') :
    StepJoins x (mapNext markLzmaData o) (mapNext markLzmaData o') := by
  cases o with
  | next t =>
    rintro _ ⟨⟩ hgo
    rw [markLzmaData_activity] at hgo
    rw [h t rfl hgo, mapNext, markLzmaData_joined]
  | fault f => exact .fault f _
  | refused r => rintro _ ⟨⟩

theorem finishCall_joins (ha : s.activity = .decoding c) :
    StepJoins x (.next (finishCall s c)) (.next (finishCall (s.joined x) (x.call c))) := by
  rw [finishCall, finishCall, State.joined_endCall ha]
  exact .next x _

/-- Every step of a call is a step of the longer call. -/
theorem step_joins (h : s.Inv) (ha : s.activity = .decoding c) : StepJoins x (step s) (step (s.joined x)) := by
  obtain ⟨n, hr, -⟩ := h.remaining ha
  have hturn := lzma1Step_joins (x := x) ha hr
  have ha' := State.joined_activity (x := x) ha
  have hm' := s.joined_mode x
  cases hm : s.ctl.mode with
  | unconfigured => exact absurd hm (h.decoding ha).1
  | lzma1 =>
    rw [step_lzma1 ha hm, step_lzma1 ha' (hm'.trans hm)]
    cases ho : lzma1Step s c <;> cases ho' : lzma1Step (s.joined x) (x.call c) <;> rw [ho, ho'] at hturn
    · rw [stepLzma1_stepped ho, stepLzma1_stepped ho']
      exact hturn
    · exact hturn.elim
    · exact hturn.elim
    · rw [stepLzma1_done ho, stepLzma1_done ho']
      exact finishCall_joins (s := { s with lzma := { s.lzma with l1Phase := .finished } }) ha
  | lzma2 =>
    rw [step_lzma2 ha hm, step_lzma2 ha' (hm'.trans hm)]
    have chunk (hp : s.framer.l2Phase = .lzmaInit ∨ s.framer.l2Phase = .lzmaData) :
        StepJoins x (stepLzma2 s c) (stepLzma2 (s.joined x) (x.call c)) := by
      cases ho : lzma1Step s c <;> cases ho' : lzma1Step (s.joined x) (x.call c) <;> rw [ho, ho'] at hturn
      · rw [stepLzma2_stepped hp ho, stepLzma2_stepped (s := s.joined x) hp ho']
        exact hturn.mark
      · exact hturn.elim
      · exact hturn.elim
      · rw [stepLzma2_done hp ho, stepLzma2_done (s := s.joined x) hp ho']
        exact endLzmaChunk_joins ha
    have hphase : (s.joined x).framer.l2Phase = s.framer.l2Phase := rfl
    cases hp : s.framer.l2Phase with
    | lzmaInit => exact chunk (.inl hp)
    | lzmaData => exact chunk (.inr hp)
    | finished =>
      rw [stepLzma2, stepLzma2, hphase, hp]
      exact finishCall_joins ha
    | control =>
      rw [stepLzma2, stepLzma2, hphase, hp]
      exact headerStep_joins ha
    | copyData =>
      rw [stepLzma2, stepLzma2, hphase, hp]
      exact copyChunkStep_joins ha

/-! ## Runs -/

/-- A command in progress runs by its next step. -/
theorem runCommand_succ {k : Nat} (hbusy : s.activity ≠ .idle) (hrun : runCommand (k + 1) s = .next t) :
    ∃ y, step s = .next y ∧ runCommand k y = .next t := by
  cases hstep : step s with
  | next y => exact ⟨y, rfl, by rw [← runCommand_step hbusy hstep, hrun]⟩
  | fault f | refused r =>
    cases ha : s.activity with
    | idle => exact absurd ha hbusy
    | decoding | merging => simp [runCommand, ha, hstep] at hrun

theorem runCommand_add {k : Nat} (hrun : runCommand k s = .next t) (l : Nat) :
    runCommand (k + l) s = runCommand l t := by
  induction k generalizing s with
  | zero =>
    cases hrun
    rw [Nat.zero_add]
  | succ k ih =>
    by_cases hidle : s.activity = .idle
    · rw [runCommand_idle hidle] at hrun
      cases hrun
      rw [runCommand_idle hidle, runCommand_idle hidle]
    · obtain ⟨y, hy, hrun⟩ := runCommand_succ hidle hrun
      rw [Nat.add_right_comm, runCommand_step hidle hy, ih hrun]

/-- A command ends in one state only. -/
theorem State.EndsIn.unique {u : State} (ht : s.EndsIn t) (hu : s.EndsIn u) : t = u := by
  obtain ⟨hidle, k, hk⟩ := ht
  obtain ⟨hidle', l, hl⟩ := hu
  have h := runCommand_add hk l
  rw [Nat.add_comm, runCommand_add hl, runCommand_idle hidle', runCommand_idle hidle] at h
  cases h
  rfl

/-- A command goes on from where it has come to. -/
theorem State.EndsIn.after {k : Nat} (hrun : runCommand k s = .next y) (ht : y.EndsIn t) : s.EndsIn t := by
  obtain ⟨hidle, l, hl⟩ := ht
  exact ⟨hidle, k + l, by rw [runCommand_add hrun, hl]⟩

/-- The last step of a call, and that a longer call comes to where it is taken. -/
theorem State.EndsIn.last_step (h : s.Inv) (ha : s.activity = .decoding c) (ht : s.EndsIn t) :
    ∃ y c', y.Inv ∧ y.activity = .decoding c' ∧ c.Continues c' ∧ step y = .next t ∧
      ∀ x, ∃ k, runCommand k (s.joined x) = .next (y.joined x) := by
  obtain ⟨hidle, k, hrun⟩ := ht
  induction k generalizing s c with
  | zero =>
    cases hrun
    rw [ha] at hidle
    cases hidle
  | succ k ih =>
    have hbusy : s.activity ≠ .idle := by simp [ha]
    obtain ⟨y, hy, hrun⟩ := runCommand_succ hbusy hrun
    by_cases hyidle : y.activity = .idle
    · rw [runCommand_idle hyidle] at hrun
      cases hrun
      exact ⟨s, c, h, ha, .refl c, hy, fun x => ⟨0, rfl⟩⟩
    obtain (⟨_, e, c1, ha1, hc1, -⟩ | ⟨r, e⟩) | ⟨l, e⟩ := step_decoding h ha <;> rw [hy] at e <;> cases e
    · obtain ⟨z, c', hz, haz, hc', hlast, hjoin⟩ := ih (step_inv h y hy) ha1 hrun
      refine ⟨z, c', hz, haz, hc1.trans hc', hlast, fun x => ?_⟩
      obtain ⟨j, hj⟩ := hjoin x
      have hbusyx : (s.joined x).activity ≠ .idle := by simp [State.joined_activity ha]
      have hyx := step_joins (x := x) h ha y hy (.inl hyidle)
      exact ⟨j + 1, by rw [runCommand_step hbusyx hyx, hj]⟩
    · exact absurd rfl hyidle
    · exact absurd rfl hyidle

/-- Where nothing is presented beyond, the longer call ends like the shorter one. -/
theorem State.EndsIn.joined (h : s.Inv) (ha : s.activity = .decoding c) (ht : s.EndsIn t) (hx : x.Full) :
    (s.joined x).EndsIn (t.joined x) := by
  obtain ⟨y, c', hy, hay, -, hlast, hjoin⟩ := ht.last_step h ha
  obtain ⟨k, hk⟩ := hjoin x
  have hbusy : (y.joined x).activity ≠ .idle := by simp [State.joined_activity hay]
  have hend : (t.joined x).activity = .idle := by simp only [State.joined, Joining.activity, ht.1]
  refine .after hk ⟨hend, 1, ?_⟩
  rw [runCommand_step hbusy (step_joins hy hay t hlast (.inr hx)), runCommand]

/-! ## Two calls and one -/

theorem State.Inv.calling (h : s.Inv) (hm : s.ctl.mode ≠ .unconfigured) (hl : s.ctl.errorLatched = false)
    (input : List Byte) (space : Nat) : (s.calling input space).Inv :=
  { h with
    lzma1 := fun hm => { h.lzma1 hm with }
    lzma2 := fun hm => { h.lzma2 hm with }
    activity := ⟨hm, hl, rfl⟩ }

/-- The first call from `s` stands to one that presents `more` and `space` beyond. -/
def Joining.first (s : State) (more : List Byte) (space : Nat) : Joining :=
  { more := more, space := space, out := [], used := 0, made := 0
    ret := s.host.ret, status := s.ctl.status, cause := s.ctl.cause }

/-- The second call, after one from `s` that has used and made so much and delivered `out`, stands to the single call. -/
def Joining.second (s : State) (out : List Byte) (used made : Nat) : Joining :=
  { more := [], space := 0, out := out, used := used, made := made
    ret := s.host.ret, status := s.ctl.status, cause := s.ctl.cause }

theorem calling_joined_first (s : State) (a b : List Byte) (n m : Nat) :
    (s.calling a n).joined (.first s b m) = s.calling (a ++ b) (n + m) := rfl

/-- Where the first call ends for want of input or space, the single call is where the second one begins. -/
theorem joined_first_eq_joined_second {st : Status} (ha : y.activity = .decoding c) (hn : c.noted = none)
    (hl : y.ctl.errorLatched = false) (s : State) (b : List Byte) (m : Nat) :
    y.joined (.first s b m) = ((y.endCall c st none false).calling (c.input ++ b) (c.outSpace + m)).joined
      (.second s y.host.out c.consumed c.produced) := by
  rw [State.joined_decoding ha]
  simp only [State.joined, State.calling, State.endCall, State.returns, Joining.first, Joining.second, Joining.host,
    Joining.activity, Joining.ctl, Joining.call, hn, hl, Option.map_none, List.append_nil, List.nil_append, Nat.zero_add,
    Nat.add_zero, Bool.or_false]

/-- A call that ends for want of input or space leaves the state before its last step, with what it had done to count. -/
theorem step_flow_endCall {used made : Nat} {st : Status} (h : s.Inv) (ha : s.activity = .decoding c)
    (ht : step s = .next t) (hidle : t.activity = .idle)
    (hret : t.host.ret = some { status := st, cause := none, consumed := .bytes used, produced := made })
    (hst : st = .needMoreInput ∨ st = .needMoreOutput) :
    t = s.endCall c st none false ∧ c.consumed = used ∧ c.produced = made := by
  obtain (⟨_, e, c', ha', -⟩ | ⟨r, e⟩) | ⟨l, e⟩ := step_decoding h ha <;> rw [ht] at e <;> cases e
  · rw [ha'] at hidle
    cases hidle
  · cases r with
    | error cause => cases hret
    | needMoreInput | needMoreOutput =>
      cases hret
      exact ⟨rfl, rfl, rfl⟩
  · cases hret
    simp at hst

theorem State.joined_idle {ret : Return} {used : Nat} (ha : s.activity = .idle) (hret : s.host.ret = some ret)
    (hused : ret.consumed = .bytes used) :
    s.joined x = { s with
      host := { s.host with
        out := x.out ++ s.host.out
        ret := some { ret with consumed := .bytes (x.used + used), produced := x.made + ret.produced } } } := by
  simp only [State.joined, Joining.host, Joining.activity, Joining.ctl, Joining.returned, ha, hret, hused,
    Option.map_some]

/-- Settles O60: the single call runs like the first call up to its last step, is then where the second call begins, and
runs like the second call to its end. -/
theorem twoCallsGiveWhatOneCallGives : Obligations.TwoCallsGiveWhatOneCallGives := by
  unfold Obligations.TwoCallsGiveWhatOneCallGives
  intro s t u a b n m used made st hinv hidle hm hl ht hret hst hu
  obtain ⟨y, c, hy, ha, ⟨k, -, hin, hcons, hspace⟩, hlast, hjoin⟩ := ht.last_step (hinv.calling hm hl a n) rfl
  obtain ⟨hmode, hlatch, hnoted⟩ := hy.decoding ha
  obtain ⟨rfl, rfl, rfl⟩ := step_flow_endCall hy ha hlast ht.1 hret hst
  have hsecond : (y.endCall c st none false).calling (a.drop c.consumed ++ b) (n - c.produced + m) =
      (y.endCall c st none false).calling (c.input ++ b) (c.outSpace + m) := by
    dsimp only at hin hcons hspace
    rw [hin, hcons, Nat.zero_add, show n - c.produced = c.outSpace by omega]
  rw [hsecond] at hu
  have hinv2 : ((y.endCall c st none false).calling (c.input ++ b) (c.outSpace + m)).Inv :=
    (hy.endCall ha st (ca := none) (l := false) nofun).calling hmode (by simp [hlatch]) _ _
  obtain ⟨l, v, -, hrun, hvidle, hvret⟩ := everyCommandRunsToCompletion _ hinv2 (by simp [State.calling])
  obtain rfl := hu.unique ⟨hvidle, l, hrun⟩
  obtain ⟨ret, hret'⟩ := Option.isSome_iff_exists.mp hvret
  refine ⟨ret, hret', fun used2 hused2 => ?_⟩
  obtain ⟨j, hj⟩ := hjoin (.first s b m)
  rw [calling_joined_first, joined_first_eq_joined_second ha hnoted hlatch (st := st)] at hj
  have hone := State.EndsIn.after hj (hu.joined hinv2 rfl ⟨rfl, rfl⟩)
  rw [State.joined_idle hvidle hret' hused2] at hone
  exact hone

end Sys2Proof.Machine
end

section
/-! PROOF. The chunks of an LZMA2 stream (47_lzma2_chunk.md R351 to R377). What a header's fields, checks and commit
answer is said once; each of the eight headers, a byte of an uncompressed chunk and the end of an LZMA chunk are then
the whole next state, or the event with everything rolled back. -/

namespace Sys2Proof.Machine

variable {s : State} {c : Call}

/-! ## Header fields -/

theorem lzmaControl_toNat (mode : BitVec 2) (u : BitVec 21) :
    (lzmaControl mode u).toNat = 0x80 + 0x20 * mode.toNat + u.toNat / 2 ^ 16 := by
  have hmode := mode.isLt
  have hu := u.isLt
  rw [lzmaControl, BitVec.toNat_append, BitVec.toNat_append, BitVec.extractLsb'_toNat, Nat.shiftRight_eq_div_pow,
    ← Nat.shiftLeft_add_eq_or_of_lt (by omega), ← Nat.shiftLeft_add_eq_or_of_lt (by omega), Nat.shiftLeft_eq,
    Nat.shiftLeft_eq, BitVec.toNat_ofNat]
  omega

theorem lzmaControl_eq_ofNat (mode : BitVec 2) (u : BitVec 21) :
    lzmaControl mode u = BitVec.ofNat 8 (0x80 + 0x20 * mode.toNat + u.toNat / 2 ^ 16) := by
  rw [← lzmaControl_toNat, BitVec.ofNat_toNat, BitVec.setWidth_eq]

/-- A header's size field holds the size less one (R132, R133): its register takes the field's number plus one. -/
theorem setWidth_add_one {v : Nat} (x : BitVec v) (w : Nat) : x.setWidth w + 1 = BitVec.ofNat w (x.toNat + 1) := by
  rw [BitVec.ofNat_add, BitVec.ofNat_toNat]
  rfl

theorem Framer.startCopy_eq (f : Framer) (control : Byte) (n : BitVec 16) :
    f.startCopy control n = { f with
      control := control, copyRemaining := BitVec.ofNat 17 (n.toNat + 1), l2Phase := .copyData } := by
  rw [Framer.startCopy, setWidth_add_one]

theorem Framer.startLzma_eq (f : Framer) (mode : BitVec 2) (u : BitVec 21) (p : BitVec 16) :
    f.startLzma (lzmaControl mode u) u p = { f with
      control := BitVec.ofNat 8 (0x80 + 0x20 * mode.toNat + u.toNat / 2 ^ 16), needInitLevel := 0x00
      chunkUnpackRemaining := BitVec.ofNat 22 (u.toNat + 1)
      chunkPackRemaining := BitVec.ofNat 17 (p.toNat + 1), l2Phase := .lzmaInit } := by
  rw [Framer.startLzma, lzmaControl_eq_ofNat, setWidth_add_one, setWidth_add_one]

/-! ## The checks of a header -/

/-- The reset order holds at a control byte not below the level (R356). -/
theorem State.checkInitLevel_ok {mode : BitVec 2} {u : BitVec 21}
    (h : s.framer.needInitLevel.toNat ≤ 0x80 + 0x20 * mode.toNat + u.toNat / 2 ^ 16) :
    s.checkInitLevel (lzmaControl mode u) = .ok () :=
  if_neg (by rw [BitVec.lt_def, lzmaControl_toNat]; exact Nat.not_lt.mpr h)

theorem State.checkInitLevel_error {mode : BitVec 2} {u : BitVec 21}
    (h : 0x80 + 0x20 * mode.toNat + u.toNat / 2 ^ 16 < s.framer.needInitLevel.toNat) :
    s.checkInitLevel (lzmaControl mode u) = .error (.raise (.error .resetRequired)) :=
  if_pos (by rw [BitVec.lt_def, lzmaControl_toNat]; exact h)

theorem chunkProps_ok {v : Byte} {props : LcLpPb} (h : decodeProps v = some props) : chunkProps v = .ok props := by
  rw [chunkProps, h]

theorem chunkProps_error {v : Byte} (h : 224 < v.toNat) : chunkProps v = .error (.raise (.error .badProps)) := by
  rw [chunkProps, decodeProps_eq_none h]

/-! ## Headers -/

/-- A header that passes its checks writes its registers and commits (R353). -/
theorem deliver_commit_header (ha : s.activity = .decoding c) (cfg : ConfigRegs) (l : Lzma) (d : Dict) (f : Framer) :
    deliver s ({ s with cfg := cfg, lzma := l, dict := d, framer := f } : State).commit =
      .next { s.committed c with cfg := cfg, lzma := l, dict := d, framer := f } := by
  rw [State.commit_ok (c := c) (by exact ha), deliver_ok]
  rfl

/-- An LZMA chunk that passes its checks is due with its sizes, the range decoder restarted (R353, R364 to R368). -/
theorem deliver_commit_startLzma (ha : s.activity = .decoding c) (cfg : ConfigRegs) (l : Lzma) (d : Dict)
    (mode : BitVec 2) (u : BitVec 21) (p : BitVec 16) :
    deliver s
        ({ s with cfg := cfg, lzma := l.rcRestart, dict := d, framer := s.framer.startLzma (lzmaControl mode u) u p } :
          State).commit =
      .next { s.committed c with
        cfg := cfg
        dict := d
        lzma := { l with range := 0xFFFFFFFF, code := 0, l1Phase := .needInit }
        framer := { s.framer with
          control := BitVec.ofNat 8 (0x80 + 0x20 * mode.toNat + u.toNat / 2 ^ 16), needInitLevel := 0x00
          chunkUnpackRemaining := BitVec.ofNat 22 (u.toNat + 1)
          chunkPackRemaining := BitVec.ofNat 17 (p.toNat + 1), l2Phase := .lzmaInit } } := by
  rw [deliver_commit_header ha, Framer.startLzma_eq]
  rfl

/-- An error of a header rolls it back and ends the call, latched (60_exceptions.md R470, R471). -/
theorem deliver_invalidData (ha : s.activity = .decoding c) {cause : Cause} (hstatus : cause.status = .invalidData) :
    deliver s (.error (.raise (.error cause))) =
      .next ((s.rollback c).endCall c .invalidData (some cause) true) := by
  have hlatch : (Raise.error cause).latches = true := bne_iff_ne.mpr (by rintro rfl; cases hstatus)
  rw [deliver_raise, takeRaise_decoding ha, hlatch, ← hstatus]
  rfl

/-- Settles O31: the reset order holds, and the header commits with no change of properties or dictionary. -/
theorem lzmaChunksWithoutPropsBegin : Obligations.LzmaChunksWithoutPropsBegin := by
  unfold Obligations.LzmaChunksWithoutPropsBegin
  intro s c u p ha
  refine ⟨fun h => ?_, fun h => ?_⟩
  · rw [exec, execL2LzmaM0, State.checkInitLevel_ok (mode := 0) h]
    exact deliver_commit_startLzma ha s.cfg s.lzma s.dict 0 u p
  · rw [exec, execL2LzmaM1, State.checkInitLevel_ok (mode := 1) h]
    exact deliver_commit_startLzma ha s.cfg s.lzma.stateReset s.dict 1 u p

/-- Settles O32: both checks pass, and the header commits with its properties and the packet state reset. -/
theorem lzmaChunksWithPropsBegin : Obligations.LzmaChunksWithPropsBegin := by
  unfold Obligations.LzmaChunksWithPropsBegin
  intro s c u p v props ha hv
  refine ⟨fun h => ?_, fun h => ?_⟩
  · rw [exec, execL2LzmaM2, State.checkInitLevel_ok (mode := 2) h, chunkProps_ok hv]
    exact deliver_commit_startLzma ha { s.cfg with props := props } s.lzma.stateReset s.dict 2 u p
  · rw [exec, execL2LzmaM3, State.checkInitLevel_ok (mode := 3) h, chunkProps_ok hv]
    exact deliver_commit_startLzma ha { s.cfg with props := props } s.lzma.stateReset s.dict.clear 3 u p

/-- Settles O33: the reset order is the first check of all four modes, the properties the second of modes 2 and 3. -/
theorem lzmaChunksCheckResetThenProps : Obligations.LzmaChunksCheckResetThenProps := by
  unfold Obligations.LzmaChunksCheckResetThenProps
  intro s c u p v mode i ha hi
  have hreset := deliver_invalidData ha (cause := .resetRequired) rfl
  have hprops := deliver_invalidData ha (cause := .badProps) rfl
  refine ⟨fun hlt => ?_, fun hle hmode hv => ?_⟩
  · have hcheck := State.checkInitLevel_error hlt
    obtain ⟨rfl, rfl⟩ | ⟨rfl, rfl⟩ | ⟨rfl, rfl⟩ | ⟨rfl, rfl⟩ := hi
    · rwa [exec, execL2LzmaM0, hcheck]
    · rwa [exec, execL2LzmaM1, hcheck]
    · rwa [exec, execL2LzmaM2, hcheck]
    · rwa [exec, execL2LzmaM3, hcheck]
  · have hcheck := State.checkInitLevel_ok hle
    obtain ⟨rfl, -⟩ | ⟨rfl, -⟩ | ⟨rfl, rfl⟩ | ⟨rfl, rfl⟩ := hi
    · exact absurd hmode (by decide)
    · exact absurd hmode (by decide)
    · rwa [exec, execL2LzmaM2, hcheck, ok_bind, chunkProps_error hv]
    · rwa [exec, execL2LzmaM3, hcheck, ok_bind, chunkProps_error hv]

/-- Settles O28: the end chunk commits its byte, and the phase it leaves answers every step with `Finished`. -/
theorem endChunkFinishesTheStream : Obligations.EndChunkFinishesTheStream := by
  unfold Obligations.EndChunkFinishesTheStream
  refine ⟨fun s c ha => ?_, fun s c ha hm hphase => ?_⟩
  · exact deliver_commit_header ha s.cfg s.lzma s.dict _
  · rw [step_lzma2 ha hm, stepLzma2, hphase]
    rfl

/-- Settles O29: a header that resets the dictionary has no check, one that keeps it is refused before any reset. -/
theorem copyHeadersOpenTheirPayload : Obligations.CopyHeadersOpenTheirPayload := by
  unfold Obligations.CopyHeadersOpenTheirPayload
  intro s c n ha
  refine ⟨?_, fun h => ?_, fun h => ?_⟩
  · rw [exec, execL2CopyReset, deliver_commit_header ha, Framer.startCopy_eq]
    rfl
  · rw [exec, execL2Copy, if_neg h, deliver_commit_header ha, Framer.startCopy_eq]
    rfl
  · rw [exec, execL2Copy, if_pos h, deliver_invalidData ha rfl]

/-! ## The step at a control byte -/

/-- Settles O30: the control byte alone is a whole header, and its transaction is rolled back. -/
theorem reservedControlIsRefused : Obligations.ReservedControlIsRefused := by
  unfold Obligations.ReservedControlIsRefused
  refine ⟨fun s c v ha => ?_, fun s c v rest ha hn hm hphase hin hlo hhi => ?_⟩
  · exact takeRaise_decoding ha _
  · have hd : decodeHeader c.input = some (.l2Reserved v, rest) := by rw [hin, decodeHeader_reserved ⟨hlo, hhi⟩]
    rw [stepRunsTheDecodedUnit.1 s c _ rest ha hm hphase hd]
    exact takeRaise_take ha hn rest _

/-- Settles O34: a header that is not whole raises the event before anything is taken. -/
theorem incompleteHeaderWaits : Obligations.IncompleteHeaderWaits := by
  unfold Obligations.IncompleteHeaderWaits
  intro s c ha hn hm hphase hd
  simp only [step_lzma2 ha hm, stepLzma2, hphase, headerStep, hd]
  exact takeRaise_endCall ha hn _

/-! ## A byte of an uncompressed chunk -/

theorem step_copyData (ha : s.activity = .decoding c) (hm : s.ctl.mode = .lzma2)
    (hphase : s.framer.l2Phase = .copyData) : step s = copyChunkStep s c := by
  simp only [step_lzma2 ha hm, stepLzma2, hphase]

/-- The transaction of one byte has taken that byte. -/
theorem Call.taken_one (s : State) {b : Byte} {rest : List Byte} (hin : c.input = b :: rest) :
    ({ c with input := rest, noted := some (s.notedNow c) } : Call).taken = 1 := by
  simp [Call.taken, State.notedNow, hin]

theorem copyChunkStep_noSpace (hspace : c.outSpace = 0) : copyChunkStep s c = takeRaise s .needMoreOutput := by
  rw [copyChunkStep, Call.needSpace_error hspace, error_bind, deliver_raise]

theorem copyChunkStep_noInput (hspace : c.outSpace ≠ 0) (hin : c.input = []) :
    copyChunkStep s c = takeRaise s .needMoreInput := by
  rw [copyChunkStep, Call.needSpace_ok hspace, ok_bind, hin, deliver_raise]

/-- One byte of an uncompressed chunk, by the whole next state (R369). -/
theorem copyChunkStep_ok {b : Byte} {rest : List Byte} (hn : c.noted = none) (hspace : c.outSpace ≠ 0)
    (hin : c.input = b :: rest) :
    copyChunkStep s c = .next { s with
      dict := s.dict.after b
      framer := { s.framer with
        copyRemaining := s.framer.copyRemaining - 1
        l2Phase := if s.framer.copyRemaining - 1 = 0 then .control else s.framer.l2Phase }
      activity := .decoding { c with
        input := rest, consumed := c.consumed + 1, outSpace := c.outSpace - 1, produced := c.produced + 1 }
      host := { s.host with out := s.host.out ++ [b] }
      ctl := { s.ctl with inTotal := s.ctl.inTotal + 1, outTotal := s.ctl.outTotal + 1 } } := by
  rw [copyChunkStep, Call.needSpace_ok hspace, ok_bind, hin]
  dsimp only
  rw [State.commit_ok (State.take_activity s c rest), ok_bind, State.dictPut_ok rfl, ok_bind, deliver_ok,
    Call.taken_one s hin, Call.afterEmit, Call.committed, Call.taken_one s hin, hn]
  rfl

/-- Settles O35: the output space first, then the input, then the whole next state of one byte. -/
theorem copyChunkDeliversOneByte : Obligations.CopyChunkDeliversOneByte := by
  unfold Obligations.CopyChunkDeliversOneByte
  intro s c ha hn hm hphase
  rw [step_copyData ha hm hphase]
  refine ⟨fun b rest hspace hin => ?_, fun hspace => ?_, fun hspace hin => ?_⟩
  · simp only [copyChunkStep_ok hn hspace hin, sub_eq_zero, hphase]
  · rw [copyChunkStep_noSpace hspace]
    exact takeRaise_endCall ha hn _
  · rw [copyChunkStep_noInput hspace hin]
    exact takeRaise_endCall ha hn _

/-! ## The end of an LZMA chunk -/

/-- Settles O36: nothing remaining and no copy pending is the end of the chunk, which looks at the pack size. -/
theorem lzmaChunkEndsWithItsPackSizeUsedUp : Obligations.LzmaChunkEndsWithItsPackSizeUsedUp := by
  unfold Obligations.LzmaChunkEndsWithItsPackSizeUsedUp
  intro s c ha hn hm hphase hpackets hpend hunpack
  have hr : s.readRemaining = .ok 0 := by rw [State.readRemaining_lzma2 hm, hunpack]; rfl
  rw [step_lzma2 ha hm, stepLzma2_done (.inr hphase) (lzma1Step_done hpackets hpend hr), endLzmaChunk]
  refine ⟨fun hpack => if_neg (not_not.mpr hpack), fun hpack => ?_⟩
  rw [if_pos hpack]
  exact takeRaise_endCall ha hn _

end Sys2Proof.Machine
end

section
/-! PROOF. The BCJ2 runs (48_bcj2.md R401 to R411). A branch token is its opcode byte, a control bit and a target; what
each of them answers is said once, and so the whole next state of every token. A run keeps its operands, its positions
within their streams and its output undelivered until it ends, whole or truncated. -/

namespace Sys2Proof.Machine

variable {s t : State} {j : Bcj2Job} {r : Bcj2Regs} {op : Byte} {cell : Nat} {ts : TargetStream}

/-! ## The plain token and the opcode byte -/

/-- Settles O37: the token is the copy of one byte of `main`. -/
theorem plainTokenCopiesItsByte : Obligations.PlainTokenCopiesItsByte := by
  unfold Obligations.PlainTokenCopiesItsByte
  intro s j prev b ha
  rw [exec, execBcj2Plain, State.job_ok ha, ok_bind, deliver_ok]
  rfl

/-- Every branch token is the one operation, at its operands (30_encoding.md R136). -/
theorem exec_branch {i : Instr} (hi : i.branchOperands = some (op, cell, ts)) (s : State) :
    exec i s = deliver s (branchToken op cell ts s) := by
  cases i with
  | bcj2Call prev | bcj2Jmp prev => cases hi; rfl
  | bcj2Jcc cc =>
    cases hi
    have hopcode : ∀ cc : BitVec 4, 8#4 ++ cc = BitVec.ofNat 8 (0x80 + cc.toNat) := by decide
    rw [exec, execBcj2Jcc, hopcode]
  | _ => cases hi

theorem branchToken_last (ha : s.activity = .merging j) (hlast : s.bcj.outPos + 1 = j.outSize) :
    branchToken op cell ts s = .ok (s.merging (copyMain j s.bcj op)) := by
  rw [branchToken, State.job_ok ha, ok_bind]
  exact if_pos hlast

/-- Settles O38: the copied opcode completes the output. -/
theorem lastOpcodeDecodesNoBit : Obligations.LastOpcodeDecodesNoBit := by
  unfold Obligations.LastOpcodeDecodesNoBit
  intro s j i op cell ts ha hi hlast
  rw [exec_branch hi, branchToken_last ha hlast, deliver_ok]
  rfl

/-! ## The control bit -/

/-- The unit once the control bit of a cell has been decoded. -/
def Bcj2Regs.afterBit (r : Bcj2Regs) (j : Bcj2Job) (cell : Nat) (p : Prob) (rc : Rc) : Bcj2Regs :=
  { r.withRc (r.rc j) rc with probs := r.probs.write cell p }

theorem Bcj2Regs.controlBit_ok {bit : Bool} {p : Prob} {rc : Rc}
    (hd : decodeBit (r.probs.read cell) (r.rc j) = .ok (bit, p, rc)) :
    r.controlBit j cell = .ok (bit, r.afterBit j cell p rc) := by
  rw [Bcj2Regs.controlBit, hd]
  rfl

theorem Bcj2Regs.controlBit_error {e : Stop} (hd : decodeBit (r.probs.read cell) (r.rc j) = .error e) :
    r.controlBit j cell = .error e := by
  rw [Bcj2Regs.controlBit, hd]
  rfl

/-- A branch token whose opcode does not end the output: the copied opcode, the bit, and on bit 1 the target. -/
theorem branchToken_more (ha : s.activity = .merging j) (hmore : s.bcj.outPos + 1 ≠ j.outSize) :
    branchToken op cell ts s = (copyMain j s.bcj op).2.controlBit j cell >>= fun x =>
      if x.1 then x.2.takeTarget j ts >>= fun y => .ok (s.merging (emitDest (copyMain j s.bcj op).1 y.2 y.1))
      else .ok (s.merging ({ (copyMain j s.bcj op).1 with prev := op }, x.2)) := by
  rw [branchToken, State.job_ok ha, ok_bind]
  exact if_neg hmore

/-- Settles O39: after a bit 0 nothing follows the copied opcode. -/
theorem branchBitZeroCopiesTheOpcode : Obligations.BranchBitZeroCopiesTheOpcode := by
  unfold Obligations.BranchBitZeroCopiesTheOpcode
  intro s j i op cell ts p' rc' ha hi hmore hd
  rw [exec_branch hi, branchToken_more ha hmore, Bcj2Regs.controlBit_ok (r := (copyMain j s.bcj op).2) hd]
  rfl

/-! ## The target -/

/-- The bytes of a target stream. -/
def TargetStream.bytes (ts : TargetStream) (j : Bcj2Job) : List Byte :=
  match ts with
  | .call => j.call
  | .jump => j.jump

/-- The unit's position in a target stream. -/
def TargetStream.pos (ts : TargetStream) (r : Bcj2Regs) : Word :=
  match ts with
  | .call => r.callPos
  | .jump => r.jumpPos

/-- The unit once a target has been taken: the position of its stream has moved, the other stays. -/
def Bcj2Regs.afterTarget (r : Bcj2Regs) (ts : TargetStream) : Bcj2Regs :=
  { r with
    callPos := if ts = .call then r.callPos + 4 else r.callPos
    jumpPos := if ts = .jump then r.jumpPos + 4 else r.jumpPos }

theorem Bcj2Regs.takeTarget_eq (r : Bcj2Regs) (j : Bcj2Job) (ts : TargetStream) :
    r.takeTarget j ts = readTarget (ts.bytes j) (ts.pos r) >>= fun src => .ok (src, r.afterTarget ts) := by
  cases ts <;> rfl

theorem readTarget_ok {stream tail : List Byte} {pos : Word} {b0 b1 b2 b3 : Byte}
    (h : stream.drop pos.toNat = b0 :: b1 :: b2 :: b3 :: tail) : readTarget stream pos = .ok (be32 b0 b1 b2 b3) := by
  rw [readTarget, h]

/-- Neither the copied opcode nor the control bit moves a target stream. -/
theorem TargetStream.pos_afterBit (ts : TargetStream) (p : Prob) (rc : Rc) :
    ts.pos ((copyMain j r op).2.afterBit j cell p rc) = ts.pos r := by
  cases ts <;> rfl

/-- A branch token with bit 1 is decided by its target: converted, or not there. -/
theorem branchToken_bitOne {p : Prob} {rc : Rc} (ha : s.activity = .merging j) (hmore : s.bcj.outPos + 1 ≠ j.outSize)
    (hd : decodeBit (s.bcj.probs.read cell) (s.bcj.rc j) = .ok (true, p, rc)) :
    branchToken op cell ts s = readTarget (ts.bytes j) (ts.pos s.bcj) >>= fun src =>
      .ok (s.merging (emitDest (copyMain j s.bcj op).1
        (((copyMain j s.bcj op).2.afterBit j cell p rc).afterTarget ts) src)) := by
  rw [branchToken_more ha hmore, Bcj2Regs.controlBit_ok (r := (copyMain j s.bcj op).2) hd, ok_bind, if_pos rfl,
    Bcj2Regs.takeTarget_eq, TargetStream.pos_afterBit]
  cases readTarget (ts.bytes j) (ts.pos s.bcj) <;> rfl

/-! ## The displacement -/

theorem be32_toNat (b0 b1 b2 b3 : Byte) :
    (be32 b0 b1 b2 b3).toNat = b0.toNat * 2 ^ 24 + b1.toNat * 2 ^ 16 + b2.toNat * 2 ^ 8 + b3.toNat := by
  have h1 := b1.isLt
  have h2 := b2.isLt
  have h3 := b3.isLt
  rw [be32, BitVec.toNat_append, BitVec.toNat_append, BitVec.toNat_append,
    ← Nat.shiftLeft_add_eq_or_of_lt h1, ← Nat.shiftLeft_add_eq_or_of_lt h2, ← Nat.shiftLeft_add_eq_or_of_lt h3,
    Nat.shiftLeft_eq, Nat.shiftLeft_eq, Nat.shiftLeft_eq]
  omega

/-- `dest` is the number whose sum with `OutPos + 4` is the target (R406). -/
theorem branchDest_eq {src outPos : Word} {dest : Nat} (h : (dest + (outPos.toNat + 4)) % 2 ^ 32 = src.toNat) :
    branchDest src outPos = BitVec.ofNat 32 dest := by
  have hsum : src = BitVec.ofNat 32 dest + (outPos + 4) := by
    apply BitVec.eq_of_toNat_eq
    rw [← h]
    simp
  rw [branchDest, hsum, BitVec.add_sub_cancel]

theorem extractLsb'_byte {n : Nat} (hn : n < 2 ^ 32) (k : Nat) :
    (BitVec.ofNat 32 n).extractLsb' k 8 = BitVec.ofNat 8 (n / 2 ^ k) := by
  apply BitVec.eq_of_toNat_eq
  rw [BitVec.extractLsb'_toNat, BitVec.toNat_ofNat, BitVec.toNat_ofNat, Nat.mod_eq_of_lt hn, Nat.shiftRight_eq_div_pow]

theorem leBytes_ofNat {n : Nat} (hn : n < 2 ^ 32) :
    leBytes (BitVec.ofNat 32 n) =
      [BitVec.ofNat 8 n, BitVec.ofNat 8 (n / 2 ^ 8), BitVec.ofNat 8 (n / 2 ^ 16), BitVec.ofNat 8 (n / 2 ^ 24)] := by
  rw [leBytes, extractLsb'_byte hn, extractLsb'_byte hn, extractLsb'_byte hn, extractLsb'_byte hn, pow_zero, Nat.div_one]

/-- The bytes emitted for a target, in unbounded arithmetic (R406, R407). -/
theorem destBytes_eq {src outPos outSize : Word} {dest : Nat} (hdest : dest < 2 ^ 32)
    (h : (dest + (outPos.toNat + 4)) % 2 ^ 32 = src.toNat) :
    destBytes (branchDest src outPos) outPos outSize =
      [BitVec.ofNat 8 dest, BitVec.ofNat 8 (dest / 2 ^ 8), BitVec.ofNat 8 (dest / 2 ^ 16),
        BitVec.ofNat 8 (dest / 2 ^ 24)].take (outSize.toNat - outPos.toNat) := by
  rw [destBytes, branchDest_eq h, leBytes_ofNat hdest]

/-- Settles O40: the target taken, the displacement is what stands between it and the position after the
displacement. -/
theorem branchBitOneConvertsTheTarget : Obligations.BranchBitOneConvertsTheTarget := by
  unfold Obligations.BranchBitOneConvertsTheTarget
  intro s j i op cell ts p' rc' b0 b1 b2 b3 tail disp src dest ha hi hroom hd htarget hsrc hdest hsum hdisp
  have hsize := j.outSize.isLt
  have hpos : (s.bcj.outPos + 1).toNat = s.bcj.outPos.toNat + 1 := by bv_omega
  have hmore : s.bcj.outPos + 1 ≠ j.outSize := by bv_omega
  have hread : readTarget (ts.bytes j) (ts.pos s.bcj) = .ok (be32 b0 b1 b2 b3) :=
    readTarget_ok (by cases ts <;> exact htarget)
  have hbytes : destBytes (branchDest (be32 b0 b1 b2 b3) (s.bcj.outPos + 1)) (s.bcj.outPos + 1) j.outSize = disp := by
    rw [destBytes_eq hdest (by rw [be32_toNat, hpos, ← hsrc, hsum]), hpos, hdisp]
  have hlen : disp.length ≤ j.outSize.toNat - (s.bcj.outPos.toNat + 1) := hdisp ▸ List.length_take_le _ _
  have hout : (s.bcj.outPos + 1 + BitVec.ofNat 32 disp.length).toNat = s.bcj.outPos.toNat + 1 + disp.length := by bv_omega
  have hne : disp ≠ [] := by
    rw [hdisp, ne_eq, List.take_eq_nil_iff, not_or]
    exact ⟨by omega, nofun⟩
  have hprev : disp.getLast? = some (disp.getLastD j.prev) := by
    rw [List.getLastD_eq_getLast?, List.getLast?_eq_some_getLast hne]
    rfl
  have hexec := exec_branch hi s
  rw [branchToken_bitOne ha hmore hd, hread] at hexec
  subst hbytes
  exact ⟨_, _, hexec, (List.append_cons _ _ _).symm, hprev, rfl, hout, rfl, rfl, rfl, rfl, rfl, rfl, rfl, rfl⟩

/-! ## A stream used up -/

/-- The operation answers a value with the property `P`, or finds a stream used up (R409). -/
def OrTruncated {α : Type} (P : α → Prop) : Except Stop α → Prop
  | .ok a => P a
  | .error e => e = .raise (.error .bcj2Truncated)

theorem OrTruncated.bind {α β : Type} {P : α → Prop} {Q : β → Prop} {x : Except Stop α} {f : α → Except Stop β}
    (hx : OrTruncated P x) (hf : ∀ a, P a → OrTruncated Q (f a)) : OrTruncated Q (x >>= f) := by
  cases x with
  | error e => exact hx
  | ok a => exact hf a hx

theorem readTarget_orTruncated (stream : List Byte) (pos : Word) :
    OrTruncated (fun _ => pos.toNat + 4 ≤ stream.length) (readTarget stream pos) := by
  unfold readTarget
  split
  next hdrop =>
    have hlen := congrArg List.length hdrop
    simp only [List.length_drop, List.length_cons] at hlen
    exact (by omega : pos.toNat + 4 ≤ stream.length)
  next => rfl

theorem readTarget_short {stream : List Byte} {pos : Word} (h : stream.length < pos.toNat + 4) :
    readTarget stream pos = .error (.raise (.error .bcj2Truncated)) := by
  have hread := readTarget_orTruncated stream pos
  cases he : readTarget stream pos <;> rw [he] at hread
  case ok => exact absurd hread (Nat.not_le.mpr h)
  case error => exact congrArg _ hread

/-- Settles O41: in each case the step raises the event, and the run restores the unit it was begun with. -/
theorem truncatedRunDeliversNothing : Obligations.TruncatedRunDeliversNothing := by
  unfold Obligations.TruncatedRunDeliversNothing
  intro s j failed ha hfailed
  have hraise : takeRaise s (.error .bcj2Truncated) = .next failed := hfailed ▸ takeRaise_merging ha _
  refine ⟨fun hne hmain => ?_, fun i op cell ts hi hmore => ⟨fun hd => ?_, fun p' rc' hd hshort => ?_⟩⟩
  · rw [step_merging ha, stepMerge, if_neg hne, List.getElem?_eq_none hmain]
    exact hraise
  · rw [exec_branch hi, branchToken_more ha hmore, Bcj2Regs.controlBit_error (r := (copyMain j s.bcj op).2) hd]
    exact hraise
  · have hread : readTarget (ts.bytes j) (ts.pos s.bcj) = .error (.raise (.error .bcj2Truncated)) :=
      readTarget_short (by cases ts <;> exact hshort)
    rw [exec_branch hi, branchToken_bitOne ha hmore hd, hread]
    exact hraise

/-! ## The start and the end of a run -/

/-- The run a `Bcj2Run` command begins in `s`. -/
def State.newJob (s : State) (main call jump rc : List Byte) (outSize : Word) : Bcj2Job :=
  { main := main, call := call, jump := jump, rc := rc, outSize := outSize, prev := 0, out := [], saved := s.bcj }

variable {main call jump rc : List Byte} {outSize : Word}

theorem State.accept_idle (ha : s.activity = .idle) (cmd : HostCmd) (run : State → Host.Outcome State Fault Refusal) :
    s.accept cmd run = run { s with host := { s.host with out := [] } } := by
  rw [State.accept, ha]

theorem exec_bcj2Run_begins (ha : s.activity = .idle)
    (hr : Bcj2Regs.start s.params.checkRcByte0 rc outSize = .ok r) :
    exec (.bcj2Run main call jump rc outSize) s =
      .next (({ s with host := { s.host with out := [] } } : State).merging
        (s.newJob main call jump rc outSize, r)) := by
  rw [exec, execBcj2Run, State.accept_idle ha]
  dsimp only
  rw [hr]
  rfl

theorem exec_bcj2Run_fails {cause : Cause} (ha : s.activity = .idle) (hstatus : cause.status = .invalidData)
    (hr : Bcj2Regs.start s.params.checkRcByte0 rc outSize = .error (.raise (.error cause))) :
    exec (.bcj2Run main call jump rc outSize) s = .next { s with
      host := { cmds := s.host.cmds, out := []
                ret := some { status := .invalidData, cause := some cause,
                              consumed := .streams 0 0 0 0, produced := 0 } } } := by
  rw [exec, execBcj2Run, State.accept_idle ha]
  dsimp only
  rw [hr, Except.map, deliver_raise, takeRaise_merging rfl, Raise.status, hstatus, State.returns, ← ha]
  rfl

theorem Bcj2Regs.start_ok {check : Bool} {b0 : Byte} (hcheck : check = true → b0 = 0) (b1 b2 b3 b4 : Byte)
    (rest : List Byte) :
    Bcj2Regs.start check (b0 :: b1 :: b2 :: b3 :: b4 :: rest) outSize =
      .ok { Bcj2Regs.initial with code := be32 b1 b2 b3 b4, rcPos := 5, outSize := outSize } := by
  rw [Bcj2Regs.start, rcInit_ok rfl hcheck]
  rfl

theorem Bcj2Regs.start_truncated (check : Bool) (hlen : rc.length < 5) :
    Bcj2Regs.start check rc outSize = .error (.raise (.error .bcj2Truncated)) := by
  rw [Bcj2Regs.start, rcInit_starved rfl hlen]
  rfl

theorem Bcj2Regs.start_badRcInit {b0 : Byte} {rest : List Byte} (hb0 : b0 ≠ 0) (hlen : 4 ≤ rest.length) :
    Bcj2Regs.start true (b0 :: rest) outSize = .error (.raise (.error .badRcInit)) := by
  rw [Bcj2Regs.start, rcInit_badByte0 rfl hb0 hlen]
  rfl

/-- Settles O42: the unit is initialised or the event restores it, and a whole output is delivered by the next step. -/
theorem bcj2RunBeginsAndEnds : Obligations.Bcj2RunBeginsAndEnds := by
  unfold Obligations.Bcj2RunBeginsAndEnds
  refine ⟨?_, ?_, ?_, ?_⟩
  · rintro s main call jump rc outSize b0 b1 b2 b3 b4 rest ha rfl hcheck
    exact exec_bcj2Run_begins ha (Bcj2Regs.start_ok hcheck b1 b2 b3 b4 rest)
  · intro s main call jump rc outSize ha hlen
    exact exec_bcj2Run_fails ha rfl (Bcj2Regs.start_truncated _ hlen)
  · rintro s main call jump rc outSize b0 rest ha rfl hlen hb0 hcheck
    exact exec_bcj2Run_fails ha rfl (hcheck ▸ Bcj2Regs.start_badRcInit hb0 hlen)
  · intro s j ha hwhole
    rw [step_merging ha, stepMerge, if_pos hwhole]
    rfl

/-! ## Positions within the streams -/

/-- Each position of the unit lies within its stream. -/
structure Bcj2Job.Within (j : Bcj2Job) (r : Bcj2Regs) : Prop where
  main : r.mainPos.toNat ≤ j.main.length
  call : r.callPos.toNat ≤ j.call.length
  jump : r.jumpPos.toNat ≤ j.jump.length
  rc : r.rcPos.toNat ≤ j.rc.length

/-- A position moved on lies no further than the sum, even where it wraps (log entry 26). -/
theorem toNat_add_le (pos k : Word) : (pos + k).toNat ≤ pos.toNat + k.toNat := by
  rw [BitVec.toNat_add]
  exact Nat.mod_le _ _

theorem Bcj2Job.Within.copyMain (h : j.Within r) (hmain : r.mainPos.toNat < j.main.length) (b : Byte) :
    j.Within (Machine.copyMain j r b).2 :=
  { h with main := (toNat_add_le _ 1).trans hmain }

theorem Bcj2Job.Within.controlBit (h : j.Within r) (hr : r.Kept) (cell : Nat) :
    OrTruncated (fun x => j.Within x.2) (r.controlBit j cell) := by
  obtain ⟨_, _, rc, _, hd, -⟩ | ⟨_, hd, he⟩ :=
    decodeBit_cases (Probs.kept_read hr.probs cell) (rc := r.rc j) hr.range
  · rw [Bcj2Regs.controlBit_ok hd]
    have hrc := h.rc
    have hmod := Nat.mod_le ((r.rc j).bytes.length - rc.bytes.length) (2 ^ 32)
    refine { h with rc := (toNat_add_le _ _).trans ?_ }
    rw [BitVec.toNat_ofNat]
    have hlen : (r.rc j).bytes.length = j.rc.length - r.rcPos.toNat := List.length_drop
    omega
  · rw [Bcj2Regs.controlBit_error hd]
    exact congrArg _ he

theorem Bcj2Job.Within.takeTarget (h : j.Within r) (ts : TargetStream) :
    OrTruncated (fun x => j.Within x.2) (r.takeTarget j ts) := by
  rw [Bcj2Regs.takeTarget_eq]
  refine (readTarget_orTruncated _ _).bind fun src hpos => ?_
  cases ts with
  | call => exact { h with call := (toNat_add_le _ 4).trans hpos }
  | jump => exact { h with jump := (toNat_add_le _ 4).trans hpos }

/-! ## A whole run -/

/-- The run `j` is in progress in `t`: no more than its output and `prev` have changed, and nothing is delivered. -/
structure Bcj2Job.InProgress (j : Bcj2Job) (t : State) : Prop where
  job : ∃ out prev, t.activity = .merging { j with out := out, prev := prev }
  within : j.Within t.bcj
  undelivered : t.host.out = []

/-- The run `j` has ended in `t` with its whole output delivered. -/
def Bcj2Job.Delivered (j : Bcj2Job) (t : State) : Prop :=
  ∃ m k l r, t.host.ret = some { status := .ok, cause := none, consumed := .streams m k l r,
                                 produced := j.outSize.toNat } ∧
    t.host.out.length = j.outSize.toNat ∧
    m ≤ j.main.length ∧ k ≤ j.call.length ∧ l ≤ j.jump.length ∧ r ≤ j.rc.length

/-- The run `j` has ended in `t` with nothing delivered and the unit as it was before. -/
def Bcj2Job.Failed (j : Bcj2Job) (cause : Cause) (t : State) : Prop :=
  t.host.ret = some { status := .invalidData, cause := some cause, consumed := .streams 0 0 0 0, produced := 0 } ∧
    t.host.out = [] ∧ t.bcj = j.saved

theorem Bcj2Job.InProgress.busy (h : j.InProgress s) : s.activity ≠ .idle := by
  obtain ⟨out, prev, ha⟩ := h.job
  rw [ha]
  nofun

/-- The run `j` has ended in `t`, with all its output or with none. -/
def Bcj2Job.Ended (j : Bcj2Job) (t : State) : Prop :=
  t.activity = .idle ∧ (j.Delivered t ∨ j.Failed .bcj2Truncated t)

theorem takeRaise_truncated (ha : s.activity = .merging j) (hout : s.host.out = []) :
    EndsWith j.Ended (takeRaise s (.error .bcj2Truncated)) := by
  rw [takeRaise_merging ha]
  exact .next ⟨rfl, .inr ⟨rfl, hout, rfl⟩⟩

/-- A pair is a branch token or the plain one (R403). -/
theorem decodePair_cases (prev b : Byte) :
    (∃ op cell ts, (decodePair prev b).branchOperands = some (op, cell, ts)) ∨ decodePair prev b = .bcj2Plain prev b := by
  unfold decodePair
  split
  · exact .inl ⟨_, _, _, rfl⟩
  · split
    · exact .inl ⟨_, _, _, rfl⟩
    · split
      · exact .inl ⟨_, _, _, rfl⟩
      · exact .inr rfl

section Token
variable (hinv : s.Inv) (ha : s.activity = .merging j) (hwithin : j.Within s.bcj) (hout : s.host.out = [])
  (hmain : s.bcj.mainPos.toNat < j.main.length)
include hinv ha hwithin hout hmain

theorem branchToken_goesOn (op : Byte) (cell : Nat) (ts : TargetStream) :
    OrTruncated j.InProgress (branchToken op cell ts s) := by
  have hcopied := hwithin.copyMain hmain op
  by_cases hlast : s.bcj.outPos + 1 = j.outSize
  · rw [branchToken_last ha hlast]
    exact ⟨⟨_, _, rfl⟩, hcopied, hout⟩
  · rw [branchToken_more ha hlast]
    refine (hcopied.controlBit { hinv.bcj with } cell).bind fun ⟨bit, r⟩ hbit => ?_
    cases bit with
    | false => exact ⟨⟨_, _, rfl⟩, hbit, hout⟩
    | true => exact (hbit.takeTarget ts).bind fun ⟨src, r⟩ htarget => ⟨⟨_, _, rfl⟩, { htarget with }, hout⟩

theorem exec_token_goesOnOrEnds (b : Byte) :
    EndsWith (fun t => j.InProgress t ∨ j.Ended t) (exec (decodePair j.prev b) s) := by
  obtain ⟨op, cell, ts, hi⟩ | hi := decodePair_cases j.prev b
  · rw [exec_branch hi]
    have htoken := branchToken_goesOn hinv ha hwithin hout hmain op cell ts
    cases he : branchToken op cell ts s with
    | ok t => rw [he] at htoken; exact .next (.inl htoken)
    | error e =>
      rw [he] at htoken
      cases htoken
      exact fun t ht => .inr (takeRaise_truncated ha hout t ht)
  · rw [hi, plainTokenCopiesItsByte s j j.prev b ha]
    exact .next (.inl ⟨⟨_, _, rfl⟩, hwithin.copyMain hmain b, hout⟩)

end Token

theorem stepMerge_goesOnOrEnds (hinv : s.Inv) (ha : s.activity = .merging j) (hwithin : j.Within s.bcj)
    (hout : s.host.out = []) : EndsWith (fun t => j.InProgress t ∨ j.Ended t) (stepMerge s j) := by
  unfold stepMerge
  split
  next hwhole =>
    have hlen := (hinv.merging ha).out
    rw [hwhole] at hlen
    exact .next (.inr ⟨rfl, .inl ⟨_, _, _, _, rfl, hlen, hwithin.main, hwithin.call, hwithin.jump, hwithin.rc⟩⟩)
  next =>
    split
    next => exact fun t ht => .inr (takeRaise_truncated ha hout t ht)
    next b hb =>
      obtain ⟨hmain, -⟩ := List.getElem?_eq_some_iff.mp hb
      exact exec_token_goesOnOrEnds hinv ha hwithin hout hmain b

/-- A run in progress ends with all its output or with none, by induction over its steps. -/
theorem Bcj2Job.InProgress.ended (hinv : s.Inv) (h : j.InProgress s) (ht : s.EndsIn t) : j.Ended t := by
  obtain ⟨hidle, k, hrun⟩ := ht
  induction k generalizing s with
  | zero =>
    cases hrun
    exact absurd hidle h.busy
  | succ k ih =>
    obtain ⟨y, hy, hrun⟩ := runCommand_succ h.busy hrun
    have hkept := step_inv hinv y hy
    obtain ⟨out, prev, ha⟩ := h.job
    rw [step_merging ha] at hy
    obtain hgo | hend := stepMerge_goesOnOrEnds hinv ha { h.within with } h.undelivered y hy
    · exact ih hkept ⟨hgo.job, { hgo.within with }, hgo.undelivered⟩ hrun
    · rw [runCommand_idle hend.1] at hrun
      cases hrun
      exact hend

/-! ## The whole command -/

/-- What the command does in an idle block: the run is in progress with five bytes of `rc` taken, or has failed at once
and left the unit as it was. -/
theorem exec_bcj2Run_cases (ha : s.activity = .idle) (main call jump rc : List Byte) (outSize : Word) :
    EndsWith
      (fun t => (s.newJob main call jump rc outSize).InProgress t ∨
        t.activity = .idle ∧ ∃ cause, (cause = .bcj2Truncated ∨ cause = .badRcInit ∧ s.params.checkRcByte0 = true) ∧
          (s.newJob main call jump rc outSize).Failed cause t)
      (exec (.bcj2Run main call jump rc outSize) s) := by
  by_cases hlen : rc.length < 5
  · rw [exec_bcj2Run_fails ha rfl (Bcj2Regs.start_truncated _ hlen)]
    exact .next (.inr ⟨ha, _, .inl rfl, rfl, rfl, rfl⟩)
  match rc, Nat.not_lt.mp hlen with
  | b0 :: b1 :: b2 :: b3 :: b4 :: rest, hfive =>
    by_cases hbad : s.params.checkRcByte0 = true ∧ b0 ≠ 0
    · obtain ⟨hcheck, hb0⟩ := hbad
      rw [exec_bcj2Run_fails ha rfl (hcheck ▸ Bcj2Regs.start_badRcInit hb0 (Nat.le_of_succ_le_succ hfive))]
      exact .next (.inr ⟨ha, _, .inr ⟨rfl, hcheck⟩, rfl, rfl, rfl⟩)
    · have hcheck (h : s.params.checkRcByte0 = true) : b0 = 0 := not_not.mp fun hb0 => hbad ⟨h, hb0⟩
      rw [exec_bcj2Run_begins ha (Bcj2Regs.start_ok hcheck b1 b2 b3 b4 rest)]
      exact .next (.inl ⟨⟨_, _, rfl⟩, ⟨Nat.zero_le _, Nat.zero_le _, Nat.zero_le _, hfive⟩, rfl⟩)

/-- Settles O43: the command fails at once, or begins a run that keeps its positions within the streams and its output
undelivered until its last step. -/
theorem bcj2RunDeliversAllOrNothing : Obligations.Bcj2RunDeliversAllOrNothing := by
  unfold Obligations.Bcj2RunDeliversAllOrNothing
  intro s s' t main call jump rc outSize hinv ha hexec ht
  have hinv' : s'.Inv := execBcj2Run_inv hinv main call jump rc outSize s' hexec
  obtain hrun | ⟨hidle, cause, hcause, hfailed⟩ := exec_bcj2Run_cases ha main call jump rc outSize s' hexec
  · obtain ⟨-, hdelivered | hfailed⟩ := hrun.ended hinv' ht
    · exact .inl hdelivered
    · exact .inr ⟨_, .inl rfl, hfailed⟩
  · obtain ⟨-, k, hk⟩ := ht
    rw [runCommand_idle hidle] at hk
    cases hk
    exact .inr ⟨cause, hcause, hfailed⟩

end Sys2Proof.Machine
end

section
/-! PROOF. The host's commands (49_host_commands.md R430 to R440). A command runs in an idle block with the host's buffer
emptied and waits in a busy one. What each step of a configure command answers is said once, and so the state it ends in,
the stream at its start or the block cleared; a BCJ2 run is followed through its tokens to the registers it leaves alone. -/

namespace Sys2Proof

/-! ## Byte order -/

theorem append_byte_toNat {n : Nat} (x : BitVec n) (b : Byte) : (x ++ b).toNat = x.toNat * 2 ^ 8 + b.toNat := by
  rw [BitVec.toNat_append, ← Nat.shiftLeft_add_eq_or_of_lt b.isLt, Nat.shiftLeft_eq]

theorem le32_toNat (b0 b1 b2 b3 : Byte) :
    (le32 b0 b1 b2 b3).toNat = b0.toNat + b1.toNat * 2 ^ 8 + b2.toNat * 2 ^ 16 + b3.toNat * 2 ^ 24 := by
  simp only [le32, append_byte_toNat]
  omega

theorem le64_toNat (b0 b1 b2 b3 b4 b5 b6 b7 : Byte) :
    (le64 b0 b1 b2 b3 b4 b5 b6 b7).toNat = b0.toNat + b1.toNat * 2 ^ 8 + b2.toNat * 2 ^ 16 + b3.toNat * 2 ^ 24 +
      b4.toNat * 2 ^ 32 + b5.toNat * 2 ^ 40 + b6.toNat * 2 ^ 48 + b7.toNat * 2 ^ 56 := by
  simp only [le64, append_byte_toNat]
  omega

end Sys2Proof

namespace Sys2Proof.Machine

variable {s t : State} {j : Bcj2Job} {v q : Byte} {p : LcLpPb} {size : Word} {n : U64} {props : List Byte}
  {h : Vector Byte 13}

/-! ## Accepting a command -/

/-- The block once it has accepted a command: the host's buffer is emptied (log entry 25). -/
def State.accepted (s : State) : State := { s with host := { s.host with out := [] } }

theorem State.accept_busy (ha : s.activity ≠ .idle) (cmd : HostCmd)
    (run : State → Host.Outcome State Fault Refusal) :
    s.accept cmd run = .next { s with host := { s.host with cmds := s.host.cmds ++ [cmd] } } := by
  cases hact : s.activity with
  | idle => exact absurd hact ha
  | decoding c => rw [State.accept, hact]
  | merging j => rw [State.accept, hact]

/-- The return of a command that is answered at once. -/
theorem State.returns_idle (ha : s.activity = .idle) (st : Status) (ca : Option Cause) (k : Consumed) (m : Nat) :
    s.returns st ca k m =
      { s with host := { s.host with ret := some { status := st, cause := ca, consumed := k, produced := m } } } := by
  rw [State.returns, ← ha]

/-- Every command is accepted before it runs (R430). -/
theorem exec_toInstr (cmd : HostCmd) (s : State) : ∃ run, exec cmd.toInstr s = s.accept cmd run := by
  cases cmd <;>
    simp only [HostCmd.toInstr, exec, execReset, execConfigLzma1Raw, execConfigLzma1Alone, execConfigLzma2, execDecode,
      execBcj2Run] <;>
    exact ⟨_, rfl⟩

/-- Settles O45: a busy block accepts no command. -/
theorem busyBlockLetsCommandsWait : Obligations.BusyBlockLetsCommandsWait := by
  unfold Obligations.BusyBlockLetsCommandsWait
  intro s cmd ha
  obtain ⟨run, hrun⟩ := exec_toInstr cmd s
  rw [hrun, State.accept_busy ha]

/-- Settles O46: the accepted command clears the block and returns. -/
theorem resetCommandIsPowerOn : Obligations.ResetCommandIsPowerOn := by
  unfold Obligations.ResetCommandIsPowerOn
  intro s ha
  rw [exec, execReset, State.accept_idle ha]
  rfl

/-- Settles O52: by the mode, then by the latch. -/
theorem decodeBeginsOrIsAnsweredAtOnce : Obligations.DecodeBeginsOrIsAnsweredAtOnce := by
  unfold Obligations.DecodeBeginsOrIsAnsweredAtOnce
  intro s input outSpace ha
  rw [exec, execDecode, State.accept_idle ha]
  refine ⟨fun hmode hlatch => ?_, fun hmode => ?_, fun hmode hlatch => ?_⟩
  · rw [if_neg hmode, if_neg (Bool.eq_false_iff.mp hlatch)]
    rfl
  · rw [if_pos hmode]
    exact congrArg Host.Outcome.next (State.returns_idle (s := s.accepted) ha _ _ _ _)
  · rw [if_neg hmode, if_pos hlatch]
    exact congrArg Host.Outcome.next (State.returns_idle (s := s.accepted) ha _ _ _ _)

/-! ## The steps of a configure command -/

/-- A configure command that succeeds in an idle block writes its return beside what its steps wrote. -/
theorem configured_ok (ht : t.activity = .idle) : configured s (.ok t) = .next { t with
    host := { t.host with ret := some { status := .ok, cause := none, consumed := .bytes 0, produced := 0 } } } :=
  congrArg _ (State.returns_idle ht _ _ _ _)

theorem configProps_ok (hp : decodeProps v = some p) : configProps v = .ok p := by
  rw [configProps, hp]

theorem configProps_error (hv : 224 < v.toNat) : configProps v = .error .badProps := by
  rw [configProps, decodeProps_eq_none hv]

/-- A legal properties byte is read, whatever it says. -/
theorem configProps_legal (hv : v.toNat ≤ 224) : ∃ p, configProps v = .ok p := by
  obtain ⟨p, hp, -⟩ := decodeProps_eq_some hv
  exact ⟨p, configProps_ok hp⟩

theorem Dict.configure_eq (d : Dict) (size : Word) :
    d.configure size = { cap := BitVec.ofNat 32 (max size.toNat 4096), writePos := 0, totalWritten := 0, ram := [] } := by
  have hcap : (if size.toNat < Config.dictMin.toNat then Config.dictMin else size) =
      BitVec.ofNat 32 (max size.toNat 4096) := by
    have hmin : Config.dictMin.toNat = 4096 := rfl
    rw [hmin]
    split
    next hlt => rw [Nat.max_eq_right hlt.le]; rfl
    next hge => rw [Nat.max_eq_left (Nat.not_lt.mp hge), BitVec.ofNat_toNat, BitVec.setWidth_eq]
  rw [Dict.configure, hcap]
  rfl

/-- The block with a dictionary of a size the parameter allows (R436). -/
def State.withDict (s : State) (size : Word) : State :=
  { s with
    dict := { cap := BitVec.ofNat 32 (max size.toNat 4096), writePos := 0, totalWritten := 0, ram := [] }
    cfg := { s.cfg with dictSize := size } }

theorem State.configureDict_ok (hle : size.toNat ≤ s.params.dictMax.toNat) :
    s.configureDict size = .ok (s.withDict size) := by
  rw [State.configureDict, if_neg (BitVec.not_lt.mpr hle), Dict.configure_eq]
  rfl

theorem State.configureDict_error (hlt : s.params.dictMax.toNat < size.toNat) :
    s.configureDict size = .error .dictTooLarge :=
  if_pos hlt

/-! ## `ConfigLzma1Raw` -/

theorem exec_configLzma1Raw (ha : s.activity = .idle) (props : List Byte) (n : U64) :
    exec (.configLzma1Raw props n) s = configured s.accepted (s.accepted.configRaw props n) := by
  rw [exec, execConfigLzma1Raw, State.accept_idle ha, State.accepted]

theorem State.configRaw_length (hlen : props.length ≠ 5) : s.configRaw props n = .error .badProps := by
  unfold State.configRaw
  split
  next => exact absurd rfl hlen
  next => rfl

theorem State.configRaw_badProps (hv : configProps v = .error .badProps) (d0 d1 d2 d3 : Byte) :
    s.configRaw [v, d0, d1, d2, d3] n = .error .badProps := by
  rw [State.configRaw, hv]
  rfl

/-- After a legal properties byte the dictionary is configured, then the stream is opened. -/
theorem State.configRaw_legal (hp : configProps v = .ok p) (d0 d1 d2 d3 : Byte) :
    s.configRaw [v, d0, d1, d2, d3] n =
      s.configureDict (le32 d0 d1 d2 d3) >>= fun s1 => .ok (s1.openLzma1 p n) := by
  rw [State.configRaw, hp]
  rfl

/-- Settles O48: the properties, the size and the stream are accepted in turn. -/
theorem configRawStartsAnLzma1Stream : Obligations.ConfigRawStartsAnLzma1Stream := by
  unfold Obligations.ConfigRawStartsAnLzma1Stream
  intro s v d0 d1 d2 d3 n p size ha hp hsize hle
  obtain rfl : le32 d0 d1 d2 d3 = size := BitVec.eq_of_toNat_eq ((le32_toNat d0 d1 d2 d3).trans hsize.symm)
  rw [exec_configLzma1Raw ha, State.configRaw_legal (configProps_ok hp), State.configureDict_ok (s := s.accepted) hle]
  exact configured_ok (t := (s.accepted.withDict _).openLzma1 p n) ha

/-! ## `ConfigLzma1Alone` -/

/-- The dictionary size in a `.lzma` header. -/
def headerDictSize (h : Vector Byte 13) : Word := le32 h[1] h[2] h[3] h[4]

theorem headerDictSize_toNat (h : Vector Byte 13) : (headerDictSize h).toNat =
    h[1].toNat + h[2].toNat * 2 ^ 8 + h[3].toNat * 2 ^ 16 + h[4].toNat * 2 ^ 24 :=
  le32_toNat _ _ _ _

/-- The unpack size in a `.lzma` header. -/
def headerUnpackSize (h : Vector Byte 13) : U64 := le64 h[5] h[6] h[7] h[8] h[9] h[10] h[11] h[12]

theorem exec_configLzma1Alone (ha : s.activity = .idle) (h : Vector Byte 13) :
    exec (.configLzma1Alone h) s = configured s.accepted (s.accepted.configAlone h) := by
  rw [exec, execConfigLzma1Alone, State.accept_idle ha, State.accepted]

theorem State.configAlone_badProps (hv : configProps h[0] = .error .badProps) : s.configAlone h = .error .badProps := by
  rw [State.configAlone, hv]
  rfl

/-- After a legal properties byte the dictionary is configured, then a stream of a known size is opened. -/
theorem State.configAlone_legal (hp : configProps h[0] = .ok p) :
    s.configAlone h = s.configureDict (headerDictSize h) >>= fun s1 =>
      if headerUnpackSize h = 0xFFFFFFFFFFFFFFFF then .error .unknownSize
      else .ok (s1.openLzma1 p (headerUnpackSize h)) := by
  rw [State.configAlone, hp]
  rfl

/-- Settles O49: the properties, the two sizes and the stream are accepted in turn. -/
theorem configAloneStartsAnLzma1Stream : Obligations.ConfigAloneStartsAnLzma1Stream := by
  unfold Obligations.ConfigAloneStartsAnLzma1Stream
  intro s h n p size ha hp hsize hn hle hknown
  obtain rfl : headerDictSize h = size := BitVec.eq_of_toNat_eq ((headerDictSize_toNat h).trans hsize.symm)
  obtain rfl : headerUnpackSize h = n := BitVec.eq_of_toNat_eq ((le64_toNat _ _ _ _ _ _ _ _).trans hn.symm)
  rw [exec_configLzma1Alone ha, State.configAlone_legal (configProps_ok hp),
    State.configureDict_ok (s := s.accepted) hle]
  simp only [if_neg hknown]
  exact configured_ok (t := (s.accepted.withDict _).openLzma1 p (headerUnpackSize h)) ha

/-! ## `ConfigLzma2` -/

theorem exec_configLzma2 (ha : s.activity = .idle) (q : Byte) :
    exec (.configLzma2 q) s = configured s.accepted (s.accepted.configLzma2 q) := by
  rw [exec, execConfigLzma2, State.accept_idle ha, State.accepted]

theorem State.configLzma2_badProps (hq : 40 < q.toNat) : s.configLzma2 q = .error .badProps := by
  rw [State.configLzma2, decodeDictProp, if_pos hq]

theorem State.configLzma2_legal (hq : decodeDictProp q = some size) :
    s.configLzma2 q = s.configureDict size >>= fun s1 =>
      .ok { s1 with cfg := { s1.cfg with lzma2DictProp := q } }.startLzma2 := by
  rw [State.configLzma2, hq]

/-- Settles O50: the size and the stream are accepted in turn. -/
theorem configLzma2StartsAnLzma2Stream : Obligations.ConfigLzma2StartsAnLzma2Stream := by
  unfold Obligations.ConfigLzma2StartsAnLzma2Stream
  intro s q size ha hq hle
  rw [exec_configLzma2 ha, State.configLzma2_legal hq, State.configureDict_ok (s := s.accepted) hle]
  exact configured_ok ha

/-! ## Failed configure commands -/

theorem headerUnpackSize_unknown (hFF : ∀ k : Fin 8, h[5 + k.val] = 0xFF) :
    headerUnpackSize h = 0xFFFFFFFFFFFFFFFF := by
  rw [headerUnpackSize, show h[5] = 0xFF from hFF 0, show h[6] = 0xFF from hFF 1, show h[7] = 0xFF from hFF 2,
    show h[8] = 0xFF from hFF 3, show h[9] = 0xFF from hFF 4, show h[10] = 0xFF from hFF 5,
    show h[11] = 0xFF from hFF 6, show h[12] = 0xFF from hFF 7]
  rfl

/-- Settles O51: each step that can fail, in the order of the checks. -/
theorem failedConfigureLeavesTheBlockUnconfigured : Obligations.FailedConfigureLeavesTheBlockUnconfigured := by
  unfold Obligations.FailedConfigureLeavesTheBlockUnconfigured
  intro s failed ha hfailed
  have hfails (c : Cause) : configured s.accepted (.error c) = .next (failed c.status c) :=
    congrArg _ (hfailed c.status c).symm
  have hlarge {size : Word} (hlt : s.params.dictMax.toNat < size.toNat) :
      s.accepted.configureDict size = .error .dictTooLarge := State.configureDict_error hlt
  refine ⟨fun props n hlen => ?_, fun v d0 d1 d2 d3 n hv => ?_, fun v d0 d1 d2 d3 n hv hlt => ?_, fun h hv => ?_,
    fun h hv hlt => ?_, fun h hv hle hFF => ?_, fun q hq => ?_, fun q size hq hlt => ?_⟩
  · rw [exec_configLzma1Raw ha, State.configRaw_length hlen]
    exact hfails .badProps
  · rw [exec_configLzma1Raw ha, State.configRaw_badProps (configProps_error hv)]
    exact hfails .badProps
  · obtain ⟨p, hp⟩ := configProps_legal hv
    rw [exec_configLzma1Raw ha, State.configRaw_legal hp, hlarge (le32_toNat d0 d1 d2 d3 ▸ hlt)]
    exact hfails .dictTooLarge
  · rw [exec_configLzma1Alone ha, State.configAlone_badProps (configProps_error hv)]
    exact hfails .badProps
  · obtain ⟨p, hp⟩ := configProps_legal hv
    rw [exec_configLzma1Alone ha, State.configAlone_legal hp, hlarge (headerDictSize_toNat h ▸ hlt)]
    exact hfails .dictTooLarge
  · obtain ⟨p, hp⟩ := configProps_legal hv
    have hsize : (headerDictSize h).toNat ≤ s.params.dictMax.toNat := (headerDictSize_toNat h).trans_le hle
    rw [exec_configLzma1Alone ha, State.configAlone_legal hp, State.configureDict_ok (s := s.accepted) hsize,
      headerUnpackSize_unknown hFF]
    exact hfails .unknownSize
  · rw [exec_configLzma2 ha, State.configLzma2_badProps hq]
    exact hfails .badProps
  · rw [exec_configLzma2 ha, State.configLzma2_legal hq, hlarge hlt]
    exact hfails .dictTooLarge

/-! ## A BCJ2 run beside the LZMA engine -/

/-- From `s` to `t` no register of the LZMA engine changes, no parameter, and no command that waits (R440). -/
structure State.EngineKept (s t : State) : Prop where
  ctl : t.ctl = s.ctl
  cfg : t.cfg = s.cfg
  lzma : t.lzma = s.lzma
  dict : t.dict = s.dict
  framer : t.framer = s.framer
  params : t.params = s.params
  cmds : t.host.cmds = s.host.cmds

/-- What a run may write: the unit, the command in progress, the return and the bytes delivered. -/
theorem State.engineKept_run (s : State) (act : Activity) (bcj : Bcj2Regs) (ret : Option Return) (out : List Byte) :
    s.EngineKept { s with activity := act, bcj := bcj, host := { s.host with ret := ret, out := out } } :=
  ⟨rfl, rfl, rfl, rfl, rfl, rfl, rfl⟩

theorem takeRaise_engineKept (ha : s.activity = .merging j) (r : Raise) : EndsWith s.EngineKept (takeRaise s r) := by
  rw [takeRaise_merging ha]
  exact .next (s.engineKept_run _ _ _ _)

theorem deliver_engineKept (ha : s.activity = .merging j) {r : Except Stop State} (hr : Answers s.EngineKept r) :
    EndsWith s.EngineKept (deliver s r) := by
  match r with
  | .ok t => exact .next (hr t rfl)
  | .error (.raise e) => exact takeRaise_engineKept ha e
  | .error (.fault f) => rintro _ ⟨⟩

/-- However a branch token goes on, it writes the run and the unit only. -/
theorem branchToken_engineKept (op : Byte) (cell : Nat) (ts : TargetStream) :
    Answers s.EngineKept (branchToken op cell ts s) := by
  refine .bind fun j _ => ?_
  dsimp only
  split
  · exact .ok (s.engineKept_run _ _ _ _)
  · refine .bind fun ⟨bit, r⟩ _ => ?_
    cases bit with
    | false => exact .ok (s.engineKept_run _ _ _ _)
    | true => exact .bind fun _ _ => .ok (s.engineKept_run _ _ _ _)

theorem exec_token_engineKept (ha : s.activity = .merging j) (b : Byte) :
    EndsWith s.EngineKept (exec (decodePair j.prev b) s) := by
  obtain ⟨op, cell, ts, hi⟩ | hi := decodePair_cases j.prev b
  · rw [exec_branch hi]
    exact deliver_engineKept ha (branchToken_engineKept op cell ts)
  · rw [hi, plainTokenCopiesItsByte s j j.prev b ha]
    exact .next (s.engineKept_run _ _ _ _)

theorem stepMerge_engineKept (ha : s.activity = .merging j) : EndsWith s.EngineKept (stepMerge s j) := by
  unfold stepMerge
  split
  · exact .next (s.engineKept_run _ _ _ _)
  · split
    · exact takeRaise_engineKept ha _
    · exact exec_token_engineKept ha _

theorem exec_bcj2Run_engineKept (ha : s.activity = .idle) (main call jump rc : List Byte) (outSize : Word) :
    EndsWith s.EngineKept (exec (.bcj2Run main call jump rc outSize) s) := by
  cases hr : Bcj2Regs.start s.params.checkRcByte0 rc outSize with
  | ok r =>
    rw [exec_bcj2Run_begins ha hr]
    exact .next (s.engineKept_run _ _ _ _)
  | error e =>
    rw [exec, execBcj2Run, State.accept_idle ha]
    dsimp only
    rw [hr]
    cases e with
    | raise r => exact .next (s.engineKept_run _ _ _ _)
    | fault f => rintro _ ⟨⟩

/-- Settles O44: the run is kept in the activity and the unit, and each step writes those and the host's port only. -/
theorem bcj2RunLeavesTheEngineAlone : Obligations.Bcj2RunLeavesTheEngineAlone := by
  unfold Obligations.Bcj2RunLeavesTheEngineAlone
  refine ⟨fun s t main call jump rc outSize ha ht => ?_, fun s t j ha ht => ?_⟩
  · obtain ⟨hctl, hcfg, hlzma, hdict, hframer, hparams, -⟩ :=
      exec_bcj2Run_engineKept ha main call jump rc outSize t ht
    exact ⟨hctl, hcfg, hlzma, hdict, hframer, hparams⟩
  · rw [step_merging ha] at ht
    obtain ⟨hctl, hcfg, hlzma, hdict, hframer, hparams, hcmds⟩ := stepMerge_engineKept ha t ht
    exact ⟨hctl, hcfg, hlzma, hdict, hframer, hparams, hcmds⟩

end Sys2Proof.Machine
end

section
/-! PROOF. The end of a call that an event ends (60_exceptions.md R464, R471): the transaction that raised it leaves the
state it began in. -/

namespace Sys2Proof.Machine

/-- Settles O53: a step of a call goes on, ends it with an event that leaves the state before, or finishes the stream; the
call has ended, and not with `Finished`. -/
theorem failedTransactionLeavesNoTrace : Obligations.FailedTransactionLeavesNoTrace := by
  unfold Obligations.FailedTransactionLeavesNoTrace
  intro s t c hinv ha hstep hidle hunfinished
  obtain (⟨t', e, c', ha', -⟩ | ⟨r, e⟩) | ⟨l, e⟩ := step_decoding hinv ha <;> rw [hstep] at e <;> cases e
  · rw [ha'] at hidle
    cases hidle
  · exact ⟨r, rfl⟩
  · exact absurd rfl hunfinished

end Sys2Proof.Machine
end

section
/-! PROOF. No step of a well-kept block is a fault (93_implementation_defined.md U3, U5, U6). A command in progress was
shown to go on or to end; that leaves the idle block, where each command of the host is said once to have a next state. -/

namespace Sys2Proof.Machine

variable {s : State}

/-- A configure command ends in the opened stream or in the cleared block. -/
theorem configured_next (s : State) (r : Except Cause State) : ∃ t, configured s r = .next t := by
  cases r with
  | ok t => exact ⟨t.returnsOk, rfl⟩
  | error c => exact ⟨s.fails c, rfl⟩

/-- A `Decode` call is refused, answered with the latched status, or begun. -/
theorem exec_decode_next (ha : s.activity = .idle) (input : List Byte) (outSpace : Nat) :
    ∃ t, exec (.decode input outSpace) s = .next t := by
  obtain ⟨hbegins, hrefused, hlatched⟩ := decodeBeginsOrIsAnsweredAtOnce s input outSpace ha
  by_cases hmode : s.ctl.mode = .unconfigured
  · exact ⟨_, hrefused hmode⟩
  · cases hlatch : s.ctl.errorLatched with
    | false => exact ⟨_, hbegins hmode hlatch⟩
    | true => exact ⟨_, hlatched hmode hlatch⟩

theorem Bcj2Regs.start_settles (check : Bool) (rc : List Byte) (outSize : Word) :
    Settles (fun _ => True) (Bcj2Regs.start check rc outSize) := by
  unfold Bcj2Regs.start
  obtain ⟨rc', hrc, -⟩ | ⟨r, hrc⟩ := rcInit_cases check .bcj2 rc <;> rw [hrc] <;> trivial

/-- A BCJ2 run begins once its range decoder is initialised; an event of that initialisation ends it. -/
theorem exec_bcj2Run_next (ha : s.activity = .idle) (main call jump rc : List Byte) (outSize : Word) :
    ∃ t, exec (.bcj2Run main call jump rc outSize) s = .next t := by
  have hsettles := Bcj2Regs.start_settles s.params.checkRcByte0 rc outSize
  match hstart : Bcj2Regs.start s.params.checkRcByte0 rc outSize with
  | .ok r => exact ⟨_, exec_bcj2Run_begins ha hstart⟩
  | .error (.fault f) =>
    rw [hstart] at hsettles
    exact hsettles.elim
  | .error (.raise r) =>
    rw [exec, execBcj2Run, State.accept_idle ha]
    dsimp only
    rw [hstart, Except.map, deliver_raise, takeRaise_merging rfl]
    exact ⟨_, rfl⟩

theorem exec_command_next (ha : s.activity = .idle) (cmd : HostCmd) : ∃ t, exec cmd.toInstr s = .next t := by
  cases cmd with
  | reset => exact ⟨_, resetCommandIsPowerOn s ha⟩
  | configLzma1Raw props size => exact exec_configLzma1Raw ha props size ▸ configured_next _ _
  | configLzma1Alone header => exact exec_configLzma1Alone ha header ▸ configured_next _ _
  | configLzma2 q => exact exec_configLzma2 ha q ▸ configured_next _ _
  | decode input outSpace => exact exec_decode_next ha input outSpace
  | bcj2Run main call jump rc outSize => exact exec_bcj2Run_next ha main call jump rc outSize

/-- An idle block stays as it is, or begins the next command. -/
theorem stepIdle_next (ha : s.activity = .idle) : ∃ t, stepIdle s = .next t := by
  unfold stepIdle
  split
  next => exact ⟨s, rfl⟩
  next cmd rest _ => exact exec_command_next (s := { s with host := { s.host with cmds := rest } }) ha cmd

/-- Settles O58: an idle block waits or begins a command, and the invariant lets a command in progress go on or end. -/
theorem wellKeptStateNeverFaults : Obligations.WellKeptStateNeverFaults := by
  unfold Obligations.WellKeptStateNeverFaults
  intro s h
  by_cases ha : s.activity = .idle
  · rw [step_idle ha]
    exact stepIdle_next ha
  · obtain ⟨t, ht, -⟩ := step_ends_or_lt h ha
    exact ⟨t, ht⟩

end Sys2Proof.Machine
end
